-- ==== Sys2Proof/Word.lean ====
section
/-! DEFINITION. The two word types of CORE (00_scope.md R6, R8): the bus moves 8-bit bytes, addresses and the long
registers are 16-bit words. Everything computed from them stands in Machine/Bits.lean. -/

namespace Sys2Proof

/-- One byte: the width of the bus, of A, B, DP and CC (00_scope.md R6). -/
abbrev Byte := BitVec 8

/-- One 16-bit word: an address, or a register X, Y, U, S, PC, D (00_scope.md R6). -/
abbrev Word := BitVec 16

end Sys2Proof
end

