-- ==== Sys2Proof/Machine/Bits.lean ====
section
/-! DEFINITION. Bit slices, concatenation and extension, as 00_scope.md R8 names them, and the big-endian byte order
of 20_memory.md R71. -/

namespace Sys2Proof.Machine

/-- `hi(w)` is `w[15:8]` (00_scope.md R8). -/
def hi (w : Word) : Byte := w.extractLsb' 8 8

/-- `lo(w)` is `w[7:0]` (00_scope.md R8). -/
def lo (w : Word) : Byte := w.extractLsb' 0 8

/-- The word with high byte `h` and low byte `l` (00_scope.md R8, `h` in the more significant position). -/
def cat (h l : Byte) : Word := h ++ l

/-- `sext_16` of a byte (00_scope.md R8). -/
def sext8 (b : Byte) : Word := b.signExtend 16

/-- `sext_16` of a 5-bit offset (40_addressing_modes.md R146). -/
def sext5 (n : BitVec 5) : Word := n.signExtend 16

/-- `zext_16` of a byte (00_scope.md R8). -/
def zext8 (b : Byte) : Word := b.setWidth 16

/-- A flag as a number of width `w`: 1 for true. -/
def carryIn (w : Nat) (c : Bool) : BitVec w := if c then 1 else 0

/-- `page(a) = a[15:8]`, as a table index (20_memory.md R61). -/
def pageOf (a : Word) : Nat := (hi a).toNat

/-- `offset(a) = a[7:0]`, as a distance from a base location (20_memory.md R61). -/
def offOf (a : Word) : Nat := (lo a).toNat

end Sys2Proof.Machine
end

