-- ==== Sys2Proof/Syntax.lean ====
section
/-! DEFINITION. The instructions of CORE as syntax: one constructor of `Instr` per mnemonic of spec/opcode_table.json.
Where a mnemonic has several rows (IMM8/IMM16, DIR, IDX, EXT) the constructor's operand says which row it is, so that
constructor and operand form together name one row of the table (30_encoding.md R106, R108 to R110). -/

namespace Sys2Proof

/-- The base registers `IR[rr]` of the indexed mode (40_addressing_modes.md R146). -/
inductive IxReg where
  | x | y | u | s
deriving DecidableEq, Repr

/-- The legal indexed operands (40_addressing_modes.md R146, R147). `ind` is the extra indirection of bit 4. The
sub-modes that have no indirect variant, and the one that has only it, carry no such flag: the 39 illegal post-bytes
(R148) have no term. -/
inductive Idx where
  /-- `n,R` with a 5-bit offset. -/
  | off5 (r : IxReg) (n : BitVec 5)
  /-- `,R+`. -/
  | inc1 (r : IxReg)
  /-- `,R++`. -/
  | inc2 (r : IxReg) (ind : Bool)
  /-- `,-R`. -/
  | dec1 (r : IxReg)
  /-- `,--R`. -/
  | dec2 (r : IxReg) (ind : Bool)
  /-- `,R`. -/
  | zero (r : IxReg) (ind : Bool)
  /-- `B,R`. -/
  | accB (r : IxReg) (ind : Bool)
  /-- `A,R`. -/
  | accA (r : IxReg) (ind : Bool)
  /-- `n,R` with an 8-bit offset. -/
  | off8 (r : IxReg) (n : Byte) (ind : Bool)
  /-- `n,R` with a 16-bit offset. -/
  | off16 (r : IxReg) (n : Word) (ind : Bool)
  /-- `D,R`. -/
  | accD (r : IxReg) (ind : Bool)
  /-- `n,PCR` with an 8-bit offset. -/
  | pcr8 (n : Byte) (ind : Bool)
  /-- `n,PCR` with a 16-bit offset. -/
  | pcr16 (n : Word) (ind : Bool)
  /-- `[n]`, extended indirect. -/
  | extInd (n : Word)
deriving DecidableEq, Repr

/-- A memory operand: DIR, EXT or IDX (30_encoding.md R106). -/
inductive Mem where
  | dir (dd : Byte)
  | ext (a : Word)
  | idx (x : Idx)
deriving DecidableEq, Repr

/-- The operand of an 8-bit operation: IMM8 or memory (42_alu8_binary.md R200). -/
inductive Src8 where
  | imm (b : Byte)
  | mem (m : Mem)
deriving DecidableEq, Repr

/-- The operand of a 16-bit operation: IMM16 or memory (43_alu16.md R240). -/
inductive Src16 where
  | imm (w : Word)
  | mem (m : Mem)
deriving DecidableEq, Repr

/-- The registers a transfer or exchange post-byte can name (45_stack_transfer.md R315). -/
inductive Reg where
  | d | x | y | u | s | pc | a | b | cc | dp
deriving DecidableEq, Repr

/-- The register list of PSHS, PULS, PSHU and PULU, one flag per bit of the post-byte (45_stack_transfer.md R312).
`other` is bit 6: U for the S instructions, S for the U instructions. -/
structure RegList where
  pc : Bool
  other : Bool
  y : Bool
  x : Bool
  dp : Bool
  b : Bool
  a : Bool
  cc : Bool
deriving DecidableEq, Repr

/-- The instructions, in the order of spec/opcode_table.json. -/
inductive Instr where
  | neg (m : Mem)
  | com (m : Mem)
  | lsr (m : Mem)
  | ror (m : Mem)
  | asr (m : Mem)
  | asl (m : Mem)
  | rol (m : Mem)
  | dec (m : Mem)
  | inc (m : Mem)
  | tst (m : Mem)
  | jmp (m : Mem)
  | clr (m : Mem)
  | nop
  | sync
  | lbra (n : Word)
  | lbsr (n : Word)
  | daa
  | orcc (b : Byte)
  | andcc (b : Byte)
  | sex
  | exg (r1 r2 : Reg)
  | tfr (r1 r2 : Reg)
  | bra (n : Byte)
  | brn (n : Byte)
  | bhi (n : Byte)
  | bls (n : Byte)
  | bcc (n : Byte)
  | bcs (n : Byte)
  | bne (n : Byte)
  | beq (n : Byte)
  | bvc (n : Byte)
  | bvs (n : Byte)
  | bpl (n : Byte)
  | bmi (n : Byte)
  | bge (n : Byte)
  | blt (n : Byte)
  | bgt (n : Byte)
  | ble (n : Byte)
  | leax (x : Idx)
  | leay (x : Idx)
  | leas (x : Idx)
  | leau (x : Idx)
  | pshs (l : RegList)
  | puls (l : RegList)
  | pshu (l : RegList)
  | pulu (l : RegList)
  | rts
  | abx
  | rti
  | cwai (b : Byte)
  | mul
  | swi
  | nega
  | coma
  | lsra
  | rora
  | asra
  | asla
  | rola
  | deca
  | inca
  | tsta
  | clra
  | negb
  | comb
  | lsrb
  | rorb
  | asrb
  | aslb
  | rolb
  | decb
  | incb
  | tstb
  | clrb
  | suba (o : Src8)
  | cmpa (o : Src8)
  | sbca (o : Src8)
  | subd (o : Src16)
  | anda (o : Src8)
  | bita (o : Src8)
  | lda (o : Src8)
  | eora (o : Src8)
  | adca (o : Src8)
  | ora (o : Src8)
  | adda (o : Src8)
  | cmpx (o : Src16)
  | bsr (n : Byte)
  | ldx (o : Src16)
  | sta (m : Mem)
  | jsr (m : Mem)
  | stx (m : Mem)
  | subb (o : Src8)
  | cmpb (o : Src8)
  | sbcb (o : Src8)
  | addd (o : Src16)
  | andb (o : Src8)
  | bitb (o : Src8)
  | ldb (o : Src8)
  | eorb (o : Src8)
  | adcb (o : Src8)
  | orb (o : Src8)
  | addb (o : Src8)
  | ldd (o : Src16)
  | ldu (o : Src16)
  | stb (m : Mem)
  | std (m : Mem)
  | stu (m : Mem)
  | lbrn (n : Word)
  | lbhi (n : Word)
  | lbls (n : Word)
  | lbcc (n : Word)
  | lbcs (n : Word)
  | lbne (n : Word)
  | lbeq (n : Word)
  | lbvc (n : Word)
  | lbvs (n : Word)
  | lbpl (n : Word)
  | lbmi (n : Word)
  | lbge (n : Word)
  | lblt (n : Word)
  | lbgt (n : Word)
  | lble (n : Word)
  | swi2
  | cmpd (o : Src16)
  | cmpy (o : Src16)
  | ldy (o : Src16)
  | sty (m : Mem)
  | lds (o : Src16)
  | sts (m : Mem)
  | swi3
  | cmpu (o : Src16)
  | cmps (o : Src16)
deriving DecidableEq, Repr

end Sys2Proof
end

