-- ==== Sys2Proof/WellFormed.lean ====
section
/-! DEFINITION. Which instructions are well formed. Every operand type but one holds legal values only (the indexed
operands by the shape of `Idx`, the register lists because all 256 are legal, 45_stack_transfer.md R312). The one
check left is that of TFR and EXG: the two registers have one width (45_stack_transfer.md R315). -/

namespace Sys2Proof

/-- The width row of 45_stack_transfer.md R315: codes 0 to 5 name 16-bit registers, 8 to 0xB 8-bit ones. -/
def Reg.is16 : Reg → Bool
  | .d | .x | .y | .u | .s | .pc => true
  | .a | .b | .cc | .dp => false

/-- `CheckPair` on two named registers: both 16 bits or both 8 bits (45_stack_transfer.md R315). -/
def sameWidth (r1 r2 : Reg) : Bool := r1.is16 == r2.is16

/-- An instruction that some byte sequence decodes to. -/
def Instr.wf : Instr → Bool
  | .tfr r1 r2 => sameWidth r1 r2
  | .exg r1 r2 => sameWidth r1 r2
  | _ => true

end Sys2Proof
end

