-- ==== Sys2Proof/Decode.lean ====
section
/-! DEFINITION. The decoder and the encoder. Decoding is total on byte lists: it answers the instruction and the bytes
left over, or that more bytes are needed, or the kind of illegal encoding it met (30_encoding.md R111, R112). It looks
at no byte beyond the one that settles the answer, so the step can feed it the instruction stream byte by byte in the
order of 60_exceptions.md R384. Every opcode number stands once, in the tables of 30_encoding.md R108 to R110; the
encoder has its own copy, `Instr.opNum`. -/

namespace Sys2Proof

open Sys2Proof.Machine

/-- The three kinds of illegal encoding (30_encoding.md R111, R112). -/
inductive Reject where
  /-- An opcode value with no row in the table of its page (30_encoding.md R111). -/
  | noOpcode
  /-- One of the 39 indexed post-bytes of 40_addressing_modes.md R148. -/
  | noSubMode
  /-- One of the 204 transfer and exchange post-bytes of 45_stack_transfer.md R315. -/
  | noRegisterPair
deriving DecidableEq, Repr

/-- What reading a value from the front of a byte list can answer. -/
inductive Parsed (α : Type) where
  /-- The bytes are a proper beginning: the next byte of the stream is needed. -/
  | more
  /-- The value, and the bytes after it. -/
  | ok (v : α) (rest : List Byte)
  /-- The bytes read so far are illegal, whatever follows. -/
  | bad (r : Reject)
deriving DecidableEq, Repr

/-- Apply a function to the value read. -/
def Parsed.map {α β : Type} (f : α → β) : Parsed α → Parsed β
  | .more => .more
  | .ok v rest => .ok (f v) rest
  | .bad r => .bad r

/-- One byte of the stream. -/
def take8 : List Byte → Parsed Byte
  | [] => .more
  | b :: rest => .ok b rest

/-- Two bytes of the stream, the high byte first (30_encoding.md R107). -/
def take16 : List Byte → Parsed Word
  | [] => .more
  | [_] => .more
  | h :: l :: rest => .ok (cat h l) rest

/-- The base register code `rr` of the indexed post-byte (40_addressing_modes.md R146). -/
def ixRegOf (rr : Nat) : IxReg :=
  match rr with
  | 0 => .x
  | 1 => .y
  | 2 => .u
  | _ => .s

/-- The post-byte's form 1, with base `r`, indirection `ind` and sub-mode `m` (40_addressing_modes.md R147). `free`
says that the register bits are 00 or do not count (`P_EXTIND_RR_DONTCARE`), which only `[n]` looks at. -/
def takeSubMode (free : Bool) (r : IxReg) (ind : Bool) (m : Nat) (rest : List Byte) : Parsed Idx :=
  match m, ind with
  | 0x0, false => .ok (.inc1 r) rest
  | 0x1, _ => .ok (.inc2 r ind) rest
  | 0x2, false => .ok (.dec1 r) rest
  | 0x3, _ => .ok (.dec2 r ind) rest
  | 0x4, _ => .ok (.zero r ind) rest
  | 0x5, _ => .ok (.accB r ind) rest
  | 0x6, _ => .ok (.accA r ind) rest
  | 0x8, _ => (take8 rest).map fun n => .off8 r n ind
  | 0x9, _ => (take16 rest).map fun n => .off16 r n ind
  | 0xB, _ => .ok (.accD r ind) rest
  | 0xC, _ => (take8 rest).map fun n => .pcr8 n ind
  | 0xD, _ => (take16 rest).map fun n => .pcr16 n ind
  | 0xF, true => if free then (take16 rest).map .extInd else .bad .noSubMode
  | _, _ => .bad .noSubMode

/-- The indexed operand: post-byte and offset bytes (40_addressing_modes.md R146 to R148). `dc` is the parameter
`P_EXTIND_RR_DONTCARE` of 00_scope.md R7. -/
def takeIdx (dc : Bool) : List Byte → Parsed Idx
  | [] => .more
  | pb :: rest =>
    let rr := (pb.extractLsb' 5 2).toNat
    if pb.getLsbD 7 then
      takeSubMode (dc || rr == 0) (ixRegOf rr) (pb.getLsbD 4) (pb.extractLsb' 0 4).toNat rest
    else .ok (.off5 (ixRegOf rr) (pb.extractLsb' 0 5)) rest

/-- The push and pull post-byte as a register list (45_stack_transfer.md R312). -/
def regListOf (pb : Byte) : RegList :=
  ⟨pb.getLsbD 7, pb.getLsbD 6, pb.getLsbD 5, pb.getLsbD 4, pb.getLsbD 3, pb.getLsbD 2, pb.getLsbD 1, pb.getLsbD 0⟩

/-- The register codes of TFR and EXG (45_stack_transfer.md R315). -/
def regOf (code : Nat) : Option Reg :=
  match code with
  | 0x0 => some .d
  | 0x1 => some .x
  | 0x2 => some .y
  | 0x3 => some .u
  | 0x4 => some .s
  | 0x5 => some .pc
  | 0x8 => some .a
  | 0x9 => some .b
  | 0xA => some .cc
  | 0xB => some .dp
  | _ => none

/-- The transfer and exchange post-byte, with `CheckPair` of 45_stack_transfer.md R315. -/
def takePair (f : Reg → Reg → Instr) : List Byte → Parsed Instr
  | [] => .more
  | pb :: rest =>
    match regOf (pb.extractLsb' 4 4).toNat, regOf (pb.extractLsb' 0 4).toNat with
    | some r1, some r2 => if sameWidth r1 r2 then .ok (f r1 r2) rest else .bad .noRegisterPair
    | _, _ => .bad .noRegisterPair

/-- The nine formats of 30_encoding.md R106, with the instruction that the operand completes. -/
inductive Shape where
  | inh (i : Instr)
  | imm8 (f : Byte → Instr)
  | imm16 (f : Word → Instr)
  | dir (f : Byte → Instr)
  | ext (f : Word → Instr)
  | idx (f : Idx → Instr)
  | rel8 (f : Byte → Instr)
  | rel16 (f : Word → Instr)
  | list (f : RegList → Instr)
  | pair (f : Reg → Reg → Instr)

/-- Read the operand bytes of a format (30_encoding.md R106, R107). -/
def Shape.take (dc : Bool) : Shape → List Byte → Parsed Instr
  | .inh i, bs => .ok i bs
  | .imm8 f, bs => (take8 bs).map f
  | .imm16 f, bs => (take16 bs).map f
  | .dir f, bs => (take8 bs).map f
  | .ext f, bs => (take16 bs).map f
  | .idx f, bs => (takeIdx dc bs).map f
  | .rel8 f, bs => (take8 bs).map f
  | .rel16 f, bs => (take16 bs).map f
  | .list f, bs => (take8 bs).map fun pb => f (regListOf pb)
  | .pair f, bs => takePair f bs

/-- One row of the opcode map: the opcode byte and what it stands for. -/
abbrev Row := Nat × Shape

/-- The memory rows of a one-operand operation with low nibble `k`: DIR 0x00 + k, IDX 0x60 + k, EXT 0x70 + k
(41_alu8_unary.md R180). -/
def memRows (k : Nat) (f : Mem → Instr) : List Row :=
  [(0x00 + k, .dir fun d => f (.dir d)), (0x60 + k, .idx fun x => f (.idx x)), (0x70 + k, .ext fun a => f (.ext a))]

/-- The three rows of a store or of JSR: DIR, IDX, EXT, `k` being the DIR opcode (42_alu8_binary.md R208,
43_alu16.md R246, 44_control_flow.md R289). -/
def storeRows (k : Nat) (f : Mem → Instr) : List Row :=
  [(k, .dir fun d => f (.dir d)), (k + 0x10, .idx fun x => f (.idx x)), (k + 0x20, .ext fun a => f (.ext a))]

/-- The four rows of an 8-bit two-operand operation: IMM8, DIR, IDX, EXT (42_alu8_binary.md R200). -/
def src8Rows (k : Nat) (f : Src8 → Instr) : List Row :=
  (k, .imm8 fun b => f (.imm b)) :: storeRows (k + 0x10) fun m => f (.mem m)

/-- The four rows of a 16-bit two-operand operation: IMM16, DIR, IDX, EXT (43_alu16.md R240 to R245). -/
def src16Rows (k : Nat) (f : Src16 → Instr) : List Row :=
  (k, .imm16 fun w => f (.imm w)) :: storeRows (k + 0x10) fun m => f (.mem m)


/-- Opcode page 1, the memory forms of the one-operand operations and JMP (30_encoding.md R108). -/
def page1Unary : List Row :=
  memRows 0x00 .neg ++ memRows 0x03 .com ++ memRows 0x04 .lsr ++ memRows 0x06 .ror ++
  memRows 0x07 .asr ++ memRows 0x08 .asl ++ memRows 0x09 .rol ++ memRows 0x0A .dec ++ memRows 0x0C .inc ++
  memRows 0x0D .tst ++ memRows 0x0F .clr ++ memRows 0x0E .jmp

/-- Opcode page 1, the register forms of the one-operand operations (30_encoding.md R108). -/
def page1Accumulator : List Row :=
  [(0x40, .inh .nega), (0x50, .inh .negb),
   (0x43, .inh .coma), (0x53, .inh .comb),
   (0x44, .inh .lsra), (0x54, .inh .lsrb),
   (0x46, .inh .rora), (0x56, .inh .rorb),
   (0x47, .inh .asra), (0x57, .inh .asrb),
   (0x48, .inh .asla), (0x58, .inh .aslb),
   (0x49, .inh .rola), (0x59, .inh .rolb),
   (0x4A, .inh .deca), (0x5A, .inh .decb),
   (0x4C, .inh .inca), (0x5C, .inh .incb),
   (0x4D, .inh .tsta), (0x5D, .inh .tstb),
   (0x4F, .inh .clra), (0x5F, .inh .clrb)]

/-- Opcode page 1, the short branches, BSR, LBRA and LBSR (30_encoding.md R108). -/
def page1Branches : List Row :=
  [(0x20, .rel8 .bra),
   (0x21, .rel8 .brn),
   (0x22, .rel8 .bhi),
   (0x23, .rel8 .bls),
   (0x24, .rel8 .bcc),
   (0x25, .rel8 .bcs),
   (0x26, .rel8 .bne),
   (0x27, .rel8 .beq),
   (0x28, .rel8 .bvc),
   (0x29, .rel8 .bvs),
   (0x2A, .rel8 .bpl),
   (0x2B, .rel8 .bmi),
   (0x2C, .rel8 .bge),
   (0x2D, .rel8 .blt),
   (0x2E, .rel8 .bgt),
   (0x2F, .rel8 .ble),
   (0x8D, .rel8 .bsr), (0x16, .rel16 .lbra), (0x17, .rel16 .lbsr)]

/-- Opcode page 1, inherent, condition-code, LEA, stack and transfer rows (30_encoding.md R108). -/
def page1Misc : List Row :=
  [(0x12, .inh .nop), (0x13, .inh .sync), (0x19, .inh .daa), (0x1A, .imm8 .orcc), (0x1C, .imm8 .andcc),
   (0x1D, .inh .sex), (0x1E, .pair .exg), (0x1F, .pair .tfr),
   (0x30, .idx .leax), (0x31, .idx .leay), (0x32, .idx .leas), (0x33, .idx .leau),
   (0x34, .list .pshs), (0x35, .list .puls), (0x36, .list .pshu), (0x37, .list .pulu),
   (0x39, .inh .rts), (0x3A, .inh .abx), (0x3B, .inh .rti), (0x3C, .imm8 .cwai), (0x3D, .inh .mul), (0x3F, .inh .swi)]

/-- Opcode page 1, the 8-bit two-operand operations on A (30_encoding.md R108). -/
def page1OnA : List Row :=
  src8Rows 0x80 .suba ++ src8Rows 0x81 .cmpa ++ src8Rows 0x82 .sbca ++ src8Rows 0x84 .anda ++
  src8Rows 0x85 .bita ++ src8Rows 0x86 .lda ++ src8Rows 0x88 .eora ++ src8Rows 0x89 .adca ++
  src8Rows 0x8A .ora ++ src8Rows 0x8B .adda

/-- Opcode page 1, the 8-bit two-operand operations on B (30_encoding.md R108). -/
def page1OnB : List Row :=
  src8Rows 0xC0 .subb ++ src8Rows 0xC1 .cmpb ++ src8Rows 0xC2 .sbcb ++ src8Rows 0xC4 .andb ++
  src8Rows 0xC5 .bitb ++ src8Rows 0xC6 .ldb ++ src8Rows 0xC8 .eorb ++ src8Rows 0xC9 .adcb ++
  src8Rows 0xCA .orb ++ src8Rows 0xCB .addb

/-- Opcode page 1, the 16-bit two-operand operations, the stores and JSR (30_encoding.md R108). -/
def page1Wide : List Row :=
  src16Rows 0x83 .subd ++ src16Rows 0x8C .cmpx ++ src16Rows 0x8E .ldx ++ src16Rows 0xC3 .addd ++
  src16Rows 0xCC .ldd ++ src16Rows 0xCE .ldu ++ storeRows 0x97 .sta ++ storeRows 0xD7 .stb ++
  storeRows 0x9D .jsr ++ storeRows 0x9F .stx ++ storeRows 0xDD .std ++ storeRows 0xDF .stu

/-- Opcode page 1 (30_encoding.md R108): 221 rows. -/
def page1 : List Row :=
  page1Unary ++ page1Accumulator ++ page1Branches ++ page1Misc ++ page1OnA ++ page1OnB ++ page1Wide

/-- Opcode page 2, behind the prefix 0x10 (30_encoding.md R109): 38 rows. -/
def page2 : List Row :=
  [(0x21, .rel16 .lbrn), (0x22, .rel16 .lbhi), (0x23, .rel16 .lbls), (0x24, .rel16 .lbcc), (0x25, .rel16 .lbcs),
   (0x26, .rel16 .lbne), (0x27, .rel16 .lbeq), (0x28, .rel16 .lbvc), (0x29, .rel16 .lbvs), (0x2A, .rel16 .lbpl),
   (0x2B, .rel16 .lbmi), (0x2C, .rel16 .lbge), (0x2D, .rel16 .lblt), (0x2E, .rel16 .lbgt), (0x2F, .rel16 .lble),
   (0x3F, .inh .swi2)] ++
  src16Rows 0x83 .cmpd ++ src16Rows 0x8C .cmpy ++ src16Rows 0x8E .ldy ++ src16Rows 0xCE .lds ++
  storeRows 0x9F .sty ++ storeRows 0xDF .sts

/-- Opcode page 3, behind the prefix 0x11 (30_encoding.md R110): 9 rows. -/
def page3 : List Row :=
  [(0x3F, .inh .swi3)] ++ src16Rows 0x83 .cmpu ++ src16Rows 0x8C .cmps

/-- The row of an opcode byte in one table, if it has one. -/
def rowOf : List Row → Nat → Option Shape
  | [], _ => none
  | (k, sh) :: rows, op => if op = k then some sh else rowOf rows op

/-- Look an opcode byte up in its page and read its operand; a value with no row is illegal (30_encoding.md R111). -/
def decodePage (dc : Bool) (rows : List Row) (op : Byte) (rest : List Byte) : Parsed Instr :=
  match rowOf rows op.toNat with
  | some sh => sh.take dc rest
  | none => .bad .noOpcode

/-- The opcode byte behind a page prefix; a prefix here has no row either (30_encoding.md R105). -/
def decodeSecond (dc : Bool) (rows : List Row) : List Byte → Parsed Instr
  | [] => .more
  | op :: rest => decodePage dc rows op rest

/-- The decoder: opcode, with the two page prefixes 0x10 and 0x11 (30_encoding.md R104), then the operand. -/
def decode (dc : Bool) : List Byte → Parsed Instr
  | [] => .more
  | op :: rest =>
    if op = 0x10 then decodeSecond dc page2 rest
    else if op = 0x11 then decodeSecond dc page3 rest
    else decodePage dc page1 op rest

/-- The offset of a memory operand's form from the DIR row of a one-operand operation (41_alu8_unary.md R180). -/
def Mem.unaryRow : Mem → Nat
  | .dir _ => 0x00
  | .idx _ => 0x60
  | .ext _ => 0x70

/-- The offset of a store's form from its DIR row (42_alu8_binary.md R208, 43_alu16.md R246). -/
def Mem.storeRow : Mem → Nat
  | .dir _ => 0x00
  | .idx _ => 0x10
  | .ext _ => 0x20

/-- The `form` of 42_alu8_binary.md R200, with 0x00 for the immediate row. -/
def Src8.row : Src8 → Nat
  | .imm _ => 0x00
  | .mem m => 0x10 + m.storeRow

/-- The same for a 16-bit operand (43_alu16.md R240). -/
def Src16.row : Src16 → Nat
  | .imm _ => 0x00
  | .mem m => 0x10 + m.storeRow

/-- The `match` number of an instruction's row in spec/opcode_table.json: the opcode byte on page 1, prefix and opcode
as a big-endian number on pages 2 and 3 (30_encoding.md R113). -/
def Instr.opNum : Instr → Nat
  | .neg m => 0x00 + m.unaryRow
  | .com m => 0x03 + m.unaryRow
  | .lsr m => 0x04 + m.unaryRow
  | .ror m => 0x06 + m.unaryRow
  | .asr m => 0x07 + m.unaryRow
  | .asl m => 0x08 + m.unaryRow
  | .rol m => 0x09 + m.unaryRow
  | .dec m => 0x0A + m.unaryRow
  | .inc m => 0x0C + m.unaryRow
  | .tst m => 0x0D + m.unaryRow
  | .jmp m => 0x0E + m.unaryRow
  | .clr m => 0x0F + m.unaryRow
  | .nop => 0x12
  | .sync => 0x13
  | .lbra _ => 0x16
  | .lbsr _ => 0x17
  | .daa => 0x19
  | .orcc _ => 0x1A
  | .andcc _ => 0x1C
  | .sex => 0x1D
  | .exg _ _ => 0x1E
  | .tfr _ _ => 0x1F
  | .bra _ => 0x20
  | .brn _ => 0x21
  | .bhi _ => 0x22
  | .bls _ => 0x23
  | .bcc _ => 0x24
  | .bcs _ => 0x25
  | .bne _ => 0x26
  | .beq _ => 0x27
  | .bvc _ => 0x28
  | .bvs _ => 0x29
  | .bpl _ => 0x2A
  | .bmi _ => 0x2B
  | .bge _ => 0x2C
  | .blt _ => 0x2D
  | .bgt _ => 0x2E
  | .ble _ => 0x2F
  | .leax _ => 0x30
  | .leay _ => 0x31
  | .leas _ => 0x32
  | .leau _ => 0x33
  | .pshs _ => 0x34
  | .puls _ => 0x35
  | .pshu _ => 0x36
  | .pulu _ => 0x37
  | .rts => 0x39
  | .abx => 0x3A
  | .rti => 0x3B
  | .cwai _ => 0x3C
  | .mul => 0x3D
  | .swi => 0x3F
  | .nega => 0x40
  | .coma => 0x43
  | .lsra => 0x44
  | .rora => 0x46
  | .asra => 0x47
  | .asla => 0x48
  | .rola => 0x49
  | .deca => 0x4A
  | .inca => 0x4C
  | .tsta => 0x4D
  | .clra => 0x4F
  | .negb => 0x50
  | .comb => 0x53
  | .lsrb => 0x54
  | .rorb => 0x56
  | .asrb => 0x57
  | .aslb => 0x58
  | .rolb => 0x59
  | .decb => 0x5A
  | .incb => 0x5C
  | .tstb => 0x5D
  | .clrb => 0x5F
  | .suba o => 0x80 + o.row
  | .cmpa o => 0x81 + o.row
  | .sbca o => 0x82 + o.row
  | .subd o => 0x83 + o.row
  | .anda o => 0x84 + o.row
  | .bita o => 0x85 + o.row
  | .lda o => 0x86 + o.row
  | .eora o => 0x88 + o.row
  | .adca o => 0x89 + o.row
  | .ora o => 0x8A + o.row
  | .adda o => 0x8B + o.row
  | .cmpx o => 0x8C + o.row
  | .bsr _ => 0x8D
  | .ldx o => 0x8E + o.row
  | .sta m => 0x97 + m.storeRow
  | .jsr m => 0x9D + m.storeRow
  | .stx m => 0x9F + m.storeRow
  | .subb o => 0xC0 + o.row
  | .cmpb o => 0xC1 + o.row
  | .sbcb o => 0xC2 + o.row
  | .addd o => 0xC3 + o.row
  | .andb o => 0xC4 + o.row
  | .bitb o => 0xC5 + o.row
  | .ldb o => 0xC6 + o.row
  | .eorb o => 0xC8 + o.row
  | .adcb o => 0xC9 + o.row
  | .orb o => 0xCA + o.row
  | .addb o => 0xCB + o.row
  | .ldd o => 0xCC + o.row
  | .ldu o => 0xCE + o.row
  | .stb m => 0xD7 + m.storeRow
  | .std m => 0xDD + m.storeRow
  | .stu m => 0xDF + m.storeRow
  | .lbrn _ => 0x1021
  | .lbhi _ => 0x1022
  | .lbls _ => 0x1023
  | .lbcc _ => 0x1024
  | .lbcs _ => 0x1025
  | .lbne _ => 0x1026
  | .lbeq _ => 0x1027
  | .lbvc _ => 0x1028
  | .lbvs _ => 0x1029
  | .lbpl _ => 0x102A
  | .lbmi _ => 0x102B
  | .lbge _ => 0x102C
  | .lblt _ => 0x102D
  | .lbgt _ => 0x102E
  | .lble _ => 0x102F
  | .swi2 => 0x103F
  | .cmpd o => 0x1083 + o.row
  | .cmpy o => 0x108C + o.row
  | .ldy o => 0x108E + o.row
  | .sty m => 0x109F + m.storeRow
  | .lds o => 0x10CE + o.row
  | .sts m => 0x10DF + m.storeRow
  | .swi3 => 0x113F
  | .cmpu o => 0x1183 + o.row
  | .cmps o => 0x118C + o.row

/-- The bytes of an opcode number: the opcode, behind its prefix where it has one (30_encoding.md R113). -/
def opBytes (n : Nat) : List Byte :=
  if n < 256 then [BitVec.ofNat 8 n] else [BitVec.ofNat 8 (n / 256), BitVec.ofNat 8 n]

/-- A 16-bit operand, high byte first (30_encoding.md R107). -/
def wordBytes (w : Word) : List Byte := [hi w, lo w]

/-- The two bits `rr` of a base register (40_addressing_modes.md R146). -/
def IxReg.code : IxReg → BitVec 2
  | .x => 0
  | .y => 1
  | .u => 2
  | .s => 3

/-- The form 1 post-byte `1rr i mmmm` (40_addressing_modes.md R146). -/
def subModeByte (rr : BitVec 2) (ind : Bool) (m : BitVec 4) : Byte :=
  1#1 ++ rr ++ BitVec.ofBool ind ++ m

/-- Post-byte and offset bytes of an indexed operand (40_addressing_modes.md R147). The PC-relative sub-modes ignore
the register bits; the encoder writes 00 there. -/
def Idx.bytes : Idx → List Byte
  | .off5 r n => [0#1 ++ r.code ++ n]
  | .inc1 r => [subModeByte r.code false 0x0]
  | .inc2 r ind => [subModeByte r.code ind 0x1]
  | .dec1 r => [subModeByte r.code false 0x2]
  | .dec2 r ind => [subModeByte r.code ind 0x3]
  | .zero r ind => [subModeByte r.code ind 0x4]
  | .accB r ind => [subModeByte r.code ind 0x5]
  | .accA r ind => [subModeByte r.code ind 0x6]
  | .off8 r n ind => [subModeByte r.code ind 0x8, n]
  | .off16 r n ind => subModeByte r.code ind 0x9 :: wordBytes n
  | .accD r ind => [subModeByte r.code ind 0xB]
  | .pcr8 n ind => [subModeByte 0 ind 0xC, n]
  | .pcr16 n ind => subModeByte 0 ind 0xD :: wordBytes n
  | .extInd n => subModeByte 0 true 0xF :: wordBytes n

/-- The operand bytes of a memory operand (30_encoding.md R106). -/
def Mem.bytes : Mem → List Byte
  | .dir d => [d]
  | .ext a => wordBytes a
  | .idx x => x.bytes

/-- The operand bytes of an 8-bit source (30_encoding.md R106). -/
def Src8.bytes : Src8 → List Byte
  | .imm b => [b]
  | .mem m => m.bytes

/-- The operand bytes of a 16-bit source (30_encoding.md R106). -/
def Src16.bytes : Src16 → List Byte
  | .imm w => wordBytes w
  | .mem m => m.bytes

/-- The push and pull post-byte of a register list (45_stack_transfer.md R312). -/
def RegList.byte (l : RegList) : Byte :=
  BitVec.ofBool l.pc ++ BitVec.ofBool l.other ++ BitVec.ofBool l.y ++ BitVec.ofBool l.x ++ BitVec.ofBool l.dp ++
    BitVec.ofBool l.b ++ BitVec.ofBool l.a ++ BitVec.ofBool l.cc

/-- The register codes of TFR and EXG (45_stack_transfer.md R315). -/
def Reg.code : Reg → BitVec 4
  | .d => 0x0
  | .x => 0x1
  | .y => 0x2
  | .u => 0x3
  | .s => 0x4
  | .pc => 0x5
  | .a => 0x8
  | .b => 0x9
  | .cc => 0xA
  | .dp => 0xB

/-- The operand bytes of an instruction, in stream order (30_encoding.md R106). -/
def Instr.operandBytes : Instr → List Byte
  | .neg m | .com m | .lsr m | .ror m | .asr m | .asl m
  | .rol m | .dec m | .inc m | .tst m | .clr m | .jmp m
  | .sta m | .jsr m | .stx m | .stb m | .std m | .stu m
  | .sty m | .sts m => m.bytes
  | .leax x | .leay x | .leas x | .leau x => x.bytes
  | .suba o | .cmpa o | .sbca o | .anda o | .bita o | .lda o
  | .eora o | .adca o | .ora o | .adda o | .subb o | .cmpb o
  | .sbcb o | .andb o | .bitb o | .ldb o | .eorb o | .adcb o
  | .orb o | .addb o => o.bytes
  | .subd o | .cmpx o | .ldx o | .addd o | .ldd o | .ldu o
  | .cmpd o | .cmpy o | .ldy o | .lds o | .cmpu o | .cmps o => o.bytes
  | .orcc b | .andcc b | .cwai b => [b]
  | .bra n | .brn n | .bhi n | .bls n | .bcc n | .bcs n
  | .bne n | .beq n | .bvc n | .bvs n | .bpl n | .bmi n
  | .bge n | .blt n | .bgt n | .ble n | .bsr n => [n]
  | .lbra n | .lbsr n | .lbrn n | .lbhi n | .lbls n | .lbcc n
  | .lbcs n | .lbne n | .lbeq n | .lbvc n | .lbvs n | .lbpl n
  | .lbmi n | .lbge n | .lblt n | .lbgt n | .lble n => wordBytes n
  | .pshs l | .puls l | .pshu l | .pulu l => [l.byte]
  | .exg r1 r2 | .tfr r1 r2 => [r1.code ++ r2.code]
  | .nop | .sync | .daa | .sex | .rts | .abx
  | .rti | .mul | .swi | .swi2 | .swi3 => []
  | .nega | .coma | .lsra | .rora | .asra | .asla
  | .rola | .deca | .inca | .tsta | .clra | .negb
  | .comb | .lsrb | .rorb | .asrb | .aslb | .rolb
  | .decb | .incb | .tstb | .clrb => []

/-- The bytes of an instruction in stream order: prefix, opcode, operand (30_encoding.md R100). -/
def encode (i : Instr) : List Byte := opBytes i.opNum ++ i.operandBytes

/-- The longest instruction (30_encoding.md R100): prefix, opcode, post-byte, two offset bytes. -/
def maxLength : Nat := 5

/-- The bytes, in stream order, of an instruction whose bits are `w` as spec/opcode_table.json numbers them, filled up
with zeros to the longest instruction. The table writes prefix and opcode of a two-byte row as one big-endian number
(30_encoding.md R113), so where bits 15 to 8 of a two-byte number are a prefix they are the first byte; in every other
number the first byte is the least significant one. -/
def tableBytes (nbits w : Nat) : List Byte :=
  let v := w % 2 ^ nbits
  if nbits = 16 ∧ (v / 256 = 0x10 ∨ v / 256 = 0x11) then [BitVec.ofNat 8 (v / 256), BitVec.ofNat 8 v, 0, 0, 0]
  else [BitVec.ofNat 8 v, BitVec.ofNat 8 (v / 2 ^ 8), BitVec.ofNat 8 (v / 2 ^ 16), BitVec.ofNat 8 (v / 2 ^ 24),
    BitVec.ofNat 8 (v / 2 ^ 32)]

/-- The instruction the decoder reads from an instruction whose bits are `w`, numbered as the opcode table numbers
them, with the default `P_EXTIND_RR_DONTCARE` = false. -/
def decodeTableWord (nbits w : Nat) : Option Instr :=
  match decode false (tableBytes nbits w) with
  | .ok i _ => some i
  | _ => none

end Sys2Proof
end

