-- ==== Sys2Proof/Machine/Memory.lean ====
section
/-! DEFINITION. Sparse maps in one canonical form, and on them the backing memory `PM` (10_state.md R32) and the page
tables (10_state.md R33). A map is a list of pairs with strictly rising keys; a key that is not listed has no value. -/

namespace Sys2Proof.Machine

/-- A sparse map: pairs of key and value, keys strictly rising. -/
abbrev SMap (β : Type) := List (Nat × β)

/-- The value at a key, if it is listed. -/
def SMap.find {β : Type} : SMap β → Nat → Option β
  | [], _ => none
  | (k, v) :: m, a => if a = k then some v else SMap.find m a

/-- The pair `(a, v)` in front of `m`, or `m` alone when there is no value. -/
def SMap.cons? {β : Type} (a : Nat) (v : Option β) (m : SMap β) : SMap β :=
  match v with
  | some b => (a, b) :: m
  | none => m

/-- Set the value at a key; `none` takes the key out of the list. -/
def SMap.put {β : Type} : SMap β → Nat → Option β → SMap β
  | [], a, v => SMap.cons? a v []
  | (k, w) :: m, a, v =>
    if a < k then SMap.cons? a v ((k, w) :: m)
    else if a = k then SMap.cons? a v m
    else (k, w) :: SMap.put m a v

/-- The keys rise strictly, from `lo` on. -/
def SMap.rising {β : Type} : Nat → SMap β → Bool
  | _, [] => true
  | lo, (k, _) :: m => decide (lo ≤ k) && SMap.rising (k + 1) m

/-- The canonical form of a sparse map: strictly rising keys. -/
def SMap.wf {β : Type} (m : SMap β) : Bool := SMap.rising 0 m

/-- Backing memory: the bytes that raw pointers refer to, by location (10_state.md R32, 20_memory.md R62). -/
abbrev Memory := List Host.Cell

/-- What a location that is not listed reads as. DESIGN CHOICE: the spec gives `PM` no contents (10_state.md R41);
log 5. -/
def Memory.fill : Byte := 0x00

/-- The byte at a location: one read through a raw pointer (20_memory.md R64). -/
def Memory.read (m : Memory) (loc : Nat) : Byte :=
  match SMap.find m loc with
  | some b => b
  | none => Memory.fill

/-- Write one byte: exactly one location changes (20_memory.md R65). Writing what an unlisted location reads as takes
the location out of the list. -/
def Memory.write (m : Memory) (loc : Nat) (v : Byte) : Memory :=
  SMap.put m loc (if v = Memory.fill then none else some v)

/-- The canonical form: locations strictly rising, and no listed byte equal to what an unlisted location reads as. -/
def Memory.wf (m : Memory) : Bool := SMap.wf m && m.all fun c => c.2 != Memory.fill

/-- A page table: for each page number the entry, null where it is not listed (10_state.md R33). -/
abbrev PageTable := SMap Nat

end Sys2Proof.Machine
end

