-- ==== Sys2Proof/Machine/World.lean ====
section
/-! DEFINITION. `world`: the part of the state that page handlers may read and change (20_memory.md R66): the four page
tables, the three interrupt lines, the backing memory and the modules' private state. What a module does to it is a
list of the calls it is allowed (20_memory.md R67, R68). -/

namespace Sys2Proof.Machine

/-- `world` of 20_memory.md R66. -/
structure World where
  /-- `RP`: raw pointers for read, a location in `pm` (10_state.md R33). -/
  rp : PageTable
  /-- `WP`: raw pointers for write, a location in `pm` (10_state.md R33). -/
  wp : PageTable
  /-- `RH`: handlers for read, an identity that Config.readHandler interprets (10_state.md R33). -/
  rh : PageTable
  /-- `WH`: handlers for write, an identity that Config.writeHandler interprets (10_state.md R33). -/
  wh : PageTable
  /-- `line_nmi`, asserted when true (10_state.md R28). -/
  lineNmi : Bool
  /-- `line_firq`, asserted when true (10_state.md R28). -/
  lineFirq : Bool
  /-- `line_irq`, asserted when true (10_state.md R28). -/
  lineIrq : Bool
  /-- `PM`: backing memory (10_state.md R32). -/
  pm : Memory
  /-- `W`: the modules' private state, which CORE never looks into (10_state.md R34); log 8. -/
  w : List Byte
deriving DecidableEq, Repr

/-- What an external module can do to `world`: the registration calls of 20_memory.md R68, the interrupt lines, the
backing memory and its own state (20_memory.md R66, R67). -/
inductive ModuleAction where
  /-- `SetReadPointer(page, buffer)`. -/
  | setReadPointer (page : Byte) (base : Option Nat)
  /-- `SetWritePointer(page, buffer)`. -/
  | setWritePointer (page : Byte) (base : Option Nat)
  /-- `SetReadHandler(page, fn)`. -/
  | setReadHandler (page : Byte) (id : Option Nat)
  /-- `SetWriteHandler(page, fn)`. -/
  | setWriteHandler (page : Byte) (id : Option Nat)
  /-- Assert or clear the non-maskable line. -/
  | setNmi (on : Bool)
  /-- Assert or clear the fast-maskable line. -/
  | setFirq (on : Bool)
  /-- Assert or clear the maskable line. -/
  | setIrq (on : Bool)
  /-- Store a byte of backing memory. -/
  | poke (loc : Nat) (v : Byte)
  /-- Replace the modules' private state. -/
  | setPrivate (w : List Byte)
deriving DecidableEq, Repr

/-- One module action: each registration call changes exactly one entry of one table (20_memory.md R68). -/
def World.act (w : World) : ModuleAction → World
  | .setReadPointer p b => { w with rp := SMap.put w.rp p.toNat b }
  | .setWritePointer p b => { w with wp := SMap.put w.wp p.toNat b }
  | .setReadHandler p f => { w with rh := SMap.put w.rh p.toNat f }
  | .setWriteHandler p f => { w with wh := SMap.put w.wh p.toNat f }
  | .setNmi on => { w with lineNmi := on }
  | .setFirq on => { w with lineFirq := on }
  | .setIrq on => { w with lineIrq := on }
  | .poke loc v => { w with pm := w.pm.write loc v }
  | .setPrivate v => { w with w := v }

/-- A location lies in backing memory of the given size, `PM_SIZE` of 00_scope.md R7; no size is no end (log 6). -/
def inPM (size : Option Nat) (loc : Nat) : Bool :=
  match size with
  | none => true
  | some n => decide (loc < n)

/-- A pointer is null or has 256 bytes of backing memory at and above it (20_memory.md R62, R68). -/
def pointerFits (size : Option Nat) (base : Option Nat) : Bool :=
  match base with
  | none => true
  | some b => inPM size (b + 255)

/-- The calls that the interface admits: a pointer references 256 bytes of backing memory (20_memory.md R68, 10_state.md
R33), and a byte that is stored lies in it. The others are a precondition on the modules (93_implementation_defined.md
U19; log 6). -/
def ModuleAction.admitted (size : Option Nat) : ModuleAction → Bool
  | .setReadPointer _ b => pointerFits size b
  | .setWritePointer _ b => pointerFits size b
  | .poke loc _ => inPM size loc
  | .setReadHandler _ _ => true
  | .setWriteHandler _ _ => true
  | .setNmi _ => true
  | .setFirq _ => true
  | .setIrq _ => true
  | .setPrivate _ => true

/-- Module actions in order; each is complete before the next (20_memory.md R80). One that the interface does not admit
is outside the model and does nothing here (93_implementation_defined.md U19; log 6). -/
def World.actAll (size : Option Nat) : World → List ModuleAction → World
  | w, [] => w
  | w, m :: ms => World.actAll size (if m.admitted size then w.act m else w) ms

/-- The location a raw read pointer gives for an address: `RP[page(a)] + offset(a)` (20_memory.md R62, R64). -/
def World.readSpot (w : World) (a : Word) : Option Nat :=
  match SMap.find w.rp (pageOf a) with
  | some base => some (base + offOf a)
  | none => none

/-- The location a raw write pointer gives for an address: `WP[page(a)] + offset(a)` (20_memory.md R62, R65). -/
def World.writeSpot (w : World) (a : Word) : Option Nat :=
  match SMap.find w.wp (pageOf a) with
  | some base => some (base + offOf a)
  | none => none

/-- The read handler of an address, in force only under a null read pointer (20_memory.md R63). -/
def World.readHandler (w : World) (a : Word) : Option Nat := SMap.find w.rh (pageOf a)

/-- The write handler of an address, in force only under a null write pointer (20_memory.md R63). -/
def World.writeHandler (w : World) (a : Word) : Option Nat := SMap.find w.wh (pageOf a)

/-- The byte a read of `a` gives when a raw pointer serves the page; `none` where no pointer does. A read of one byte
with no side effect (20_memory.md R78). -/
def World.peek (w : World) (a : Word) : Option Byte :=
  match w.readSpot a with
  | some loc => some (w.pm.read loc)
  | none => none

/-- Every raw pointer references 256 bytes of backing memory (10_state.md R33, 20_memory.md R68). -/
def World.fits (w : World) (size : Option Nat) : Bool :=
  (w.rp.all fun e => pointerFits size (some e.2)) && w.wp.all fun e => pointerFits size (some e.2)

/-- Every table and the backing memory are in canonical form. -/
def World.wf (w : World) : Bool :=
  SMap.wf w.rp && SMap.wf w.wp && SMap.wf w.rh && SMap.wf w.wh && w.pm.wf

end Sys2Proof.Machine
end

