-- ==== Sys2Proof/Config.lean ====
section
/-! DEFINITION. What an implementation fixes and what the spec leaves open: the parameters of 00_scope.md R7 as plain
data, the platform's handlers, and the free values, which have no body. -/

namespace Sys2Proof

open Sys2Proof.Machine

/-- The parameters of 00_scope.md R7, each with the default the spec decides (92_eei_decisions.md). They are fixed for
a machine: `State.cfg` carries them and no step writes it (log 13). -/
structure Params where
  /-- `P_MASKABLE_AUTOCLEAR`: servicing FIRQ or IRQ clears its line (60_exceptions.md R377). -/
  maskableAutoclear : Bool := false
  /-- LDS is in `P_ARM_SET` (10_state.md R29). -/
  armLds : Bool := true
  /-- LEAS is in `P_ARM_SET` (10_state.md R29). -/
  armLeas : Bool := true
  /-- TFR to S is in `P_ARM_SET` (10_state.md R29). -/
  armTfr : Bool := true
  /-- EXG with S is in `P_ARM_SET` (10_state.md R29). -/
  armExg : Bool := true
  /-- PULU with the S bit is in `P_ARM_SET` (10_state.md R29). -/
  armPulu : Bool := true
  /-- `P_HOST_S_ARMS`: the host's mutator of S sets the latch. OPEN in the spec (D30); DESIGN CHOICE false, log 13. -/
  hostSArms : Bool := false
  /-- `P_SYNC_COUNTS_UNARMED_NMI` (60_exceptions.md R379). -/
  syncCountsUnarmedNmi : Bool := true
  /-- `P_CLR_READS` (41_alu8_unary.md R191). -/
  clrReads : Bool := true
  /-- `P_EXTIND_RR_DONTCARE` (40_addressing_modes.md R148). -/
  extIndRrDontCare : Bool := false
  /-- `P_RESET_DP_ZERO` (70_reset_and_hazards.md R420). -/
  resetDpZero : Bool := true
  /-- `P_SWI`: the three software-interrupt opcodes are implemented (46_misc_system.md R350). -/
  swi : Bool := true
  /-- `PM_SIZE`: how many bytes backing memory has (92_eei_decisions.md D40). The platform says; without a size it has no
  end (log 6). -/
  pmSize : Option Nat := none
  /-- `PERIOD` of the periodic callback, when one is installed (70_reset_and_hazards.md R431). -/
  period : Option Nat := none
  /-- `CYC_NMI` (70_reset_and_hazards.md R444). -/
  cycNmi : Nat := 19
  /-- `CYC_IRQ` (70_reset_and_hazards.md R444). -/
  cycIrq : Nat := 19
  /-- `CYC_FIRQ` (70_reset_and_hazards.md R444). -/
  cycFirq : Nat := 10
  /-- `CYC_IDLE` (70_reset_and_hazards.md R444). -/
  cycIdle : Nat := 1
  /-- `CYC_FAULT` (70_reset_and_hazards.md R444). -/
  cycFault : Nat := 1
  /-- `CYC_PSH_BYTE` (70_reset_and_hazards.md R444). -/
  cycPshByte : Nat := 1
  /-- `CYC_BRANCH_TAKEN` (70_reset_and_hazards.md R444). -/
  cycBranchTaken : Nat := 1
  /-- `CYC[RTI entire]` (70_reset_and_hazards.md R440). -/
  cycRtiEntire : Nat := 15
  /-- Rows of `CYC` that differ from the defaults of 70_reset_and_hazards.md R442: opcode number and cost (log 14). -/
  cycRow : List (Nat × Nat) := []
  /-- Entries of `CYC_IDX` that differ from the defaults of 70_reset_and_hazards.md R443: sub-mode number and cost;
  32 stands for the 5-bit offset form (log 14). -/
  cycIdx : List (Nat × Nat) := []
deriving DecidableEq, Repr

/-- The spec's defaults. -/
def Params.default : Params := {}

/-- A read handler of the platform (20_memory.md R66, D25): its identity, the full address, `world` and the clock it
sees give the byte read and what the module does. No body: a platform parameter (log 7). -/
opaque Config.readHandler : Nat → Word → World → BitVec 64 → Byte × List ModuleAction

/-- A write handler of the platform (20_memory.md R66, D25): as a read handler, with the byte written. No body: a
platform parameter (log 7). -/
opaque Config.writeHandler : Nat → Word → Byte → World → BitVec 64 → List ModuleAction

/-- The periodic callback of `Run` (70_reset_and_hazards.md R431): `world` and the clock give what the scheduler does.
No body: a platform parameter (log 19). -/
opaque Config.callback : World → BitVec 64 → List ModuleAction

/-- Free value: how far the clock that a handler sees in the middle of a step has gone beyond the clock before the step
(93_implementation_defined.md U9; log 9). A step uses it only as far as its own cost reaches. -/
opaque Config.freeClockAdvance : Nat → Nat

/-- Free value: the clock after a step that passes 2^64 cycles (10_state.md R27; log 10). -/
opaque Config.freeClock : Nat → BitVec 64

/-- Free value: V after DAA (93_implementation_defined.md U1; log 11). -/
opaque Config.freeFlag : Nat → Bool

end Sys2Proof
end

