-- ==== Sys2Proof/Machine/State.lean ====
section
/-! DEFINITION. The state of CORE as plain data (10_state.md), the fault kinds, and the state right after reset. -/

namespace Sys2Proof.Machine

/-- The six fault kinds of 60_exceptions.md R361 besides OK. A fault is not a trap and does not stop the machine: it is
recorded in `State.fault`, the step ends, and the step's answer is the NEXT STATE that 60_exceptions.md R363 describes
(log 1). So `step` and `exec` never answer `.fault`; all six are safe. -/
inductive Fault where
  /-- Raised by the decoder on an opcode byte with no row (60_exceptions.md R364), and by SWI, SWI2, SWI3 when `P_SWI`
  is false (46_misc_system.md R350). Safe: the spec gives the state after it. -/
  | instruction
  /-- Raised by the indexed resolver on an illegal post-byte (60_exceptions.md R365). Safe: the spec gives the state
  after it. -/
  | addressMode
  /-- Raised by TFR and EXG on an illegal register pair (60_exceptions.md R368). Safe: the spec gives the state after
  it. -/
  | registerSelect
  /-- Raised by a bus read of a page with neither pointer nor handler (60_exceptions.md R366). Safe: the spec gives the
  state after it. -/
  | undefinedRead
  /-- Raised by a bus write to a page with neither pointer nor handler (60_exceptions.md R367). Safe: the spec gives
  the state after it. -/
  | undefinedWrite
  /-- Reserved for a bug of the dispatcher itself; no rule raises it (60_exceptions.md R369). Safe: kept so that the
  enumeration is complete, and raised only where the model shows it cannot be reached. -/
  | internalError
deriving DecidableEq, Repr

/-- Why a step has no meaning. -/
inductive Refusal where
  /-- Raised by `exec` for an instruction the model gives no meaning. Safe. No arm of `exec` answers it: every
  instruction of the table has its meaning. -/
  | notModelled (mnemonic : String)
deriving DecidableEq, Repr

/-- The condition codes, "eight independent booleans" (10_state.md R24). All eight are storage. -/
structure CC where
  /-- Entire state stacked. -/
  e : Bool
  /-- FIRQ mask. -/
  f : Bool
  /-- Half carry. -/
  h : Bool
  /-- IRQ mask. -/
  i : Bool
  /-- Negative. -/
  n : Bool
  /-- Zero. -/
  z : Bool
  /-- Overflow. -/
  v : Bool
  /-- Carry. -/
  c : Bool
deriving DecidableEq, Repr

/-- Everything the spec gives the machine. D is the pair of A and B and has no storage of its own (10_state.md R21). -/
structure State where
  /-- A, high half of D (10_state.md R20). -/
  a : Byte
  /-- B, low half of D (10_state.md R20). -/
  b : Byte
  /-- X (10_state.md R22). -/
  x : Word
  /-- Y (10_state.md R22). -/
  y : Word
  /-- U, the user stack pointer (10_state.md R23). -/
  u : Word
  /-- S, the hardware stack pointer (10_state.md R23). -/
  s : Word
  /-- PC (10_state.md R25). -/
  pc : Word
  /-- DP, the direct-page register (10_state.md R26). -/
  dp : Byte
  /-- CC (10_state.md R24). -/
  cc : CC
  /-- The cycle counter (10_state.md R27). -/
  clock : BitVec 64
  /-- The NMI-armed latch (10_state.md R29). -/
  nmiArmed : Bool
  /-- Stacked and idling (10_state.md R30). -/
  waitCwai : Bool
  /-- Idling without stacking (10_state.md R30). -/
  waitSync : Bool
  /-- The fault code of the most recent step, `none` for OK (10_state.md R31). -/
  fault : Option Fault
  /-- Page tables, interrupt lines, backing memory and the modules' state (20_memory.md R66). -/
  world : World
  /-- `next_cb` of the periodic callback (70_reset_and_hazards.md R431). -/
  nextCb : BitVec 64
  /-- The model's own field: how many free values have been used (log 12). -/
  freeCount : Nat
  /-- The model's own field: how many times a handler has run inside a bus access (log 12). -/
  handlerCount : Nat
  /-- The model's own field: the handlers of this step see the clock at its start, and no later one (log 9). -/
  clockHeld : Bool
  /-- The model's own field: the parameters of 00_scope.md R7; no step writes it (log 13). -/
  cfg : Params
deriving DecidableEq, Repr

/-- `world` at power-on: tables null, lines false (10_state.md R41), and nothing listed in backing memory (log 5). -/
def World.powerOn : World where
  rp := []
  wp := []
  rh := []
  wh := []
  lineNmi := false
  lineFirq := false
  lineIrq := false
  pm := []
  w := []

/-- The machine right after reset (10_state.md R40): what `Reset()` (70_reset_and_hazards.md R420) makes of the
power-on state of 10_state.md R41. All page tables are null at power-on and reset leaves them, so the vector read finds
no entry: PC keeps its power-on value and the fault code is UndefinedRead (70_reset_and_hazards.md R421). Values the
spec does not give are named in logs 2, 3, 5, 8, 9, 12, 13 and 19. -/
def State.reset : State where
  a := 0x00
  b := 0x00
  x := 0x0000
  y := 0x0000
  u := 0x0000
  s := 0x0000
  pc := 0x0000
  dp := 0x00
  cc := ⟨false, true, false, true, false, false, false, false⟩
  clock := 0
  nmiArmed := false
  waitCwai := false
  waitSync := false
  fault := some .undefinedRead
  world := World.powerOn
  nextCb := 0
  freeCount := 0
  handlerCount := 0
  clockHeld := true
  cfg := Params.default

end Sys2Proof.Machine
end

