-- ==== Sys2Proof/Machine/Flags.lean ====
section
/-! DEFINITION. The condition-code byte and every flag computation (10_state.md R24, R38; 41_alu8_unary.md;
42_alu8_binary.md R201; 43_alu16.md R240; 46_misc_system.md). Each operation takes the condition codes before it and
answers the result with the condition codes after it; a flag it does not name keeps its value. H is written by the
8-bit adder's two users alone (10_state.md R38). -/

namespace Sys2Proof.Machine

/-- `CC` as a byte: E F H I N Z V C from bit 7 to bit 0 (10_state.md R24). -/
def CC.toByte (c : CC) : Byte :=
  BitVec.ofBool c.e ++ BitVec.ofBool c.f ++ BitVec.ofBool c.h ++ BitVec.ofBool c.i ++ BitVec.ofBool c.n ++
    BitVec.ofBool c.z ++ BitVec.ofBool c.v ++ BitVec.ofBool c.c

/-- `CC <- v` (10_state.md R24). -/
def CC.ofByte (b : Byte) : CC :=
  ⟨b.getLsbD 7, b.getLsbD 6, b.getLsbD 5, b.getLsbD 4, b.getLsbD 3, b.getLsbD 2, b.getLsbD 1, b.getLsbD 0⟩

/-- N, Z from an 8-bit result and V cleared: the rule of the logic operations, loads, stores and TST
(42_alu8_binary.md R205 to R211, 41_alu8_unary.md R190). -/
def CC.logic8 (cc : CC) (r : Byte) : CC := { cc with n := r.msb, z := r == 0, v := false }

/-- The same for a 16-bit load or store (43_alu16.md R244 to R246). -/
def CC.logic16 (cc : CC) (r : Word) : CC := { cc with n := r.msb, z := r == 0, v := false }

/-- NEG (41_alu8_unary.md R181). -/
def aluNeg (cc : CC) (m : Byte) : Byte × CC :=
  let r := 0 - m
  (r, { cc with n := r.msb, z := r == 0, v := m == 0x80, c := m != 0 })

/-- COM (41_alu8_unary.md R182). -/
def aluCom (cc : CC) (m : Byte) : Byte × CC :=
  let r := ~~~m
  (r, { cc with n := r.msb, z := r == 0, v := false, c := true })

/-- LSR (41_alu8_unary.md R183). -/
def aluLsr (cc : CC) (m : Byte) : Byte × CC :=
  let r := m >>> 1
  (r, { cc with n := false, z := r == 0, c := m.getLsbD 0 })

/-- ROR (41_alu8_unary.md R184). -/
def aluRor (cc : CC) (m : Byte) : Byte × CC :=
  let r : Byte := BitVec.ofBool cc.c ++ m.extractLsb' 1 7
  (r, { cc with n := r.msb, z := r == 0, c := m.getLsbD 0 })

/-- ASR (41_alu8_unary.md R185). -/
def aluAsr (cc : CC) (m : Byte) : Byte × CC :=
  let r : Byte := BitVec.ofBool m.msb ++ m.extractLsb' 1 7
  (r, { cc with n := r.msb, z := r == 0, c := m.getLsbD 0 })

/-- ASL (41_alu8_unary.md R186). -/
def aluAsl (cc : CC) (m : Byte) : Byte × CC :=
  let r := m <<< 1
  (r, { cc with n := r.msb, z := r == 0, v := m.getLsbD 7 ^^ m.getLsbD 6, c := m.getLsbD 7 })

/-- ROL (41_alu8_unary.md R187). -/
def aluRol (cc : CC) (m : Byte) : Byte × CC :=
  let r : Byte := m.extractLsb' 0 7 ++ BitVec.ofBool cc.c
  (r, { cc with n := r.msb, z := r == 0, v := m.getLsbD 7 ^^ m.getLsbD 6, c := m.getLsbD 7 })

/-- DEC (41_alu8_unary.md R188). -/
def aluDec (cc : CC) (m : Byte) : Byte × CC :=
  let r := m - 1
  (r, { cc with n := r.msb, z := r == 0, v := m == 0x80 })

/-- INC (41_alu8_unary.md R189). -/
def aluInc (cc : CC) (m : Byte) : Byte × CC :=
  let r := m + 1
  (r, { cc with n := r.msb, z := r == 0, v := m == 0x7F })

/-- CLR (41_alu8_unary.md R191). -/
def aluClr (cc : CC) (_ : Byte) : Byte × CC :=
  (0, { cc with n := false, z := true, v := false, c := false })

/-- What an adder or subtractor produces (42_alu8_binary.md R201). The subtractors and the 16-bit adder produce no H;
they leave `h` false and no user of theirs reads it. -/
structure AluOut (w : Nat) where
  r : BitVec w
  h : Bool
  n : Bool
  z : Bool
  v : Bool
  c : Bool
deriving DecidableEq, Repr

/-- `add8` (42_alu8_binary.md R201). -/
def add8 (a b : Byte) (cin : Bool) : AluOut 8 :=
  let s : BitVec 9 := a.setWidth 9 + b.setWidth 9 + carryIn 9 cin
  let r : Byte := s.setWidth 8
  { r := r
    h := decide (0xF < (a.extractLsb' 0 4).toNat + (b.extractLsb' 0 4).toNat + cin.toNat)
    n := r.msb
    z := r == 0
    v := a.msb == b.msb && r.msb != a.msb
    c := s.msb }

/-- `sub8`: a - b - cin, C being the borrow (42_alu8_binary.md R201). -/
def sub8 (a b : Byte) (cin : Bool) : AluOut 8 :=
  let d : BitVec 9 := a.setWidth 9 - b.setWidth 9 - carryIn 9 cin
  let r : Byte := d.setWidth 8
  { r := r, h := false, n := r.msb, z := r == 0, v := a.msb != b.msb && r.msb != a.msb, c := d.msb }

/-- `add16` (43_alu16.md R240). -/
def add16 (a b : Word) : AluOut 16 :=
  let s : BitVec 17 := a.setWidth 17 + b.setWidth 17
  let r : Word := s.setWidth 16
  { r := r, h := false, n := r.msb, z := r == 0, v := a.msb == b.msb && r.msb != a.msb, c := s.msb }

/-- `sub16` (43_alu16.md R240). -/
def sub16 (a b : Word) : AluOut 16 :=
  let d : BitVec 17 := a.setWidth 17 - b.setWidth 17
  let r : Word := d.setWidth 16
  { r := r, h := false, n := r.msb, z := r == 0, v := a.msb != b.msb && r.msb != a.msb, c := d.msb }

/-- N, Z, V, C from an adder or subtractor; H, E, F, I unchanged (10_state.md R38). -/
def CC.arith {w : Nat} (cc : CC) (o : AluOut w) : CC := { cc with n := o.n, z := o.z, v := o.v, c := o.c }

/-- The same with H, for 8-bit ADD and ADC (42_alu8_binary.md R210, R212). -/
def CC.arithH {w : Nat} (cc : CC) (o : AluOut w) : CC :=
  { cc with h := o.h, n := o.n, z := o.z, v := o.v, c := o.c }

/-- ADD (42_alu8_binary.md R212). -/
def aluAdd (cc : CC) (r m : Byte) : Byte × CC := let o := add8 r m false; (o.r, cc.arithH o)

/-- ADC (42_alu8_binary.md R210). -/
def aluAdc (cc : CC) (r m : Byte) : Byte × CC := let o := add8 r m cc.c; (o.r, cc.arithH o)

/-- SUB, and CMP without the result (42_alu8_binary.md R202, R203). -/
def aluSub (cc : CC) (r m : Byte) : Byte × CC := let o := sub8 r m false; (o.r, cc.arith o)

/-- SBC (42_alu8_binary.md R204). -/
def aluSbc (cc : CC) (r m : Byte) : Byte × CC := let o := sub8 r m cc.c; (o.r, cc.arith o)

/-- AND, and BIT without the result (42_alu8_binary.md R205, R206). -/
def aluAnd (cc : CC) (r m : Byte) : Byte × CC := (r &&& m, cc.logic8 (r &&& m))

/-- EOR (42_alu8_binary.md R209). -/
def aluEor (cc : CC) (r m : Byte) : Byte × CC := (r ^^^ m, cc.logic8 (r ^^^ m))

/-- OR (42_alu8_binary.md R211). -/
def aluOr (cc : CC) (r m : Byte) : Byte × CC := (r ||| m, cc.logic8 (r ||| m))

/-- LD (42_alu8_binary.md R207). -/
def aluLd (cc : CC) (_ m : Byte) : Byte × CC := (m, cc.logic8 m)

/-- ADDD (43_alu16.md R242). -/
def aluAdd16 (cc : CC) (r m : Word) : Word × CC := let o := add16 r m; (o.r, cc.arith o)

/-- SUBD, and the 16-bit compares without the result (43_alu16.md R241, R243). -/
def aluSub16 (cc : CC) (r m : Word) : Word × CC := let o := sub16 r m; (o.r, cc.arith o)

/-- The 16-bit loads (43_alu16.md R244, R245). -/
def aluLd16 (cc : CC) (_ m : Word) : Word × CC := (m, cc.logic16 m)

/-- The correction factor of DAA (46_misc_system.md R333). -/
def daaFactor (cc : CC) (a : Byte) : Byte :=
  let lsn := (a.extractLsb' 0 4).toNat
  let msn := (a.extractLsb' 4 4).toNat
  (if cc.h || decide (9 < lsn) then 0x06 else 0x00) |||
    (if cc.c || decide (9 < msn) || (decide (8 < msn) && decide (9 < lsn)) then 0x60 else 0x00)

/-- DAA: N, Z, C written, C never cleared, V the free value `v`, H unchanged (46_misc_system.md R333). -/
def aluDaa (cc : CC) (a : Byte) (v : Bool) : Byte × CC :=
  let t : BitVec 9 := a.setWidth 9 + (daaFactor cc a).setWidth 9
  let r : Byte := t.setWidth 8
  (r, { cc with n := r.msb, z := r == 0, c := cc.c || t.msb, v := v })

/-- MUL: Z from the product, C from bit 7 of its low byte (46_misc_system.md R334). -/
def aluMul (cc : CC) (a b : Byte) : Word × CC :=
  let p := zext8 a * zext8 b
  (p, { cc with z := p == 0, c := p.getLsbD 7 })

/-- SEX: the new A, and N, Z of the 16-bit D (46_misc_system.md R335). -/
def aluSex (cc : CC) (b : Byte) : Byte × CC :=
  (if b.msb then 0xFF else 0x00, { cc with n := b.msb, z := b == 0 })

/-- The sixteen branch conditions (44_control_flow.md R271 to R286). -/
inductive Cond where
  | ra | rn | hi | ls | cc | cs | ne | eq | vc | vs | pl | mi | ge | lt | gt | le
deriving DecidableEq, Repr

/-- `cond(CC)`, read from N, Z, V, C alone (44_control_flow.md R270 to R286). -/
def Cond.holds : Cond → CC → Bool
  | .ra, _ => true
  | .rn, _ => false
  | .hi, k => !k.c && !k.z
  | .ls, k => k.c || k.z
  | .cc, k => !k.c
  | .cs, k => k.c
  | .ne, k => !k.z
  | .eq, k => k.z
  | .vc, k => !k.v
  | .vs, k => k.v
  | .pl, k => !k.n
  | .mi, k => k.n
  | .ge, k => k.n == k.v
  | .lt, k => k.n != k.v
  | .gt, k => !k.z && k.n == k.v
  | .le, k => k.z || k.n != k.v

end Sys2Proof.Machine
end

