-- ==== Sys2Proof/Machine/Ops.lean ====
section
/-! DEFINITION. The named operations every instruction is made of: bus reads and writes, instruction fetch of one byte,
registers, stacks, taking an exception and returning from one. An operation is an action on the state that ends either
well or with a fault already recorded; in both cases it answers the state it leaves (60_exceptions.md R362, R363). -/

namespace Sys2Proof.Machine

/-- An action: it ends with a value or with a fault, and in both cases with the state as it then is. A fault ends
whatever it is part of at once and rolls nothing back (60_exceptions.md R362, R363). -/
abbrev Act (α : Type) := EStateM Fault State α

/-- Read something off the state. -/
def look {α : Type} (f : State → α) : Act α := fun s => .ok (f s) s

/-- Change the state. -/
def change (f : State → State) : Act Unit := fun s => .ok () (f s)

/-- Do something only under a condition. -/
def onlyIf (b : Bool) (m : Act Unit) : Act Unit := if b then m else pure ()

/-- `raise K`: record the fault and end the step (60_exceptions.md R362). -/
def raise {α : Type} (k : Fault) : Act α := fun s => .error k { s with fault := some k }

/-- The state after `n` more cycles. Past 2^64 the spec leaves the counter open (10_state.md R27): a free value
(log 10). -/
def State.tick (s : State) (n : Nat) : State :=
  if s.clock.toNat + n < 2 ^ 64 then { s with clock := s.clock + BitVec.ofNat 64 n }
  else { s with clock := Config.freeClock s.freeCount, freeCount := s.freeCount + 1 }

/-- `cyc(k)` (70_reset_and_hazards.md R440). -/
def spend (n : Nat) : Act Unit := change fun s => s.tick n

/-- A fault found while decoding costs `CYC_FAULT` (70_reset_and_hazards.md R440; 60_exceptions.md R364, R365, R368). -/
def raiseDecode {α : Type} (k : Fault) : Act α := do
  spend (← look fun s => s.cfg.cycFault)
  raise k

/-- The clock that a handler sees in the middle of a step. No cost has been added yet (70_reset_and_hazards.md R440), so
`clock` is still that of the start of the step; what the handler sees is that or, where the step does not hold it there,
some value further on (R441). `State.begun` holds the clock in every step that would end before such a value; log 9. -/
def State.clockSeen (s : State) : BitVec 64 :=
  if s.clockHeld then s.clock else s.clock + BitVec.ofNat 64 (Config.freeClockAdvance s.handlerCount)

/-- What a handler leaves: `world` as its actions make it, every register as it was (20_memory.md R66, R67). -/
def State.afterHandler (s : State) (acts : List ModuleAction) : State :=
  { s with world := s.world.actAll s.cfg.pmSize acts, handlerCount := s.handlerCount + 1 }

/-- A read through handler `k`: the byte it answers, and its side effects, complete before anything else happens
(20_memory.md R64, R66). -/
def readByHandler (k : Nat) (a : Word) : Act Byte := fun s =>
  let reply := Config.readHandler k a s.world s.clockSeen
  .ok reply.1 (s.afterHandler reply.2)

/-- A write through handler `k` (20_memory.md R65, R66). -/
def writeByHandler (k : Nat) (a : Word) (v : Byte) : Act Unit := fun s =>
  .ok () (s.afterHandler (Config.writeHandler k a v s.world s.clockSeen))

/-- `Read8(a)`: pointer before handler, and a fault when both are null (20_memory.md R63, R64). -/
def read8 (a : Word) : Act Byte := fun s =>
  match s.world.readSpot a with
  | some loc => .ok (s.world.pm.read loc) s
  | none =>
    match s.world.readHandler a with
    | some k => readByHandler k a s
    | none => raise .undefinedRead s

/-- The state after a byte of backing memory is stored. -/
def State.stored (s : State) (loc : Nat) (v : Byte) : State :=
  { s with world := { s.world with pm := s.world.pm.write loc v } }

/-- `Write8(a, v)`: pointer before handler, and a fault when both are null, the value discarded
(20_memory.md R63, R65). -/
def write8 (a : Word) (v : Byte) : Act Unit := fun s =>
  match s.world.writeSpot a with
  | some loc => .ok () (s.stored loc v)
  | none =>
    match s.world.writeHandler a with
    | some k => writeByHandler k a v s
    | none => raise .undefinedWrite s

/-- `MemRead(a, 2)`: the byte at `a` first, the second address modulo 2^16 (20_memory.md R72, R75). -/
def read16 (a : Word) : Act Word := do
  let h ← read8 a
  let l ← read8 (a + 1)
  pure (cat h l)

/-- `MemWrite(a, 2, w)`: the high byte first (20_memory.md R73, R75). -/
def write16 (a : Word) (w : Word) : Act Unit := do
  write8 a (hi w)
  write8 (a + 1) (lo w)

/-- `Fetch8()`: PC advances only after the byte has been read (30_encoding.md R102). -/
def fetch8 : Act Byte := do
  let t ← read8 (← look fun s => s.pc)
  change fun s => { s with pc := s.pc + 1 }
  pure t

/-- D, the pair of A and B with A the high byte (10_state.md R21). -/
def State.d (s : State) : Word := cat s.a s.b

/-- Writing D writes A and B (10_state.md R21). -/
def State.setD (s : State) (w : Word) : State := { s with a := hi w, b := lo w }

/-- The base register `IR[rr]` (40_addressing_modes.md R146). -/
def State.ix (s : State) : IxReg → Word
  | .x => s.x
  | .y => s.y
  | .u => s.u
  | .s => s.s

/-- Write a base register. -/
def State.setIx (s : State) (r : IxReg) (w : Word) : State :=
  match r with
  | .x => { s with x := w }
  | .y => { s with y := w }
  | .u => { s with u := w }
  | .s => { s with s := w }

/-- The two accumulators. -/
inductive Acc where
  | a | b
deriving DecidableEq, Repr

/-- Read an accumulator. -/
def State.acc (s : State) : Acc → Byte
  | .a => s.a
  | .b => s.b

/-- Write an accumulator. -/
def State.setAcc (s : State) (r : Acc) (v : Byte) : State :=
  match r with
  | .a => { s with a := v }
  | .b => { s with b := v }

/-- The registers of the 16-bit instructions: D, X, Y, U, S (43_alu16.md R243 to R246). -/
inductive Wide where
  | d | x | y | u | s
deriving DecidableEq, Repr

/-- Read a 16-bit register. -/
def State.wide (s : State) : Wide → Word
  | .d => s.d
  | .x => s.x
  | .y => s.y
  | .u => s.u
  | .s => s.s

/-- Write a 16-bit register. -/
def State.setWide (s : State) (r : Wide) (w : Word) : State :=
  match r with
  | .d => s.setD w
  | .x => { s with x := w }
  | .y => { s with y := w }
  | .u => { s with u := w }
  | .s => { s with s := w }

/-- `reg16[c]` and `reg8[c]` of 45_stack_transfer.md R315, an 8-bit register with zeros above it. -/
def State.reg (s : State) : Reg → Word
  | .d => s.d
  | .x => s.x
  | .y => s.y
  | .u => s.u
  | .s => s.s
  | .pc => s.pc
  | .a => zext8 s.a
  | .b => zext8 s.b
  | .cc => zext8 s.cc.toByte
  | .dp => zext8 s.dp

/-- Write a register of 45_stack_transfer.md R315; an 8-bit register takes the low byte. -/
def State.setReg (s : State) (r : Reg) (w : Word) : State :=
  match r with
  | .d => s.setD w
  | .x => { s with x := w }
  | .y => { s with y := w }
  | .u => { s with u := w }
  | .s => { s with s := w }
  | .pc => { s with pc := w }
  | .a => { s with a := lo w }
  | .b => { s with b := lo w }
  | .cc => { s with cc := CC.ofByte (lo w) }
  | .dp => { s with dp := lo w }

/-- Set the NMI-armed latch where the instruction is in `P_ARM_SET`; nothing here clears it (10_state.md R29). -/
def State.arm (s : State) (inArmSet : Bool) : State := { s with nmiArmed := s.nmiArmed || inArmSet }

/-- The two stacks (10_state.md R23). -/
inductive Sp where
  | s | u
deriving DecidableEq, Repr

/-- The pointer of a stack. -/
def State.sp (s : State) : Sp → Word
  | .s => s.s
  | .u => s.u

/-- Move the pointer of a stack. -/
def State.setSp (s : State) (p : Sp) (w : Word) : State :=
  match p with
  | .s => { s with s := w }
  | .u => { s with u := w }

/-- `Push8(SP, v)`: the pointer moves before the write (45_stack_transfer.md R310). -/
def push8 (p : Sp) (v : Byte) : Act Unit := do
  change fun s => s.setSp p (s.sp p - 1)
  write8 (← look fun s => s.sp p) v

/-- `Push16(SP, w)`: the low byte first (45_stack_transfer.md R310). -/
def push16 (p : Sp) (w : Word) : Act Unit := do
  push8 p (lo w)
  push8 p (hi w)

/-- `Pull8(SP)`: the pointer moves after the read (45_stack_transfer.md R311). -/
def pull8 (p : Sp) : Act Byte := do
  let t ← read8 (← look fun s => s.sp p)
  change fun s => s.setSp p (s.sp p + 1)
  pure t

/-- `Pull16(SP)`: the high byte first (45_stack_transfer.md R311). -/
def pull16 (p : Sp) : Act Word := do
  let h ← pull8 p
  let l ← pull8 p
  pure (cat h l)

/-- `PushEntire()`: twelve bytes on the hardware stack (60_exceptions.md R372). -/
def pushEntire : Act Unit := do
  push16 .s (← look fun s => s.pc)
  push16 .s (← look fun s => s.u)
  push16 .s (← look fun s => s.y)
  push16 .s (← look fun s => s.x)
  push8 .s (← look fun s => s.dp)
  push8 .s (← look fun s => s.b)
  push8 .s (← look fun s => s.a)
  push8 .s (← look fun s => s.cc.toByte)

/-- Set or clear E, the entire-state flag (10_state.md R24). -/
def setE (e : Bool) : Act Unit := change fun s => { s with cc := { s.cc with e := e } }

/-- The three ways an entry stacks: the entire state, PC and CC alone, or nothing because CWAI has stacked already
(60_exceptions.md R372 to R375). -/
inductive Frame where
  | entire | short | stacked
deriving DecidableEq, Repr

/-- E takes its new value before CC is pushed (60_exceptions.md R372; 90_conflicts.md C7). -/
def pushFrame : Frame → Act Unit
  | .entire => do
    setE true
    pushEntire
  | .short => do
    setE false
    push16 .s (← look fun s => s.pc)
    push8 .s (← look fun s => s.cc.toByte)
  | .stacked => pure ()

/-- Taking an exception, for NMI, FIRQ, IRQ (60_exceptions.md R373 to R375) and for SWI, SWI2, SWI3
(46_misc_system.md R350 to R352): stack the frame, set the masks named, load PC from the vector. -/
def takeException (frame : Frame) (maskI maskF : Bool) (vector : Word) : Act Unit := do
  pushFrame frame
  change fun s => { s with cc := { s.cc with i := s.cc.i || maskI, f := s.cc.f || maskF } }
  let target ← read16 vector
  change fun s => { s with pc := target }

/-- Pull a byte of the hardware stack into the state. -/
def pull8To (p : Sp) (f : State → Byte → State) : Act Unit := do
  let v ← pull8 p
  change fun s => f s v

/-- Pull a word of a stack into the state, once both bytes are read. -/
def pull16To (p : Sp) (f : State → Word → State) : Act Unit := do
  let w ← pull16 p
  change fun s => f s w

/-- The registers of the entire frame above CC, up to U (46_misc_system.md R342). -/
def pullEntire : Act Unit := do
  pull8To .s fun s v => { s with a := v }
  pull8To .s fun s v => { s with b := v }
  pull8To .s fun s v => { s with dp := v }
  pull16To .s fun s w => { s with x := w }
  pull16To .s fun s w => { s with y := w }
  pull16To .s fun s w => { s with u := w }

/-- Returning from an exception: CC, then the entire frame if the E just pulled says so, then PC
(46_misc_system.md R342). The answer is whether the frame was the entire one. -/
def returnFromException : Act Bool := do
  pull8To .s fun s v => { s with cc := CC.ofByte v }
  let entire ← look fun s => s.cc.e
  onlyIf entire pullEntire
  pull16To .s fun s w => { s with pc := w }
  pure entire

/-- End an instruction: a fault has been recorded in the state already, so a faulted instruction has a next state like
any other (60_exceptions.md R363; log 1). -/
def finish (m : Act Unit) (s : State) : Host.Outcome State Fault Refusal :=
  match m s with
  | .ok _ t => .next t
  | .error _ t => .next t

end Sys2Proof.Machine
end

