-- ==== Sys2Proof/Machine/Cycles.lean ====
section
/-! DEFINITION. Cycle costs (70_reset_and_hazards.md R440 to R444): the default of each row, the add-on of each indexed
sub-mode, and the table `CYC` of a machine, which is the defaults with the rows that its parameters replace (log 14). -/

namespace Sys2Proof.Machine

/-- A cost by form of a memory operand. -/
def Mem.cycles (m : Mem) (dir idx ext : Nat) : Nat :=
  match m with
  | .dir _ => dir
  | .idx _ => idx
  | .ext _ => ext

/-- A cost by form of an 8-bit operand (70_reset_and_hazards.md R442, second row). -/
def Src8.cycles : Src8 → Nat
  | .imm _ => 2
  | .mem m => Mem.cycles m 4 4 5

/-- A cost by form of a 16-bit operand, `imm` being the cost of the immediate form; the memory forms cost 2, 2 and 3
more (70_reset_and_hazards.md R442). -/
def Src16.cycles (o : Src16) (imm : Nat) : Nat :=
  match o with
  | .imm _ => imm
  | .mem m => Mem.cycles m (imm + 2) (imm + 2) (imm + 3)

/-- The default `CYC` entry of an instruction's row (70_reset_and_hazards.md R442; the `cycles` column of
30_encoding.md R108 to R110), without what is added to it at run time. -/
def baseCycles : Instr → Nat
  | .neg m | .com m | .lsr m | .ror m | .asr m | .asl m | .rol m | .dec m | .inc m | .tst m | .clr m =>
    Mem.cycles m 6 6 7
  | .jmp m => Mem.cycles m 3 3 4
  | .jsr m => Mem.cycles m 7 7 8
  | .sta m | .stb m => Mem.cycles m 4 4 5
  | .stx m | .std m | .stu m => Mem.cycles m 5 5 6
  | .sty m | .sts m => Mem.cycles m 6 6 7
  | .nega | .coma | .lsra | .rora | .asra | .asla | .rola | .deca | .inca | .tsta | .clra => 2
  | .negb | .comb | .lsrb | .rorb | .asrb | .aslb | .rolb | .decb | .incb | .tstb | .clrb => 2
  | .suba o | .cmpa o | .sbca o | .anda o | .bita o | .lda o | .eora o | .adca o | .ora o | .adda o => Src8.cycles o
  | .subb o | .cmpb o | .sbcb o | .andb o | .bitb o | .ldb o | .eorb o | .adcb o | .orb o | .addb o => Src8.cycles o
  | .subd o | .addd o | .cmpx o => Src16.cycles o 4
  | .ldd o | .ldx o | .ldu o => Src16.cycles o 3
  | .cmpd o | .cmpy o | .cmpu o | .cmps o => Src16.cycles o 5
  | .ldy o | .lds o => Src16.cycles o 4
  | .leax _ | .leay _ | .leas _ | .leau _ => 4
  | .bra _ | .brn _ | .bhi _ | .bls _ | .bcc _ | .bcs _ | .bne _ | .beq _ => 3
  | .bvc _ | .bvs _ | .bpl _ | .bmi _ | .bge _ | .blt _ | .bgt _ | .ble _ => 3
  | .lbra _ | .lbrn _ | .lbhi _ | .lbls _ | .lbcc _ | .lbcs _ | .lbne _ | .lbeq _ => 5
  | .lbvc _ | .lbvs _ | .lbpl _ | .lbmi _ | .lbge _ | .lblt _ | .lbgt _ | .lble _ => 5
  | .bsr _ => 7
  | .lbsr _ => 9
  | .rts => 5
  | .rti => 6
  | .pshs _ | .puls _ | .pshu _ | .pulu _ => 5
  | .tfr _ _ => 6
  | .exg _ _ => 8
  | .nop | .daa | .sex => 2
  | .andcc _ | .orcc _ | .abx => 3
  | .mul => 11
  | .sync => 4
  | .cwai _ => 20
  | .swi => 19
  | .swi2 | .swi3 => 20

/-- The number of a sub-mode: `16 * ind + m` for form 1 (40_addressing_modes.md R146), 32 for the 5-bit form. -/
def subModeNumber : Idx → Nat
  | .off5 _ _ => 32
  | .inc1 _ => 0x0
  | .inc2 _ ind => 0x1 + 16 * ind.toNat
  | .dec1 _ => 0x2
  | .dec2 _ ind => 0x3 + 16 * ind.toNat
  | .zero _ ind => 0x4 + 16 * ind.toNat
  | .accB _ ind => 0x5 + 16 * ind.toNat
  | .accA _ ind => 0x6 + 16 * ind.toNat
  | .off8 _ _ ind => 0x8 + 16 * ind.toNat
  | .off16 _ _ ind => 0x9 + 16 * ind.toNat
  | .accD _ ind => 0xB + 16 * ind.toNat
  | .pcr8 _ ind => 0xC + 16 * ind.toNat
  | .pcr16 _ ind => 0xD + 16 * ind.toNat
  | .extInd _ => 0xF + 16

/-- An indirect sub-mode costs 3 more than its direct form (70_reset_and_hazards.md R443). -/
def indirectCycles (ind : Bool) (n : Nat) : Nat := if ind then n + 3 else n

/-- The default `CYC_IDX` (70_reset_and_hazards.md R443). -/
def idxCycles : Idx → Nat
  | .off5 _ _ => 1
  | .inc1 _ => 2
  | .inc2 _ ind => indirectCycles ind 3
  | .dec1 _ => 2
  | .dec2 _ ind => indirectCycles ind 3
  | .zero _ ind => indirectCycles ind 0
  | .accB _ ind => indirectCycles ind 1
  | .accA _ ind => indirectCycles ind 1
  | .off8 _ _ ind => indirectCycles ind 1
  | .off16 _ _ ind => indirectCycles ind 4
  | .accD _ ind => indirectCycles ind 4
  | .pcr8 _ ind => indirectCycles ind 1
  | .pcr16 _ ind => indirectCycles ind 5
  | .extInd _ => 5

/-- The entry that a list of replacements gives a key, or the default. -/
def replaced (rs : List (Nat × Nat)) (key dflt : Nat) : Nat := (SMap.find rs key).getD dflt

/-- `CYC[row]` of a machine (70_reset_and_hazards.md R440). -/
def rowCost (p : Params) (i : Instr) : Nat := replaced p.cycRow i.opNum (baseCycles i)

/-- `CYC_IDX[sub-mode]` of a machine (70_reset_and_hazards.md R443). -/
def idxCost (p : Params) (x : Idx) : Nat := replaced p.cycIdx (subModeNumber x) (idxCycles x)

/-- The indexed operand of an instruction, where its row's format is IDX. -/
def Mem.indexed? : Mem → Option Idx
  | .idx x => some x
  | _ => none

/-- The indexed operand of an 8-bit source. -/
def Src8.indexed? : Src8 → Option Idx
  | .mem m => Mem.indexed? m
  | .imm _ => none

/-- The indexed operand of a 16-bit source. -/
def Src16.indexed? : Src16 → Option Idx
  | .mem m => Mem.indexed? m
  | .imm _ => none

/-- The bytes a register list moves: one per 8-bit register, two per 16-bit register (45_stack_transfer.md R312). -/
def listBytes (l : RegList) : Nat :=
  l.cc.toNat + l.a.toNat + l.b.toNat + l.dp.toNat + 2 * (l.x.toNat + l.y.toNat + l.other.toNat + l.pc.toNat)

/-- The indexed operand of an instruction, if its row's format is IDX (30_encoding.md R106). -/
def indexedOf : Instr → Option Idx
  | .neg m | .com m | .lsr m | .ror m | .asr m | .asl m | .rol m | .dec m | .inc m | .tst m | .clr m =>
    Mem.indexed? m
  | .jmp m | .jsr m | .sta m | .stb m | .stx m | .std m | .stu m | .sty m | .sts m => Mem.indexed? m
  | .suba o | .cmpa o | .sbca o | .anda o | .bita o | .lda o | .eora o | .adca o | .ora o | .adda o =>
    Src8.indexed? o
  | .subb o | .cmpb o | .sbcb o | .andb o | .bitb o | .ldb o | .eorb o | .adcb o | .orb o | .addb o =>
    Src8.indexed? o
  | .subd o | .addd o | .cmpx o | .ldd o | .ldx o | .ldu o | .cmpd o | .cmpy o | .cmpu o | .cmps o | .ldy o
  | .lds o => Src16.indexed? o
  | .leax x | .leay x | .leas x | .leau x => some x
  | _ => none

/-- The cost of an executed instruction as its row, operand and list give it (70_reset_and_hazards.md R440). The taken
long branch and the entire RTI are added where they happen. -/
def cost (p : Params) (i : Instr) : Nat :=
  rowCost p i +
    (match indexedOf i with
     | some x => idxCost p x
     | none => 0) +
    (match i with
     | .pshs l | .puls l | .pshu l | .pulu l => p.cycPshByte * listBytes l
     | _ => 0)

/-- Run an instruction's effect and then add its cost once, at the end; an effect that faults adds nothing
(70_reset_and_hazards.md R440). -/
def perform (i : Instr) (body : Act Unit) (s : State) : Host.Outcome State Fault Refusal :=
  finish (do
    body
    spend (← look fun s => cost s.cfg i)) s

end Sys2Proof.Machine
end

