-- ==== Sys2Proof/Machine/Operands.lean ====
section
/-! DEFINITION. Every operand form: the addressing-mode resolver (40_addressing_modes.md) and the reading of 8-bit and
16-bit operands (42_alu8_binary.md R200, 43_alu16.md R240). The instruction's own bytes have all been fetched when a
resolver runs, so PC stands past them (30_encoding.md R103). -/

namespace Sys2Proof.Machine

/-- `EA_direct()` (40_addressing_modes.md R141). -/
def eaDirect (dd : Byte) : Act Word := look fun s => cat s.dp dd

/-- Post-increment: the old value is the address (40_addressing_modes.md R146, R149). -/
def postInc (r : IxReg) (n : Word) : Act Word := do
  let ea ← look fun s => s.ix r
  change fun s => s.setIx r (s.ix r + n)
  pure ea

/-- Pre-decrement: the new value is the address (40_addressing_modes.md R146, R149). -/
def preDec (r : IxReg) (n : Word) : Act Word := do
  change fun s => s.setIx r (s.ix r - n)
  look fun s => s.ix r

/-- With `ind` the address computed so far is that of a pointer (40_addressing_modes.md R150). -/
def indirect (ind : Bool) (ea : Word) : Act Word := if ind then read16 ea else pure ea

/-- `EA_indexed()` (40_addressing_modes.md R146): the base register moves before the pointer is read (R152). -/
def eaIndexed : Idx → Act Word
  | .off5 r n => look fun s => s.ix r + sext5 n
  | .inc1 r => postInc r 1
  | .inc2 r ind => do indirect ind (← postInc r 2)
  | .dec1 r => preDec r 1
  | .dec2 r ind => do indirect ind (← preDec r 2)
  | .zero r ind => do indirect ind (← look fun s => s.ix r)
  | .accB r ind => do indirect ind (← look fun s => s.ix r + sext8 s.b)
  | .accA r ind => do indirect ind (← look fun s => s.ix r + sext8 s.a)
  | .off8 r n ind => do indirect ind (← look fun s => s.ix r + sext8 n)
  | .off16 r n ind => do indirect ind (← look fun s => s.ix r + n)
  | .accD r ind => do indirect ind (← look fun s => s.ix r + s.d)
  | .pcr8 n ind => do indirect ind (← look fun s => s.pc + sext8 n)
  | .pcr16 n ind => do indirect ind (← look fun s => s.pc + n)
  | .extInd n => read16 n

/-- The effective address of a memory operand (40_addressing_modes.md R141, R142, R146). -/
def ea : Mem → Act Word
  | .dir dd => eaDirect dd
  | .ext a => pure a
  | .idx x => eaIndexed x

/-- `EA_rel8()`: PC is past the offset (40_addressing_modes.md R143). -/
def eaRel8 (n : Byte) : Act Word := look fun s => s.pc + sext8 n

/-- `EA_rel16()`: PC is past the offset (40_addressing_modes.md R144). -/
def eaRel16 (n : Word) : Act Word := look fun s => s.pc + n

/-- The operand of an 8-bit operation (42_alu8_binary.md R200). -/
def operand8 : Src8 → Act Byte
  | .imm b => pure b
  | .mem m => do read8 (← ea m)

/-- The operand of a 16-bit operation (43_alu16.md R240). -/
def operand16 : Src16 → Act Word
  | .imm w => pure w
  | .mem m => do read16 (← ea m)

end Sys2Proof.Machine
end

