-- ==== Sys2Proof/Machine/Alu16.lean ====
section
/-! DEFINITION. The 16-bit instructions (43_alu16.md): the wrapper of R240 over the pure functions of
Machine/Flags.lean, and one definition per instruction. -/

namespace Sys2Proof.Machine

/-- Operand, operation, result and flags (43_alu16.md R240 to R245); the register is read after the resolver ran. -/
def binary16 (f : CC → Word → Word → Word × CC) (r : Wide) (o : Src16) : Act Unit := do
  let m ← operand16 o
  change fun s =>
    let out := f s.cc (s.wide r) m
    { s with cc := out.2 }.setWide r out.1

/-- The compares: the flags of the subtraction, no result (43_alu16.md R243). -/
def compare16 (r : Wide) (o : Src16) : Act Unit := do
  let m ← operand16 o
  change fun s => { s with cc := (aluSub16 s.cc (s.wide r) m).2 }

/-- The stores: address, flags from the register as the resolver left it, then two byte writes, high byte first
(43_alu16.md R246). -/
def store16 (r : Wide) (m : Mem) : Act Unit := do
  let a ← ea m
  let w ← look fun s => s.wide r
  change fun s => { s with cc := s.cc.logic16 w }
  write16 a w

/-- LEAX and LEAY: the address itself, and Z (43_alu16.md R247). -/
def leaIndex (r : Wide) (x : Idx) : Act Unit := do
  let a ← eaIndexed x
  change fun s => { s with cc := { s.cc with z := a == 0 } }.setWide r a

/-- LEAS and LEAU: the address itself, no flag (43_alu16.md R248). -/
def leaStack (r : Wide) (x : Idx) : Act Unit := do
  let a ← eaIndexed x
  change fun s => s.setWide r a

/-- SUBD (43_alu16.md R241). -/
def execSubd (o : Src16) (s : State) : Host.Outcome State Fault Refusal :=
  perform (.subd o) (binary16 aluSub16 .d o) s

/-- ADDD (43_alu16.md R242). -/
def execAddd (o : Src16) (s : State) : Host.Outcome State Fault Refusal :=
  perform (.addd o) (binary16 aluAdd16 .d o) s

/-- CMPD (43_alu16.md R243). -/
def execCmpd (o : Src16) (s : State) : Host.Outcome State Fault Refusal :=
  perform (.cmpd o) (compare16 .d o) s

/-- CMPX (43_alu16.md R243). -/
def execCmpx (o : Src16) (s : State) : Host.Outcome State Fault Refusal :=
  perform (.cmpx o) (compare16 .x o) s

/-- CMPY (43_alu16.md R243). -/
def execCmpy (o : Src16) (s : State) : Host.Outcome State Fault Refusal :=
  perform (.cmpy o) (compare16 .y o) s

/-- CMPU (43_alu16.md R243). -/
def execCmpu (o : Src16) (s : State) : Host.Outcome State Fault Refusal :=
  perform (.cmpu o) (compare16 .u o) s

/-- CMPS (43_alu16.md R243). -/
def execCmps (o : Src16) (s : State) : Host.Outcome State Fault Refusal :=
  perform (.cmps o) (compare16 .s o) s

/-- LDD (43_alu16.md R244). -/
def execLdd (o : Src16) (s : State) : Host.Outcome State Fault Refusal :=
  perform (.ldd o) (binary16 aluLd16 .d o) s

/-- LDX (43_alu16.md R244). -/
def execLdx (o : Src16) (s : State) : Host.Outcome State Fault Refusal :=
  perform (.ldx o) (binary16 aluLd16 .x o) s

/-- LDY (43_alu16.md R244). -/
def execLdy (o : Src16) (s : State) : Host.Outcome State Fault Refusal :=
  perform (.ldy o) (binary16 aluLd16 .y o) s

/-- LDU (43_alu16.md R244). -/
def execLdu (o : Src16) (s : State) : Host.Outcome State Fault Refusal :=
  perform (.ldu o) (binary16 aluLd16 .u o) s

/-- LDS (43_alu16.md R245, with the NMI-armed latch). -/
def execLds (o : Src16) (s : State) : Host.Outcome State Fault Refusal :=
  perform (.lds o) (do
    binary16 aluLd16 .s o
    change fun t => t.arm t.cfg.armLds) s

/-- STD (43_alu16.md R246). -/
def execStd (m : Mem) (s : State) : Host.Outcome State Fault Refusal :=
  perform (.std m) (store16 .d m) s

/-- STX (43_alu16.md R246). -/
def execStx (m : Mem) (s : State) : Host.Outcome State Fault Refusal :=
  perform (.stx m) (store16 .x m) s

/-- STY (43_alu16.md R246). -/
def execSty (m : Mem) (s : State) : Host.Outcome State Fault Refusal :=
  perform (.sty m) (store16 .y m) s

/-- STU (43_alu16.md R246). -/
def execStu (m : Mem) (s : State) : Host.Outcome State Fault Refusal :=
  perform (.stu m) (store16 .u m) s

/-- STS (43_alu16.md R246). -/
def execSts (m : Mem) (s : State) : Host.Outcome State Fault Refusal :=
  perform (.sts m) (store16 .s m) s

/-- LEAX (43_alu16.md R247). -/
def execLeax (x : Idx) (s : State) : Host.Outcome State Fault Refusal :=
  perform (.leax x) (leaIndex .x x) s

/-- LEAY (43_alu16.md R247). -/
def execLeay (x : Idx) (s : State) : Host.Outcome State Fault Refusal :=
  perform (.leay x) (leaIndex .y x) s

/-- LEAS (43_alu16.md R248, with the NMI-armed latch). -/
def execLeas (x : Idx) (s : State) : Host.Outcome State Fault Refusal :=
  perform (.leas x) (do
    leaStack .s x
    change fun t => t.arm t.cfg.armLeas) s

/-- LEAU (43_alu16.md R248). -/
def execLeau (x : Idx) (s : State) : Host.Outcome State Fault Refusal :=
  perform (.leau x) (leaStack .u x) s

end Sys2Proof.Machine
end

