-- ==== Sys2Proof/Machine/Alu8Binary.lean ====
section
/-! DEFINITION. The 8-bit two-operand instructions (42_alu8_binary.md): the wrapper of R200 over the pure functions of
Machine/Flags.lean, and one definition per instruction. -/

namespace Sys2Proof.Machine

/-- Operand, operation, result and flags (42_alu8_binary.md R200); the accumulator is read after the resolver ran. -/
def binary8 (f : CC → Byte → Byte → Byte × CC) (r : Acc) (o : Src8) : Act Unit := do
  let m ← operand8 o
  change fun s =>
    let out := f s.cc (s.acc r) m
    { s with cc := out.2 }.setAcc r out.1

/-- CMP and BIT: the flags of the operation, no result (42_alu8_binary.md R203, R206). -/
def compare8 (f : CC → Byte → Byte → Byte × CC) (r : Acc) (o : Src8) : Act Unit := do
  let m ← operand8 o
  change fun s => { s with cc := (f s.cc (s.acc r) m).2 }

/-- ST: address, flags from the accumulator, then one write (42_alu8_binary.md R208). -/
def store8 (r : Acc) (m : Mem) : Act Unit := do
  let a ← ea m
  let v ← look fun s => s.acc r
  change fun s => { s with cc := s.cc.logic8 v }
  write8 a v

/-- SUBA (42_alu8_binary.md R202). -/
def execSuba (o : Src8) (s : State) : Host.Outcome State Fault Refusal :=
  perform (.suba o) (binary8 aluSub .a o) s

/-- CMPA (42_alu8_binary.md R203). -/
def execCmpa (o : Src8) (s : State) : Host.Outcome State Fault Refusal :=
  perform (.cmpa o) (compare8 aluSub .a o) s

/-- SBCA (42_alu8_binary.md R204). -/
def execSbca (o : Src8) (s : State) : Host.Outcome State Fault Refusal :=
  perform (.sbca o) (binary8 aluSbc .a o) s

/-- ANDA (42_alu8_binary.md R205). -/
def execAnda (o : Src8) (s : State) : Host.Outcome State Fault Refusal :=
  perform (.anda o) (binary8 aluAnd .a o) s

/-- BITA (42_alu8_binary.md R206). -/
def execBita (o : Src8) (s : State) : Host.Outcome State Fault Refusal :=
  perform (.bita o) (compare8 aluAnd .a o) s

/-- LDA (42_alu8_binary.md R207). -/
def execLda (o : Src8) (s : State) : Host.Outcome State Fault Refusal :=
  perform (.lda o) (binary8 aluLd .a o) s

/-- STA (42_alu8_binary.md R208). -/
def execSta (m : Mem) (s : State) : Host.Outcome State Fault Refusal :=
  perform (.sta m) (store8 .a m) s

/-- EORA (42_alu8_binary.md R209). -/
def execEora (o : Src8) (s : State) : Host.Outcome State Fault Refusal :=
  perform (.eora o) (binary8 aluEor .a o) s

/-- ADCA (42_alu8_binary.md R210). -/
def execAdca (o : Src8) (s : State) : Host.Outcome State Fault Refusal :=
  perform (.adca o) (binary8 aluAdc .a o) s

/-- ORA (42_alu8_binary.md R211). -/
def execOra (o : Src8) (s : State) : Host.Outcome State Fault Refusal :=
  perform (.ora o) (binary8 aluOr .a o) s

/-- ADDA (42_alu8_binary.md R212). -/
def execAdda (o : Src8) (s : State) : Host.Outcome State Fault Refusal :=
  perform (.adda o) (binary8 aluAdd .a o) s

/-- SUBB (42_alu8_binary.md R202). -/
def execSubb (o : Src8) (s : State) : Host.Outcome State Fault Refusal :=
  perform (.subb o) (binary8 aluSub .b o) s

/-- CMPB (42_alu8_binary.md R203). -/
def execCmpb (o : Src8) (s : State) : Host.Outcome State Fault Refusal :=
  perform (.cmpb o) (compare8 aluSub .b o) s

/-- SBCB (42_alu8_binary.md R204). -/
def execSbcb (o : Src8) (s : State) : Host.Outcome State Fault Refusal :=
  perform (.sbcb o) (binary8 aluSbc .b o) s

/-- ANDB (42_alu8_binary.md R205). -/
def execAndb (o : Src8) (s : State) : Host.Outcome State Fault Refusal :=
  perform (.andb o) (binary8 aluAnd .b o) s

/-- BITB (42_alu8_binary.md R206). -/
def execBitb (o : Src8) (s : State) : Host.Outcome State Fault Refusal :=
  perform (.bitb o) (compare8 aluAnd .b o) s

/-- LDB (42_alu8_binary.md R207). -/
def execLdb (o : Src8) (s : State) : Host.Outcome State Fault Refusal :=
  perform (.ldb o) (binary8 aluLd .b o) s

/-- STB (42_alu8_binary.md R208). -/
def execStb (m : Mem) (s : State) : Host.Outcome State Fault Refusal :=
  perform (.stb m) (store8 .b m) s

/-- EORB (42_alu8_binary.md R209). -/
def execEorb (o : Src8) (s : State) : Host.Outcome State Fault Refusal :=
  perform (.eorb o) (binary8 aluEor .b o) s

/-- ADCB (42_alu8_binary.md R210). -/
def execAdcb (o : Src8) (s : State) : Host.Outcome State Fault Refusal :=
  perform (.adcb o) (binary8 aluAdc .b o) s

/-- ORB (42_alu8_binary.md R211). -/
def execOrb (o : Src8) (s : State) : Host.Outcome State Fault Refusal :=
  perform (.orb o) (binary8 aluOr .b o) s

/-- ADDB (42_alu8_binary.md R212). -/
def execAddb (o : Src8) (s : State) : Host.Outcome State Fault Refusal :=
  perform (.addb o) (binary8 aluAdd .b o) s

end Sys2Proof.Machine
end

