-- ==== Sys2Proof/Machine/Alu8Unary.lean ====
section
/-! DEFINITION. The 8-bit one-operand instructions (41_alu8_unary.md): the wrapper of R180 over the pure functions of
Machine/Flags.lean, and one definition per instruction. -/

namespace Sys2Proof.Machine

/-- The register form (41_alu8_unary.md R180). -/
def unaryAcc (f : CC → Byte → Byte × CC) (r : Acc) : Act Unit := change fun s =>
  let o := f s.cc (s.acc r)
  { s with cc := o.2 }.setAcc r o.1

/-- The memory form: read, flags, write back at the same address (41_alu8_unary.md R180). -/
def unaryMem (f : CC → Byte → Byte × CC) (m : Mem) : Act Unit := do
  let a ← ea m
  let v ← read8 a
  let o ← look fun s => f s.cc v
  change fun s => { s with cc := o.2 }
  write8 a o.1

/-- TST on an accumulator: flags alone (41_alu8_unary.md R190). -/
def testAcc (r : Acc) : Act Unit := change fun s => { s with cc := s.cc.logic8 (s.acc r) }

/-- TST on memory: one read and no write (41_alu8_unary.md R190). -/
def testMem (m : Mem) : Act Unit := do
  let v ← read8 (← ea m)
  change fun s => { s with cc := s.cc.logic8 v }

/-- CLR on memory: with `P_CLR_READS` the byte is read and its value discarded before zero is written
(41_alu8_unary.md R191). -/
def clearMem (m : Mem) : Act Unit := do
  let a ← ea m
  let reads ← look fun s => s.cfg.clrReads
  onlyIf reads (do
    let _ ← read8 a
    pure ())
  let o ← look fun s => aluClr s.cc 0
  change fun s => { s with cc := o.2 }
  write8 a o.1

/-- NEG (41_alu8_unary.md R181). -/
def execNeg (m : Mem) (s : State) : Host.Outcome State Fault Refusal := perform (.neg m) (unaryMem aluNeg m) s

/-- COM (41_alu8_unary.md R182). -/
def execCom (m : Mem) (s : State) : Host.Outcome State Fault Refusal := perform (.com m) (unaryMem aluCom m) s

/-- LSR (41_alu8_unary.md R183). -/
def execLsr (m : Mem) (s : State) : Host.Outcome State Fault Refusal := perform (.lsr m) (unaryMem aluLsr m) s

/-- ROR (41_alu8_unary.md R184). -/
def execRor (m : Mem) (s : State) : Host.Outcome State Fault Refusal := perform (.ror m) (unaryMem aluRor m) s

/-- ASR (41_alu8_unary.md R185). -/
def execAsr (m : Mem) (s : State) : Host.Outcome State Fault Refusal := perform (.asr m) (unaryMem aluAsr m) s

/-- ASL (41_alu8_unary.md R186). -/
def execAsl (m : Mem) (s : State) : Host.Outcome State Fault Refusal := perform (.asl m) (unaryMem aluAsl m) s

/-- ROL (41_alu8_unary.md R187). -/
def execRol (m : Mem) (s : State) : Host.Outcome State Fault Refusal := perform (.rol m) (unaryMem aluRol m) s

/-- DEC (41_alu8_unary.md R188). -/
def execDec (m : Mem) (s : State) : Host.Outcome State Fault Refusal := perform (.dec m) (unaryMem aluDec m) s

/-- INC (41_alu8_unary.md R189). -/
def execInc (m : Mem) (s : State) : Host.Outcome State Fault Refusal := perform (.inc m) (unaryMem aluInc m) s

/-- TST (41_alu8_unary.md R190). -/
def execTst (m : Mem) (s : State) : Host.Outcome State Fault Refusal := perform (.tst m) (testMem m) s

/-- CLR (41_alu8_unary.md R191). -/
def execClr (m : Mem) (s : State) : Host.Outcome State Fault Refusal := perform (.clr m) (clearMem m) s

/-- NEGA (41_alu8_unary.md R181). -/
def execNega (s : State) : Host.Outcome State Fault Refusal := perform .nega (unaryAcc aluNeg .a) s

/-- COMA (41_alu8_unary.md R182). -/
def execComa (s : State) : Host.Outcome State Fault Refusal := perform .coma (unaryAcc aluCom .a) s

/-- LSRA (41_alu8_unary.md R183). -/
def execLsra (s : State) : Host.Outcome State Fault Refusal := perform .lsra (unaryAcc aluLsr .a) s

/-- RORA (41_alu8_unary.md R184). -/
def execRora (s : State) : Host.Outcome State Fault Refusal := perform .rora (unaryAcc aluRor .a) s

/-- ASRA (41_alu8_unary.md R185). -/
def execAsra (s : State) : Host.Outcome State Fault Refusal := perform .asra (unaryAcc aluAsr .a) s

/-- ASLA (41_alu8_unary.md R186). -/
def execAsla (s : State) : Host.Outcome State Fault Refusal := perform .asla (unaryAcc aluAsl .a) s

/-- ROLA (41_alu8_unary.md R187). -/
def execRola (s : State) : Host.Outcome State Fault Refusal := perform .rola (unaryAcc aluRol .a) s

/-- DECA (41_alu8_unary.md R188). -/
def execDeca (s : State) : Host.Outcome State Fault Refusal := perform .deca (unaryAcc aluDec .a) s

/-- INCA (41_alu8_unary.md R189). -/
def execInca (s : State) : Host.Outcome State Fault Refusal := perform .inca (unaryAcc aluInc .a) s

/-- TSTA (41_alu8_unary.md R190). -/
def execTsta (s : State) : Host.Outcome State Fault Refusal := perform .tsta (testAcc .a) s

/-- CLRA (41_alu8_unary.md R191). -/
def execClra (s : State) : Host.Outcome State Fault Refusal := perform .clra (unaryAcc aluClr .a) s

/-- NEGB (41_alu8_unary.md R181). -/
def execNegb (s : State) : Host.Outcome State Fault Refusal := perform .negb (unaryAcc aluNeg .b) s

/-- COMB (41_alu8_unary.md R182). -/
def execComb (s : State) : Host.Outcome State Fault Refusal := perform .comb (unaryAcc aluCom .b) s

/-- LSRB (41_alu8_unary.md R183). -/
def execLsrb (s : State) : Host.Outcome State Fault Refusal := perform .lsrb (unaryAcc aluLsr .b) s

/-- RORB (41_alu8_unary.md R184). -/
def execRorb (s : State) : Host.Outcome State Fault Refusal := perform .rorb (unaryAcc aluRor .b) s

/-- ASRB (41_alu8_unary.md R185). -/
def execAsrb (s : State) : Host.Outcome State Fault Refusal := perform .asrb (unaryAcc aluAsr .b) s

/-- ASLB (41_alu8_unary.md R186). -/
def execAslb (s : State) : Host.Outcome State Fault Refusal := perform .aslb (unaryAcc aluAsl .b) s

/-- ROLB (41_alu8_unary.md R187). -/
def execRolb (s : State) : Host.Outcome State Fault Refusal := perform .rolb (unaryAcc aluRol .b) s

/-- DECB (41_alu8_unary.md R188). -/
def execDecb (s : State) : Host.Outcome State Fault Refusal := perform .decb (unaryAcc aluDec .b) s

/-- INCB (41_alu8_unary.md R189). -/
def execIncb (s : State) : Host.Outcome State Fault Refusal := perform .incb (unaryAcc aluInc .b) s

/-- TSTB (41_alu8_unary.md R190). -/
def execTstb (s : State) : Host.Outcome State Fault Refusal := perform .tstb (testAcc .b) s

/-- CLRB (41_alu8_unary.md R191). -/
def execClrb (s : State) : Host.Outcome State Fault Refusal := perform .clrb (unaryAcc aluClr .b) s

end Sys2Proof.Machine
end

