-- ==== Sys2Proof/Machine/Control.lean ====
section
/-! DEFINITION. Control flow (44_control_flow.md): the sixteen short and sixteen long branches, calls, jumps and the
return. No instruction here writes a flag. -/

namespace Sys2Proof.Machine

/-- The short form of a branch (44_control_flow.md R270). -/
def branchShort (c : Cond) (n : Byte) : Act Unit := do
  let t ← eaRel8 n
  change fun s => if c.holds s.cc then { s with pc := t } else s

/-- The long form of a branch (44_control_flow.md R270). -/
def branchLong (c : Cond) (n : Word) : Act Unit := do
  let t ← eaRel16 n
  change fun s => if c.holds s.cc then { s with pc := t } else s

/-- A long conditional branch costs `CYC_BRANCH_TAKEN` more when it is taken (70_reset_and_hazards.md R440). -/
def performLong (i : Instr) (c : Cond) (n : Word) (s : State) : Host.Outcome State Fault Refusal :=
  finish (do
    let taken ← look fun t => c.holds t.cc
    branchLong c n
    spend (← look fun t => cost t.cfg i + if taken then t.cfg.cycBranchTaken else 0)) s

/-- Push the address of the next instruction and go to the target (44_control_flow.md R287, R289). -/
def call (target : Word) : Act Unit := do
  push16 .s (← look fun s => s.pc)
  change fun s => { s with pc := target }

/-- BRA (44_control_flow.md R271). -/
def execBra (n : Byte) (s : State) : Host.Outcome State Fault Refusal :=
  perform (.bra n) (branchShort .ra n) s

/-- BRN (44_control_flow.md R272). -/
def execBrn (n : Byte) (s : State) : Host.Outcome State Fault Refusal :=
  perform (.brn n) (branchShort .rn n) s

/-- BHI (44_control_flow.md R273). -/
def execBhi (n : Byte) (s : State) : Host.Outcome State Fault Refusal :=
  perform (.bhi n) (branchShort .hi n) s

/-- BLS (44_control_flow.md R274). -/
def execBls (n : Byte) (s : State) : Host.Outcome State Fault Refusal :=
  perform (.bls n) (branchShort .ls n) s

/-- BCC (44_control_flow.md R275). -/
def execBcc (n : Byte) (s : State) : Host.Outcome State Fault Refusal :=
  perform (.bcc n) (branchShort .cc n) s

/-- BCS (44_control_flow.md R276). -/
def execBcs (n : Byte) (s : State) : Host.Outcome State Fault Refusal :=
  perform (.bcs n) (branchShort .cs n) s

/-- BNE (44_control_flow.md R277). -/
def execBne (n : Byte) (s : State) : Host.Outcome State Fault Refusal :=
  perform (.bne n) (branchShort .ne n) s

/-- BEQ (44_control_flow.md R278). -/
def execBeq (n : Byte) (s : State) : Host.Outcome State Fault Refusal :=
  perform (.beq n) (branchShort .eq n) s

/-- BVC (44_control_flow.md R279). -/
def execBvc (n : Byte) (s : State) : Host.Outcome State Fault Refusal :=
  perform (.bvc n) (branchShort .vc n) s

/-- BVS (44_control_flow.md R280). -/
def execBvs (n : Byte) (s : State) : Host.Outcome State Fault Refusal :=
  perform (.bvs n) (branchShort .vs n) s

/-- BPL (44_control_flow.md R281). -/
def execBpl (n : Byte) (s : State) : Host.Outcome State Fault Refusal :=
  perform (.bpl n) (branchShort .pl n) s

/-- BMI (44_control_flow.md R282). -/
def execBmi (n : Byte) (s : State) : Host.Outcome State Fault Refusal :=
  perform (.bmi n) (branchShort .mi n) s

/-- BGE (44_control_flow.md R283). -/
def execBge (n : Byte) (s : State) : Host.Outcome State Fault Refusal :=
  perform (.bge n) (branchShort .ge n) s

/-- BLT (44_control_flow.md R284). -/
def execBlt (n : Byte) (s : State) : Host.Outcome State Fault Refusal :=
  perform (.blt n) (branchShort .lt n) s

/-- BGT (44_control_flow.md R285). -/
def execBgt (n : Byte) (s : State) : Host.Outcome State Fault Refusal :=
  perform (.bgt n) (branchShort .gt n) s

/-- BLE (44_control_flow.md R286). -/
def execBle (n : Byte) (s : State) : Host.Outcome State Fault Refusal :=
  perform (.ble n) (branchShort .le n) s

/-- LBRA, which is not conditional and has one cost (44_control_flow.md R271). -/
def execLbra (n : Word) (s : State) : Host.Outcome State Fault Refusal :=
  perform (.lbra n) (branchLong .ra n) s

/-- LBRN (44_control_flow.md R272). -/
def execLbrn (n : Word) (s : State) : Host.Outcome State Fault Refusal :=
  performLong (.lbrn n) .rn n s

/-- LBHI (44_control_flow.md R273). -/
def execLbhi (n : Word) (s : State) : Host.Outcome State Fault Refusal :=
  performLong (.lbhi n) .hi n s

/-- LBLS (44_control_flow.md R274). -/
def execLbls (n : Word) (s : State) : Host.Outcome State Fault Refusal :=
  performLong (.lbls n) .ls n s

/-- LBCC (44_control_flow.md R275). -/
def execLbcc (n : Word) (s : State) : Host.Outcome State Fault Refusal :=
  performLong (.lbcc n) .cc n s

/-- LBCS (44_control_flow.md R276). -/
def execLbcs (n : Word) (s : State) : Host.Outcome State Fault Refusal :=
  performLong (.lbcs n) .cs n s

/-- LBNE (44_control_flow.md R277). -/
def execLbne (n : Word) (s : State) : Host.Outcome State Fault Refusal :=
  performLong (.lbne n) .ne n s

/-- LBEQ (44_control_flow.md R278). -/
def execLbeq (n : Word) (s : State) : Host.Outcome State Fault Refusal :=
  performLong (.lbeq n) .eq n s

/-- LBVC (44_control_flow.md R279). -/
def execLbvc (n : Word) (s : State) : Host.Outcome State Fault Refusal :=
  performLong (.lbvc n) .vc n s

/-- LBVS (44_control_flow.md R280). -/
def execLbvs (n : Word) (s : State) : Host.Outcome State Fault Refusal :=
  performLong (.lbvs n) .vs n s

/-- LBPL (44_control_flow.md R281). -/
def execLbpl (n : Word) (s : State) : Host.Outcome State Fault Refusal :=
  performLong (.lbpl n) .pl n s

/-- LBMI (44_control_flow.md R282). -/
def execLbmi (n : Word) (s : State) : Host.Outcome State Fault Refusal :=
  performLong (.lbmi n) .mi n s

/-- LBGE (44_control_flow.md R283). -/
def execLbge (n : Word) (s : State) : Host.Outcome State Fault Refusal :=
  performLong (.lbge n) .ge n s

/-- LBLT (44_control_flow.md R284). -/
def execLblt (n : Word) (s : State) : Host.Outcome State Fault Refusal :=
  performLong (.lblt n) .lt n s

/-- LBGT (44_control_flow.md R285). -/
def execLbgt (n : Word) (s : State) : Host.Outcome State Fault Refusal :=
  performLong (.lbgt n) .gt n s

/-- LBLE (44_control_flow.md R286). -/
def execLble (n : Word) (s : State) : Host.Outcome State Fault Refusal :=
  performLong (.lble n) .le n s

/-- BSR (44_control_flow.md R287). -/
def execBsr (n : Byte) (s : State) : Host.Outcome State Fault Refusal :=
  perform (.bsr n) (do call (← eaRel8 n)) s

/-- LBSR (44_control_flow.md R287). -/
def execLbsr (n : Word) (s : State) : Host.Outcome State Fault Refusal :=
  perform (.lbsr n) (do call (← eaRel16 n)) s

/-- JMP: the byte at the target is not accessed (44_control_flow.md R288). -/
def execJmp (m : Mem) (s : State) : Host.Outcome State Fault Refusal :=
  perform (.jmp m) (do
    let a ← ea m
    change fun t => { t with pc := a }) s

/-- JSR: the address is final before the push (44_control_flow.md R289). -/
def execJsr (m : Mem) (s : State) : Host.Outcome State Fault Refusal :=
  perform (.jsr m) (do call (← ea m)) s

/-- RTS: both bytes are read before PC is written (44_control_flow.md R290). -/
def execRts (s : State) : Host.Outcome State Fault Refusal :=
  perform .rts (pull16To .s fun t w => { t with pc := w }) s

end Sys2Proof.Machine
end

