-- ==== Sys2Proof/Machine/Stack.lean ====
section
/-! DEFINITION. Register lists on the stacks, transfer and exchange (45_stack_transfer.md). -/

namespace Sys2Proof.Machine

/-- The stack pointer that bit 6 of the list names: the one the instruction does not use (45_stack_transfer.md R312). -/
def Sp.other : Sp → Sp
  | .s => .u
  | .u => .s

/-- Push the registers of a list, PC first and CC last (45_stack_transfer.md R313). -/
def pushList (p : Sp) (l : RegList) : Act Unit := do
  onlyIf l.pc (do push16 p (← look fun s => s.pc))
  onlyIf l.other (do push16 p (← look fun s => s.sp p.other))
  onlyIf l.y (do push16 p (← look fun s => s.y))
  onlyIf l.x (do push16 p (← look fun s => s.x))
  onlyIf l.dp (do push8 p (← look fun s => s.dp))
  onlyIf l.b (do push8 p (← look fun s => s.b))
  onlyIf l.a (do push8 p (← look fun s => s.a))
  onlyIf l.cc (do push8 p (← look fun s => s.cc.toByte))

/-- Pull the other stack pointer; a pull of S by PULU is in `P_ARM_SET` (45_stack_transfer.md R314). -/
def pullOther (p : Sp) : Act Unit :=
  pull16To p fun s w =>
    match p with
    | .s => s.setSp .u w
    | .u => (s.setSp .s w).arm s.cfg.armPulu

/-- Pull the registers of a list, CC first and PC last, each written as soon as it is read (45_stack_transfer.md
R314). -/
def pullList (p : Sp) (l : RegList) : Act Unit := do
  onlyIf l.cc (pull8To p fun s v => { s with cc := CC.ofByte v })
  onlyIf l.a (pull8To p fun s v => { s with a := v })
  onlyIf l.b (pull8To p fun s v => { s with b := v })
  onlyIf l.dp (pull8To p fun s v => { s with dp := v })
  onlyIf l.x (pull16To p fun s w => { s with x := w })
  onlyIf l.y (pull16To p fun s w => { s with y := w })
  onlyIf l.other (pullOther p)
  onlyIf l.pc (pull16To p fun s w => { s with pc := w })

/-- `CheckPair` as a fault: two registers of different widths (45_stack_transfer.md R315). -/
def checkPair (r1 r2 : Reg) : Act Unit := onlyIf (!sameWidth r1 r2) (raiseDecode .registerSelect)

/-- PSHS (45_stack_transfer.md R313). -/
def execPshs (l : RegList) (s : State) : Host.Outcome State Fault Refusal := perform (.pshs l) (pushList .s l) s

/-- PULS (45_stack_transfer.md R314). -/
def execPuls (l : RegList) (s : State) : Host.Outcome State Fault Refusal := perform (.puls l) (pullList .s l) s

/-- PSHU (45_stack_transfer.md R313). -/
def execPshu (l : RegList) (s : State) : Host.Outcome State Fault Refusal := perform (.pshu l) (pushList .u l) s

/-- PULU (45_stack_transfer.md R314). -/
def execPulu (l : RegList) (s : State) : Host.Outcome State Fault Refusal := perform (.pulu l) (pullList .u l) s

/-- TFR: a transfer to S is in `P_ARM_SET` (45_stack_transfer.md R316). -/
def execTfr (r1 r2 : Reg) (s : State) : Host.Outcome State Fault Refusal :=
  perform (.tfr r1 r2) (do
    checkPair r1 r2
    change fun t => (t.setReg r2 (t.reg r1)).arm (r2 == .s && t.cfg.armTfr)) s

/-- EXG: both registers are read before either is written; an exchange with S is in `P_ARM_SET`
(45_stack_transfer.md R317). -/
def execExg (r1 r2 : Reg) (s : State) : Host.Outcome State Fault Refusal :=
  perform (.exg r1 r2) (do
    checkPair r1 r2
    change fun t => ((t.setReg r1 (t.reg r2)).setReg r2 (t.reg r1)).arm ((r1 == .s || r2 == .s) && t.cfg.armExg)) s

end Sys2Proof.Machine
end

