-- ==== Sys2Proof/Machine/System.lean ====
section
/-! DEFINITION. Miscellaneous and system instructions (46_misc_system.md). -/

namespace Sys2Proof.Machine

/-- NOP: nothing after the opcode fetch (46_misc_system.md R330). -/
def execNop (s : State) : Host.Outcome State Fault Refusal := perform .nop (pure ()) s

/-- ANDCC (46_misc_system.md R331). -/
def execAndcc (m : Byte) (s : State) : Host.Outcome State Fault Refusal :=
  perform (.andcc m) (change fun t => { t with cc := CC.ofByte (t.cc.toByte &&& m) }) s

/-- ORCC (46_misc_system.md R332). -/
def execOrcc (m : Byte) (s : State) : Host.Outcome State Fault Refusal :=
  perform (.orcc m) (change fun t => { t with cc := CC.ofByte (t.cc.toByte ||| m) }) s

/-- DAA; V takes a free value (46_misc_system.md R333; log 11). -/
def execDaa (s : State) : Host.Outcome State Fault Refusal :=
  perform .daa (change fun t =>
    let o := aluDaa t.cc t.a (Config.freeFlag t.freeCount)
    { t with a := o.1, cc := o.2, freeCount := t.freeCount + 1 }) s

/-- MUL (46_misc_system.md R334). -/
def execMul (s : State) : Host.Outcome State Fault Refusal :=
  perform .mul (change fun t =>
    let o := aluMul t.cc t.a t.b
    { t with cc := o.2 }.setD o.1) s

/-- SEX (46_misc_system.md R335). -/
def execSex (s : State) : Host.Outcome State Fault Refusal :=
  perform .sex (change fun t =>
    let o := aluSex t.cc t.b
    { t with a := o.1, cc := o.2 }) s

/-- ABX: B is unsigned (46_misc_system.md R336). -/
def execAbx (s : State) : Host.Outcome State Fault Refusal :=
  perform .abx (change fun t => { t with x := t.x + zext8 t.b }) s

/-- SYNC (46_misc_system.md R340). -/
def execSync (s : State) : Host.Outcome State Fault Refusal :=
  perform .sync (change fun t => { t with waitSync := true }) s

/-- CWAI: the AND first, then E, the entire frame and the wait (46_misc_system.md R341). -/
def execCwai (m : Byte) (s : State) : Host.Outcome State Fault Refusal :=
  perform (.cwai m) (do
    change fun t => { t with cc := CC.ofByte (t.cc.toByte &&& m) }
    pushFrame .entire
    change fun t => { t with waitCwai := true }) s

/-- RTI: its cost depends on the E it pulled (46_misc_system.md R342, 70_reset_and_hazards.md R440). -/
def execRti (s : State) : Host.Outcome State Fault Refusal :=
  finish (do
    let entire ← returnFromException
    spend (← look fun t => if entire then t.cfg.cycRtiEntire else cost t.cfg .rti)) s

/-- A software interrupt; with `P_SWI` false its opcode has no row (46_misc_system.md R350; log 25). -/
def softwareInterrupt (maskI maskF : Bool) (vector : Word) : Act Unit := do
  let present ← look fun s => s.cfg.swi
  onlyIf (!present) (raiseDecode .instruction)
  takeException .entire maskI maskF vector

/-- SWI (46_misc_system.md R350). -/
def execSwi (s : State) : Host.Outcome State Fault Refusal := perform .swi (softwareInterrupt true true 0xFFFA) s

/-- SWI2 (46_misc_system.md R351). -/
def execSwi2 (s : State) : Host.Outcome State Fault Refusal := perform .swi2 (softwareInterrupt false false 0xFFF4) s

/-- SWI3 (46_misc_system.md R352). -/
def execSwi3 (s : State) : Host.Outcome State Fault Refusal := perform .swi3 (softwareInterrupt false false 0xFFF2) s

end Sys2Proof.Machine
end

