-- ==== Sys2Proof/Machine/Dispatch.lean ====
section
/-! DEFINITION. One arm per instruction, each a direct call of its meaning. -/

namespace Sys2Proof.Machine

/-- The meaning of an instruction, in a state whose PC stands past its bytes (30_encoding.md R101, R103). -/
def exec (i : Instr) (s : State) : Host.Outcome State Fault Refusal :=
  match i with
  | .neg m => Sys2Proof.Machine.execNeg m s
  | .com m => Sys2Proof.Machine.execCom m s
  | .lsr m => Sys2Proof.Machine.execLsr m s
  | .ror m => Sys2Proof.Machine.execRor m s
  | .asr m => Sys2Proof.Machine.execAsr m s
  | .asl m => Sys2Proof.Machine.execAsl m s
  | .rol m => Sys2Proof.Machine.execRol m s
  | .dec m => Sys2Proof.Machine.execDec m s
  | .inc m => Sys2Proof.Machine.execInc m s
  | .tst m => Sys2Proof.Machine.execTst m s
  | .jmp m => Sys2Proof.Machine.execJmp m s
  | .clr m => Sys2Proof.Machine.execClr m s
  | .nop => Sys2Proof.Machine.execNop s
  | .sync => Sys2Proof.Machine.execSync s
  | .lbra n => Sys2Proof.Machine.execLbra n s
  | .lbsr n => Sys2Proof.Machine.execLbsr n s
  | .daa => Sys2Proof.Machine.execDaa s
  | .orcc b => Sys2Proof.Machine.execOrcc b s
  | .andcc b => Sys2Proof.Machine.execAndcc b s
  | .sex => Sys2Proof.Machine.execSex s
  | .exg r1 r2 => Sys2Proof.Machine.execExg r1 r2 s
  | .tfr r1 r2 => Sys2Proof.Machine.execTfr r1 r2 s
  | .bra n => Sys2Proof.Machine.execBra n s
  | .brn n => Sys2Proof.Machine.execBrn n s
  | .bhi n => Sys2Proof.Machine.execBhi n s
  | .bls n => Sys2Proof.Machine.execBls n s
  | .bcc n => Sys2Proof.Machine.execBcc n s
  | .bcs n => Sys2Proof.Machine.execBcs n s
  | .bne n => Sys2Proof.Machine.execBne n s
  | .beq n => Sys2Proof.Machine.execBeq n s
  | .bvc n => Sys2Proof.Machine.execBvc n s
  | .bvs n => Sys2Proof.Machine.execBvs n s
  | .bpl n => Sys2Proof.Machine.execBpl n s
  | .bmi n => Sys2Proof.Machine.execBmi n s
  | .bge n => Sys2Proof.Machine.execBge n s
  | .blt n => Sys2Proof.Machine.execBlt n s
  | .bgt n => Sys2Proof.Machine.execBgt n s
  | .ble n => Sys2Proof.Machine.execBle n s
  | .leax x => Sys2Proof.Machine.execLeax x s
  | .leay x => Sys2Proof.Machine.execLeay x s
  | .leas x => Sys2Proof.Machine.execLeas x s
  | .leau x => Sys2Proof.Machine.execLeau x s
  | .pshs l => Sys2Proof.Machine.execPshs l s
  | .puls l => Sys2Proof.Machine.execPuls l s
  | .pshu l => Sys2Proof.Machine.execPshu l s
  | .pulu l => Sys2Proof.Machine.execPulu l s
  | .rts => Sys2Proof.Machine.execRts s
  | .abx => Sys2Proof.Machine.execAbx s
  | .rti => Sys2Proof.Machine.execRti s
  | .cwai b => Sys2Proof.Machine.execCwai b s
  | .mul => Sys2Proof.Machine.execMul s
  | .swi => Sys2Proof.Machine.execSwi s
  | .nega => Sys2Proof.Machine.execNega s
  | .coma => Sys2Proof.Machine.execComa s
  | .lsra => Sys2Proof.Machine.execLsra s
  | .rora => Sys2Proof.Machine.execRora s
  | .asra => Sys2Proof.Machine.execAsra s
  | .asla => Sys2Proof.Machine.execAsla s
  | .rola => Sys2Proof.Machine.execRola s
  | .deca => Sys2Proof.Machine.execDeca s
  | .inca => Sys2Proof.Machine.execInca s
  | .tsta => Sys2Proof.Machine.execTsta s
  | .clra => Sys2Proof.Machine.execClra s
  | .negb => Sys2Proof.Machine.execNegb s
  | .comb => Sys2Proof.Machine.execComb s
  | .lsrb => Sys2Proof.Machine.execLsrb s
  | .rorb => Sys2Proof.Machine.execRorb s
  | .asrb => Sys2Proof.Machine.execAsrb s
  | .aslb => Sys2Proof.Machine.execAslb s
  | .rolb => Sys2Proof.Machine.execRolb s
  | .decb => Sys2Proof.Machine.execDecb s
  | .incb => Sys2Proof.Machine.execIncb s
  | .tstb => Sys2Proof.Machine.execTstb s
  | .clrb => Sys2Proof.Machine.execClrb s
  | .suba o => Sys2Proof.Machine.execSuba o s
  | .cmpa o => Sys2Proof.Machine.execCmpa o s
  | .sbca o => Sys2Proof.Machine.execSbca o s
  | .subd o => Sys2Proof.Machine.execSubd o s
  | .anda o => Sys2Proof.Machine.execAnda o s
  | .bita o => Sys2Proof.Machine.execBita o s
  | .lda o => Sys2Proof.Machine.execLda o s
  | .eora o => Sys2Proof.Machine.execEora o s
  | .adca o => Sys2Proof.Machine.execAdca o s
  | .ora o => Sys2Proof.Machine.execOra o s
  | .adda o => Sys2Proof.Machine.execAdda o s
  | .cmpx o => Sys2Proof.Machine.execCmpx o s
  | .bsr n => Sys2Proof.Machine.execBsr n s
  | .ldx o => Sys2Proof.Machine.execLdx o s
  | .sta m => Sys2Proof.Machine.execSta m s
  | .jsr m => Sys2Proof.Machine.execJsr m s
  | .stx m => Sys2Proof.Machine.execStx m s
  | .subb o => Sys2Proof.Machine.execSubb o s
  | .cmpb o => Sys2Proof.Machine.execCmpb o s
  | .sbcb o => Sys2Proof.Machine.execSbcb o s
  | .addd o => Sys2Proof.Machine.execAddd o s
  | .andb o => Sys2Proof.Machine.execAndb o s
  | .bitb o => Sys2Proof.Machine.execBitb o s
  | .ldb o => Sys2Proof.Machine.execLdb o s
  | .eorb o => Sys2Proof.Machine.execEorb o s
  | .adcb o => Sys2Proof.Machine.execAdcb o s
  | .orb o => Sys2Proof.Machine.execOrb o s
  | .addb o => Sys2Proof.Machine.execAddb o s
  | .ldd o => Sys2Proof.Machine.execLdd o s
  | .ldu o => Sys2Proof.Machine.execLdu o s
  | .stb m => Sys2Proof.Machine.execStb m s
  | .std m => Sys2Proof.Machine.execStd m s
  | .stu m => Sys2Proof.Machine.execStu m s
  | .lbrn n => Sys2Proof.Machine.execLbrn n s
  | .lbhi n => Sys2Proof.Machine.execLbhi n s
  | .lbls n => Sys2Proof.Machine.execLbls n s
  | .lbcc n => Sys2Proof.Machine.execLbcc n s
  | .lbcs n => Sys2Proof.Machine.execLbcs n s
  | .lbne n => Sys2Proof.Machine.execLbne n s
  | .lbeq n => Sys2Proof.Machine.execLbeq n s
  | .lbvc n => Sys2Proof.Machine.execLbvc n s
  | .lbvs n => Sys2Proof.Machine.execLbvs n s
  | .lbpl n => Sys2Proof.Machine.execLbpl n s
  | .lbmi n => Sys2Proof.Machine.execLbmi n s
  | .lbge n => Sys2Proof.Machine.execLbge n s
  | .lblt n => Sys2Proof.Machine.execLblt n s
  | .lbgt n => Sys2Proof.Machine.execLbgt n s
  | .lble n => Sys2Proof.Machine.execLble n s
  | .swi2 => Sys2Proof.Machine.execSwi2 s
  | .cmpd o => Sys2Proof.Machine.execCmpd o s
  | .cmpy o => Sys2Proof.Machine.execCmpy o s
  | .ldy o => Sys2Proof.Machine.execLdy o s
  | .sty m => Sys2Proof.Machine.execSty m s
  | .lds o => Sys2Proof.Machine.execLds o s
  | .sts m => Sys2Proof.Machine.execSts m s
  | .swi3 => Sys2Proof.Machine.execSwi3 s
  | .cmpu o => Sys2Proof.Machine.execCmpu o s
  | .cmps o => Sys2Proof.Machine.execCmps o s

end Sys2Proof.Machine
end

