-- ==== Sys2Proof/Machine/Fetch.lean ====
section
/-! DEFINITION. Instruction fetch: the stream is read byte by byte through the bus until the decoder has its answer
(30_encoding.md R100 to R105), so that every fault arises in the order of 60_exceptions.md R384. Also how an
instruction is placed where the next step fetches it. -/

namespace Sys2Proof.Machine

/-- The fault of an illegal encoding (60_exceptions.md R364, R365, R368). -/
def faultOf : Reject → Fault
  | .noOpcode => .instruction
  | .noSubMode => .addressMode
  | .noRegisterPair => .registerSelect

/-- Fetch until the decoder answers. `n` bounds the bytes still to come; the decoder never asks for more than the
longest instruction has (30_encoding.md R100), so the last line is out of reach (60_exceptions.md R369). -/
def fetchMore : Nat → List Byte → Act Instr
  | 0, _ => raise .internalError
  | n + 1, bs => do
    let bs' := bs ++ [← fetch8]
    let dc ← look fun s => s.cfg.extIndRrDontCare
    match decode dc bs' with
    | .ok i _ => pure i
    | .bad r => raiseDecode (faultOf r)
    | .more => fetchMore n bs'

/-- Fetch and decode one instruction; PC ends past its last byte (30_encoding.md R101, R102). -/
def fetchInstr : Act Instr := fetchMore maxLength []

/-- Store a byte where a fetch at `a` reads it. A page with no read pointer is given one, at the location that is 256
times its number. -/
def World.place (w : World) (a : Word) (v : Byte) : World :=
  match w.readSpot a with
  | some loc => { w with pm := w.pm.write loc v }
  | none =>
    { w with
      rp := SMap.put w.rp (pageOf a) (some (256 * pageOf a))
      pm := w.pm.write (256 * pageOf a + offOf a) v }

/-- Store bytes at consecutive addresses. -/
def World.placeAll : World → Word → List Byte → World
  | w, _, [] => w
  | w, a, b :: bs => (w.place a b).placeAll (a + 1) bs

/-- Store bytes at PC, end both wait states, and withdraw the lines that the next interrupt check would service, so
that the next step fetches them (60_exceptions.md R370; log 4). -/
def State.placeAtPc (s : State) (bs : List Byte) : State :=
  let w := s.world.placeAll s.pc bs
  { s with
    waitCwai := false
    waitSync := false
    world :=
      { w with
        lineNmi := w.lineNmi && !s.nmiArmed
        lineFirq := w.lineFirq && s.cc.f
        lineIrq := w.lineIrq && s.cc.i } }

end Sys2Proof.Machine
end

