-- ==== Sys2Proof/Machine/Interrupts.lean ====
section
/-! DEFINITION. The interrupt and wait-state controller (60_exceptions.md R370 to R380). -/

namespace Sys2Proof.Machine

/-- What the interrupt check answers (60_exceptions.md R370). -/
inductive Check where
  | serviced | idle | proceed
deriving DecidableEq, Repr

/-- The frame an entry stacks: none when CWAI has stacked already (60_exceptions.md R373 to R375, R378). -/
def entryFrame (f : Frame) : Act Frame := look fun s => if s.waitCwai then .stacked else f

/-- An interrupt service clears both wait states (60_exceptions.md R373 to R375). -/
def clearWaits : Act Unit := change fun s => { s with waitCwai := false, waitSync := false }

/-- `ServiceNMI()`: both masks set, the line cleared at the end (60_exceptions.md R373). -/
def serviceNmi : Act Unit := do
  takeException (← entryFrame .entire) true true 0xFFFC
  clearWaits
  spend (← look fun s => s.cfg.cycNmi)
  change fun s => { s with world := { s.world with lineNmi := false } }

/-- `ServiceFIRQ()`: the short frame, and F alone is set (60_exceptions.md R374). -/
def serviceFirq : Act Unit := do
  takeException (← entryFrame .short) false true 0xFFF6
  clearWaits
  spend (← look fun s => s.cfg.cycFirq)
  change fun s => { s with world := { s.world with lineFirq := s.world.lineFirq && !s.cfg.maskableAutoclear } }

/-- `ServiceIRQ()`: the entire frame, and I alone is set (60_exceptions.md R375). -/
def serviceIrq : Act Unit := do
  takeException (← entryFrame .entire) true false 0xFFF8
  clearWaits
  spend (← look fun s => s.cfg.cycIrq)
  change fun s => { s with world := { s.world with lineIrq := s.world.lineIrq && !s.cfg.maskableAutoclear } }

/-- The NMI line is asserted and armed (60_exceptions.md R370). -/
def State.nmiReady (s : State) : Bool := s.world.lineNmi && s.nmiArmed

/-- The FIRQ line is asserted and not masked (60_exceptions.md R370). -/
def State.firqReady (s : State) : Bool := s.world.lineFirq && !s.cc.f

/-- The IRQ line is asserted and not masked (60_exceptions.md R370). -/
def State.irqReady (s : State) : Bool := s.world.lineIrq && !s.cc.i

/-- Any line asserted, masks aside: what ends the wait of SYNC. Whether an unarmed NMI counts is
`P_SYNC_COUNTS_UNARMED_NMI` (60_exceptions.md R379). -/
def State.lineReleasesSync (s : State) : Bool :=
  (s.world.lineNmi && (s.nmiArmed || s.cfg.syncCountsUnarmedNmi)) || s.world.lineFirq || s.world.lineIrq

/-- An idle step: `CYC_IDLE` and nothing else (60_exceptions.md R378, R379). -/
def idleStep : Act Check := do
  spend (← look fun s => s.cfg.cycIdle)
  pure .idle

/-- A service as an answer of the interrupt check. -/
def served (m : Act Unit) : Act Check := do
  m
  pure .serviced

/-- The wait states, when no interrupt is serviced (60_exceptions.md R370, R378, R379). -/
def checkWaits : Act Check := fun s =>
  if s.waitCwai then idleStep s
  else if s.waitSync then
    if s.lineReleasesSync then .ok .proceed { s with waitSync := false } else idleStep s
  else .ok .proceed s

/-- `InterruptCheck()`: the first line that is ready wins (60_exceptions.md R370, R376). -/
def interruptCheck : Act Check := fun s =>
  if s.nmiReady then served serviceNmi s
  else if s.firqReady then served serviceFirq s
  else if s.irqReady then served serviceIrq s
  else checkWaits s

end Sys2Proof.Machine
end

