-- ==== Sys2Proof/Machine/Boundary.lean ====
section
/-! DEFINITION. What happens between two step boundaries (30_encoding.md R101): how a step begins, the interrupt check,
the fetch and the instruction. -/

namespace Sys2Proof.Machine

/-- Everything a step does before an instruction is executed: the interrupt check and, when no interrupt is serviced
and no wait holds, the fetch (30_encoding.md R101). -/
def beforeExec : Act (Option Instr) := do
  match ← interruptCheck with
  | .serviced => pure none
  | .idle => pure none
  | .proceed => do
    let i ← fetchInstr
    pure (some i)

/-- A step that has begun; a fault ends it with the code recorded in the next state (60_exceptions.md R362, R363;
log 1). -/
def runStep (s : State) : Host.Outcome State Fault Refusal :=
  match beforeExec s with
  | .error _ t => .next t
  | .ok none t => .next t
  | .ok (some i) t => exec i t

/-- The fault code is OK at the start of a step (10_state.md R31). `held` is whether its handlers see the clock at that
moment (log 9). -/
def State.begin (s : State) (held : Bool) : State := { s with fault := none, clockHeld := held }

/-- Every clock that the handlers of a step from `s` to `t` would see further on lies no later than the clock after the
step (70_reset_and_hazards.md R441). -/
def clockFits (s t : State) : Bool :=
  (List.range (t.handlerCount - s.handlerCount)).all fun n =>
    decide (s.clock.toNat + Config.freeClockAdvance (s.handlerCount + n) ≤ t.clock.toNat)

/-- The step would end before a clock that one of its handlers has seen, which R441 excludes. -/
def State.mustHold (s : State) : Bool :=
  match runStep (s.begin false) with
  | .next t => !clockFits s t
  | .fault _ => true
  | .refused _ => true

/-- The state in which a step runs: its handlers see a free clock between that before and that after the step
(70_reset_and_hazards.md R441), and where the free values lie further on, the clock before it. Every choice that R441
leaves a step is the one for some free values, and no other is; log 9. -/
def State.begun (s : State) : State := s.begin s.mustHold

end Sys2Proof.Machine
end

