-- ==== Sys2Proof/Machine/Step.lean ====
section
/-! DEFINITION. `Step()` (30_encoding.md R101): the fault code is cleared, the interrupt check runs once, and if it says
so one instruction is fetched and executed. -/

namespace Sys2Proof.Machine

/-- One step (30_encoding.md R101). -/
def step (s : State) : Host.Outcome State Fault Refusal := runStep s.begun

/-- The state with an instruction, its bits numbered as the opcode table numbers them, where the next step fetches
(log 4). -/
def State.withFetchWord (s : State) (nbits w : Nat) : State := s.placeAtPc (tableBytes nbits w)

end Sys2Proof.Machine
end

