-- ==== Sys2Proof/Machine/Ports.lean ====
section
/-! DEFINITION. The host interface: what the outside does to CORE between steps (70_reset_and_hazards.md R420 to R435,
20_memory.md R68, R81). -/

namespace Sys2Proof.Machine

/-- What a host operation that returns a fault code answers: the code, `none` for OK, and the state. -/
structure Returned where
  code : Option Fault
  state : State
deriving DecidableEq, Repr

/-- `next_cb` is set to `PERIOD` by `Reset()` when a callback is installed (70_reset_and_hazards.md R431). -/
def State.rearmCallback (s : State) : State :=
  match s.cfg.period with
  | some n => { s with nextCb := BitVec.ofNat 64 n }
  | none => s

/-- `Reset()` up to its vector read (70_reset_and_hazards.md R420). `Reset()` costs no cycles, so the handlers of that
read see the clock it has just set (R441). -/
def State.cleared (s : State) : State :=
  { s.rearmCallback with
    cc := CC.ofByte 0x50
    nmiArmed := false
    waitCwai := false
    waitSync := false
    dp := if s.cfg.resetDpZero then 0 else s.dp
    clock := 0
    clockHeld := true
    fault := none }

/-- `Reset()`: the vector read comes last, and PC is written once both bytes are read (70_reset_and_hazards.md R420,
R421). -/
def hostReset (s : State) : Returned :=
  match read16 0xFFFE s.cleared with
  | .ok target t => ⟨t.fault, { t with pc := target }⟩
  | .error _ t => ⟨t.fault, t⟩

/-- `Step()` with the fault code it returns (00_scope.md R11, 30_encoding.md R101). `step` answers a next state always,
so the last two lines are out of reach. -/
def hostStep (s : State) : Returned :=
  match step s with
  | .next t => ⟨t.fault, t⟩
  | .fault k => ⟨some k, s⟩
  | .refused _ => ⟨some .internalError, s⟩

/-- Run the callback while it is due; `n` bounds the number of runs (70_reset_and_hazards.md R431). -/
def runCallbacks (period : Nat) : Nat → State → State
  | 0, s => s
  | n + 1, s =>
    if s.nextCb ≤ s.clock then
      runCallbacks period n
        { s with
          world := s.world.actAll s.cfg.pmSize (Config.callback s.world s.clock)
          nextCb := s.nextCb + BitVec.ofNat 64 period }
    else s

/-- `PeriodicCheck()`: nothing without a callback (70_reset_and_hazards.md R431). `PERIOD` is positive, so the callback
is due at most `(clock - next_cb) / PERIOD + 1` times. -/
def periodicCheck (s : State) : State :=
  match s.cfg.period with
  | none => s
  | some n => runCallbacks n ((s.clock.toNat - s.nextCb.toNat) / n + 1) s

/-- The loop of `Run`: the test comes before each step, a fault ends it after the periodic check
(70_reset_and_hazards.md R430). `fuel` bounds the steps. -/
def runLoop (budget : Nat) (start : BitVec 64) : Nat → State → Returned
  | 0, s => ⟨none, s⟩
  | fuel + 1, s =>
    if (s.clock - start).toNat < budget then
      let r := hostStep s
      let t := periodicCheck r.state
      match r.code with
      | some k => ⟨some k, t⟩
      | none => runLoop budget start fuel t
    else ⟨none, s⟩

/-- `Run(n)` (70_reset_and_hazards.md R430). A step that does not fault costs at least one cycle (R440), so `n` steps
use the budget up; log 22. -/
def hostRun (n : Nat) (s : State) : Returned := runLoop n s.clock n s

/-- `GetClock()` (70_reset_and_hazards.md R433). -/
def getClock (s : State) : BitVec 64 := s.clock

/-- The registration calls and everything else a module may do between steps (20_memory.md R68, R81). -/
def State.moduleAct (s : State) (m : ModuleAction) : State := { s with world := s.world.actAll s.cfg.pmSize [m] }

/-- The host's mutators (70_reset_and_hazards.md R432): every register, CC as a byte and flag by flag, and the lines.
The lines are written through `ModuleAction`. -/
inductive HostWrite where
  | a (v : Byte)
  | b (v : Byte)
  | d (w : Word)
  | x (w : Word)
  | y (w : Word)
  | u (w : Word)
  | s (w : Word)
  | pc (w : Word)
  | dp (v : Byte)
  | cc (v : Byte)
  | flagE (on : Bool)
  | flagF (on : Bool)
  | flagH (on : Bool)
  | flagI (on : Bool)
  | flagN (on : Bool)
  | flagZ (on : Bool)
  | flagV (on : Bool)
  | flagC (on : Bool)
  | lineNmi (on : Bool)
  | lineFirq (on : Bool)
  | lineIrq (on : Bool)
deriving DecidableEq, Repr

/-- A mutator writes exactly the named item (70_reset_and_hazards.md R432). Whether the mutator of S sets the NMI-armed
latch is the open parameter `P_HOST_S_ARMS`. -/
def State.hostWrite (s : State) : HostWrite → State
  | .a v => { s with a := v }
  | .b v => { s with b := v }
  | .d w => s.setD w
  | .x w => { s with x := w }
  | .y w => { s with y := w }
  | .u w => { s with u := w }
  | .s w => { s with s := w }.arm s.cfg.hostSArms
  | .pc w => { s with pc := w }
  | .dp v => { s with dp := v }
  | .cc v => { s with cc := CC.ofByte v }
  | .flagE on => { s with cc := { s.cc with e := on } }
  | .flagF on => { s with cc := { s.cc with f := on } }
  | .flagH on => { s with cc := { s.cc with h := on } }
  | .flagI on => { s with cc := { s.cc with i := on } }
  | .flagN on => { s with cc := { s.cc with n := on } }
  | .flagZ on => { s with cc := { s.cc with z := on } }
  | .flagV on => { s with cc := { s.cc with v := on } }
  | .flagC on => { s with cc := { s.cc with c := on } }
  | .lineNmi on => s.moduleAct (.setNmi on)
  | .lineFirq on => s.moduleAct (.setFirq on)
  | .lineIrq on => s.moduleAct (.setIrq on)

/-- Install the periodic callback: `next_cb` becomes `clock + PERIOD` (70_reset_and_hazards.md R431). -/
def State.installCallback (s : State) (period : Nat) : State :=
  { s with cfg := { s.cfg with period := some period }, nextCb := s.clock + BitVec.ofNat 64 period }

/-- The machine at power-on, before the first `Reset()` (10_state.md R41): tables null and lines false, as R41 says.
DESIGN CHOICE: R41 and 00_scope.md R7 leave A, B, X, Y, U, S and DP open (any value), and the spec gives PC, CC, the
clock, the NMI-armed latch, both wait states, the fault code and `next_cb` no power-on value. The model takes zero, false
and OK for each of them (logs 2, 3, 19 and 30). -/
def State.powerOn : State :=
  { State.reset with fault := none, cc := CC.ofByte 0 }

end Sys2Proof.Machine
end

