-- ==== Sys2Proof/Safety.lean ====
section
/-! DEFINITION. The terms in which claims speak of good states, good steps and what an instruction may touch. -/

namespace Sys2Proof.Machine

/-- The invariant of every reachable state: the tables and the backing memory are in canonical form, and the two wait
states do not hold together (10_state.md R39 (a)); every raw pointer references 256 bytes of backing memory (10_state.md
R33; log 6). -/
def State.Inv (s : State) : Prop :=
  s.world.wf = true ∧ ¬ (s.waitCwai = true ∧ s.waitSync = true) ∧ s.world.fits s.cfg.pmSize = true

/-- No interrupt is serviced at this boundary and neither wait state holds: the step will fetch
(60_exceptions.md R370). -/
def State.Fetches (s : State) : Prop :=
  s.nmiReady = false ∧ s.firqReady = false ∧ s.irqReady = false ∧ s.waitCwai = false ∧
    (s.waitSync = true → s.lineReleasesSync = true)

/-- The bytes `bs` lie at `a` and on, served by raw read pointers (20_memory.md R62, R84). -/
def World.holdsBytes (w : World) (a : Word) : List Byte → Prop
  | [] => True
  | b :: bs => w.peek a = some b ∧ w.holdsBytes (a + 1) bs

/-- No page handler is installed: every access goes through a raw pointer or faults (20_memory.md R62, R63). -/
def World.NoHandlers (w : World) : Prop := w.rh = [] ∧ w.wh = []

/-- The `n` addresses from `a` on are plain memory, each its own byte: reads and writes of an address go to one
location, and no two of the addresses share it (10_state.md R32, 20_memory.md R62). -/
def World.ram (w : World) (a : Word) (n : Nat) : Prop :=
  ∀ k, k < n → ∃ loc, w.readSpot (a + BitVec.ofNat 16 k) = some loc ∧ w.writeSpot (a + BitVec.ofNat 16 k) = some loc ∧
    ∀ j, j < n → j ≠ k → w.readSpot (a + BitVec.ofNat 16 j) ≠ some loc

/-- A location that a write to one of the `n` addresses from `a` on reaches. -/
def World.reaches (w : World) (a : Word) (n : Nat) (loc : Nat) : Prop :=
  ∃ k, k < n ∧ w.writeSpot (a + BitVec.ofNat 16 k) = some loc

/-- The instruction of a pair, one for each accumulator. -/
def Acc.pick {α : Type} (r : Acc) (onA onB : α) : α :=
  match r with
  | .a => onA
  | .b => onB

/-- The instruction of a family of five, one for each 16-bit register. -/
def Wide.pick {α : Type} (r : Wide) (onD onX onY onU onS : α) : α :=
  match r with
  | .d => onD
  | .x => onX
  | .y => onY
  | .u => onU
  | .s => onS

/-- The instruction of a pair, one for each stack. -/
def Sp.pick {α : Type} (p : Sp) (onS onU : α) : α :=
  match p with
  | .s => onS
  | .u => onU

/-- A signed value fits in `n` bits as a two's-complement number (42_alu8_binary.md R201). -/
def fitsSigned (n : Nat) (v : Int) : Bool := decide (-(2 ^ (n - 1) : Int) ≤ v ∧ v < (2 ^ (n - 1) : Int))

/-- The flags N, Z, V, C replaced. -/
def CC.withNZVC (k : CC) (n z v c : Bool) : CC := { k with n := n, z := z, v := v, c := c }

/-- N and Z as the sign and the zero test of a result, and V and C as given. -/
def CC.ofResult (k : CC) {w : Nat} (r : BitVec w) (v c : Bool) : CC :=
  k.withNZVC (decide (r.toInt < 0)) (decide (r = 0)) v c

/-- The entire frame of an interrupt entry, from the lowest address up (60_exceptions.md R372). -/
def State.entireImage (s : State) : List Byte :=
  [s.cc.toByte, s.a, s.b, s.dp, hi s.x, lo s.x, hi s.y, lo s.y, hi s.u, lo s.u, hi s.pc, lo s.pc]

end Sys2Proof.Machine

namespace Sys2Proof

open Sys2Proof.Machine

/-- The base register that an indexed operand moves, if its sub-mode is an automatic one (40_addressing_modes.md
R149). -/
def Idx.moves : Idx → Option IxReg
  | .inc1 r => some r
  | .inc2 r _ => some r
  | .dec1 r => some r
  | .dec2 r _ => some r
  | _ => none

/-- The base register that a memory operand moves. -/
def Mem.moves : Mem → Option IxReg
  | .idx x => Idx.moves x
  | _ => none

/-- The base register that an 8-bit operand moves. -/
def Src8.moves : Src8 → Option IxReg
  | .mem m => Mem.moves m
  | .imm _ => none

/-- The base register that a 16-bit operand moves. -/
def Src16.moves : Src16 → Option IxReg
  | .mem m => Mem.moves m
  | .imm _ => none

/-- The base register that an instruction's operand moves. -/
def Instr.moves (i : Instr) : Option IxReg :=
  match indexedOf i with
  | some x => Idx.moves x
  | none => none

/-- The bytes that a register list puts on the stack `p`, from the lowest address up: CC, A, B, DP, X, Y, the other
stack pointer, PC, each where the list names it, a word with its high byte first (45_stack_transfer.md R312, R313). -/
def RegList.image (l : RegList) (p : Sp) (s : State) : List Byte :=
  (if l.cc then [s.cc.toByte] else []) ++ (if l.a then [s.a] else []) ++ (if l.b then [s.b] else []) ++
    (if l.dp then [s.dp] else []) ++ (if l.x then [hi s.x, lo s.x] else []) ++ (if l.y then [hi s.y, lo s.y] else []) ++
    (if l.other then [hi (s.sp p.other), lo (s.sp p.other)] else []) ++ (if l.pc then [hi s.pc, lo s.pc] else [])

/-- An instruction whose only writes to memory are those of 20_memory.md R76, and which writes none. -/
def Instr.storesNothing : Instr → Bool
  | .neg _ | .com _ | .lsr _ | .ror _ | .asr _ | .asl _ | .rol _ | .dec _ | .inc _ | .clr _ => false
  | .sta _ | .stb _ | .std _ | .stx _ | .sty _ | .stu _ | .sts _ => false
  | .bsr _ | .lbsr _ | .jsr _ | .pshs _ | .pshu _ | .cwai _ | .swi | .swi2 | .swi3 => false
  | _ => true

/-- The instructions that move all of CC as a byte (10_state.md R38): ANDCC, ORCC, CWAI, RTI, TFR to CC, EXG with CC,
and a pull with the CC bit. -/
def Instr.loadsCC : Instr → Bool
  | .andcc _ | .orcc _ | .cwai _ | .rti => true
  | .tfr _ r2 => r2 == .cc
  | .exg r1 r2 => r1 == .cc || r2 == .cc
  | .puls l | .pulu l => l.cc
  | _ => false

/-- A transfer or exchange that writes the register `r`, or a register that is one half of it or of which it is one half
(45_stack_transfer.md R316, R317). -/
def Instr.transfersTo (hit : Reg → Bool) : Instr → Bool
  | .tfr _ r2 => hit r2
  | .exg r1 r2 => hit r1 || hit r2
  | _ => false

/-- The writers of A (10_state.md R37). -/
def Instr.writesA : Instr → Bool
  | .lda _ | .nega | .coma | .lsra | .rora | .asra | .asla | .rola | .deca | .inca | .clra => true
  | .suba _ | .sbca _ | .anda _ | .eora _ | .adca _ | .ora _ | .adda _ => true
  | .daa | .sex | .mul | .ldd _ | .addd _ | .subd _ | .rti => true
  | .puls l | .pulu l => l.a
  | i => i.transfersTo fun r => r == .a || r == .d

/-- The writers of B (10_state.md R37). SEX leaves B as it is (46_misc_system.md R335). -/
def Instr.writesB : Instr → Bool
  | .ldb _ | .negb | .comb | .lsrb | .rorb | .asrb | .aslb | .rolb | .decb | .incb | .clrb => true
  | .subb _ | .sbcb _ | .andb _ | .eorb _ | .adcb _ | .orb _ | .addb _ => true
  | .mul | .ldd _ | .addd _ | .subd _ | .rti => true
  | .puls l | .pulu l => l.b
  | i => i.transfersTo fun r => r == .b || r == .d

/-- The writers of X, automatic sub-modes on X aside (10_state.md R37). -/
def Instr.writesX : Instr → Bool
  | .ldx _ | .leax _ | .abx | .rti => true
  | .puls l | .pulu l => l.x
  | i => i.transfersTo fun r => r == .x

/-- The writers of Y, automatic sub-modes on Y aside (10_state.md R37). -/
def Instr.writesY : Instr → Bool
  | .ldy _ | .leay _ | .rti => true
  | .puls l | .pulu l => l.y
  | i => i.transfersTo fun r => r == .y

/-- The writers of U, automatic sub-modes on U aside (10_state.md R37). -/
def Instr.writesU : Instr → Bool
  | .ldu _ | .leau _ | .pshu _ | .pulu _ | .rti => true
  | .puls l => l.other
  | i => i.transfersTo fun r => r == .u

/-- The writers of S, automatic sub-modes on S aside (10_state.md R37). -/
def Instr.writesS : Instr → Bool
  | .lds _ | .leas _ | .pshs _ | .puls _ | .bsr _ | .lbsr _ | .jsr _ | .rts | .rti => true
  | .swi | .swi2 | .swi3 | .cwai _ => true
  | .pulu l => l.other
  | i => i.transfersTo fun r => r == .s

/-- The writers of PC besides the fetch (10_state.md R37). -/
def Instr.writesPC : Instr → Bool
  | .bra _ | .bhi _ | .bls _ | .bcc _ | .bcs _ | .bne _ | .beq _ | .bvc _ | .bvs _ | .bpl _ | .bmi _ | .bge _ => true
  | .blt _ | .bgt _ | .ble _ | .lbra _ | .lbhi _ | .lbls _ | .lbcc _ | .lbcs _ | .lbne _ | .lbeq _ | .lbvc _ => true
  | .lbvs _ | .lbpl _ | .lbmi _ | .lbge _ | .lblt _ | .lbgt _ | .lble _ | .bsr _ | .lbsr _ | .jmp _ | .jsr _ => true
  | .rts | .rti | .swi | .swi2 | .swi3 => true
  | .puls l | .pulu l => l.pc
  | i => i.transfersTo fun r => r == .pc

/-- The writers of DP (10_state.md R26). -/
def Instr.writesDP : Instr → Bool
  | .rti => true
  | .puls l | .pulu l => l.dp
  | i => i.transfersTo fun r => r == .dp

/-- The members of `P_ARM_SET` as the parameters of a machine choose them (10_state.md R29, 00_scope.md R7). -/
def Instr.arms (i : Instr) (p : Params) : Bool :=
  match i with
  | .lds _ => p.armLds
  | .leas _ => p.armLeas
  | .tfr _ r2 => r2 == .s && p.armTfr
  | .exg r1 r2 => (r1 == .s || r2 == .s) && p.armExg
  | .pulu l => l.other && p.armPulu
  | _ => false

/-- The writers of H (10_state.md R38). -/
def Instr.writesH : Instr → Bool
  | .adda _ | .addb _ | .adca _ | .adcb _ => true
  | i => i.loadsCC

/-- The writers of E (10_state.md R38). -/
def Instr.writesE : Instr → Bool
  | .swi | .swi2 | .swi3 => true
  | i => i.loadsCC

/-- The writers of F and I (10_state.md R38). -/
def Instr.writesMasks : Instr → Bool
  | .swi => true
  | i => i.loadsCC

/-- The instructions that write no flag at all (10_state.md R38): LEAS, LEAU, ABX, NOP, JMP, JSR, BSR, LBSR, RTS, the
branches, the pushes, SYNC, and transfers, exchanges and pulls without CC. -/
def Instr.writesNoFlag : Instr → Bool
  | .leas _ | .leau _ | .abx | .nop | .jmp _ | .jsr _ | .bsr _ | .lbsr _ | .rts | .pshs _ | .pshu _ | .sync => true
  | .bra _ | .brn _ | .bhi _ | .bls _ | .bcc _ | .bcs _ | .bne _ | .beq _ => true
  | .bvc _ | .bvs _ | .bpl _ | .bmi _ | .bge _ | .blt _ | .bgt _ | .ble _ => true
  | .lbra _ | .lbrn _ | .lbhi _ | .lbls _ | .lbcc _ | .lbcs _ | .lbne _ | .lbeq _ => true
  | .lbvc _ | .lbvs _ | .lbpl _ | .lbmi _ | .lbge _ | .lblt _ | .lbgt _ | .lble _ => true
  | .tfr _ r2 => r2 != .cc
  | .exg r1 r2 => r1 != .cc && r2 != .cc
  | .puls l | .pulu l => !l.cc
  | _ => false

/-- The writers of C (10_state.md R38). -/
def Instr.writesC : Instr → Bool
  | .anda _ | .andb _ | .bita _ | .bitb _ | .eora _ | .eorb _ | .ora _ | .orb _ | .lda _ | .ldb _ | .sta _ | .stb _ => false
  | .ldd _ | .ldx _ | .ldy _ | .ldu _ | .lds _ | .std _ | .stx _ | .sty _ | .stu _ | .sts _ => false
  | .tst _ | .tsta | .tstb | .inc _ | .inca | .incb | .dec _ | .deca | .decb | .sex | .leax _ | .leay _ => false
  | .swi | .swi2 | .swi3 => false
  | i => !i.writesNoFlag

/-- The writers of V (10_state.md R38). -/
def Instr.writesV : Instr → Bool
  | .asr _ | .asra | .asrb | .ror _ | .rora | .rorb | .lsr _ | .lsra | .lsrb | .mul | .sex | .leax _ | .leay _ => false
  | .swi | .swi2 | .swi3 => false
  | i => !i.writesNoFlag

/-- The writers of N (10_state.md R38). -/
def Instr.writesN : Instr → Bool
  | .mul | .leax _ | .leay _ | .swi | .swi2 | .swi3 => false
  | i => !i.writesNoFlag

/-- The writers of Z (10_state.md R38). -/
def Instr.writesZ : Instr → Bool
  | .swi | .swi2 | .swi3 => false
  | i => !i.writesNoFlag

end Sys2Proof
end

