-- ==== Sys2Proof/Certificates/Slice0/Obligations.lean ====
section
/-! DEFINITION. The statements about the model. Each docstring names the rules of spec/ it comes from. Where a statement
speaks of an operand, of an effective address or of a stack through the operations of the model, the statements on the
bus, on the resolver and on the stacks say what those operations do. A value or a behaviour that the model chose is named
with its log entry. -/

open Sys2Proof Sys2Proof.Machine

/-! ## Reset -/

/-- 70_reset_and_hazards.md R420: what `Reset()` leaves when both vector bytes can be read. The last clause: with a raw
read pointer on page 0xFF the two reads change nothing. (`nextCb` follows R431; `clockHeld` and `handlerCount` are the model's own fields, logs 9 and 12.) -/
def Obligations.ResetLoadsTheVector : Prop :=
  ∀ (s t1 t2 : State) (h l : Byte),
    let s0 : State :=
      { s with
        cc := ⟨false, true, false, true, false, false, false, false⟩
        nmiArmed := false
        waitCwai := false
        waitSync := false
        dp := if s.cfg.resetDpZero then 0x00 else s.dp
        clock := 0
        clockHeld := true
        fault := none
        nextCb := (s.cfg.period.map (BitVec.ofNat 64)).getD s.nextCb }
    read8 0xFFFE s0 = .ok h t1 → read8 0xFFFF t1 = .ok l t2 →
      hostReset s = ⟨none, { t2 with pc := cat h l }⟩ ∧
      t2 = { s0 with world := t2.world, handlerCount := t2.handlerCount } ∧
      (s.world.readSpot 0xFFFE ≠ none → t2.world = s.world)

/-- 70_reset_and_hazards.md R421: a vector read that faults. PC is what it was, everything else as R420 sets it, and
the fault code is returned. (`clockHeld` and `handlerCount` are the model's own fields, logs 9 and 12.) Second clause: the same for a page 0xFF without read pointer and read handler, where nothing
is read. -/
def Obligations.ResetFaultKeepsPC : Prop :=
  ∀ (s t : State) (k : Fault),
    let s0 : State :=
      { s with
        cc := ⟨false, true, false, true, false, false, false, false⟩
        nmiArmed := false
        waitCwai := false
        waitSync := false
        dp := if s.cfg.resetDpZero then 0x00 else s.dp
        clock := 0
        clockHeld := true
        fault := none
        nextCb := (s.cfg.period.map (BitVec.ofNat 64)).getD s.nextCb }
    (read16 0xFFFE s0 = .error k t → hostReset s =
      ⟨some .undefinedRead,
        { s0 with fault := some .undefinedRead, world := t.world, handlerCount := t.handlerCount }⟩) ∧
    (s.world.readSpot 0xFFFE = none → s.world.readHandler 0xFFFE = none → hostReset s =
      ⟨some .undefinedRead, { s0 with fault := some .undefinedRead }⟩)

/-- 10_state.md R40, R41: `State.reset` is what `Reset()` makes of the machine at power-on, whose page tables are null;
it meets the invariant. The values of A, B, X, Y, U, S and PC in it are the model's choice, as is the power-on state
(logs 2, 3 and 30). -/
def Obligations.ResetStateIsPowerOnReset : Prop :=
  hostReset State.powerOn = ⟨some .undefinedRead, State.reset⟩ ∧ State.reset.Inv

/-! ## The bus -/

/-- 20_memory.md R63, R64: a read goes through the raw pointer, else through the handler with the full address, else it
faults. The model's choices: what a handler is and answers (log 7), the clock it sees, that of the state where it is held
and a free value further on where it is not (log 9), the counter of handler runs (log 12), and that actions which name
nothing in `PM` are left out (log 6). -/
def Obligations.ReadDispatch : Prop :=
  ∀ (s : State) (a : Word),
    let p := a.toNat / 256
    let o := a.toNat % 256
    let c := if s.clockHeld then s.clock else s.clock + BitVec.ofNat 64 (Config.freeClockAdvance s.handlerCount)
    (∀ base, SMap.find s.world.rp p = some base → read8 a s = .ok (s.world.pm.read (base + o)) s) ∧
    (∀ k, SMap.find s.world.rp p = none → SMap.find s.world.rh p = some k →
      read8 a s = .ok (Config.readHandler k a s.world c).1
        { s with
          world := s.world.actAll s.cfg.pmSize (Config.readHandler k a s.world c).2
          handlerCount := s.handlerCount + 1 }) ∧
    (SMap.find s.world.rp p = none → SMap.find s.world.rh p = none →
      read8 a s = .error .undefinedRead { s with fault := some .undefinedRead })

/-- 20_memory.md R63, R65: a write goes through the raw pointer and changes one byte of `PM`, else through the handler,
else it faults and the value is discarded. The model's choices: what a handler is and does (log 7), the clock it sees
(log 9), the counter of handler runs (log 12), and that actions which name nothing in `PM` are left out (log 6). -/
def Obligations.WriteDispatch : Prop :=
  ∀ (s : State) (a : Word) (v : Byte),
    let p := a.toNat / 256
    let o := a.toNat % 256
    let c := if s.clockHeld then s.clock else s.clock + BitVec.ofNat 64 (Config.freeClockAdvance s.handlerCount)
    (∀ base, SMap.find s.world.wp p = some base →
      write8 a v s = .ok () { s with world := { s.world with pm := s.world.pm.write (base + o) v } }) ∧
    (∀ k, SMap.find s.world.wp p = none → SMap.find s.world.wh p = some k →
      write8 a v s = .ok ()
        { s with
          world := s.world.actAll s.cfg.pmSize (Config.writeHandler k a v s.world c)
          handlerCount := s.handlerCount + 1 }) ∧
    (SMap.find s.world.wp p = none → SMap.find s.world.wh p = none →
      write8 a v s = .error .undefinedWrite { s with fault := some .undefinedWrite })

/-- 20_memory.md R87, R67: a bus access that ends well changes `world` alone, whatever handler it ran, and one that
faults changes `fault` alone. (`handlerCount` is the model's own counter, log 12.) -/
def Obligations.BusAccessTouchesOnlyWorld : Prop :=
  ∀ (s t : State) (a : Word) (v : Byte) (k : Fault),
    (read8 a s = .ok v t → t = { s with world := t.world, handlerCount := t.handlerCount }) ∧
    (write8 a v s = .ok () t → t = { s with world := t.world, handlerCount := t.handlerCount }) ∧
    (read8 a s = .error k t → k = .undefinedRead ∧ t = { s with fault := some .undefinedRead }) ∧
    (write8 a v s = .error k t → k = .undefinedWrite ∧ t = { s with fault := some .undefinedWrite })

/-- 20_memory.md R68: each registration call changes exactly one entry of one table and nothing else. -/
def Obligations.RegistrationChangesOneEntry : Prop :=
  ∀ (w : World) (p : Byte) (e : Option Nat), w.wf = true →
    (∀ q, SMap.find (w.act (.setReadPointer p e)).rp q = if q = p.toNat then e else SMap.find w.rp q) ∧
    w.act (.setReadPointer p e) = { w with rp := (w.act (.setReadPointer p e)).rp } ∧
    (∀ q, SMap.find (w.act (.setWritePointer p e)).wp q = if q = p.toNat then e else SMap.find w.wp q) ∧
    w.act (.setWritePointer p e) = { w with wp := (w.act (.setWritePointer p e)).wp } ∧
    (∀ q, SMap.find (w.act (.setReadHandler p e)).rh q = if q = p.toNat then e else SMap.find w.rh q) ∧
    w.act (.setReadHandler p e) = { w with rh := (w.act (.setReadHandler p e)).rh } ∧
    (∀ q, SMap.find (w.act (.setWriteHandler p e)).wh q = if q = p.toNat then e else SMap.find w.wh q) ∧
    w.act (.setWriteHandler p e) = { w with wh := (w.act (.setWriteHandler p e)).wh }

/-- 20_memory.md R80, 10_state.md R32: a byte of backing memory reads as the last value written to it, no other byte
changes, the canonical form is kept, and canonical memories with equal bytes are equal. -/
def Obligations.BackingMemoryHoldsLastWrite : Prop :=
  (∀ (m : Memory) (loc l : Nat) (v : Byte), m.wf = true →
    (m.write loc v).wf = true ∧ (m.write loc v).read l = if l = loc then v else m.read l) ∧
  (∀ m n : Memory, m.wf = true → n.wf = true → (∀ l, m.read l = n.read l) → m = n)

/-- 20_memory.md R71, R72, R73, R75: in plain memory a word written at `a` lies with its high byte at `a` and its low
byte at `a + 1` modulo 2^16, is read back whole, and no byte elsewhere changes. -/
def Obligations.WordAccessIsBigEndian : Prop :=
  ∀ (s : State) (a w : Word), s.world.wf = true → s.world.ram a 2 →
    ∃ t, write16 a w s = .ok () t ∧
      t.world.peek a = some (w.extractLsb' 8 8) ∧
      t.world.peek (a + 1) = some (w.extractLsb' 0 8) ∧
      read16 a t = .ok w t ∧
      t = { s with world := { s.world with pm := t.world.pm } } ∧
      ∀ b, (∀ loc, s.world.readSpot b = some loc → ¬ s.world.reaches a 2 loc) → t.world.peek b = s.world.peek b

/-! ## Encoding -/

/-- 30_encoding.md R100 to R110: for every well-formed instruction, whatever bytes follow and however
`P_EXTIND_RR_DONTCARE` stands, decoding its encoding gives it back and leaves the bytes that follow. -/
def Obligations.DecodeOfEncode : Prop :=
  ∀ (dc : Bool) (i : Instr) (rest : List Byte), i.wf = true → decode dc (encode i ++ rest) = .ok i rest

/-- 30_encoding.md R100, R102: what the decoder reads is well formed, has its encoding's length, 1 to 5 bytes, does not
depend on the bytes that follow, and no shorter beginning of it settles the answer. -/
def Obligations.DecodeReadsItsOwnBytes : Prop :=
  ∀ (dc : Bool) (bs rest : List Byte) (i : Instr), decode dc bs = .ok i rest →
    i.wf = true ∧
    ∃ own, bs = own ++ rest ∧ own.length = (encode i).length ∧ 1 ≤ own.length ∧ own.length ≤ 5 ∧
      (∀ rest', decode dc (own ++ rest') = .ok i rest') ∧
      ∀ n, n < own.length → decode dc (own.take n) = .more

/-- 30_encoding.md R105, R111: the opcode bytes without a row: 33 on page 1 (the prefixes aside), all but 38 on page 2,
all but 9 on page 3; among them a prefix behind a prefix. No byte after them is looked at. -/
def Obligations.OpcodesWithoutARow : Prop :=
  (∀ (dc : Bool) (op : Byte) (rest : List Byte), op ≠ 0x10 → op ≠ 0x11 →
    (decode dc (op :: rest) = .bad .noOpcode ↔ op.toNat ∈
      [0x01, 0x02, 0x05, 0x0B, 0x14, 0x15, 0x18, 0x1B, 0x38, 0x3E, 0x41] ++
      [0x42, 0x45, 0x4B, 0x4E, 0x51, 0x52, 0x55, 0x5B, 0x5E, 0x61, 0x62] ++
      [0x65, 0x6B, 0x71, 0x72, 0x75, 0x7B, 0x87, 0x8F, 0xC7, 0xCD, 0xCF])) ∧
  (∀ (dc : Bool) (op : Byte) (rest : List Byte),
    (decode dc (0x10 :: op :: rest) = .bad .noOpcode ↔ op.toNat ∉
      [0x21, 0x22, 0x23, 0x24, 0x25, 0x26, 0x27, 0x28, 0x29, 0x2A, 0x2B, 0x2C, 0x2D, 0x2E, 0x2F, 0x3F] ++
      [0x83, 0x8C, 0x8E, 0x93, 0x9C, 0x9E, 0x9F, 0xA3, 0xAC, 0xAE, 0xAF, 0xB3, 0xBC, 0xBE, 0xBF] ++
      [0xCE, 0xDE, 0xDF, 0xEE, 0xEF, 0xFE, 0xFF])) ∧
  (∀ (dc : Bool) (op : Byte) (rest : List Byte),
    (decode dc (0x11 :: op :: rest) = .bad .noOpcode ↔ op.toNat ∉
      [0x3F, 0x83, 0x8C, 0x93, 0x9C, 0xA3, 0xAC, 0xB3, 0xBC]))

/-- 40_addressing_modes.md R148: the 39 illegal indexed post-bytes; with `P_EXTIND_RR_DONTCARE` 0xBF, 0xDF and 0xFF are
legal. No offset byte is looked at before the answer. -/
def Obligations.IllegalIndexedPostBytes : Prop :=
  ∀ (pb : Byte) (rest : List Byte),
    let always :=
      [0x87, 0x8A, 0x8E, 0xA7, 0xAA, 0xAE, 0xC7, 0xCA, 0xCE, 0xE7, 0xEA, 0xEE, 0x8F, 0xAF, 0xCF, 0xEF] ++
      [0x90, 0x92, 0xB0, 0xB2, 0xD0, 0xD2, 0xF0, 0xF2] ++
      [0x97, 0x9A, 0x9E, 0xB7, 0xBA, 0xBE, 0xD7, 0xDA, 0xDE, 0xF7, 0xFA, 0xFE]
    (takeIdx false (pb :: rest) = .bad .noSubMode ↔ pb.toNat ∈ always ++ [0xBF, 0xDF, 0xFF]) ∧
    (takeIdx true (pb :: rest) = .bad .noSubMode ↔ pb.toNat ∈ always)

/-- 45_stack_transfer.md R315: `CheckPair` on the post-byte of TFR (0x1F) and EXG (0x1E). -/
def Obligations.IllegalRegisterPairs : Prop :=
  ∀ (dc : Bool) (op pb : Byte) (rest : List Byte), op = 0x1E ∨ op = 0x1F →
    let c1 := pb.toNat / 16
    let c2 := pb.toNat % 16
    (decode dc (op :: pb :: rest) = .bad .noRegisterPair ↔
      c1 ∈ [6, 7, 0xC, 0xD, 0xE, 0xF] ∨ c2 ∈ [6, 7, 0xC, 0xD, 0xE, 0xF] ∨ decide (c1 < 8) ≠ decide (c2 < 8))

/-- Words written out from the encodings of spec/: 44 R271, R287, R288, 43 R245 to R248, 45 R313, R316, R317, 46 R341,
R351, R352, 41 R190, 42 R202, 40 R151. -/
def Obligations.SpecWordsDecode : Prop :=
  decode false [0x20, 0xFE] = .ok (.bra 0xFE) [] ∧
  decode false [0x16, 0x01, 0x00] = .ok (.lbra 0x0100) [] ∧
  decode false [0x10, 0x26, 0x12, 0x34] = .ok (.lbne 0x1234) [] ∧
  decode false [0x7E, 0x50, 0x00] = .ok (.jmp (.ext 0x5000)) [] ∧
  decode false [0x10, 0xCE, 0x80, 0x00] = .ok (.lds (.imm 0x8000)) [] ∧
  decode false [0xFD, 0x20, 0x00] = .ok (.std (.ext 0x2000)) [] ∧
  decode false [0x30, 0x01] = .ok (.leax (.off5 .x 1)) [] ∧
  decode false [0x32, 0x7C] = .ok (.leas (.off5 .s (-4))) [] ∧
  decode false [0x34, 0x16] = .ok (.pshs ⟨false, false, false, true, false, true, true, false⟩) [] ∧
  decode false [0x1F, 0x8B] = .ok (.tfr .a .dp) [] ∧
  decode false [0x1E, 0x12] = .ok (.exg .x .y) [] ∧
  decode false [0x3C, 0xEF] = .ok (.cwai 0xEF) [] ∧
  decode false [0x10, 0x3F] = .ok .swi2 [] ∧
  decode false [0x11, 0x3F] = .ok .swi3 [] ∧
  decode false [0x7D, 0x20, 0x00] = .ok (.tst (.ext 0x2000)) [] ∧
  decode false [0x80, 0x60] = .ok (.suba (.imm 0x60)) [] ∧
  decode false [0xA6, 0x9F, 0xFF, 0xFE] = .ok (.lda (.mem (.idx (.extInd 0xFFFE)))) [] ∧
  decode false [0xE6, 0xC3] = .ok (.ldb (.mem (.idx (.dec2 .u false)))) [] ∧
  decode false [0x11, 0xA3, 0x8D, 0xFF, 0xFC] = .ok (.cmpu (.mem (.idx (.pcr16 0xFFFC false)))) []

/-! ## The step -/

/-- 30_encoding.md R101, R102: when the interrupt check lets the step go on and the bytes at PC are an instruction, the
step is `exec` of it in the state in which the step has begun (fault code OK; where its handlers see the clock, log 9), with
the SYNC wait ended and PC past the bytes.
Second clause: the same whatever serves the fetches. -/
def Obligations.StepRunsTheDecodedInstruction : Prop :=
  (∀ (s : State) (bs : List Byte) (i : Instr), s.Fetches → s.world.holdsBytes s.pc bs →
    decode s.cfg.extIndRrDontCare bs = .ok i [] →
    step s = exec i { s.begun with waitSync := false, pc := s.pc + BitVec.ofNat 16 bs.length }) ∧
  (∀ (s t0 t : State) (i : Instr), interruptCheck s.begun = .ok .proceed t0 →
    fetchInstr t0 = .ok i t → step s = exec i t)

/-- 60_exceptions.md R364, R365, R368, R363: an illegal encoding. PC is just past the byte that settles it, the clock
has gained `CYC_FAULT`, the fault code names the kind, and nothing else has changed. (`State.begun` is the state with the
fault code OK and the model's own `clockHeld` chosen, log 9; so in the statements below.) -/
def Obligations.IllegalEncodingEndsTheStep : Prop :=
  ∀ (s : State) (bs : List Byte) (r : Reject), s.Fetches → s.world.holdsBytes s.pc bs →
    decode s.cfg.extIndRrDontCare bs = .bad r →
    (∀ n, n < bs.length → decode s.cfg.extIndRrDontCare (bs.take n) = .more) →
    let k : Fault :=
      match r with
      | .noOpcode => .instruction
      | .noSubMode => .addressMode
      | .noRegisterPair => .registerSelect
    step s = .next
      { ({ s.begun with waitSync := false, pc := s.pc + BitVec.ofNat 16 bs.length }.tick s.cfg.cycFault) with
        fault := some k }

/-- 60_exceptions.md R366, R363: an instruction byte that cannot be fetched. PC points at it, the clock has gained
nothing, and nothing else has changed but the model's own `clockHeld` (log 9). -/
def Obligations.UnreadableFetchEndsTheStep : Prop :=
  ∀ (s : State) (bs : List Byte), s.Fetches → s.world.holdsBytes s.pc bs →
    decode s.cfg.extIndRrDontCare bs = .more →
    (let a := s.pc + BitVec.ofNat 16 bs.length
     s.world.readSpot a = none → s.world.readHandler a = none →
      step s = .next { s.begun with fault := some .undefinedRead, waitSync := false, pc := a })

/-! ## Operands -/

/-- 40_addressing_modes.md R141 to R144: the four simple modes, with PC past the instruction. -/
def Obligations.SimpleAddressingModes : Prop :=
  ∀ (s : State) (dd n : Byte) (a w : Word),
    ea (.dir dd) s = .ok (BitVec.ofNat 16 (256 * s.dp.toNat + dd.toNat)) s ∧
    ea (.ext a) s = .ok a s ∧
    eaRel8 n s = .ok (BitVec.ofInt 16 (s.pc.toNat + n.toInt)) s ∧
    eaRel16 w s = .ok (BitVec.ofNat 16 (s.pc.toNat + w.toNat)) s

/-- 40_addressing_modes.md R146, R147, R149, R150: every indexed sub-mode, direct and indirect. The post-increments
answer the old value, the pre-decrements the new one; an indirect sub-mode reads a word at the address computed so far,
after the base register has moved. -/
def Obligations.IndexedAddressingModes : Prop :=
  ∀ (s : State) (r : IxReg) (n5 : BitVec 5) (n : Byte) (w : Word),
    let base := (s.ix r).toNat
    let plus (o : Int) : Word := BitVec.ofInt 16 (base + o)
    let fromPC (o : Int) : Word := BitVec.ofInt 16 (s.pc.toNat + o)
    eaIndexed (.off5 r n5) s = .ok (plus n5.toInt) s ∧
    eaIndexed (.inc1 r) s = .ok (s.ix r) (s.setIx r (plus 1)) ∧
    eaIndexed (.inc2 r false) s = .ok (s.ix r) (s.setIx r (plus 2)) ∧
    eaIndexed (.dec1 r) s = .ok (plus (-1)) (s.setIx r (plus (-1))) ∧
    eaIndexed (.dec2 r false) s = .ok (plus (-2)) (s.setIx r (plus (-2))) ∧
    eaIndexed (.zero r false) s = .ok (s.ix r) s ∧
    eaIndexed (.accB r false) s = .ok (plus s.b.toInt) s ∧
    eaIndexed (.accA r false) s = .ok (plus s.a.toInt) s ∧
    eaIndexed (.off8 r n false) s = .ok (plus n.toInt) s ∧
    eaIndexed (.off16 r w false) s = .ok (plus w.toNat) s ∧
    eaIndexed (.accD r false) s = .ok (plus (256 * s.a.toNat + s.b.toNat)) s ∧
    eaIndexed (.pcr8 n false) s = .ok (fromPC n.toInt) s ∧
    eaIndexed (.pcr16 w false) s = .ok (fromPC w.toNat) s ∧
    eaIndexed (.inc2 r true) s = read16 (s.ix r) (s.setIx r (plus 2)) ∧
    eaIndexed (.dec2 r true) s = read16 (plus (-2)) (s.setIx r (plus (-2))) ∧
    eaIndexed (.zero r true) s = read16 (s.ix r) s ∧
    eaIndexed (.accB r true) s = read16 (plus s.b.toInt) s ∧
    eaIndexed (.accA r true) s = read16 (plus s.a.toInt) s ∧
    eaIndexed (.off8 r n true) s = read16 (plus n.toInt) s ∧
    eaIndexed (.off16 r w true) s = read16 (plus w.toNat) s ∧
    eaIndexed (.accD r true) s = read16 (plus (256 * s.a.toNat + s.b.toNat)) s ∧
    eaIndexed (.pcr8 n true) s = read16 (fromPC n.toInt) s ∧
    eaIndexed (.pcr16 w true) s = read16 (fromPC w.toNat) s ∧
    eaIndexed (.extInd w) s = read16 w s

/-- 40_addressing_modes.md R146, R149, R152, 30_encoding.md R103: getting an address or an operand changes the base
register of an automatic sub-mode and nothing else of the machine, except what handlers do to `world`; the one fault it
can raise is UndefinedRead. -/
def Obligations.ResolverMovesOnlyItsBase : Prop :=
  ∀ (s t : State),
    let only (moved : Option IxReg) (u : State) : Prop :=
      t = { u with x := t.x, y := t.y, u := t.u, s := t.s, world := t.world, handlerCount := t.handlerCount } ∧
      (∀ q, moved ≠ some q → t.ix q = s.ix q) ∧ (s.world.NoHandlers → t.world = s.world)
    (∀ m a, ea m s = .ok a t → only (Mem.moves m) s) ∧
    (∀ m k, ea m s = .error k t → k = .undefinedRead ∧ only (Mem.moves m) { s with fault := some .undefinedRead }) ∧
    (∀ o v, operand8 o s = .ok v t → only (Src8.moves o) s) ∧
    (∀ o k, operand8 o s = .error k t →
      k = .undefinedRead ∧ only (Src8.moves o) { s with fault := some .undefinedRead }) ∧
    (∀ o v, operand16 o s = .ok v t → only (Src16.moves o) s) ∧
    (∀ o k, operand16 o s = .error k t →
      k = .undefinedRead ∧ only (Src16.moves o) { s with fault := some .undefinedRead })

/-! ## Results: 8-bit operations -/

/-- 41_alu8_unary.md R180 to R191, register forms: the result and the flags, and nothing else but the cost. -/
def Obligations.UnaryOnAccumulator : Prop :=
  ∀ (r : Acc) (s : State),
    let m := s.acc r
    let k := s.cc
    let done (i : Instr) (res : Byte) (cc' : CC) : Prop :=
      exec i s = .next (({ s with cc := cc' }.setAcc r res).tick (cost s.cfg i))
    let quiet (i : Instr) (cc' : CC) : Prop := exec i s = .next ({ s with cc := cc' }.tick (cost s.cfg i))
    let neg : Byte := BitVec.ofInt 8 (-m.toInt)
    let com : Byte := BitVec.ofNat 8 (255 - m.toNat)
    let lsr : Byte := BitVec.ofNat 8 (m.toNat / 2)
    let ror : Byte := BitVec.ofNat 8 (m.toNat / 2 + 128 * k.c.toNat)
    let asr : Byte := BitVec.ofInt 8 (m.toInt / 2)
    let asl : Byte := BitVec.ofNat 8 (2 * m.toNat)
    let rol : Byte := BitVec.ofNat 8 (2 * m.toNat + k.c.toNat)
    let dec : Byte := BitVec.ofInt 8 (m.toInt - 1)
    let inc : Byte := BitVec.ofInt 8 (m.toInt + 1)
    let odd := decide (m.toNat % 2 = 1)
    let high := decide (128 ≤ m.toNat)
    done (r.pick .nega .negb) neg (k.ofResult neg (!fitsSigned 8 (-m.toInt)) (decide (m ≠ 0))) ∧
    done (r.pick .coma .comb) com (k.ofResult com false true) ∧
    done (r.pick .lsra .lsrb) lsr (k.ofResult lsr k.v odd) ∧
    done (r.pick .rora .rorb) ror (k.ofResult ror k.v odd) ∧
    done (r.pick .asra .asrb) asr (k.ofResult asr k.v odd) ∧
    done (r.pick .asla .aslb) asl (k.ofResult asl (!fitsSigned 8 (2 * m.toInt)) high) ∧
    done (r.pick .rola .rolb) rol (k.ofResult rol (!fitsSigned 8 (2 * m.toInt)) high) ∧
    done (r.pick .deca .decb) dec (k.ofResult dec (!fitsSigned 8 (m.toInt - 1)) k.c) ∧
    done (r.pick .inca .incb) inc (k.ofResult inc (!fitsSigned 8 (m.toInt + 1)) k.c) ∧
    quiet (r.pick .tsta .tstb) (k.ofResult m false k.c) ∧
    done (r.pick .clra .clrb) 0 (k.ofResult (0 : Byte) false false)

/-- 41_alu8_unary.md R180 to R191, memory forms: address, read, flags, write back; TST writes nothing, CLR reads under
`P_CLR_READS` alone. `t2` is the state after the operand read, `t3` the state after the write. -/
def Obligations.UnaryOnMemory : Prop :=
  ∀ (mm : Mem) (s t1 t2 : State) (a : Word) (m : Byte), ea mm s = .ok a t1 →
    let k := t1.cc
    let done (i : Instr) (res : Byte) (cc' : CC) : Prop :=
      read8 a t1 = .ok m t2 → ∀ t3, write8 a res { t2 with cc := cc' } = .ok () t3 →
        exec i s = .next (t3.tick (cost s.cfg i))
    let neg : Byte := BitVec.ofInt 8 (-m.toInt)
    let com : Byte := BitVec.ofNat 8 (255 - m.toNat)
    let lsr : Byte := BitVec.ofNat 8 (m.toNat / 2)
    let ror : Byte := BitVec.ofNat 8 (m.toNat / 2 + 128 * k.c.toNat)
    let asr : Byte := BitVec.ofInt 8 (m.toInt / 2)
    let asl : Byte := BitVec.ofNat 8 (2 * m.toNat)
    let rol : Byte := BitVec.ofNat 8 (2 * m.toNat + k.c.toNat)
    let dec : Byte := BitVec.ofInt 8 (m.toInt - 1)
    let inc : Byte := BitVec.ofInt 8 (m.toInt + 1)
    let odd := decide (m.toNat % 2 = 1)
    let high := decide (128 ≤ m.toNat)
    done (.neg mm) neg (k.ofResult neg (!fitsSigned 8 (-m.toInt)) (decide (m ≠ 0))) ∧
    done (.com mm) com (k.ofResult com false true) ∧
    done (.lsr mm) lsr (k.ofResult lsr k.v odd) ∧
    done (.ror mm) ror (k.ofResult ror k.v odd) ∧
    done (.asr mm) asr (k.ofResult asr k.v odd) ∧
    done (.asl mm) asl (k.ofResult asl (!fitsSigned 8 (2 * m.toInt)) high) ∧
    done (.rol mm) rol (k.ofResult rol (!fitsSigned 8 (2 * m.toInt)) high) ∧
    done (.dec mm) dec (k.ofResult dec (!fitsSigned 8 (m.toInt - 1)) k.c) ∧
    done (.inc mm) inc (k.ofResult inc (!fitsSigned 8 (m.toInt + 1)) k.c) ∧
    (read8 a t1 = .ok m t2 →
      exec (.tst mm) s = .next ({ t2 with cc := k.ofResult m false k.c }.tick (cost s.cfg (.tst mm)))) ∧
    ((if s.cfg.clrReads then read8 a t1 = .ok m t2 else t2 = t1) →
      ∀ t3, write8 a 0 { t2 with cc := k.ofResult (0 : Byte) false false } = .ok () t3 →
        exec (.clr mm) s = .next (t3.tick (cost s.cfg (.clr mm))))

/-- 42_alu8_binary.md R200 to R204, R210, R212: sums and differences of bytes, V as signed overflow, C as carry or
borrow, H from the low halves for ADD and ADC alone. `t` is the state after the operand has been read. -/
def Obligations.ByteArithmetic : Prop :=
  ∀ (r : Acc) (o : Src8) (s t : State) (m : Byte), operand8 o s = .ok m t →
    let x := t.acc r
    let k := t.cc
    let cin := k.c.toNat
    let done (i : Instr) (res : Byte) (cc' : CC) : Prop :=
      exec i s = .next (({ t with cc := cc' }.setAcc r res).tick (cost s.cfg i))
    let half (c : Nat) : Bool := decide (16 ≤ x.toNat % 16 + m.toNat % 16 + c)
    let sum (c : Nat) : Byte := BitVec.ofNat 8 (x.toNat + m.toNat + c)
    let diff (c : Nat) : Byte := BitVec.ofInt 8 ((x.toNat : Int) - m.toNat - c)
    let added (c : Nat) : CC :=
      { k.ofResult (sum c) (!fitsSigned 8 (x.toInt + m.toInt + c)) (decide (256 ≤ x.toNat + m.toNat + c)) with
        h := half c }
    let subtracted (c : Nat) : CC :=
      k.ofResult (diff c) (!fitsSigned 8 (x.toInt - m.toInt - c)) (decide (x.toNat < m.toNat + c))
    done (r.pick (.adda o) (.addb o)) (sum 0) (added 0) ∧
    done (r.pick (.adca o) (.adcb o)) (sum cin) (added cin) ∧
    done (r.pick (.suba o) (.subb o)) (diff 0) (subtracted 0) ∧
    done (r.pick (.sbca o) (.sbcb o)) (diff cin) (subtracted cin) ∧
    (let i := r.pick (.cmpa o) (.cmpb o)
     exec i s = .next ({ t with cc := subtracted 0 }.tick (cost s.cfg i)))

/-- 42_alu8_binary.md R200, R205 to R207, R209, R211: the logic operations bit by bit, the load, and BIT without a
result; V cleared, C and H as they were. -/
def Obligations.ByteLogic : Prop :=
  ∀ (r : Acc) (o : Src8) (s t : State) (m : Byte), operand8 o s = .ok m t →
    let x := t.acc r
    let k := t.cc
    let done (i : Instr) (f : Bool → Bool → Bool) : Prop :=
      ∃ res : Byte, (∀ n, n < 8 → res.getLsbD n = f (x.getLsbD n) (m.getLsbD n)) ∧
        exec i s = .next (({ t with cc := k.ofResult res false k.c }.setAcc r res).tick (cost s.cfg i))
    done (r.pick (.anda o) (.andb o)) (fun p q => p && q) ∧
    done (r.pick (.eora o) (.eorb o)) (fun p q => p != q) ∧
    done (r.pick (.ora o) (.orb o)) (fun p q => p || q) ∧
    done (r.pick (.lda o) (.ldb o)) (fun _ q => q) ∧
    (let i := r.pick (.bita o) (.bitb o)
     ∃ res : Byte, (∀ n, n < 8 → res.getLsbD n = (x.getLsbD n && m.getLsbD n)) ∧
       exec i s = .next ({ t with cc := k.ofResult res false k.c }.tick (cost s.cfg i)))

/-! ## Results: 16-bit operations -/

/-- 43_alu16.md R240 to R243: SUBD, ADDD and the five compares. `t` is the state after the operand has been read, so a
compare sees the base register as the resolver left it. -/
def Obligations.WordArithmetic : Prop :=
  ∀ (o : Src16) (s t : State) (m : Word), operand16 o s = .ok m t →
    let k := t.cc
    let sub (x : Word) : Word := BitVec.ofInt 16 ((x.toNat : Int) - m.toNat)
    let add (x : Word) : Word := BitVec.ofNat 16 (x.toNat + m.toNat)
    let compared (x : Word) : CC :=
      k.ofResult (sub x) (!fitsSigned 16 (x.toInt - m.toInt)) (decide (x.toNat < m.toNat))
    let d : Word := BitVec.ofNat 16 (256 * t.a.toNat + t.b.toNat)
    exec (.subd o) s = .next (({ t with cc := compared d }.setD (sub d)).tick (cost s.cfg (.subd o))) ∧
    exec (.addd o) s = .next
      (({ t with
          cc := k.ofResult (add d) (!fitsSigned 16 (d.toInt + m.toInt)) (decide (65536 ≤ d.toNat + m.toNat)) }.setD
            (add d)).tick (cost s.cfg (.addd o))) ∧
    ∀ r : Wide,
      let i := r.pick (.cmpd o) (.cmpx o) (.cmpy o) (.cmpu o) (.cmps o)
      exec i s = .next ({ t with cc := compared (r.pick d t.x t.y t.u t.s) }.tick (cost s.cfg i))

/-- 43_alu16.md R244, R245, 10_state.md R29: the 16-bit loads; LDS also sets the NMI-armed latch where it is in
`P_ARM_SET`. -/
def Obligations.WordLoad : Prop :=
  ∀ (o : Src16) (s t : State) (m : Word), operand16 o s = .ok m t →
    let u : State := { t with cc := t.cc.ofResult m false t.cc.c }
    exec (.ldd o) s = .next
      ({ u with a := m.extractLsb' 8 8, b := m.extractLsb' 0 8 }.tick (cost s.cfg (.ldd o))) ∧
    exec (.ldx o) s = .next ({ u with x := m }.tick (cost s.cfg (.ldx o))) ∧
    exec (.ldy o) s = .next ({ u with y := m }.tick (cost s.cfg (.ldy o))) ∧
    exec (.ldu o) s = .next ({ u with u := m }.tick (cost s.cfg (.ldu o))) ∧
    exec (.lds o) s = .next
      ({ u with s := m, nmiArmed := s.nmiArmed || s.cfg.armLds }.tick (cost s.cfg (.lds o)))

/-- 42_alu8_binary.md R200, R208, 43_alu16.md R240, R246: the stores, of the register as the resolver left it: N and Z
from the register, V cleared, then one write at the address, or two, the high byte first. -/
def Obligations.Stores : Prop :=
  ∀ (mm : Mem) (s t1 t2 : State) (a : Word), ea mm s = .ok a t1 →
    (∀ r : Acc, write8 a (t1.acc r) { t1 with cc := t1.cc.ofResult (t1.acc r) false t1.cc.c } = .ok () t2 →
      let i := r.pick (.sta mm) (.stb mm)
      exec i s = .next (t2.tick (cost s.cfg i))) ∧
    (∀ r : Wide,
      let w := r.pick (BitVec.ofNat 16 (256 * t1.a.toNat + t1.b.toNat)) t1.x t1.y t1.u t1.s
      write16 a w { t1 with cc := t1.cc.ofResult w false t1.cc.c } = .ok () t2 →
      let i := r.pick (.std mm) (.stx mm) (.sty mm) (.stu mm) (.sts mm)
      exec i s = .next (t2.tick (cost s.cfg i)))

/-- 43_alu16.md R247, R248, 10_state.md R29: LEAX and LEAY write Z alone, LEAS and LEAU no flag; LEAS sets the NMI-armed
latch where it is in `P_ARM_SET`. -/
def Obligations.LoadEffectiveAddress : Prop :=
  ∀ (x : Idx) (s t : State) (a : Word), eaIndexed x s = .ok a t →
    let z : CC := { t.cc with z := decide (a = 0) }
    exec (.leax x) s = .next ({ t with x := a, cc := z }.tick (cost s.cfg (.leax x))) ∧
    exec (.leay x) s = .next ({ t with y := a, cc := z }.tick (cost s.cfg (.leay x))) ∧
    exec (.leau x) s = .next ({ t with u := a }.tick (cost s.cfg (.leau x))) ∧
    exec (.leas x) s = .next
      ({ t with s := a, nmiArmed := s.nmiArmed || s.cfg.armLeas }.tick (cost s.cfg (.leas x)))

/-! ## Results: control flow -/

/-- 44_control_flow.md R270 to R286, short forms: PC moves by the signed offset exactly when the condition on N, Z, V, C
holds; nothing else changes but the clock. -/
def Obligations.ShortBranches : Prop :=
  ∀ (s : State) (n : Byte) (i : Instr) (taken : Bool),
    (i, taken) ∈
      [(Instr.bra n, true), (.brn n, false), (.bhi n, !s.cc.c && !s.cc.z), (.bls n, s.cc.c || s.cc.z),
       (.bcc n, !s.cc.c), (.bcs n, s.cc.c), (.bne n, !s.cc.z), (.beq n, s.cc.z),
       (.bvc n, !s.cc.v), (.bvs n, s.cc.v), (.bpl n, !s.cc.n), (.bmi n, s.cc.n),
       (.bge n, s.cc.n == s.cc.v), (.blt n, s.cc.n != s.cc.v), (.bgt n, !s.cc.z && s.cc.n == s.cc.v),
       (.ble n, s.cc.z || s.cc.n != s.cc.v)] →
    exec i s = .next
      ({ s with pc := if taken then BitVec.ofInt 16 (s.pc.toNat + n.toInt) else s.pc }.tick (cost s.cfg i))

/-- 44_control_flow.md R270 to R286, long forms, and 70_reset_and_hazards.md R440: a conditional one costs
`CYC_BRANCH_TAKEN` more when it is taken. -/
def Obligations.LongBranches : Prop :=
  ∀ (s : State) (n : Word),
    let target : Word := BitVec.ofNat 16 (s.pc.toNat + n.toNat)
    exec (.lbra n) s = .next ({ s with pc := target }.tick (cost s.cfg (.lbra n))) ∧
    ∀ (i : Instr) (taken : Bool),
      (i, taken) ∈
        [(Instr.lbrn n, false), (.lbhi n, !s.cc.c && !s.cc.z), (.lbls n, s.cc.c || s.cc.z),
         (.lbcc n, !s.cc.c), (.lbcs n, s.cc.c), (.lbne n, !s.cc.z), (.lbeq n, s.cc.z),
         (.lbvc n, !s.cc.v), (.lbvs n, s.cc.v), (.lbpl n, !s.cc.n), (.lbmi n, s.cc.n),
         (.lbge n, s.cc.n == s.cc.v), (.lblt n, s.cc.n != s.cc.v), (.lbgt n, !s.cc.z && s.cc.n == s.cc.v),
         (.lble n, s.cc.z || s.cc.n != s.cc.v)] →
      exec i s = .next
        ({ s with pc := if taken then target else s.pc }.tick
          (cost s.cfg i + if taken then s.cfg.cycBranchTaken else 0))

/-- 42_alu8_binary.md R203: after CMP the unsigned and the signed branch conditions compare the register with the
operand. -/
def Obligations.CompareThenBranch : Prop :=
  ∀ (r : Acc) (o : Src8) (s t u : State) (m : Byte), operand8 o s = .ok m t →
    exec (r.pick (.cmpa o) (.cmpb o)) s = .next u →
    let x := t.acc r
    let cond (c : Cond) : Prop := c.holds u.cc = true
    (cond .eq ↔ x = m) ∧ (cond .ne ↔ x ≠ m) ∧
    (cond .hi ↔ m.toNat < x.toNat) ∧ (cond .cc ↔ m.toNat ≤ x.toNat) ∧
    (cond .cs ↔ x.toNat < m.toNat) ∧ (cond .ls ↔ x.toNat ≤ m.toNat) ∧
    (cond .gt ↔ m.toInt < x.toInt) ∧ (cond .ge ↔ m.toInt ≤ x.toInt) ∧
    (cond .lt ↔ x.toInt < m.toInt) ∧ (cond .le ↔ x.toInt ≤ m.toInt)

/-- 44_control_flow.md R287 to R290: BSR and LBSR push the address of the next instruction and branch; JSR does the same
once its address is final; JMP writes PC alone; RTS pulls PC. -/
def Obligations.CallsJumpsAndReturn : Prop :=
  (∀ (s t : State) (n : Byte), push16 .s s.pc s = .ok () t → exec (.bsr n) s = .next
    ({ t with pc := BitVec.ofInt 16 (s.pc.toNat + n.toInt) }.tick (cost s.cfg (.bsr n)))) ∧
  (∀ (s t : State) (n : Word), push16 .s s.pc s = .ok () t → exec (.lbsr n) s = .next
    ({ t with pc := BitVec.ofNat 16 (s.pc.toNat + n.toNat) }.tick (cost s.cfg (.lbsr n)))) ∧
  (∀ (mm : Mem) (s t1 t2 : State) (a : Word), ea mm s = .ok a t1 → push16 .s s.pc t1 = .ok () t2 →
    exec (.jsr mm) s = .next ({ t2 with pc := a }.tick (cost s.cfg (.jsr mm)))) ∧
  (∀ (mm : Mem) (s t1 : State) (a : Word), ea mm s = .ok a t1 →
    exec (.jmp mm) s = .next ({ t1 with pc := a }.tick (cost s.cfg (.jmp mm)))) ∧
  (∀ (s t : State) (w : Word), pull16 .s s = .ok w t →
    exec .rts s = .next ({ t with pc := w }.tick (cost s.cfg .rts)))

/-! ## Results: stacks, transfers -/

/-- 45_stack_transfer.md R310: a push moves the pointer first and writes then; a word goes low byte first. A push that
faults has moved the pointer for the byte it could not write. -/
def Obligations.PushMovesThenWrites : Prop :=
  ∀ (p : Sp) (s t t' : State) (v : Byte) (w : Word),
    let moved (u : State) : State := u.setSp p (u.sp p - 1)
    push8 p v s = write8 (s.sp p - 1) v (moved s) ∧
    (push8 p (w.extractLsb' 0 8) s = .ok () t → push8 p (w.extractLsb' 8 8) t = .ok () t' →
      push16 p w s = .ok () t') ∧
    (∀ k, push8 p v s = .error k t → t.sp p = s.sp p - 1 ∧ k = .undefinedWrite ∧
      t = { moved s with fault := some .undefinedWrite })

/-- 45_stack_transfer.md R311: a pull reads first and moves the pointer then; a word comes high byte first. A pull that
faults has not moved the pointer for the byte it could not read. In plain memory a word pushed lies high byte lower, is
pulled back, and the pointer ends where it started. -/
def Obligations.PullReadsThenMoves : Prop :=
  ∀ (p : Sp) (s t t' : State) (h l : Byte) (w : Word),
    (read8 (s.sp p) s = .ok h t → pull8 p s = .ok h (t.setSp p (s.sp p + 1))) ∧
    (∀ k, pull8 p s = .error k t → k = .undefinedRead ∧ t = { s with fault := some .undefinedRead }) ∧
    (pull8 p s = .ok h t → pull8 p t = .ok l t' → pull16 p s = .ok (cat h l) t') ∧
    (s.world.wf = true → s.world.ram (s.sp p - 2) 2 →
      ∃ pm' : Memory, ∃ q : State, q = { s.setSp p (s.sp p - 2) with world := { s.world with pm := pm' } } ∧
        push16 p w s = .ok () q ∧
        q.world.peek (s.sp p - 2) = some (w.extractLsb' 8 8) ∧ q.world.peek (s.sp p - 1) = some (w.extractLsb' 0 8) ∧
        pull16 p q = .ok w { s with world := q.world })

/-- 45_stack_transfer.md R312, R313: PSHS and PSHU in plain memory: the bytes of the list from the new pointer up, CC
lowest and PC highest, no byte elsewhere, and no register but the pointer. -/
def Obligations.PushRegisterList : Prop :=
  ∀ (p : Sp) (l : RegList) (s : State),
    let n := (l.image p s).length
    s.world.wf = true → s.world.ram (s.sp p - BitVec.ofNat 16 n) n →
    let i := p.pick (.pshs l) (.pshu l)
    ∃ pm' : Memory,
      exec i s = .next ({ s.setSp p (s.sp p - BitVec.ofNat 16 n) with
        world := { s.world with pm := pm' } }.tick (cost s.cfg i)) ∧
      (∀ k, k < n → ({ s.world with pm := pm' } : World).peek (s.sp p - BitVec.ofNat 16 n + BitVec.ofNat 16 k) =
        (l.image p s)[k]?) ∧
      ∀ b, (∀ loc, s.world.readSpot b = some loc → ¬ s.world.reaches (s.sp p - BitVec.ofNat 16 n) n loc) →
        ({ s.world with pm := pm' } : World).peek b = s.world.peek b

/-- 45_stack_transfer.md R312, R314: PULS and PULU of bytes that raw pointers serve, `bs k` being the byte at the pointer
plus `k`. A pull of S by PULU sets the NMI-armed latch where it is in `P_ARM_SET`. -/
def Obligations.PullRegisterList : Prop :=
  ∀ (l : RegList) (s : State) (bs : Nat → Byte),
    let oA := l.cc.toNat
    let oB := oA + l.a.toNat
    let oDP := oB + l.b.toNat
    let oX := oDP + l.dp.toNat
    let oY := oX + 2 * l.x.toNat
    let oO := oY + 2 * l.y.toNat
    let oPC := oO + 2 * l.other.toNat
    let n := oPC + 2 * l.pc.toNat
    let word (k : Nat) : Word := cat (bs k) (bs (k + 1))
    let loaded : State :=
      { s with
        cc := if l.cc then CC.ofByte (bs 0) else s.cc
        a := if l.a then bs oA else s.a
        b := if l.b then bs oB else s.b
        dp := if l.dp then bs oDP else s.dp
        x := if l.x then word oX else s.x
        y := if l.y then word oY else s.y
        pc := if l.pc then word oPC else s.pc }
    ((∀ k, k < n → s.world.peek (s.s + BitVec.ofNat 16 k) = some (bs k)) →
      exec (.puls l) s = .next
        ({ loaded with s := s.s + BitVec.ofNat 16 n, u := if l.other then word oO else s.u }.tick
          (cost s.cfg (.puls l)))) ∧
    ((∀ k, k < n → s.world.peek (s.u + BitVec.ofNat 16 k) = some (bs k)) →
      exec (.pulu l) s = .next
        ({ loaded with
            u := s.u + BitVec.ofNat 16 n
            s := if l.other then word oO else s.s
            nmiArmed := s.nmiArmed || (l.other && s.cfg.armPulu) }.tick (cost s.cfg (.pulu l))))

/-- 45_stack_transfer.md R314, round trip: PSHS and then, with any register but S changed, PULS of the same list gives
every register of the list its old value back and S as it was. -/
def Obligations.PushThenPullRestores : Prop :=
  ∀ (l : RegList) (s t v : State),
    let n := (l.image .s s).length
    s.world.wf = true → s.world.ram (s.s - BitVec.ofNat 16 n) n →
    exec (.pshs l) s = .next t → v.s = t.s → v.world = t.world →
    ∃ w, exec (.puls l) v = .next w ∧ w.s = s.s ∧ w.world = v.world ∧
      w.cc = (if l.cc then s.cc else v.cc) ∧ w.a = (if l.a then s.a else v.a) ∧ w.b = (if l.b then s.b else v.b) ∧
      w.dp = (if l.dp then s.dp else v.dp) ∧ w.x = (if l.x then s.x else v.x) ∧ w.y = (if l.y then s.y else v.y) ∧
      w.u = (if l.other then s.u else v.u) ∧ w.pc = (if l.pc then s.pc else v.pc)

/-- 45_stack_transfer.md R316, R317, R315, 10_state.md R29: TFR copies and EXG exchanges two registers of one width;
registers that are neither and no half of either keep their values; S as a destination sets the NMI-armed latch where
`P_ARM_SET` says so. Last clause: two widths raise RegisterSelect. -/
def Obligations.TransferAndExchange : Prop :=
  ∀ (r1 r2 : Reg) (s : State),
    let apart (q r : Reg) : Bool :=
      q != r && !(r == .d && (q == .a || q == .b)) && !(q == .d && (r == .a || r == .b))
    let restKept (t : State) : Prop :=
      t.world = s.world ∧ t.waitCwai = s.waitCwai ∧ t.waitSync = s.waitSync ∧ t.fault = s.fault ∧
        t.clock = s.clock ∧ t.freeCount = s.freeCount ∧ t.handlerCount = s.handlerCount ∧
        t.clockHeld = s.clockHeld ∧ t.nextCb = s.nextCb ∧ t.cfg = s.cfg
    (sameWidth r1 r2 = true →
      (∃ t, exec (.tfr r1 r2) s = .next (t.tick (cost s.cfg (.tfr r1 r2))) ∧ t.reg r2 = s.reg r1 ∧
        (∀ q, apart q r2 = true → t.reg q = s.reg q) ∧
        t.nmiArmed = (s.nmiArmed || (r2 == .s && s.cfg.armTfr)) ∧ restKept t) ∧
      (∃ t, exec (.exg r1 r2) s = .next (t.tick (cost s.cfg (.exg r1 r2))) ∧ t.reg r2 = s.reg r1 ∧
        t.reg r1 = s.reg r2 ∧
        (∀ q, apart q r1 = true → apart q r2 = true → t.reg q = s.reg q) ∧
        t.nmiArmed = (s.nmiArmed || ((r1 == .s || r2 == .s) && s.cfg.armExg)) ∧ restKept t)) ∧
    (sameWidth r1 r2 = false →
      exec (.tfr r1 r2) s = .next { s.tick s.cfg.cycFault with fault := some .registerSelect } ∧
      exec (.exg r1 r2) s = .next { s.tick s.cfg.cycFault with fault := some .registerSelect })

/-! ## Results: miscellaneous and system instructions -/

/-- 46_misc_system.md R330 to R332, R334 to R336, R340, with their encodings: NOP, ANDCC, ORCC, MUL, SEX, ABX, SYNC. -/
def Obligations.RegisterHousekeeping : Prop :=
  ∀ (s : State) (m : Byte),
    let k := s.cc
    let p := s.a.toNat * s.b.toNat
    (encode .nop = [0x12] ∧ exec .nop s = .next (s.tick (cost s.cfg .nop))) ∧
    (encode (.andcc m) = [0x1C, m] ∧ exec (.andcc m) s = .next
      ({ s with
          cc := ⟨k.e && m.getLsbD 7, k.f && m.getLsbD 6, k.h && m.getLsbD 5, k.i && m.getLsbD 4, k.n && m.getLsbD 3,
            k.z && m.getLsbD 2, k.v && m.getLsbD 1, k.c && m.getLsbD 0⟩ }.tick (cost s.cfg (.andcc m)))) ∧
    (encode (.orcc m) = [0x1A, m] ∧ exec (.orcc m) s = .next
      ({ s with
          cc := ⟨k.e || m.getLsbD 7, k.f || m.getLsbD 6, k.h || m.getLsbD 5, k.i || m.getLsbD 4, k.n || m.getLsbD 3,
            k.z || m.getLsbD 2, k.v || m.getLsbD 1, k.c || m.getLsbD 0⟩ }.tick (cost s.cfg (.orcc m)))) ∧
    (encode .mul = [0x3D] ∧ exec .mul s = .next
      ({ s with
          a := BitVec.ofNat 8 (p / 256)
          b := BitVec.ofNat 8 p
          cc := { k with z := decide (s.a = 0 ∨ s.b = 0), c := decide (128 ≤ p % 256) } }.tick (cost s.cfg .mul))) ∧
    (encode .sex = [0x1D] ∧ exec .sex s = .next
      ({ s with
          a := if s.b.toInt < 0 then 0xFF else 0x00
          cc := { k with n := decide (s.b.toInt < 0), z := decide (s.b = 0) } }.tick (cost s.cfg .sex))) ∧
    (encode .abx = [0x3A] ∧ exec .abx s = .next
      ({ s with x := BitVec.ofNat 16 (s.x.toNat + s.b.toNat) }.tick (cost s.cfg .abx))) ∧
    (encode .sync = [0x13] ∧ exec .sync s = .next ({ s with waitSync := true }.tick (cost s.cfg .sync)))

/-- 46_misc_system.md R333: DAA. V is some value that nothing constrains (log 11); H keeps its value. -/
def Obligations.DecimalAdjust : Prop :=
  ∀ s : State,
    let lsn := s.a.toNat % 16
    let msn := s.a.toNat / 16
    let cf := (if s.cc.h = true ∨ 9 < lsn then 0x06 else 0x00) +
      (if s.cc.c = true ∨ 9 < msn ∨ (8 < msn ∧ 9 < lsn) then 0x60 else 0x00)
    let t := s.a.toNat + cf
    let r : Byte := BitVec.ofNat 8 t
    ∃ v : Bool, exec .daa s = .next
      ({ s with
          a := r
          cc := s.cc.ofResult r v (s.cc.c || decide (256 ≤ t))
          freeCount := s.freeCount + 1 }.tick (cost s.cfg .daa))

/-- 46_misc_system.md R333, its purpose: DAA after ADDA of two packed decimal numbers gives their decimal sum, C being
the hundred. -/
def Obligations.DecimalAddition : Prop :=
  ∀ (s t u : State) (m : Byte),
    let value (v : Byte) : Nat := 10 * (v.toNat / 16) + v.toNat % 16
    let decimal (v : Byte) : Prop := v.toNat / 16 ≤ 9 ∧ v.toNat % 16 ≤ 9
    decimal s.a → decimal m → exec (.adda (.imm m)) s = .next t → exec .daa t = .next u →
      decimal u.a ∧ value s.a + value m = value u.a + 100 * u.cc.c.toNat

/-- 60_exceptions.md R372: the entire frame in plain memory: twelve bytes, CC lowest, PC highest, and S twelve lower. -/
def Obligations.EntireFrameLayout : Prop :=
  ∀ s : State, s.world.wf = true → s.world.ram (s.s - 12) 12 →
    ∃ pm' : Memory,
      pushEntire s = .ok () { s with s := s.s - 12, world := { s.world with pm := pm' } } ∧
      (∀ k, k < 12 → ({ s.world with pm := pm' } : World).peek (s.s - 12 + BitVec.ofNat 16 k) = s.entireImage[k]?) ∧
      ∀ b, (∀ loc, s.world.readSpot b = some loc → ¬ s.world.reaches (s.s - 12) 12 loc) →
        ({ s.world with pm := pm' } : World).peek b = s.world.peek b

/-- 46_misc_system.md R341: CWAI: the AND, E set, the entire frame, the wait. Second clause: a push that faults leaves
the wait unset and no cost. -/
def Obligations.WaitForInterruptStacks : Prop :=
  ∀ (s t : State) (m : Byte),
    let s0 : State := { s with cc := { CC.ofByte (s.cc.toByte &&& m) with e := true } }
    encode (.cwai m) = [0x3C, m] ∧
    (pushEntire s0 = .ok () t → exec (.cwai m) s = .next ({ t with waitCwai := true }.tick (cost s.cfg (.cwai m)))) ∧
    (∀ k, pushEntire s0 = .error k t → exec (.cwai m) s = .next t)

/-- 46_misc_system.md R342, 70_reset_and_hazards.md R440: RTI of bytes that raw pointers serve, `bs k` being the byte at
S plus `k`: the E just pulled chooses between the short and the entire frame. -/
def Obligations.ReturnFromInterrupt : Prop :=
  ∀ (s : State) (bs : Nat → Byte),
    let word (k : Nat) : Word := cat (bs k) (bs (k + 1))
    encode .rti = [0x3B] ∧
    ((bs 0).getLsbD 7 = false → (∀ k, k < 3 → s.world.peek (s.s + BitVec.ofNat 16 k) = some (bs k)) →
      exec .rti s = .next ({ s with cc := CC.ofByte (bs 0), pc := word 1, s := s.s + 3 }.tick (cost s.cfg .rti))) ∧
    ((bs 0).getLsbD 7 = true → (∀ k, k < 12 → s.world.peek (s.s + BitVec.ofNat 16 k) = some (bs k)) →
      exec .rti s = .next
        ({ s with
            cc := CC.ofByte (bs 0)
            a := bs 1
            b := bs 2
            dp := bs 3
            x := word 4
            y := word 6
            u := word 8
            pc := word 10
            s := s.s + 12 }.tick s.cfg.cycRtiEntire))

/-- 46_misc_system.md R350 to R352: the software interrupts: E set, the entire frame, the masks for SWI alone, PC from
the vector. Last clause: without `P_SWI` they raise Instruction; that they do so in their
meaning, the decoder reading them still, is the model's reading (log 25). -/
def Obligations.SoftwareInterrupts : Prop :=
  ∀ (s t1 t2 : State) (w : Word),
    let s0 : State := { s with cc := { s.cc with e := true } }
    (encode .swi = [0x3F] ∧ encode .swi2 = [0x10, 0x3F] ∧ encode .swi3 = [0x11, 0x3F]) ∧
    (s.cfg.swi = true → pushEntire s0 = .ok () t1 →
      (read16 0xFFFA { t1 with cc := { t1.cc with i := true, f := true } } = .ok w t2 →
        exec .swi s = .next ({ t2 with pc := w }.tick (cost s.cfg .swi))) ∧
      (read16 0xFFF4 t1 = .ok w t2 → exec .swi2 s = .next ({ t2 with pc := w }.tick (cost s.cfg .swi2))) ∧
      (read16 0xFFF2 t1 = .ok w t2 → exec .swi3 s = .next ({ t2 with pc := w }.tick (cost s.cfg .swi3)))) ∧
    (s.cfg.swi = false → ∀ i, i = .swi ∨ i = .swi2 ∨ i = .swi3 →
      exec i s = .next { s.tick s.cfg.cycFault with fault := some .instruction })

/-! ## Interrupts and wait states -/

/-- 60_exceptions.md R373, R376: the NMI service, with stacking and, from the CWAI wait, without. (`State.begun` clears
the fault code and chooses the model's own `clockHeld`, log 9, and nothing else.) -/
def Obligations.NmiService : Prop :=
  ∀ (s t1 t2 : State) (w : Word), s.world.lineNmi = true → s.nmiArmed = true →
    let entered : State :=
      { ({ t2 with pc := w, waitCwai := false, waitSync := false }.tick s.cfg.cycNmi) with
        world := { t2.world with lineNmi := false } }
    (s.waitCwai = false → pushEntire { s.begun with cc := { s.cc with e := true } } = .ok () t1 →
      read16 0xFFFC { t1 with cc := { t1.cc with i := true, f := true } } = .ok w t2 → step s = .next entered) ∧
    (s.waitCwai = true →
      read16 0xFFFC { s.begun with cc := { s.cc with i := true, f := true } } = .ok w t2 →
      step s = .next entered)

/-- 60_exceptions.md R374, R376: the FIRQ service, when no armed NMI is asserted: the short frame, F alone set; from the
CWAI wait no frame. -/
def Obligations.FirqService : Prop :=
  ∀ (s t0 t1 t2 : State) (w : Word), s.nmiReady = false → s.world.lineFirq = true → s.cc.f = false →
    let entered : State :=
      { ({ t2 with pc := w, waitCwai := false, waitSync := false }.tick s.cfg.cycFirq) with
        world := { t2.world with lineFirq := t2.world.lineFirq && !s.cfg.maskableAutoclear } }
    let short : CC := { s.cc with e := false }
    (s.waitCwai = false → push16 .s s.pc { s.begun with cc := short } = .ok () t0 →
      push8 .s short.toByte t0 = .ok () t1 → read16 0xFFF6 { t1 with cc := { t1.cc with f := true } } = .ok w t2 →
      step s = .next entered) ∧
    (s.waitCwai = true → read16 0xFFF6 { s.begun with cc := { s.cc with f := true } } = .ok w t2 →
      step s = .next entered)

/-- 60_exceptions.md R375, R376: the IRQ service, when neither an armed NMI nor an unmasked FIRQ is asserted: the entire
frame, I alone set; from the CWAI wait no frame. -/
def Obligations.IrqService : Prop :=
  ∀ (s t1 t2 : State) (w : Word), s.nmiReady = false → s.firqReady = false → s.world.lineIrq = true →
    s.cc.i = false →
    let entered : State :=
      { ({ t2 with pc := w, waitCwai := false, waitSync := false }.tick s.cfg.cycIrq) with
        world := { t2.world with lineIrq := t2.world.lineIrq && !s.cfg.maskableAutoclear } }
    (s.waitCwai = false → pushEntire { s.begun with cc := { s.cc with e := true } } = .ok () t1 →
      read16 0xFFF8 { t1 with cc := { t1.cc with i := true } } = .ok w t2 → step s = .next entered) ∧
    (s.waitCwai = true → read16 0xFFF8 { s.begun with cc := { s.cc with i := true } } = .ok w t2 →
      step s = .next entered)

/-- 60_exceptions.md R383: a fault in the entry of an IRQ. When the stacking faults, the state is the one the push left,
E at its new value, masks, PC, waits and clock untouched; when the vector read faults, the frame is complete, the mask
is set and PC is unchanged. (`clockHeld` and `handlerCount` are the model's own, logs 9 and 12.) -/
def Obligations.FaultInInterruptEntry : Prop :=
  ∀ (s t1 t2 : State) (k : Fault), s.nmiReady = false → s.firqReady = false → s.irqReady = true →
    s.waitCwai = false →
    (pushEntire { s.begun with cc := { s.cc with e := true } } = .error k t1 →
      step s = .next t1 ∧ t1 = { s.begun with
        cc := { s.cc with e := true }, s := t1.s, fault := some .undefinedWrite, world := t1.world,
        handlerCount := t1.handlerCount }) ∧
    (pushEntire { s.begun with cc := { s.cc with e := true } } = .ok () t1 →
      read16 0xFFF8 { t1 with cc := { t1.cc with i := true } } = .error k t2 →
      step s = .next t2 ∧ t2 = { s.begun with
        cc := { s.cc with e := true, i := true }, s := s.s - 12, fault := some .undefinedRead, world := t2.world,
        handlerCount := t2.handlerCount })

/-- 60_exceptions.md R378, R379: with no serviceable interrupt the CWAI wait idles whatever masked lines are asserted;
the SYNC wait idles with no line asserted. An idle step sets the fault code to OK, adds `CYC_IDLE` and changes nothing
else but the model's own `clockHeld` (log 9). -/
def Obligations.WaitStatesIdle : Prop :=
  ∀ s : State, s.nmiReady = false → s.firqReady = false → s.irqReady = false →
    (s.waitCwai = true ∨
      (s.waitSync = true ∧ s.world.lineNmi = false ∧ s.world.lineFirq = false ∧ s.world.lineIrq = false)) →
    step s = .next (s.begun.tick s.cfg.cycIdle)

/-- 60_exceptions.md R381, R382, 46_misc_system.md R342: an IRQ entry followed by RTI gives every register its value
back, CC with E set, and PC at the instruction that would have run; the stack lies in plain memory. -/
def Obligations.InterruptThenReturnRestores : Prop :=
  ∀ (s t : State), s.world.wf = true → s.nmiReady = false → s.firqReady = false → s.irqReady = true →
    s.waitCwai = false → s.world.ram (s.s - 12) 12 → s.world.readSpot 0xFFF8 ≠ none → step s = .next t →
    ∃ u, exec .rti t = .next u ∧ u =
      { s with
        cc := { s.cc with e := true }
        waitSync := false
        fault := none
        clock := u.clock
        freeCount := u.freeCount
        clockHeld := u.clockHeld
        world := { s.world with pm := u.world.pm, lineIrq := !s.cfg.maskableAutoclear } }

/-! ## Rules about the whole machine -/

/-- 10_state.md R39 (a), R33, 20_memory.md R68: from every state with canonical tables and memory, with raw pointers that
reference 256 bytes of `PM`, in which the two wait states do not hold together, a step leads to such a state. (That an
action which names nothing in `PM` is left out is log 6.) -/
def Obligations.StepKeepsInvariant : Prop :=
  ∀ s t : State, s.Inv → step s = .next t → t.Inv

/-- 60_exceptions.md R360 to R362, R369, 10_state.md R29: a step always has a next state; it never raises
InternalError, never clears the NMI-armed latch and never changes a parameter. (That a faulted step is a next state is
log 1.) 20_memory.md R67, 70_reset_and_hazards.md R441: a clock that one of its handlers sees further on than the clock at
its start (log 9) lies no later than the clock after it. -/
def Obligations.StepAlwaysAnswers : Prop :=
  ∀ s : State, ∃ t, step s = .next t ∧ t.fault ≠ some .internalError ∧
    (s.nmiArmed = true → t.nmiArmed = true) ∧ t.cfg = s.cfg ∧ t.nextCb = s.nextCb ∧
    s.handlerCount ≤ t.handlerCount ∧ t.clockHeld = s.begun.clockHeld ∧
    (t.clockHeld = false → ∀ n, s.handlerCount ≤ n → n < t.handlerCount →
      s.clock.toNat + Config.freeClockAdvance n ≤ t.clock.toNat)

/-- 10_state.md R37, R26, R29, R30: which instructions write which register, faulted or not. What an instruction is not
listed as a writer of keeps its value: the frame of all instructions. -/
def Obligations.RegisterWriters : Prop :=
  ∀ (i : Instr) (s t : State), exec i s = .next t →
    (i.writesA = false → t.a = s.a) ∧
    (i.writesB = false → t.b = s.b) ∧
    (i.writesX = false → i.moves ≠ some .x → t.x = s.x) ∧
    (i.writesY = false → i.moves ≠ some .y → t.y = s.y) ∧
    (i.writesU = false → i.moves ≠ some .u → t.u = s.u) ∧
    (i.writesS = false → i.moves ≠ some .s → t.s = s.s) ∧
    (i.writesPC = false → t.pc = s.pc) ∧
    (i.writesDP = false → t.dp = s.dp) ∧
    (s.nmiArmed = true → t.nmiArmed = true) ∧
    (i.arms s.cfg = false → t.nmiArmed = s.nmiArmed) ∧
    ((∀ m, i ≠ .cwai m) → t.waitCwai = s.waitCwai) ∧
    (i ≠ .sync → t.waitSync = s.waitSync) ∧
    t.clockHeld = s.clockHeld ∧ t.cfg = s.cfg ∧ t.nextCb = s.nextCb

/-- 10_state.md R38: which instructions write which flag, faulted or not. -/
def Obligations.FlagWriters : Prop :=
  ∀ (i : Instr) (s t : State), exec i s = .next t →
    (i.writesE = false → t.cc.e = s.cc.e) ∧
    (i.writesMasks = false → t.cc.f = s.cc.f ∧ t.cc.i = s.cc.i) ∧
    (i.writesH = false → t.cc.h = s.cc.h) ∧
    (i.writesN = false → t.cc.n = s.cc.n) ∧
    (i.writesZ = false → t.cc.z = s.cc.z) ∧
    (i.writesV = false → t.cc.v = s.cc.v) ∧
    (i.writesC = false → t.cc.c = s.cc.c)

/-- 10_state.md R33, R28, R34, 20_memory.md R76: with no handler installed an instruction changes no table entry, no
line and no private state, and one that stores nothing leaves every byte of memory alone. -/
def Obligations.MemoryFrameWithoutStores : Prop :=
  ∀ (i : Instr) (s t : State), s.world.NoHandlers → exec i s = .next t →
    t.world = { s.world with pm := t.world.pm } ∧ (i.storesNothing = true → t.world = s.world)

/-- 20_memory.md R76, R65: with no handler installed an instruction that stores changes no byte outside the addresses it
stores to: the effective address, two bytes of it for a word, or the bytes below the stack pointer. `apart` says that an
address is not read where one of them is written. -/
def Obligations.MemoryFrameOfStores : Prop :=
  ∀ (s t t1 : State) (b : Word), s.world.NoHandlers → s.world.wf = true →
    let apart (a : Word) (n : Nat) : Prop :=
      ∀ loc, s.world.readSpot b = some loc → ¬ s.world.reaches a n loc
    let kept (i : Instr) (a : Word) (n : Nat) : Prop :=
      exec i s = .next t → apart a n → t.world.peek b = s.world.peek b
    (∀ (m : Mem) (a : Word), ea m s = .ok a t1 →
      (∀ i ∈ [Instr.neg m, .com m, .lsr m, .ror m, .asr m, .asl m, .rol m, .dec m, .inc m, .clr m, .sta m, .stb m],
        kept i a 1) ∧
      (∀ i ∈ [Instr.std m, .stx m, .sty m, .stu m, .sts m], kept i a 2) ∧
      kept (.jsr m) (t1.s - 2) 2) ∧
    (∀ n, kept (.bsr n) (s.s - 2) 2) ∧
    (∀ n, kept (.lbsr n) (s.s - 2) 2) ∧
    (∀ l : RegList, kept (.pshs l) (s.s - BitVec.ofNat 16 (l.image .s s).length) (l.image .s s).length) ∧
    (∀ l : RegList, kept (.pshu l) (s.u - BitVec.ofNat 16 (l.image .u s).length) (l.image .u s).length) ∧
    (∀ m, kept (.cwai m) (s.s - 12) 12) ∧
    (∀ i ∈ [Instr.swi, .swi2, .swi3], kept i (s.s - 12) 12)

/-- 10_state.md R39 (c), (d), R27, 70_reset_and_hazards.md R440, with the default costs: a step that does not fault adds
between 1 and 20 cycles, a decode fault adds one, a bus fault none. -/
def Obligations.StepAdvancesTheClock : Prop :=
  ∀ s t : State, s.cfg = Params.default → s.clock.toNat + 20 < 2 ^ 64 → step s = .next t →
    (t.fault = none → s.clock.toNat + 1 ≤ t.clock.toNat ∧ t.clock.toNat ≤ s.clock.toNat + 20) ∧
    (t.fault = some .undefinedRead ∨ t.fault = some .undefinedWrite → t.clock = s.clock) ∧
    (t.fault = some .instruction ∨ t.fault = some .addressMode ∨ t.fault = some .registerSelect →
      t.clock.toNat = s.clock.toNat + 1)

/-- 70_reset_and_hazards.md R430, with the default costs and no callback: `Run(0)` does nothing; `Run(n)` that returns OK
has used its budget up and overshot it by less than the largest step cost; one that returns a fault code stopped at a
step with that fault. -/
def Obligations.RunUsesItsBudget : Prop :=
  ∀ (n : Nat) (s : State), s.cfg = Params.default → s.clock.toNat + n + 20 < 2 ^ 64 →
    hostRun 0 s = ⟨none, s⟩ ∧
    ((hostRun n s).code = none →
      s.clock.toNat + n ≤ (hostRun n s).state.clock.toNat ∧
      (hostRun n s).state.clock.toNat ≤ s.clock.toNat + n + 19) ∧
    (∀ k, (hostRun n s).code = some k → (hostRun n s).state.fault = some k)
end

