-- ==== Sys2Proof/Laws/Act.lean ====
section
/-! SUPPORT. How actions compose: one equation per combinator, so that no proof unfolds the monad. -/

namespace Sys2Proof.Laws

open Sys2Proof.Machine

/-- The state an action ends in, well or with a fault. -/
def final {α : Type} (m : Act α) (s : State) : State :=
  match m s with
  | .ok _ t => t
  | .error _ t => t

theorem final_ok {α : Type} {m : Act α} {s t : State} {v : α} (h : m s = .ok v t) : final m s = t := by
  simp [final, h]

theorem final_error {α : Type} {m : Act α} {s t : State} {k : Fault} (h : m s = .error k t) : final m s = t := by
  simp [final, h]

/-- An instruction always answers a next state: a fault is recorded, never thrown. -/
@[simp] theorem finish_eq (m : Act Unit) (s : State) : finish m s = .next (final m s) := by
  unfold finish final
  cases m s <;> rfl

/-- After an action that ended well, the rest runs from the state it left. -/
theorem bind_ok {α β : Type} {m : Act α} {f : α → Act β} {s t : State} {v : α} (h : m s = .ok v t) :
    (m >>= f) s = f v t := by
  show EStateM.bind m f s = f v t
  simp [EStateM.bind, h]

/-- A fault ends the whole action. -/
theorem bind_error {α β : Type} {m : Act α} {f : α → Act β} {s t : State} {k : Fault} (h : m s = .error k t) :
    (m >>= f) s = .error k t := by
  show EStateM.bind m f s = _
  simp [EStateM.bind, h]

/-- What a composed action that ended well went through. -/
theorem bind_eq_ok {α β : Type} {m : Act α} {f : α → Act β} {s t : State} {v : β} (h : (m >>= f) s = .ok v t) :
    ∃ w t1, m s = .ok w t1 ∧ f w t1 = .ok v t := by
  cases hm : m s with
  | ok w t1 => exact ⟨w, t1, rfl, by rw [bind_ok hm] at h; exact h⟩
  | error k t1 => rw [bind_error hm] at h; cases h

@[simp] theorem pure_apply {α : Type} (v : α) (s : State) : (pure v : Act α) s = .ok v s := rfl
@[simp] theorem look_apply {α : Type} (f : State → α) (s : State) : look f s = .ok (f s) s := rfl
@[simp] theorem change_apply (f : State → State) (s : State) : change f s = .ok () (f s) := rfl
@[simp] theorem raise_apply {α : Type} (k : Fault) (s : State) :
    (raise k : Act α) s = .error k { s with fault := some k } := rfl
@[simp] theorem spend_apply (n : Nat) (s : State) : spend n s = .ok () (s.tick n) := rfl
@[simp] theorem onlyIf_true (m : Act Unit) : onlyIf true m = m := rfl
@[simp] theorem onlyIf_false (m : Act Unit) : onlyIf false m = pure () := rfl

@[simp] theorem pure_bind_apply {α β : Type} (v : α) (f : α → Act β) (s : State) :
    ((pure v : Act α) >>= f) s = f v s := rfl
@[simp] theorem look_bind_apply {α β : Type} (g : State → α) (f : α → Act β) (s : State) :
    (look g >>= f) s = f (g s) s := rfl
@[simp] theorem change_bind_apply {β : Type} (g : State → State) (f : Unit → Act β) (s : State) :
    (change g >>= f) s = f () (g s) := rfl
@[simp] theorem spend_bind_apply {β : Type} (n : Nat) (f : Unit → Act β) (s : State) :
    (spend n >>= f) s = f () (s.tick n) := rfl
@[simp] theorem raise_bind_apply {α β : Type} (k : Fault) (f : α → Act β) (s : State) :
    ((raise k : Act α) >>= f) s = .error k { s with fault := some k } := rfl

@[simp] theorem raiseDecode_apply {α : Type} (k : Fault) (s : State) :
    (raiseDecode k : Act α) s = .error k { s.tick s.cfg.cycFault with fault := some k } := rfl

end Sys2Proof.Laws
end

