-- ==== Sys2Proof/Laws/Bits.lean ====
section
/-! SUPPORT. Bit slices, concatenation and sign extension as arithmetic, and the condition codes as a byte. -/

namespace Sys2Proof.Laws

open Sys2Proof Sys2Proof.Machine

theorem toNat_cat (h l : Byte) : (cat h l).toNat = 256 * h.toNat + l.toNat := by
  unfold cat
  rw [BitVec.toNat_append, ← Nat.shiftLeft_add_eq_or_of_lt l.isLt, Nat.shiftLeft_eq]
  omega

theorem toNat_hi (w : Word) : (hi w).toNat = w.toNat / 256 := by
  have := w.isLt
  unfold hi
  rw [BitVec.extractLsb'_toNat, Nat.shiftRight_eq_div_pow]
  omega

theorem toNat_lo (w : Word) : (lo w).toNat = w.toNat % 256 := by
  unfold lo
  rw [BitVec.extractLsb'_toNat, Nat.shiftRight_zero]

@[simp] theorem cat_hi_lo (w : Word) : cat (hi w) (lo w) = w := by
  apply BitVec.eq_of_toNat_eq
  rw [toNat_cat, toNat_hi, toNat_lo]
  omega

@[simp] theorem hi_cat (h l : Byte) : hi (cat h l) = h := by
  apply BitVec.eq_of_toNat_eq
  have := h.isLt
  have := l.isLt
  rw [toNat_hi, toNat_cat]
  omega

@[simp] theorem lo_cat (h l : Byte) : lo (cat h l) = l := by
  apply BitVec.eq_of_toNat_eq
  have := l.isLt
  rw [toNat_lo, toNat_cat]
  omega

theorem cat_eq_ofNat (h l : Byte) : cat h l = BitVec.ofNat 16 (256 * h.toNat + l.toNat) := by
  apply BitVec.eq_of_toNat_eq
  have := h.isLt
  have := l.isLt
  rw [toNat_cat, BitVec.toNat_ofNat]
  omega

/-- The page of an address, as a number. -/
theorem pageOf_eq (a : Word) : pageOf a = a.toNat / 256 := toNat_hi a

/-- The offset of an address in its page, as a number. -/
theorem offOf_eq (a : Word) : offOf a = a.toNat % 256 := toNat_lo a

@[simp] theorem lo_zext8 (b : Byte) : lo (zext8 b) = b := by
  apply BitVec.eq_of_toNat_eq
  have := b.isLt
  rw [toNat_lo]
  unfold zext8
  rw [BitVec.toNat_setWidth]
  omega

theorem toNat_zext8 (b : Byte) : (zext8 b).toNat = b.toNat := by
  have := b.isLt
  unfold zext8
  rw [BitVec.toNat_setWidth]
  omega

/-- A sign-extended byte is added as a signed number. -/
theorem add_sext8 (w : Word) (b : Byte) : w + sext8 b = BitVec.ofInt 16 (w.toNat + b.toInt) := by
  unfold sext8 BitVec.signExtend
  rw [BitVec.ofInt_add]
  simp

/-- A sign-extended 5-bit offset is added as a signed number. -/
theorem add_sext5 (w : Word) (n : BitVec 5) : w + sext5 n = BitVec.ofInt 16 (w.toNat + n.toInt) := by
  unfold sext5 BitVec.signExtend
  rw [BitVec.ofInt_add]
  simp

/-- CC survives as a byte. -/
@[simp] theorem ofByte_toByte (c : CC) : CC.ofByte c.toByte = c := by
  obtain ⟨e, f, h, i, n, z, v, c⟩ := c
  revert e f h i n z v c
  decide

/-- A byte survives in CC. -/
@[simp] theorem toByte_ofByte (b : Byte) : (CC.ofByte b).toByte = b := by
  revert b
  decide

end Sys2Proof.Laws
end

