-- ==== Sys2Proof/Laws/State.lean ====
section
/-! SUPPORT. One lemma per field per update of the state: what each named update leaves alone, and what it writes. -/

namespace Sys2Proof.Laws

open Sys2Proof Sys2Proof.Machine

/-! Adding cycles -/

@[simp] theorem tick_a (s : State) (n : Nat) : (s.tick n).a = s.a := by
  unfold State.tick
  split <;> rfl

@[simp] theorem tick_b (s : State) (n : Nat) : (s.tick n).b = s.b := by
  unfold State.tick
  split <;> rfl

@[simp] theorem tick_x (s : State) (n : Nat) : (s.tick n).x = s.x := by
  unfold State.tick
  split <;> rfl

@[simp] theorem tick_y (s : State) (n : Nat) : (s.tick n).y = s.y := by
  unfold State.tick
  split <;> rfl

@[simp] theorem tick_u (s : State) (n : Nat) : (s.tick n).u = s.u := by
  unfold State.tick
  split <;> rfl

@[simp] theorem tick_s (s : State) (n : Nat) : (s.tick n).s = s.s := by
  unfold State.tick
  split <;> rfl

@[simp] theorem tick_pc (s : State) (n : Nat) : (s.tick n).pc = s.pc := by
  unfold State.tick
  split <;> rfl

@[simp] theorem tick_dp (s : State) (n : Nat) : (s.tick n).dp = s.dp := by
  unfold State.tick
  split <;> rfl

@[simp] theorem tick_cc (s : State) (n : Nat) : (s.tick n).cc = s.cc := by
  unfold State.tick
  split <;> rfl

@[simp] theorem tick_nmiArmed (s : State) (n : Nat) : (s.tick n).nmiArmed = s.nmiArmed := by
  unfold State.tick
  split <;> rfl

@[simp] theorem tick_waitCwai (s : State) (n : Nat) : (s.tick n).waitCwai = s.waitCwai := by
  unfold State.tick
  split <;> rfl

@[simp] theorem tick_waitSync (s : State) (n : Nat) : (s.tick n).waitSync = s.waitSync := by
  unfold State.tick
  split <;> rfl

@[simp] theorem tick_fault (s : State) (n : Nat) : (s.tick n).fault = s.fault := by
  unfold State.tick
  split <;> rfl

@[simp] theorem tick_world (s : State) (n : Nat) : (s.tick n).world = s.world := by
  unfold State.tick
  split <;> rfl

@[simp] theorem tick_nextCb (s : State) (n : Nat) : (s.tick n).nextCb = s.nextCb := by
  unfold State.tick
  split <;> rfl

@[simp] theorem tick_handlerCount (s : State) (n : Nat) : (s.tick n).handlerCount = s.handlerCount := by
  unfold State.tick
  split <;> rfl

@[simp] theorem tick_clockHeld (s : State) (n : Nat) : (s.tick n).clockHeld = s.clockHeld := by
  unfold State.tick
  split <;> rfl

@[simp] theorem tick_cfg (s : State) (n : Nat) : (s.tick n).cfg = s.cfg := by
  unfold State.tick
  split <;> rfl

theorem tick_clock (s : State) (n : Nat) (h : s.clock.toNat + n < 2 ^ 64) :
    (s.tick n).clock = s.clock + BitVec.ofNat 64 n := by
  unfold State.tick
  rw [if_pos h]

theorem tick_clock_toNat (s : State) (n : Nat) (h : s.clock.toNat + n < 2 ^ 64) :
    (s.tick n).clock.toNat = s.clock.toNat + n := by
  rw [tick_clock s n h, BitVec.toNat_add, BitVec.toNat_ofNat]
  omega

/-! What a handler leaves -/

@[simp] theorem afterHandler_a (s : State) (ms : List ModuleAction) : (s.afterHandler ms).a = s.a := rfl

@[simp] theorem afterHandler_b (s : State) (ms : List ModuleAction) : (s.afterHandler ms).b = s.b := rfl

@[simp] theorem afterHandler_x (s : State) (ms : List ModuleAction) : (s.afterHandler ms).x = s.x := rfl

@[simp] theorem afterHandler_y (s : State) (ms : List ModuleAction) : (s.afterHandler ms).y = s.y := rfl

@[simp] theorem afterHandler_u (s : State) (ms : List ModuleAction) : (s.afterHandler ms).u = s.u := rfl

@[simp] theorem afterHandler_s (s : State) (ms : List ModuleAction) : (s.afterHandler ms).s = s.s := rfl

@[simp] theorem afterHandler_pc (s : State) (ms : List ModuleAction) : (s.afterHandler ms).pc = s.pc := rfl

@[simp] theorem afterHandler_dp (s : State) (ms : List ModuleAction) : (s.afterHandler ms).dp = s.dp := rfl

@[simp] theorem afterHandler_cc (s : State) (ms : List ModuleAction) : (s.afterHandler ms).cc = s.cc := rfl

@[simp] theorem afterHandler_clock (s : State) (ms : List ModuleAction) : (s.afterHandler ms).clock = s.clock := rfl

@[simp] theorem afterHandler_nmiArmed (s : State) (ms : List ModuleAction) : (s.afterHandler ms).nmiArmed = s.nmiArmed := rfl

@[simp] theorem afterHandler_waitCwai (s : State) (ms : List ModuleAction) : (s.afterHandler ms).waitCwai = s.waitCwai := rfl

@[simp] theorem afterHandler_waitSync (s : State) (ms : List ModuleAction) : (s.afterHandler ms).waitSync = s.waitSync := rfl

@[simp] theorem afterHandler_fault (s : State) (ms : List ModuleAction) : (s.afterHandler ms).fault = s.fault := rfl

@[simp] theorem afterHandler_nextCb (s : State) (ms : List ModuleAction) : (s.afterHandler ms).nextCb = s.nextCb := rfl

@[simp] theorem afterHandler_freeCount (s : State) (ms : List ModuleAction) : (s.afterHandler ms).freeCount = s.freeCount := rfl

@[simp] theorem afterHandler_clockHeld (s : State) (ms : List ModuleAction) : (s.afterHandler ms).clockHeld = s.clockHeld := rfl

@[simp] theorem afterHandler_cfg (s : State) (ms : List ModuleAction) : (s.afterHandler ms).cfg = s.cfg := rfl

@[simp] theorem afterHandler_world (s : State) (ms : List ModuleAction) :
    (s.afterHandler ms).world = s.world.actAll s.cfg.pmSize ms := rfl

@[simp] theorem afterHandler_handlerCount (s : State) (ms : List ModuleAction) :
    (s.afterHandler ms).handlerCount = s.handlerCount + 1 := rfl

/-! Storing a byte of backing memory -/

@[simp] theorem stored_a (s : State) (l : Nat) (v : Byte) : (s.stored l v).a = s.a := rfl

@[simp] theorem stored_b (s : State) (l : Nat) (v : Byte) : (s.stored l v).b = s.b := rfl

@[simp] theorem stored_x (s : State) (l : Nat) (v : Byte) : (s.stored l v).x = s.x := rfl

@[simp] theorem stored_y (s : State) (l : Nat) (v : Byte) : (s.stored l v).y = s.y := rfl

@[simp] theorem stored_u (s : State) (l : Nat) (v : Byte) : (s.stored l v).u = s.u := rfl

@[simp] theorem stored_s (s : State) (l : Nat) (v : Byte) : (s.stored l v).s = s.s := rfl

@[simp] theorem stored_pc (s : State) (l : Nat) (v : Byte) : (s.stored l v).pc = s.pc := rfl

@[simp] theorem stored_dp (s : State) (l : Nat) (v : Byte) : (s.stored l v).dp = s.dp := rfl

@[simp] theorem stored_cc (s : State) (l : Nat) (v : Byte) : (s.stored l v).cc = s.cc := rfl

@[simp] theorem stored_clock (s : State) (l : Nat) (v : Byte) : (s.stored l v).clock = s.clock := rfl

@[simp] theorem stored_nmiArmed (s : State) (l : Nat) (v : Byte) : (s.stored l v).nmiArmed = s.nmiArmed := rfl

@[simp] theorem stored_waitCwai (s : State) (l : Nat) (v : Byte) : (s.stored l v).waitCwai = s.waitCwai := rfl

@[simp] theorem stored_waitSync (s : State) (l : Nat) (v : Byte) : (s.stored l v).waitSync = s.waitSync := rfl

@[simp] theorem stored_fault (s : State) (l : Nat) (v : Byte) : (s.stored l v).fault = s.fault := rfl

@[simp] theorem stored_nextCb (s : State) (l : Nat) (v : Byte) : (s.stored l v).nextCb = s.nextCb := rfl

@[simp] theorem stored_freeCount (s : State) (l : Nat) (v : Byte) : (s.stored l v).freeCount = s.freeCount := rfl

@[simp] theorem stored_handlerCount (s : State) (l : Nat) (v : Byte) : (s.stored l v).handlerCount = s.handlerCount := rfl

@[simp] theorem stored_clockHeld (s : State) (l : Nat) (v : Byte) : (s.stored l v).clockHeld = s.clockHeld := rfl

@[simp] theorem stored_cfg (s : State) (l : Nat) (v : Byte) : (s.stored l v).cfg = s.cfg := rfl

@[simp] theorem stored_world (s : State) (l : Nat) (v : Byte) :
    (s.stored l v).world = { s.world with pm := s.world.pm.write l v } := rfl

/-! Writing D -/

@[simp] theorem setD_x (s : State) (w : Word) : (s.setD w).x = s.x := rfl

@[simp] theorem setD_y (s : State) (w : Word) : (s.setD w).y = s.y := rfl

@[simp] theorem setD_u (s : State) (w : Word) : (s.setD w).u = s.u := rfl

@[simp] theorem setD_s (s : State) (w : Word) : (s.setD w).s = s.s := rfl

@[simp] theorem setD_pc (s : State) (w : Word) : (s.setD w).pc = s.pc := rfl

@[simp] theorem setD_dp (s : State) (w : Word) : (s.setD w).dp = s.dp := rfl

@[simp] theorem setD_cc (s : State) (w : Word) : (s.setD w).cc = s.cc := rfl

@[simp] theorem setD_clock (s : State) (w : Word) : (s.setD w).clock = s.clock := rfl

@[simp] theorem setD_nmiArmed (s : State) (w : Word) : (s.setD w).nmiArmed = s.nmiArmed := rfl

@[simp] theorem setD_waitCwai (s : State) (w : Word) : (s.setD w).waitCwai = s.waitCwai := rfl

@[simp] theorem setD_waitSync (s : State) (w : Word) : (s.setD w).waitSync = s.waitSync := rfl

@[simp] theorem setD_fault (s : State) (w : Word) : (s.setD w).fault = s.fault := rfl

@[simp] theorem setD_world (s : State) (w : Word) : (s.setD w).world = s.world := rfl

@[simp] theorem setD_nextCb (s : State) (w : Word) : (s.setD w).nextCb = s.nextCb := rfl

@[simp] theorem setD_freeCount (s : State) (w : Word) : (s.setD w).freeCount = s.freeCount := rfl

@[simp] theorem setD_handlerCount (s : State) (w : Word) : (s.setD w).handlerCount = s.handlerCount := rfl

@[simp] theorem setD_clockHeld (s : State) (w : Word) : (s.setD w).clockHeld = s.clockHeld := rfl

@[simp] theorem setD_cfg (s : State) (w : Word) : (s.setD w).cfg = s.cfg := rfl

@[simp] theorem setD_a (s : State) (w : Word) : (s.setD w).a = hi w := rfl

@[simp] theorem setD_b (s : State) (w : Word) : (s.setD w).b = lo w := rfl

/-! Writing a base register -/

@[simp] theorem setIx_a (s : State) (r : IxReg) (w : Word) : (s.setIx r w).a = s.a := by
  cases r <;> rfl

@[simp] theorem setIx_b (s : State) (r : IxReg) (w : Word) : (s.setIx r w).b = s.b := by
  cases r <;> rfl

@[simp] theorem setIx_pc (s : State) (r : IxReg) (w : Word) : (s.setIx r w).pc = s.pc := by
  cases r <;> rfl

@[simp] theorem setIx_dp (s : State) (r : IxReg) (w : Word) : (s.setIx r w).dp = s.dp := by
  cases r <;> rfl

@[simp] theorem setIx_cc (s : State) (r : IxReg) (w : Word) : (s.setIx r w).cc = s.cc := by
  cases r <;> rfl

@[simp] theorem setIx_clock (s : State) (r : IxReg) (w : Word) : (s.setIx r w).clock = s.clock := by
  cases r <;> rfl

@[simp] theorem setIx_nmiArmed (s : State) (r : IxReg) (w : Word) : (s.setIx r w).nmiArmed = s.nmiArmed := by
  cases r <;> rfl

@[simp] theorem setIx_waitCwai (s : State) (r : IxReg) (w : Word) : (s.setIx r w).waitCwai = s.waitCwai := by
  cases r <;> rfl

@[simp] theorem setIx_waitSync (s : State) (r : IxReg) (w : Word) : (s.setIx r w).waitSync = s.waitSync := by
  cases r <;> rfl

@[simp] theorem setIx_fault (s : State) (r : IxReg) (w : Word) : (s.setIx r w).fault = s.fault := by
  cases r <;> rfl

@[simp] theorem setIx_world (s : State) (r : IxReg) (w : Word) : (s.setIx r w).world = s.world := by
  cases r <;> rfl

@[simp] theorem setIx_nextCb (s : State) (r : IxReg) (w : Word) : (s.setIx r w).nextCb = s.nextCb := by
  cases r <;> rfl

@[simp] theorem setIx_freeCount (s : State) (r : IxReg) (w : Word) : (s.setIx r w).freeCount = s.freeCount := by
  cases r <;> rfl

@[simp] theorem setIx_handlerCount (s : State) (r : IxReg) (w : Word) : (s.setIx r w).handlerCount = s.handlerCount := by
  cases r <;> rfl

@[simp] theorem setIx_clockHeld (s : State) (r : IxReg) (w : Word) : (s.setIx r w).clockHeld = s.clockHeld := by
  cases r <;> rfl

@[simp] theorem setIx_cfg (s : State) (r : IxReg) (w : Word) : (s.setIx r w).cfg = s.cfg := by
  cases r <;> rfl

@[simp] theorem setIx_ix (s : State) (r : IxReg) (w : Word) : (s.setIx r w).ix r = w := by
  cases r <;> rfl

theorem setIx_ix_ne (s : State) {r q : IxReg} (w : Word) (h : q ≠ r) : (s.setIx r w).ix q = s.ix q := by
  cases r <;> cases q <;> first | rfl | exact absurd rfl h

/-! Writing an accumulator -/

@[simp] theorem setAcc_x (s : State) (r : Acc) (v : Byte) : (s.setAcc r v).x = s.x := by
  cases r <;> rfl

@[simp] theorem setAcc_y (s : State) (r : Acc) (v : Byte) : (s.setAcc r v).y = s.y := by
  cases r <;> rfl

@[simp] theorem setAcc_u (s : State) (r : Acc) (v : Byte) : (s.setAcc r v).u = s.u := by
  cases r <;> rfl

@[simp] theorem setAcc_s (s : State) (r : Acc) (v : Byte) : (s.setAcc r v).s = s.s := by
  cases r <;> rfl

@[simp] theorem setAcc_pc (s : State) (r : Acc) (v : Byte) : (s.setAcc r v).pc = s.pc := by
  cases r <;> rfl

@[simp] theorem setAcc_dp (s : State) (r : Acc) (v : Byte) : (s.setAcc r v).dp = s.dp := by
  cases r <;> rfl

@[simp] theorem setAcc_cc (s : State) (r : Acc) (v : Byte) : (s.setAcc r v).cc = s.cc := by
  cases r <;> rfl

@[simp] theorem setAcc_clock (s : State) (r : Acc) (v : Byte) : (s.setAcc r v).clock = s.clock := by
  cases r <;> rfl

@[simp] theorem setAcc_nmiArmed (s : State) (r : Acc) (v : Byte) : (s.setAcc r v).nmiArmed = s.nmiArmed := by
  cases r <;> rfl

@[simp] theorem setAcc_waitCwai (s : State) (r : Acc) (v : Byte) : (s.setAcc r v).waitCwai = s.waitCwai := by
  cases r <;> rfl

@[simp] theorem setAcc_waitSync (s : State) (r : Acc) (v : Byte) : (s.setAcc r v).waitSync = s.waitSync := by
  cases r <;> rfl

@[simp] theorem setAcc_fault (s : State) (r : Acc) (v : Byte) : (s.setAcc r v).fault = s.fault := by
  cases r <;> rfl

@[simp] theorem setAcc_world (s : State) (r : Acc) (v : Byte) : (s.setAcc r v).world = s.world := by
  cases r <;> rfl

@[simp] theorem setAcc_nextCb (s : State) (r : Acc) (v : Byte) : (s.setAcc r v).nextCb = s.nextCb := by
  cases r <;> rfl

@[simp] theorem setAcc_freeCount (s : State) (r : Acc) (v : Byte) : (s.setAcc r v).freeCount = s.freeCount := by
  cases r <;> rfl

@[simp] theorem setAcc_handlerCount (s : State) (r : Acc) (v : Byte) : (s.setAcc r v).handlerCount = s.handlerCount := by
  cases r <;> rfl

@[simp] theorem setAcc_clockHeld (s : State) (r : Acc) (v : Byte) : (s.setAcc r v).clockHeld = s.clockHeld := by
  cases r <;> rfl

@[simp] theorem setAcc_cfg (s : State) (r : Acc) (v : Byte) : (s.setAcc r v).cfg = s.cfg := by
  cases r <;> rfl

@[simp] theorem setAcc_acc (s : State) (r : Acc) (v : Byte) : (s.setAcc r v).acc r = v := by
  cases r <;> rfl

/-! Writing a 16-bit register -/

@[simp] theorem setWide_pc (s : State) (r : Wide) (w : Word) : (s.setWide r w).pc = s.pc := by
  cases r <;> rfl

@[simp] theorem setWide_dp (s : State) (r : Wide) (w : Word) : (s.setWide r w).dp = s.dp := by
  cases r <;> rfl

@[simp] theorem setWide_cc (s : State) (r : Wide) (w : Word) : (s.setWide r w).cc = s.cc := by
  cases r <;> rfl

@[simp] theorem setWide_clock (s : State) (r : Wide) (w : Word) : (s.setWide r w).clock = s.clock := by
  cases r <;> rfl

@[simp] theorem setWide_nmiArmed (s : State) (r : Wide) (w : Word) : (s.setWide r w).nmiArmed = s.nmiArmed := by
  cases r <;> rfl

@[simp] theorem setWide_waitCwai (s : State) (r : Wide) (w : Word) : (s.setWide r w).waitCwai = s.waitCwai := by
  cases r <;> rfl

@[simp] theorem setWide_waitSync (s : State) (r : Wide) (w : Word) : (s.setWide r w).waitSync = s.waitSync := by
  cases r <;> rfl

@[simp] theorem setWide_fault (s : State) (r : Wide) (w : Word) : (s.setWide r w).fault = s.fault := by
  cases r <;> rfl

@[simp] theorem setWide_world (s : State) (r : Wide) (w : Word) : (s.setWide r w).world = s.world := by
  cases r <;> rfl

@[simp] theorem setWide_nextCb (s : State) (r : Wide) (w : Word) : (s.setWide r w).nextCb = s.nextCb := by
  cases r <;> rfl

@[simp] theorem setWide_freeCount (s : State) (r : Wide) (w : Word) : (s.setWide r w).freeCount = s.freeCount := by
  cases r <;> rfl

@[simp] theorem setWide_handlerCount (s : State) (r : Wide) (w : Word) : (s.setWide r w).handlerCount = s.handlerCount := by
  cases r <;> rfl

@[simp] theorem setWide_clockHeld (s : State) (r : Wide) (w : Word) : (s.setWide r w).clockHeld = s.clockHeld := by
  cases r <;> rfl

@[simp] theorem setWide_cfg (s : State) (r : Wide) (w : Word) : (s.setWide r w).cfg = s.cfg := by
  cases r <;> rfl

/-! Writing a register of a transfer -/

@[simp] theorem setReg_clock (s : State) (r : Reg) (w : Word) : (s.setReg r w).clock = s.clock := by
  cases r <;> rfl

@[simp] theorem setReg_nmiArmed (s : State) (r : Reg) (w : Word) : (s.setReg r w).nmiArmed = s.nmiArmed := by
  cases r <;> rfl

@[simp] theorem setReg_waitCwai (s : State) (r : Reg) (w : Word) : (s.setReg r w).waitCwai = s.waitCwai := by
  cases r <;> rfl

@[simp] theorem setReg_waitSync (s : State) (r : Reg) (w : Word) : (s.setReg r w).waitSync = s.waitSync := by
  cases r <;> rfl

@[simp] theorem setReg_fault (s : State) (r : Reg) (w : Word) : (s.setReg r w).fault = s.fault := by
  cases r <;> rfl

@[simp] theorem setReg_world (s : State) (r : Reg) (w : Word) : (s.setReg r w).world = s.world := by
  cases r <;> rfl

@[simp] theorem setReg_nextCb (s : State) (r : Reg) (w : Word) : (s.setReg r w).nextCb = s.nextCb := by
  cases r <;> rfl

@[simp] theorem setReg_freeCount (s : State) (r : Reg) (w : Word) : (s.setReg r w).freeCount = s.freeCount := by
  cases r <;> rfl

@[simp] theorem setReg_handlerCount (s : State) (r : Reg) (w : Word) : (s.setReg r w).handlerCount = s.handlerCount := by
  cases r <;> rfl

@[simp] theorem setReg_clockHeld (s : State) (r : Reg) (w : Word) : (s.setReg r w).clockHeld = s.clockHeld := by
  cases r <;> rfl

@[simp] theorem setReg_cfg (s : State) (r : Reg) (w : Word) : (s.setReg r w).cfg = s.cfg := by
  cases r <;> rfl

/-! Moving a stack pointer -/

@[simp] theorem setSp_a (s : State) (p : Sp) (w : Word) : (s.setSp p w).a = s.a := by
  cases p <;> rfl

@[simp] theorem setSp_b (s : State) (p : Sp) (w : Word) : (s.setSp p w).b = s.b := by
  cases p <;> rfl

@[simp] theorem setSp_x (s : State) (p : Sp) (w : Word) : (s.setSp p w).x = s.x := by
  cases p <;> rfl

@[simp] theorem setSp_y (s : State) (p : Sp) (w : Word) : (s.setSp p w).y = s.y := by
  cases p <;> rfl

@[simp] theorem setSp_pc (s : State) (p : Sp) (w : Word) : (s.setSp p w).pc = s.pc := by
  cases p <;> rfl

@[simp] theorem setSp_dp (s : State) (p : Sp) (w : Word) : (s.setSp p w).dp = s.dp := by
  cases p <;> rfl

@[simp] theorem setSp_cc (s : State) (p : Sp) (w : Word) : (s.setSp p w).cc = s.cc := by
  cases p <;> rfl

@[simp] theorem setSp_clock (s : State) (p : Sp) (w : Word) : (s.setSp p w).clock = s.clock := by
  cases p <;> rfl

@[simp] theorem setSp_nmiArmed (s : State) (p : Sp) (w : Word) : (s.setSp p w).nmiArmed = s.nmiArmed := by
  cases p <;> rfl

@[simp] theorem setSp_waitCwai (s : State) (p : Sp) (w : Word) : (s.setSp p w).waitCwai = s.waitCwai := by
  cases p <;> rfl

@[simp] theorem setSp_waitSync (s : State) (p : Sp) (w : Word) : (s.setSp p w).waitSync = s.waitSync := by
  cases p <;> rfl

@[simp] theorem setSp_fault (s : State) (p : Sp) (w : Word) : (s.setSp p w).fault = s.fault := by
  cases p <;> rfl

@[simp] theorem setSp_world (s : State) (p : Sp) (w : Word) : (s.setSp p w).world = s.world := by
  cases p <;> rfl

@[simp] theorem setSp_nextCb (s : State) (p : Sp) (w : Word) : (s.setSp p w).nextCb = s.nextCb := by
  cases p <;> rfl

@[simp] theorem setSp_freeCount (s : State) (p : Sp) (w : Word) : (s.setSp p w).freeCount = s.freeCount := by
  cases p <;> rfl

@[simp] theorem setSp_handlerCount (s : State) (p : Sp) (w : Word) : (s.setSp p w).handlerCount = s.handlerCount := by
  cases p <;> rfl

@[simp] theorem setSp_clockHeld (s : State) (p : Sp) (w : Word) : (s.setSp p w).clockHeld = s.clockHeld := by
  cases p <;> rfl

@[simp] theorem setSp_cfg (s : State) (p : Sp) (w : Word) : (s.setSp p w).cfg = s.cfg := by
  cases p <;> rfl

@[simp] theorem setSp_sp (s : State) (p : Sp) (w : Word) : (s.setSp p w).sp p = w := by
  cases p <;> rfl

/-! The NMI-armed latch -/

@[simp] theorem arm_a (s : State) (on : Bool) : (s.arm on).a = s.a := rfl

@[simp] theorem arm_b (s : State) (on : Bool) : (s.arm on).b = s.b := rfl

@[simp] theorem arm_x (s : State) (on : Bool) : (s.arm on).x = s.x := rfl

@[simp] theorem arm_y (s : State) (on : Bool) : (s.arm on).y = s.y := rfl

@[simp] theorem arm_u (s : State) (on : Bool) : (s.arm on).u = s.u := rfl

@[simp] theorem arm_s (s : State) (on : Bool) : (s.arm on).s = s.s := rfl

@[simp] theorem arm_pc (s : State) (on : Bool) : (s.arm on).pc = s.pc := rfl

@[simp] theorem arm_dp (s : State) (on : Bool) : (s.arm on).dp = s.dp := rfl

@[simp] theorem arm_cc (s : State) (on : Bool) : (s.arm on).cc = s.cc := rfl

@[simp] theorem arm_clock (s : State) (on : Bool) : (s.arm on).clock = s.clock := rfl

@[simp] theorem arm_waitCwai (s : State) (on : Bool) : (s.arm on).waitCwai = s.waitCwai := rfl

@[simp] theorem arm_waitSync (s : State) (on : Bool) : (s.arm on).waitSync = s.waitSync := rfl

@[simp] theorem arm_fault (s : State) (on : Bool) : (s.arm on).fault = s.fault := rfl

@[simp] theorem arm_world (s : State) (on : Bool) : (s.arm on).world = s.world := rfl

@[simp] theorem arm_nextCb (s : State) (on : Bool) : (s.arm on).nextCb = s.nextCb := rfl

@[simp] theorem arm_freeCount (s : State) (on : Bool) : (s.arm on).freeCount = s.freeCount := rfl

@[simp] theorem arm_handlerCount (s : State) (on : Bool) : (s.arm on).handlerCount = s.handlerCount := rfl

@[simp] theorem arm_clockHeld (s : State) (on : Bool) : (s.arm on).clockHeld = s.clockHeld := rfl

@[simp] theorem arm_cfg (s : State) (on : Bool) : (s.arm on).cfg = s.cfg := rfl

@[simp] theorem arm_nmiArmed (s : State) (on : Bool) : (s.arm on).nmiArmed = (s.nmiArmed || on) := rfl

@[simp] theorem arm_false (s : State) : s.arm false = s := by
  simp [State.arm]

end Sys2Proof.Laws
end

