-- ==== Sys2Proof/Laws/Memory.lean ====
section
/-! SUPPORT. Sparse maps and the backing memory: read after write, the canonical form, and equality of equal contents. -/

namespace Sys2Proof.Laws

open Sys2Proof Sys2Proof.Machine

theorem rising_weaken {β : Type} {m : SMap β} {lo lo' : Nat} (h : SMap.rising lo m = true) (hl : lo' ≤ lo) :
    SMap.rising lo' m = true := by
  cases m with
  | nil => rfl
  | cons c m =>
    obtain ⟨k, v⟩ := c
    simp only [SMap.rising, Bool.and_eq_true, decide_eq_true_eq] at h ⊢
    exact ⟨by omega, h.2⟩

/-- A key below the first listed one is not listed. -/
theorem find_below {β : Type} {m : SMap β} {lo a : Nat} (h : SMap.rising lo m = true) (ha : a < lo) :
    SMap.find m a = none := by
  induction m generalizing lo with
  | nil => rfl
  | cons c m ih =>
    obtain ⟨k, v⟩ := c
    simp only [SMap.rising, Bool.and_eq_true, decide_eq_true_eq] at h
    have hne : a ≠ k := by omega
    simp only [SMap.find, if_neg hne]
    exact ih h.2 (by omega)

theorem find_cons? {β : Type} (m : SMap β) (k : Nat) (v : Option β) (a : Nat)
    (h : a = k → SMap.find m a = none) :
    SMap.find (SMap.cons? k v m) a = if a = k then v else SMap.find m a := by
  cases v with
  | none =>
    by_cases hk : a = k
    · simp only [SMap.cons?, hk, if_true]
      exact hk ▸ h hk
    · simp [SMap.cons?, hk]
  | some b => simp [SMap.cons?, SMap.find]

theorem rising_cons? {β : Type} {m : SMap β} {lo k : Nat} (v : Option β) (h : SMap.rising (k + 1) m = true)
    (hk : lo ≤ k) : SMap.rising lo (SMap.cons? k v m) = true := by
  cases v with
  | none => exact rising_weaken h (by omega)
  | some b => simpa [SMap.cons?, SMap.rising, hk] using h

/-- Setting a key keeps the keys rising. -/
theorem rising_put {β : Type} {m : SMap β} {lo k : Nat} (v : Option β) (h : SMap.rising lo m = true) (hk : lo ≤ k) :
    SMap.rising lo (SMap.put m k v) = true := by
  induction m generalizing lo with
  | nil => exact rising_cons? v rfl hk
  | cons c m ih =>
    obtain ⟨q, w⟩ := c
    simp only [SMap.rising, Bool.and_eq_true, decide_eq_true_eq] at h
    unfold SMap.put
    split
    · next hlt =>
      exact rising_cons? v (by simp [SMap.rising, Nat.succ_le_of_lt hlt, h.2]) hk
    · split
      · next heq => exact rising_cons? v (heq ▸ h.2) hk
      · simp only [SMap.rising, Bool.and_eq_true, decide_eq_true_eq]
        exact ⟨h.1, ih h.2 (by omega)⟩

theorem wf_put {β : Type} {m : SMap β} (k : Nat) (v : Option β) (h : SMap.wf m = true) :
    SMap.wf (SMap.put m k v) = true :=
  rising_put v h (Nat.zero_le k)

/-- Looking a key up after one was set. -/
theorem find_put_rising {β : Type} {m : SMap β} {lo : Nat} (k : Nat) (v : Option β) (a : Nat)
    (h : SMap.rising lo m = true) : SMap.find (SMap.put m k v) a = if a = k then v else SMap.find m a := by
  induction m generalizing lo with
  | nil => exact find_cons? [] k v a fun _ => rfl
  | cons c m ih =>
    obtain ⟨q, w⟩ := c
    simp only [SMap.rising, Bool.and_eq_true, decide_eq_true_eq] at h
    unfold SMap.put
    split
    · next hlt =>
      refine find_cons? _ k v a fun ha => ?_
      have hne : a ≠ q := by omega
      simp only [SMap.find, if_neg hne]
      exact find_below h.2 (by omega)
    · split
      · next hge heq =>
        rw [find_cons? m k v a fun ha => find_below h.2 (by omega)]
        by_cases ha : a = k
        · simp [ha]
        · have : a ≠ q := by omega
          simp [SMap.find, ha, this]
      · next hge hne =>
        by_cases ha : a = q
        · have : a ≠ k := by omega
          simp [SMap.find, ha]
          omega
        · simp [SMap.find, ha, ih h.2]

theorem find_put {β : Type} {m : SMap β} (k : Nat) (v : Option β) (a : Nat) (h : SMap.wf m = true) :
    SMap.find (SMap.put m k v) a = if a = k then v else SMap.find m a :=
  find_put_rising k v a h

theorem find_put_self {β : Type} {m : SMap β} (k : Nat) (v : Option β) (h : SMap.wf m = true) :
    SMap.find (SMap.put m k v) k = v := by
  simp [find_put k v k h]

theorem find_put_ne {β : Type} {m : SMap β} {k a : Nat} (v : Option β) (h : SMap.wf m = true) (ha : a ≠ k) :
    SMap.find (SMap.put m k v) a = SMap.find m a := by
  simp [find_put k v a h, ha]

/-- Two maps with the same contents are the same list. -/
theorem rising_ext {β : Type} {m n : SMap β} {lo : Nat} (hm : SMap.rising lo m = true) (hn : SMap.rising lo n = true)
    (h : ∀ a, SMap.find m a = SMap.find n a) : m = n := by
  induction m generalizing n lo with
  | nil =>
    cases n with
    | nil => rfl
    | cons c n =>
      obtain ⟨k, v⟩ := c
      have := h k
      simp [SMap.find] at this
  | cons c m ih =>
    obtain ⟨k, v⟩ := c
    simp only [SMap.rising, Bool.and_eq_true, decide_eq_true_eq] at hm
    cases n with
    | nil =>
      have := h k
      simp [SMap.find] at this
    | cons d n =>
      obtain ⟨q, w⟩ := d
      simp only [SMap.rising, Bool.and_eq_true, decide_eq_true_eq] at hn
      have hkq : k = q := by
        rcases Nat.lt_trichotomy k q with hlt | heq | hgt
        · have h1 := h k
          have hne : k ≠ q := by omega
          simp only [SMap.find, if_pos, if_neg hne] at h1
          rw [find_below hn.2 (by omega)] at h1
          cases h1
        · exact heq
        · have h1 := h q
          have hne : q ≠ k := by omega
          simp only [SMap.find, if_pos, if_neg hne] at h1
          rw [find_below hm.2 (by omega)] at h1
          cases h1
      subst hkq
      have hv : v = w := by
        have h1 := h k
        simpa [SMap.find] using h1
      subst hv
      have : m = n := by
        refine ih hm.2 hn.2 fun a => ?_
        by_cases ha : a = k
        · subst ha
          rw [find_below hm.2 (by omega), find_below hn.2 (by omega)]
        · have h1 := h a
          simpa [SMap.find, ha] using h1
      rw [this]

theorem wf_ext {β : Type} {m n : SMap β} (hm : SMap.wf m = true) (hn : SMap.wf n = true)
    (h : ∀ a, SMap.find m a = SMap.find n a) : m = n :=
  rising_ext hm hn h

/-! The backing memory -/

theorem wf_of_memory_wf {m : Memory} (h : m.wf = true) : SMap.wf m = true := by
  simp only [Memory.wf, Bool.and_eq_true] at h
  exact h.1

theorem all_cons? {m : Memory} {k : Nat} {v : Option Byte} (p : Host.Cell → Bool) (hm : m.all p = true)
    (hv : ∀ b, v = some b → p (k, b) = true) : (SMap.cons? k v m).all p = true := by
  cases v with
  | none => exact hm
  | some b =>
    simp only [SMap.cons?, List.all_cons, Bool.and_eq_true]
    exact ⟨hv b rfl, hm⟩

theorem all_put {m : Memory} {k : Nat} {v : Option Byte} (p : Host.Cell → Bool) (hm : m.all p = true)
    (hv : ∀ b, v = some b → p (k, b) = true) : (SMap.put m k v).all p = true := by
  induction m with
  | nil => exact all_cons? p rfl hv
  | cons c m ih =>
    obtain ⟨q, w⟩ := c
    simp only [List.all_cons, Bool.and_eq_true] at hm
    unfold SMap.put
    split
    · exact all_cons? p (by simp only [List.all_cons, Bool.and_eq_true]; exact hm) hv
    · split
      · exact all_cons? p hm.2 hv
      · simp only [List.all_cons, Bool.and_eq_true]
        exact ⟨hm.1, ih hm.2⟩

/-- Every write keeps the canonical form. -/
theorem memory_wf_write {m : Memory} (loc : Nat) (v : Byte) (h : m.wf = true) : (m.write loc v).wf = true := by
  simp only [Memory.wf, Bool.and_eq_true] at h ⊢
  refine ⟨wf_put _ _ h.1, all_put _ h.2 fun b hb => ?_⟩
  split at hb
  · cases hb
  · next hne =>
    cases hb
    simpa using hne

/-- A read after a write gives the value written there and the old value everywhere else. -/
theorem memory_read_write {m : Memory} (loc : Nat) (v : Byte) (l : Nat) (h : m.wf = true) :
    (m.write loc v).read l = if l = loc then v else m.read l := by
  unfold Memory.read Memory.write
  rw [find_put _ _ _ (wf_of_memory_wf h)]
  by_cases hl : l = loc
  · by_cases hv : v = Memory.fill <;> simp [hl, hv]
  · simp [hl]

theorem memory_read_write_self {m : Memory} (loc : Nat) (v : Byte) (h : m.wf = true) :
    (m.write loc v).read loc = v := by
  simp [memory_read_write _ _ _ h]

theorem memory_read_write_ne {m : Memory} {loc l : Nat} (v : Byte) (h : m.wf = true) (hl : l ≠ loc) :
    (m.write loc v).read l = m.read l := by
  simp [memory_read_write _ _ _ h, hl]

end Sys2Proof.Laws
end

