-- ==== Sys2Proof/Laws/World.lean ====
section
/-! SUPPORT. What module actions do to `world`: the canonical form is kept, each registration call changes one entry of
one table, and the power-on world is canonical. -/

namespace Sys2Proof.Laws

open Sys2Proof Sys2Proof.Machine

theorem powerOn_wf : World.powerOn.wf = true := by decide

theorem reset_memory_wf : State.reset.world.pm.wf = true := by decide

theorem world_wf_iff {w : World} : w.wf = true ↔
    SMap.wf w.rp = true ∧ SMap.wf w.wp = true ∧ SMap.wf w.rh = true ∧ SMap.wf w.wh = true ∧ w.pm.wf = true := by
  simp [World.wf, and_assoc]

/-- Storing a byte keeps the canonical form. -/
theorem world_wf_store {w : World} (loc : Nat) (v : Byte) (h : w.wf = true) :
    ({ w with pm := w.pm.write loc v } : World).wf = true := by
  rw [world_wf_iff] at h ⊢
  exact ⟨h.1, h.2.1, h.2.2.1, h.2.2.2.1, memory_wf_write loc v h.2.2.2.2⟩

/-- The canonical form does not look at the lines. -/
theorem world_wf_lines {w : World} (n f i : Bool) (h : w.wf = true) :
    ({ w with lineNmi := n, lineFirq := f, lineIrq := i } : World).wf = true := h

/-- Every module action keeps the canonical form. -/
theorem world_wf_act {w : World} (m : ModuleAction) (h : w.wf = true) : (w.act m).wf = true := by
  rw [world_wf_iff] at h ⊢
  obtain ⟨h1, h2, h3, h4, h5⟩ := h
  cases m with
  | setReadPointer p b => exact ⟨wf_put _ _ h1, h2, h3, h4, h5⟩
  | setWritePointer p b => exact ⟨h1, wf_put _ _ h2, h3, h4, h5⟩
  | setReadHandler p f => exact ⟨h1, h2, wf_put _ _ h3, h4, h5⟩
  | setWriteHandler p f => exact ⟨h1, h2, h3, wf_put _ _ h4, h5⟩
  | setNmi on => exact ⟨h1, h2, h3, h4, h5⟩
  | setFirq on => exact ⟨h1, h2, h3, h4, h5⟩
  | setIrq on => exact ⟨h1, h2, h3, h4, h5⟩
  | poke loc v => exact ⟨h1, h2, h3, h4, memory_wf_write loc v h5⟩
  | setPrivate v => exact ⟨h1, h2, h3, h4, h5⟩

/-- What every admitted action keeps, a list of actions keeps. -/
theorem actAll_keeps {p : World → Prop} {size : Option Nat}
    (hp : ∀ w m, ModuleAction.admitted size m = true → p w → p (w.act m)) {w : World} (ms : List ModuleAction)
    (h : p w) : p (w.actAll size ms) := by
  induction ms generalizing w with
  | nil => exact h
  | cons m ms ih =>
    refine ih ?_
    split
    · exact hp w m (by assumption) h
    · exact h

theorem world_wf_actAll {w : World} (size : Option Nat) (ms : List ModuleAction) (h : w.wf = true) :
    (w.actAll size ms).wf = true :=
  actAll_keeps (p := fun w => w.wf = true) (fun _ m _ => world_wf_act m) ms h

theorem world_fits_iff {w : World} {size : Option Nat} : w.fits size = true ↔
    (∀ e ∈ w.rp, pointerFits size (some e.2) = true) ∧ ∀ e ∈ w.wp, pointerFits size (some e.2) = true := by
  simp [World.fits, -Prod.forall]

/-- An entry of a table after one of its entries is set is that one or was there before. -/
theorem mem_put {β : Type} {m : SMap β} {a : Nat} {v : Option β} {e : Nat × β} (h : e ∈ SMap.put m a v) :
    e ∈ m ∨ v = some e.2 := by
  induction m with
  | nil =>
    cases v with
    | none => cases h
    | some b => exact .inr (by cases h with | head => rfl | tail _ h => cases h)
  | cons k m ih =>
    have front {l : SMap β} (h : e ∈ SMap.cons? a v l) : e ∈ l ∨ v = some e.2 := by
      cases v with
      | none => exact .inl h
      | some b => cases h with
        | head => exact .inr rfl
        | tail _ h => exact .inl h
    unfold SMap.put at h
    split at h
    · exact front h
    · split at h
      · exact (front h).imp_left (List.mem_cons_of_mem k)
      · cases h with
        | head => exact .inl (List.mem_cons_self ..)
        | tail _ h => exact (ih h).imp_left (List.mem_cons_of_mem k)

/-- Every admitted action leaves pointers that reference backing memory. -/
theorem world_fits_act {w : World} {size : Option Nat} (m : ModuleAction) (hm : m.admitted size = true)
    (h : w.fits size = true) : (w.act m).fits size = true := by
  rw [world_fits_iff] at h ⊢
  have set {t : PageTable} {p : Nat} {b : Option Nat} (hb : pointerFits size b = true)
      (ht : ∀ e ∈ t, pointerFits size (some e.2) = true) : ∀ e ∈ SMap.put t p b, pointerFits size (some e.2) = true := by
    intro e he
    rcases mem_put he with h1 | h1
    · exact ht e h1
    · exact h1 ▸ hb
  cases m with
  | setReadPointer p b => exact ⟨set hm h.1, h.2⟩
  | setWritePointer p b => exact ⟨h.1, set hm h.2⟩
  | setReadHandler p f => exact h
  | setWriteHandler p f => exact h
  | setNmi on => exact h
  | setFirq on => exact h
  | setIrq on => exact h
  | poke loc v => exact h
  | setPrivate v => exact h

theorem world_fits_actAll {w : World} {size : Option Nat} (ms : List ModuleAction) (h : w.fits size = true) :
    (w.actAll size ms).fits size = true :=
  actAll_keeps (p := fun w => w.fits size = true) (fun _ m => world_fits_act m) ms h

/-- A read through a pointer sees the memory at the pointer's location. -/
theorem peek_of_readSpot {w : World} {a : Word} {loc : Nat} (h : w.readSpot a = some loc) :
    w.peek a = some (w.pm.read loc) := by
  simp [World.peek, h]

theorem readSpot_store (w : World) (pm : Memory) (a : Word) : ({ w with pm := pm } : World).readSpot a = w.readSpot a :=
  rfl

theorem writeSpot_store (w : World) (pm : Memory) (a : Word) :
    ({ w with pm := pm } : World).writeSpot a = w.writeSpot a := rfl

/-- After a store, an address that is read at the stored location sees the new byte, every other address what it saw. -/
theorem peek_store {w : World} (loc : Nat) (v : Byte) (a : Word) (h : w.wf = true) :
    ({ w with pm := w.pm.write loc v } : World).peek a = if w.readSpot a = some loc then some v else w.peek a := by
  unfold World.peek
  rw [readSpot_store]
  cases hs : w.readSpot a with
  | none => simp
  | some l =>
    simp only [Option.some.injEq]
    rw [memory_read_write _ _ _ (world_wf_iff.mp h).2.2.2.2]
    split <;> rfl

end Sys2Proof.Laws
end

