-- ==== Sys2Proof/Laws/Bus.lean ====
section
/-! SUPPORT. What one bus access can do, said once: the pointer, the handler and the fault case of a read and of a
write. -/

namespace Sys2Proof.Laws

open Sys2Proof Sys2Proof.Machine

theorem read8_pointer {s : State} {a : Word} {loc : Nat} (h : s.world.readSpot a = some loc) :
    read8 a s = .ok (s.world.pm.read loc) s := by
  simp [read8, h]

theorem read8_handler {s : State} {a : Word} {k : Nat} (h : s.world.readSpot a = none)
    (hk : s.world.readHandler a = some k) : read8 a s =
      .ok (Config.readHandler k a s.world s.clockSeen).1
        (s.afterHandler (Config.readHandler k a s.world s.clockSeen).2) := by
  simp [read8, h, hk, readByHandler]

theorem read8_fault {s : State} {a : Word} (h : s.world.readSpot a = none) (hk : s.world.readHandler a = none) :
    read8 a s = .error .undefinedRead { s with fault := some .undefinedRead } := by
  simp [read8, h, hk]

theorem write8_pointer {s : State} {a : Word} {loc : Nat} (v : Byte) (h : s.world.writeSpot a = some loc) :
    write8 a v s = .ok () (s.stored loc v) := by
  simp [write8, h]

theorem write8_handler {s : State} {a : Word} {k : Nat} (v : Byte) (h : s.world.writeSpot a = none)
    (hk : s.world.writeHandler a = some k) :
    write8 a v s = .ok () (s.afterHandler (Config.writeHandler k a v s.world s.clockSeen)) := by
  simp [write8, h, hk, writeByHandler]

theorem write8_fault {s : State} {a : Word} (v : Byte) (h : s.world.writeSpot a = none)
    (hk : s.world.writeHandler a = none) :
    write8 a v s = .error .undefinedWrite { s with fault := some .undefinedWrite } := by
  simp [write8, h, hk]

/-- Everything a read can be: through the pointer, through the handler, or a fault. -/
theorem read8_cases (a : Word) (s : State) :
    (∃ loc, s.world.readSpot a = some loc ∧ read8 a s = .ok (s.world.pm.read loc) s) ∨
    (∃ k, s.world.readSpot a = none ∧ s.world.readHandler a = some k ∧ read8 a s =
      .ok (Config.readHandler k a s.world s.clockSeen).1
        (s.afterHandler (Config.readHandler k a s.world s.clockSeen).2)) ∨
    (s.world.readSpot a = none ∧ s.world.readHandler a = none ∧
      read8 a s = .error .undefinedRead { s with fault := some .undefinedRead }) := by
  cases h : s.world.readSpot a with
  | some loc => exact .inl ⟨loc, rfl, read8_pointer h⟩
  | none =>
    cases hk : s.world.readHandler a with
    | some k => exact .inr (.inl ⟨k, rfl, rfl, read8_handler h hk⟩)
    | none => exact .inr (.inr ⟨rfl, rfl, read8_fault h hk⟩)

/-- Everything a write can be: through the pointer, through the handler, or a fault. -/
theorem write8_cases (a : Word) (v : Byte) (s : State) :
    (∃ loc, s.world.writeSpot a = some loc ∧ write8 a v s = .ok () (s.stored loc v)) ∨
    (∃ k, s.world.writeSpot a = none ∧ s.world.writeHandler a = some k ∧
      write8 a v s = .ok () (s.afterHandler (Config.writeHandler k a v s.world s.clockSeen))) ∨
    (s.world.writeSpot a = none ∧ s.world.writeHandler a = none ∧
      write8 a v s = .error .undefinedWrite { s with fault := some .undefinedWrite }) := by
  cases h : s.world.writeSpot a with
  | some loc => exact .inl ⟨loc, rfl, write8_pointer v h⟩
  | none =>
    cases hk : s.world.writeHandler a with
    | some k => exact .inr (.inl ⟨k, rfl, rfl, write8_handler v h hk⟩)
    | none => exact .inr (.inr ⟨rfl, rfl, write8_fault v h hk⟩)

/-- A word read: the byte at `a`, then the byte at `a + 1` in the state the first read left. -/
theorem read16_ok {s t1 t2 : State} {a : Word} {h l : Byte} (h1 : read8 a s = .ok h t1)
    (h2 : read8 (a + 1) t1 = .ok l t2) : read16 a s = .ok (cat h l) t2 := by
  unfold read16
  rw [bind_ok h1, bind_ok h2]
  rfl

/-- A word written: the high byte first. -/
theorem write16_ok {s t1 t2 : State} {a w : Word} (h1 : write8 a (hi w) s = .ok () t1)
    (h2 : write8 (a + 1) (lo w) t1 = .ok () t2) : write16 a w s = .ok () t2 := by
  unfold write16
  rw [bind_ok h1, h2]

/-- A fetch: PC moves past the byte that was read. -/
theorem fetch8_ok {s t : State} {v : Byte} (h : read8 s.pc s = .ok v t) :
    fetch8 s = .ok v { t with pc := t.pc + 1 } := by
  unfold fetch8
  rw [look_bind_apply, bind_ok h]
  rfl

/-- A fetch that faults leaves PC on the byte it could not read. -/
theorem fetch8_error {s t : State} {k : Fault} (h : read8 s.pc s = .error k t) : fetch8 s = .error k t := by
  unfold fetch8
  rw [look_bind_apply, bind_error h]

end Sys2Proof.Laws
end

