-- ==== Sys2Proof/Laws/Decode.lean ====
section
/-! SUPPORT. What the decoder does with the operand bytes that the encoder writes, one lemma per operand type, and that
reading a value from a longer list reads the same value. -/

namespace Sys2Proof.Laws

open Sys2Proof Sys2Proof.Machine

theorem take16_wordBytes (w : Word) (rest : List Byte) : take16 (wordBytes w ++ rest) = .ok w rest := by
  show Parsed.ok (cat (hi w) (lo w)) rest = _
  rw [cat_hi_lo]

/-- The fields of a form 1 post-byte. -/
theorem subModeByte_fields (rr : BitVec 2) (ind : Bool) (m : BitVec 4) :
    (subModeByte rr ind m).getLsbD 7 = true ∧ (subModeByte rr ind m).extractLsb' 5 2 = rr ∧
      (subModeByte rr ind m).getLsbD 4 = ind ∧ (subModeByte rr ind m).extractLsb' 0 4 = m := by
  revert rr ind m
  decide

/-- The fields of a form 0 post-byte. -/
theorem off5Byte_fields (rr : BitVec 2) (n : BitVec 5) :
    (0#1 ++ rr ++ n).getLsbD 7 = false ∧ (0#1 ++ rr ++ n).extractLsb' 5 2 = rr ∧
      (0#1 ++ rr ++ n).extractLsb' 0 5 = n := by
  revert rr n
  decide

theorem ixRegOf_code (r : IxReg) : ixRegOf r.code.toNat = r := by
  cases r <;> rfl

/-- The resolver's decoder on a form 1 post-byte. -/
theorem takeIdx_subMode (dc : Bool) (rr : BitVec 2) (ind : Bool) (m : BitVec 4) (rest : List Byte) :
    takeIdx dc (subModeByte rr ind m :: rest) =
      takeSubMode (dc || rr.toNat == 0) (ixRegOf rr.toNat) ind m.toNat rest := by
  obtain ⟨h1, h2, h3, h4⟩ := subModeByte_fields rr ind m
  simp only [takeIdx, h1, h2, h3, h4, if_true]

/-- The resolver's decoder on a form 0 post-byte. -/
theorem takeIdx_off5 (dc : Bool) (r : IxReg) (n : BitVec 5) (rest : List Byte) :
    takeIdx dc ((0#1 ++ r.code ++ n) :: rest) = .ok (.off5 r n) rest := by
  obtain ⟨h1, h2, h3⟩ := off5Byte_fields r.code n
  simp only [takeIdx, h1, h2, h3, ixRegOf_code]
  rfl

/-- The indexed operand survives its encoding. -/
theorem takeIdx_bytes (dc : Bool) (x : Idx) (rest : List Byte) : takeIdx dc (x.bytes ++ rest) = .ok x rest := by
  cases x with
  | off5 r n => exact takeIdx_off5 dc r n rest
  | inc1 r => exact (takeIdx_subMode dc _ _ _ rest).trans (by rw [ixRegOf_code]; rfl)
  | inc2 r ind => exact (takeIdx_subMode dc _ _ _ rest).trans (by rw [ixRegOf_code]; cases ind <;> rfl)
  | dec1 r => exact (takeIdx_subMode dc _ _ _ rest).trans (by rw [ixRegOf_code]; rfl)
  | dec2 r ind => exact (takeIdx_subMode dc _ _ _ rest).trans (by rw [ixRegOf_code]; cases ind <;> rfl)
  | zero r ind => exact (takeIdx_subMode dc _ _ _ rest).trans (by rw [ixRegOf_code]; cases ind <;> rfl)
  | accB r ind => exact (takeIdx_subMode dc _ _ _ rest).trans (by rw [ixRegOf_code]; cases ind <;> rfl)
  | accA r ind => exact (takeIdx_subMode dc _ _ _ rest).trans (by rw [ixRegOf_code]; cases ind <;> rfl)
  | accD r ind => exact (takeIdx_subMode dc _ _ _ rest).trans (by rw [ixRegOf_code]; cases ind <;> rfl)
  | off8 r n ind => exact (takeIdx_subMode dc _ _ _ (n :: rest)).trans (by rw [ixRegOf_code]; cases ind <;> rfl)
  | pcr8 n ind => exact (takeIdx_subMode dc _ _ _ (n :: rest)).trans (by cases ind <;> rfl)
  | off16 r n ind =>
    refine (takeIdx_subMode dc _ _ _ (wordBytes n ++ rest)).trans ?_
    rw [ixRegOf_code]
    have h := congrArg (Parsed.map fun k => Idx.off16 r k ind) (take16_wordBytes n rest)
    cases ind <;> exact h
  | pcr16 n ind =>
    refine (takeIdx_subMode dc _ _ _ (wordBytes n ++ rest)).trans ?_
    have h := congrArg (Parsed.map fun k => Idx.pcr16 k ind) (take16_wordBytes n rest)
    cases ind <;> exact h
  | extInd n =>
    refine (takeIdx_subMode dc 0 true 0xF (wordBytes n ++ rest)).trans ?_
    cases dc <;> exact congrArg (Parsed.map _) (take16_wordBytes n rest)

/-- The register list survives its encoding. -/
theorem regListOf_byte (l : RegList) : regListOf l.byte = l := by
  obtain ⟨pc, other, y, x, dp, b, a, cc⟩ := l
  revert pc other y x dp b a cc
  decide

/-- The register pair survives its encoding, where the widths agree. -/
theorem takePair_code (f : Reg → Reg → Instr) (r1 r2 : Reg) (rest : List Byte) (h : sameWidth r1 r2 = true) :
    takePair f ((r1.code ++ r2.code) :: rest) = .ok (f r1 r2) rest := by
  cases r1 <;> cases r2 <;> first | rfl | exact absurd h (by decide)

/-! One opcode byte or two -/

/-- The encoding of an instruction of page 1. -/
theorem encode_page1 {i : Instr} {op : Byte} (h : i.opNum = op.toNat) : encode i = op :: i.operandBytes := by
  unfold encode opBytes
  rw [h, if_pos op.isLt, BitVec.ofNat_toNat, BitVec.setWidth_eq]
  rfl

/-- The encoding of an instruction behind a prefix. -/
theorem encode_prefixed {i : Instr} {p op : Byte} (hp : p ≠ 0) (h : i.opNum = 256 * p.toNat + op.toNat) :
    encode i = p :: op :: i.operandBytes := by
  have hp' : p.toNat ≠ 0 := fun h0 => hp (BitVec.eq_of_toNat_eq h0)
  have hlt := op.isLt
  have h1 : ¬ i.opNum < 256 := by omega
  have h2 : i.opNum / 256 = p.toNat := by omega
  have h3 : BitVec.ofNat 8 i.opNum = op := by
    apply BitVec.eq_of_toNat_eq
    rw [BitVec.toNat_ofNat, h]
    omega
  unfold encode opBytes
  rw [if_neg h1, h2, h3, BitVec.ofNat_toNat, BitVec.setWidth_eq]
  rfl

/-- Decoding an opcode byte that is no prefix. -/
theorem decode_page1 {dc : Bool} {op : Byte} {sh : Shape} {bs : List Byte} (h1 : op ≠ 0x10) (h2 : op ≠ 0x11)
    (hr : rowOf page1 op.toNat = some sh) : decode dc (op :: bs) = sh.take dc bs := by
  unfold decode decodePage
  simp only [if_neg h1, if_neg h2, hr]

/-- Decoding behind the prefix 0x10. -/
theorem decode_page2 {dc : Bool} {op : Byte} {sh : Shape} {bs : List Byte} (hr : rowOf page2 op.toNat = some sh) :
    decode dc (0x10 :: op :: bs) = sh.take dc bs := by
  show decodePage dc page2 op bs = _
  unfold decodePage
  rw [hr]

/-- Decoding behind the prefix 0x11. -/
theorem decode_page3 {dc : Bool} {op : Byte} {sh : Shape} {bs : List Byte} (hr : rowOf page3 op.toNat = some sh) :
    decode dc (0x11 :: op :: bs) = sh.take dc bs := by
  show decodePage dc page3 op bs = _
  unfold decodePage
  rw [hr]

/-! Reading from a longer list -/

/-- A reader of a value looks only at the bytes it takes. -/
def Local {α : Type} (p : List Byte → Parsed α) : Prop :=
  ∀ bs v rest, p bs = .ok v rest →
    ∃ own, bs = own ++ rest ∧ (∀ more, p (own ++ more) = .ok v more) ∧ ∀ n, n < own.length → p (own.take n) = .more

theorem local_pure {α : Type} (v : α) : Local fun bs => Parsed.ok v bs := by
  intro bs w rest h
  cases h
  exact ⟨[], rfl, fun _ => rfl, fun n hn => absurd hn (Nat.not_lt_zero n)⟩

theorem local_map {α β : Type} {p : List Byte → Parsed α} (f : α → β) (hp : Local p) :
    Local fun bs => (p bs).map f := by
  intro bs v rest h
  cases hb : p bs with
  | more => simp [hb, Parsed.map] at h
  | bad r => simp [hb, Parsed.map] at h
  | ok w rest' =>
    simp only [hb, Parsed.map, Parsed.ok.injEq] at h
    obtain ⟨own, h1, h2, h3⟩ := hp bs w rest' hb
    refine ⟨own, h.2 ▸ h1, fun more => ?_, fun n hn => ?_⟩
    · simp only [h2 more, Parsed.map, h.1]
    · simp only [h3 n hn, Parsed.map]

/-- A byte in front, then a reader chosen by it. -/
theorem local_cons {α : Type} {p : List Byte → Parsed α} (q : Byte → List Byte → Parsed α) (h0 : p [] = .more)
    (hc : ∀ b bs, p (b :: bs) = q b bs) (hq : ∀ b, Local (q b)) : Local p := by
  intro bs v rest h
  cases bs with
  | nil => rw [h0] at h; cases h
  | cons b bs =>
    rw [hc] at h
    obtain ⟨own, h1, h2, h3⟩ := hq b bs v rest h
    refine ⟨b :: own, by rw [h1]; rfl, fun more => (hc b _).trans (h2 more), fun n hn => ?_⟩
    cases n with
    | zero => exact h0
    | succ n => exact (hc b _).trans (h3 n (Nat.lt_of_succ_lt_succ hn))

theorem local_bad {α : Type} (r : Reject) : Local fun _ => (Parsed.bad r : Parsed α) := by
  intro bs v rest h
  cases h

theorem local_take8 : Local take8 :=
  local_cons (fun b bs => .ok b bs) rfl (fun _ _ => rfl) fun b => local_pure b

theorem local_take16 : Local take16 :=
  local_cons (fun h bs => (take8 bs).map fun l => cat h l) rfl (fun h bs => by cases bs <;> rfl) fun _ =>
    local_map _ local_take8

theorem local_takeSubMode (free : Bool) (r : IxReg) (ind : Bool) (m : Nat) :
    Local (takeSubMode free r ind m) := by
  have b8 {f : Byte → Idx} : Local fun bs => (take8 bs).map f := local_map f local_take8
  have b16 {f : Word → Idx} : Local fun bs => (take16 bs).map f := local_map f local_take16
  unfold takeSubMode
  split <;> first
    | exact local_pure _ | exact b8 | exact b16 | exact local_bad _
    | (cases free; exact local_bad _; exact b16)

theorem local_takeIdx (dc : Bool) : Local (takeIdx dc) := by
  refine local_cons (fun pb rest => takeIdx dc (pb :: rest)) rfl (fun _ _ => rfl) fun pb => ?_
  simp only [takeIdx]
  split
  · exact local_takeSubMode _ _ _ _
  · exact local_pure _

theorem local_takePair (f : Reg → Reg → Instr) : Local (takePair f) := by
  refine local_cons (fun pb rest => takePair f (pb :: rest)) rfl (fun _ _ => rfl) fun pb => ?_
  simp only [takePair]
  split
  · split
    · exact local_pure _
    · exact local_bad _
  · exact local_bad _

theorem local_shape (dc : Bool) (sh : Shape) : Local (sh.take dc) := by
  cases sh with
  | inh i => exact local_pure i
  | imm8 f => exact local_map f local_take8
  | imm16 f => exact local_map f local_take16
  | dir f => exact local_map f local_take8
  | ext f => exact local_map f local_take16
  | idx f => exact local_map f (local_takeIdx dc)
  | rel8 f => exact local_map f local_take8
  | rel16 f => exact local_map f local_take16
  | list f => exact local_map _ local_take8
  | pair f => exact local_takePair f

theorem local_decodePage (dc : Bool) (rows : List Row) (op : Byte) : Local (decodePage dc rows op) := by
  unfold decodePage
  cases rowOf rows op.toNat with
  | none => exact local_bad _
  | some sh => exact local_shape dc sh

/-- The decoder looks only at the bytes of the instruction it reads. -/
theorem local_decode (dc : Bool) : Local (decode dc) := by
  refine local_cons (fun op rest => decode dc (op :: rest)) rfl (fun _ _ => rfl) fun op => ?_
  have second (rows : List Row) : Local (decodeSecond dc rows) :=
    local_cons (decodePage dc rows) rfl (fun _ _ => rfl) fun op => local_decodePage dc rows op
  simp only [decode]
  split
  · exact second page2
  · split
    · exact second page3
    · exact local_decodePage dc page1 op

/-! The longest instruction -/

theorem map_more {α β : Type} {f : α → β} {p : Parsed α} (h : p.map f = .more) : p = .more := by
  cases p with
  | more => rfl
  | ok v rest => cases h
  | bad r => cases h

theorem take8_more {bs : List Byte} (h : take8 bs = .more) : bs.length < 1 := by
  cases bs with
  | nil => exact Nat.one_pos
  | cons b bs => cases h

theorem take16_more {bs : List Byte} (h : take16 bs = .more) : bs.length < 2 := by
  match bs, h with
  | [], _ => exact Nat.two_pos
  | [_], _ => exact Nat.lt_succ_self 1

theorem takeSubMode_more {free : Bool} {r : IxReg} {ind : Bool} {m : Nat} {bs : List Byte}
    (h : takeSubMode free r ind m bs = .more) : bs.length < 2 := by
  have b8 {f : Byte → Idx} (h : (take8 bs).map f = .more) : bs.length < 2 :=
    Nat.lt_succ_of_lt (take8_more (map_more h))
  have b16 {f : Word → Idx} (h : (take16 bs).map f = .more) : bs.length < 2 := take16_more (map_more h)
  unfold takeSubMode at h
  split at h <;> first
    | exact b8 h
    | exact b16 h
    | cases h
    | (cases free
       · cases h
       · exact b16 h)

theorem takeIdx_more {dc : Bool} {bs : List Byte} (h : takeIdx dc bs = .more) : bs.length < 3 := by
  cases bs with
  | nil => exact Nat.succ_pos 2
  | cons pb bs =>
    simp only [takeIdx] at h
    split at h
    · exact Nat.succ_lt_succ (takeSubMode_more h)
    · cases h

theorem shape_more {dc : Bool} {sh : Shape} {bs : List Byte} (h : sh.take dc bs = .more) : bs.length < 3 := by
  have b8 (h : take8 bs = .more) : bs.length < 3 := Nat.lt_of_lt_of_le (take8_more h) (by decide)
  have b16 (h : take16 bs = .more) : bs.length < 3 := Nat.lt_succ_of_lt (take16_more h)
  cases sh with
  | inh i => cases h
  | imm8 f => exact b8 (map_more h)
  | imm16 f => exact b16 (map_more h)
  | dir f => exact b8 (map_more h)
  | ext f => exact b16 (map_more h)
  | idx f => exact takeIdx_more (map_more h)
  | rel8 f => exact b8 (map_more h)
  | rel16 f => exact b16 (map_more h)
  | list f => exact b8 (map_more h)
  | pair f =>
    cases bs with
    | nil => exact Nat.succ_pos 2
    | cons pb bs =>
      simp only [Shape.take, takePair] at h
      split at h
      · split at h <;> cases h
      · cases h

theorem decodePage_more {dc : Bool} {rows : List Row} {op : Byte} {bs : List Byte}
    (h : decodePage dc rows op bs = .more) : bs.length < 3 := by
  unfold decodePage at h
  split at h
  · exact shape_more h
  · cases h

/-- The decoder never asks for more than the longest instruction has. -/
theorem decode_more {dc : Bool} {bs : List Byte} (h : decode dc bs = .more) : bs.length < maxLength := by
  have second {rows : List Row} {bs : List Byte} (h : decodeSecond dc rows bs = .more) : bs.length < 4 := by
    cases bs with
    | nil => exact Nat.succ_pos 3
    | cons op bs => exact Nat.succ_lt_succ (decodePage_more h)
  cases bs with
  | nil => exact Nat.succ_pos 4
  | cons op bs =>
    simp only [decode] at h
    split at h
    · exact Nat.succ_lt_succ (second h)
    · split at h
      · exact Nat.succ_lt_succ (second h)
      · exact Nat.lt_succ_of_lt (Nat.succ_lt_succ (decodePage_more h))

/-! An illegal encoding stays illegal -/

/-- A reader that has found its bytes illegal finds them illegal whatever follows. -/
def Settled {α : Type} (p : List Byte → Parsed α) : Prop :=
  ∀ bs r, p bs = .bad r → ∀ more, p (bs ++ more) = .bad r

theorem settled_map {α β : Type} {p : List Byte → Parsed α} (f : α → β) (hp : Settled p) :
    Settled fun bs => (p bs).map f := by
  intro bs r h more
  cases hb : p bs with
  | more => simp [hb, Parsed.map] at h
  | ok v rest => simp [hb, Parsed.map] at h
  | bad r' =>
    simp only [hb, Parsed.map, Parsed.bad.injEq] at h
    simp only [hp bs r' hb more, Parsed.map, h]

theorem settled_cons {α : Type} {p : List Byte → Parsed α} (q : Byte → List Byte → Parsed α) (h0 : p [] = .more)
    (hc : ∀ b bs, p (b :: bs) = q b bs) (hq : ∀ b, Settled (q b)) : Settled p := by
  intro bs r h more
  cases bs with
  | nil => rw [h0] at h; cases h
  | cons b bs =>
    rw [hc] at h
    exact (hc b _).trans (hq b bs r h more)

theorem settled_pure {α : Type} (v : α) : Settled fun bs => Parsed.ok v bs := by
  intro bs r h
  cases h

theorem settled_bad {α : Type} (r : Reject) : Settled fun _ => (Parsed.bad r : Parsed α) := by
  intro bs r h _
  exact h

theorem settled_take8 : Settled take8 :=
  settled_cons (fun b bs => .ok b bs) rfl (fun _ _ => rfl) fun b => settled_pure b

theorem settled_take16 : Settled take16 :=
  settled_cons (fun h bs => (take8 bs).map fun l => cat h l) rfl (fun h bs => by cases bs <;> rfl) fun _ =>
    settled_map _ settled_take8

theorem settled_takeSubMode (free : Bool) (r : IxReg) (ind : Bool) (m : Nat) :
    Settled (takeSubMode free r ind m) := by
  have b8 {f : Byte → Idx} : Settled fun bs => (take8 bs).map f := settled_map f settled_take8
  have b16 {f : Word → Idx} : Settled fun bs => (take16 bs).map f := settled_map f settled_take16
  unfold takeSubMode
  split <;> first
    | exact settled_pure _ | exact b8 | exact b16 | exact settled_bad _
    | (cases free; exact settled_bad _; exact b16)

theorem settled_takeIdx (dc : Bool) : Settled (takeIdx dc) := by
  refine settled_cons (fun pb rest => takeIdx dc (pb :: rest)) rfl (fun _ _ => rfl) fun pb => ?_
  simp only [takeIdx]
  split
  · exact settled_takeSubMode _ _ _ _
  · exact settled_pure _

theorem settled_takePair (f : Reg → Reg → Instr) : Settled (takePair f) := by
  refine settled_cons (fun pb rest => takePair f (pb :: rest)) rfl (fun _ _ => rfl) fun pb => ?_
  simp only [takePair]
  split
  · split
    · exact settled_pure _
    · exact settled_bad _
  · exact settled_bad _

theorem settled_shape (dc : Bool) (sh : Shape) : Settled (sh.take dc) := by
  cases sh with
  | inh i => exact settled_pure i
  | imm8 f => exact settled_map f settled_take8
  | imm16 f => exact settled_map f settled_take16
  | dir f => exact settled_map f settled_take8
  | ext f => exact settled_map f settled_take16
  | idx f => exact settled_map f (settled_takeIdx dc)
  | rel8 f => exact settled_map f settled_take8
  | rel16 f => exact settled_map f settled_take16
  | list f => exact settled_map _ settled_take8
  | pair f => exact settled_takePair f

theorem settled_decodePage (dc : Bool) (rows : List Row) (op : Byte) : Settled (decodePage dc rows op) := by
  unfold decodePage
  cases rowOf rows op.toNat with
  | none => exact settled_bad _
  | some sh => exact settled_shape dc sh

/-- The decoder's verdict on an illegal encoding does not depend on the bytes that follow. -/
theorem settled_decode (dc : Bool) : Settled (decode dc) := by
  refine settled_cons (fun op rest => decode dc (op :: rest)) rfl (fun _ _ => rfl) fun op => ?_
  have second (rows : List Row) : Settled (decodeSecond dc rows) :=
    settled_cons (decodePage dc rows) rfl (fun _ _ => rfl) fun op => settled_decodePage dc rows op
  simp only [decode]
  split
  · exact second page2
  · split
    · exact second page3
    · exact settled_decodePage dc page1 op

/-- As long as the decoder asks for more, it has asked for more on every beginning. -/
theorem decode_more_take {dc : Bool} {bs : List Byte} (h : decode dc bs = .more) (n : Nat) :
    decode dc (bs.take n) = .more := by
  cases hd : decode dc (bs.take n) with
  | more => rfl
  | bad r =>
    have h1 := settled_decode dc _ r hd (bs.drop n)
    rw [List.take_append_drop, h] at h1
    cases h1
  | ok i rest =>
    obtain ⟨own, h1, h2, -⟩ := local_decode dc _ i rest hd
    have h3 := h2 (rest ++ bs.drop n)
    rw [← List.append_assoc, ← h1, List.take_append_drop, h] at h3
    cases h3

end Sys2Proof.Laws
end

