-- ==== Sys2Proof/Laws/Keeps.lean ====
section
/-! SUPPORT. Relations between the state before and the state after an action, and one lemma per shared operation that
says which relations it keeps. Every rule about the whole machine is one relation and the few register writes it has to
look at. -/

namespace Sys2Proof.Laws

open Sys2Proof Sys2Proof.Machine

/-- The relation holds between every state and the state the action ends in, with or without a fault. -/
def Keeps {α : Type} (P : State → State → Prop) (m : Act α) : Prop := ∀ s, P s (final m s)

/-- A relation that composes and that no read, no installed handler, no fault but InternalError (which no rule raises)
and no cycle count can break. -/
structure BusRel (P : State → State → Prop) : Prop where
  refl : ∀ s, P s s
  trans : ∀ s t u, P s t → P t u → P s u
  faulted : ∀ (s : State) k, k ≠ .internalError → P s { s with fault := some k }
  ticked : ∀ s n, P s (s.tick n)
  handled : ∀ s ms, ¬ s.world.NoHandlers → P s (s.afterHandler ms)

/-- A relation that no store to backing memory can break. -/
def Stores (P : State → State → Prop) : Prop := ∀ s l v, P s (s.stored l v)

variable {P : State → State → Prop}

theorem keeps_pure {α : Type} (hP : BusRel P) (v : α) : Keeps P (pure v : Act α) := fun s => hP.refl s

theorem keeps_look {α : Type} (hP : BusRel P) (f : State → α) : Keeps P (look f) := fun s => hP.refl s

theorem keeps_change {f : State → State} (h : ∀ s, P s (f s)) : Keeps P (change f) := fun s => h s

theorem keeps_raise {α : Type} (hP : BusRel P) {k : Fault} (hk : k ≠ .internalError) : Keeps P (raise k : Act α) :=
  fun s => hP.faulted s k hk

theorem keeps_spend (hP : BusRel P) (n : Nat) : Keeps P (spend n) := fun s => hP.ticked s n

theorem keeps_bind {α β : Type} (hP : BusRel P) {m : Act α} {f : α → Act β} (hm : Keeps P m)
    (hf : ∀ v, Keeps P (f v)) : Keeps P (m >>= f) := by
  intro s
  have h1 := hm s
  cases h : m s with
  | ok v t =>
    rw [final_ok h] at h1
    have h2 := hf v t
    simp only [final] at h2 ⊢
    rw [bind_ok h]
    exact hP.trans _ _ _ h1 h2
  | error k t =>
    rw [final_error h] at h1
    simp only [final]
    rw [bind_error h]
    exact h1

theorem keeps_onlyIf (hP : BusRel P) (b : Bool) {m : Act Unit} (hm : Keeps P m) : Keeps P (onlyIf b m) := by
  cases b
  · exact keeps_pure hP ()
  · exact hm

theorem keeps_raiseDecode {α : Type} (hP : BusRel P) {k : Fault} (hk : k ≠ .internalError) :
    Keeps P (raiseDecode k : Act α) :=
  keeps_bind hP (keeps_look hP _) fun n => keeps_bind hP (keeps_spend hP n) fun _ => keeps_raise hP hk

theorem keeps_read8 (hP : BusRel P) (a : Word) : Keeps P (read8 a) := by
  intro s
  rcases read8_cases a s with ⟨loc, -, h⟩ | ⟨k, -, hk, h⟩ | ⟨-, -, h⟩
  · rw [final_ok h]; exact hP.refl s
  · rw [final_ok h]
    refine hP.handled s _ fun hn => ?_
    rw [World.readHandler, hn.1] at hk
    cases hk
  · rw [final_error h]; exact hP.faulted s _ (by decide)

theorem keeps_write8 (hP : BusRel P) (hst : Stores P) (a : Word) (v : Byte) : Keeps P (write8 a v) := by
  intro s
  rcases write8_cases a v s with ⟨loc, -, h⟩ | ⟨k, -, hk, h⟩ | ⟨-, -, h⟩
  · rw [final_ok h]; exact hst s _ _
  · rw [final_ok h]
    refine hP.handled s _ fun hn => ?_
    rw [World.writeHandler, hn.2] at hk
    cases hk
  · rw [final_error h]; exact hP.faulted s _ (by decide)

theorem keeps_read16 (hP : BusRel P) (a : Word) : Keeps P (read16 a) :=
  keeps_bind hP (keeps_read8 hP a) fun _ => keeps_bind hP (keeps_read8 hP _) fun _ => keeps_pure hP _

theorem keeps_write16 (hP : BusRel P) (hst : Stores P) (a w : Word) : Keeps P (write16 a w) :=
  keeps_bind hP (keeps_write8 hP hst a _) fun _ => keeps_write8 hP hst _ _

theorem keeps_fetch8 (hP : BusRel P) (hpc : ∀ s w, P s { s with pc := w }) : Keeps P fetch8 :=
  keeps_bind hP (keeps_look hP _) fun a =>
    keeps_bind hP (keeps_read8 hP a) fun t =>
      keeps_bind hP (keeps_change fun s => hpc s _) fun _ => keeps_pure hP t

/-! The stacks -/

theorem keeps_push8 (hP : BusRel P) (hst : Stores P) (p : Sp) (v : Byte) (hsp : ∀ s w, P s (s.setSp p w)) : Keeps P (push8 p v) :=
  keeps_bind hP (keeps_change fun s => hsp s _) fun _ =>
    keeps_bind hP (keeps_look hP _) fun a => keeps_write8 hP hst a v

theorem keeps_push16 (hP : BusRel P) (hst : Stores P) (p : Sp) (w : Word) (hsp : ∀ s w, P s (s.setSp p w)) : Keeps P (push16 p w) :=
  keeps_bind hP (keeps_push8 hP hst p _ hsp) fun _ => keeps_push8 hP hst p _ hsp

theorem keeps_pull8 (hP : BusRel P) (p : Sp) (hsp : ∀ s w, P s (s.setSp p w)) : Keeps P (pull8 p) :=
  keeps_bind hP (keeps_look hP _) fun a =>
    keeps_bind hP (keeps_read8 hP a) fun t =>
      keeps_bind hP (keeps_change fun s => hsp s _) fun _ => keeps_pure hP t

theorem keeps_pull16 (hP : BusRel P) (p : Sp) (hsp : ∀ s w, P s (s.setSp p w)) : Keeps P (pull16 p) :=
  keeps_bind hP (keeps_pull8 hP p hsp) fun _ => keeps_bind hP (keeps_pull8 hP p hsp) fun _ => keeps_pure hP _

theorem keeps_pull8To (hP : BusRel P) (p : Sp) {f : State → Byte → State} (hsp : ∀ s w, P s (s.setSp p w))
    (hf : ∀ s v, P s (f s v)) : Keeps P (pull8To p f) :=
  keeps_bind hP (keeps_pull8 hP p hsp) fun v => keeps_change fun s => hf s v

theorem keeps_pull16To (hP : BusRel P) (p : Sp) {f : State → Word → State} (hsp : ∀ s w, P s (s.setSp p w))
    (hf : ∀ s w, P s (f s w)) : Keeps P (pull16To p f) :=
  keeps_bind hP (keeps_pull16 hP p hsp) fun w => keeps_change fun s => hf s w

theorem keeps_pushEntire (hP : BusRel P) (hst : Stores P) (hsp : ∀ s w, P s (s.setSp .s w)) : Keeps P pushEntire :=
  keeps_bind hP (keeps_look hP _) fun _ => keeps_bind hP (keeps_push16 hP hst _ _ hsp) fun _ =>
  keeps_bind hP (keeps_look hP _) fun _ => keeps_bind hP (keeps_push16 hP hst _ _ hsp) fun _ =>
  keeps_bind hP (keeps_look hP _) fun _ => keeps_bind hP (keeps_push16 hP hst _ _ hsp) fun _ =>
  keeps_bind hP (keeps_look hP _) fun _ => keeps_bind hP (keeps_push16 hP hst _ _ hsp) fun _ =>
  keeps_bind hP (keeps_look hP _) fun _ => keeps_bind hP (keeps_push8 hP hst _ _ hsp) fun _ =>
  keeps_bind hP (keeps_look hP _) fun _ => keeps_bind hP (keeps_push8 hP hst _ _ hsp) fun _ =>
  keeps_bind hP (keeps_look hP _) fun _ => keeps_bind hP (keeps_push8 hP hst _ _ hsp) fun _ =>
  keeps_bind hP (keeps_look hP _) fun _ => keeps_push8 hP hst _ _ hsp

theorem keeps_pushFrame (hP : BusRel P) (hst : Stores P) (f : Frame) (hsp : ∀ s w, P s (s.setSp .s w))
    (hcc : ∀ (s : State) e, P s { s with cc := { s.cc with e := e } }) : Keeps P (pushFrame f) := by
  cases f with
  | entire => exact keeps_bind hP (keeps_change fun s => hcc s _) fun _ => keeps_pushEntire hP hst hsp
  | short =>
    exact keeps_bind hP (keeps_change fun s => hcc s _) fun _ =>
      keeps_bind hP (keeps_look hP _) fun _ => keeps_bind hP (keeps_push16 hP hst _ _ hsp) fun _ =>
      keeps_bind hP (keeps_look hP _) fun _ => keeps_push8 hP hst _ _ hsp
  | stacked => exact keeps_pure hP ()

/-- Taking an exception writes S, E, the masks it sets, PC and memory, and nothing else. -/
theorem keeps_takeException (hP : BusRel P) (hst : Stores P) (f : Frame) (mi mf : Bool) (vector : Word)
    (hsp : ∀ s w, P s (s.setSp .s w)) (he : ∀ (s : State) e, P s { s with cc := { s.cc with e := e } })
    (hm : ∀ s : State, P s { s with cc := { s.cc with i := s.cc.i || mi, f := s.cc.f || mf } })
    (hpc : ∀ s w, P s { s with pc := w }) : Keeps P (takeException f mi mf vector) :=
  keeps_bind hP (keeps_pushFrame hP hst f hsp he) fun _ => keeps_bind hP (keeps_change hm) fun _ =>
    keeps_bind hP (keeps_read16 hP vector) fun w => keeps_change fun s => hpc s w

/-- Returning from an exception. -/
theorem keeps_returnFromException (hP : BusRel P) (hsp : ∀ s w, P s (s.setSp .s w))
    (hcc : ∀ s c, P s { s with cc := c }) (hpc : ∀ s w, P s { s with pc := w })
    (ha : ∀ s v, P s { s with a := v }) (hb : ∀ s v, P s { s with b := v }) (hdp : ∀ s v, P s { s with dp := v })
    (hx : ∀ s w, P s { s with x := w }) (hy : ∀ s w, P s { s with y := w }) (hu : ∀ s w, P s { s with u := w }) :
    Keeps P returnFromException :=
  keeps_bind hP (keeps_pull8To hP .s hsp fun s _ => hcc s _) fun _ =>
    keeps_bind hP (keeps_look hP _) fun e =>
    keeps_bind hP (keeps_onlyIf hP e
      (keeps_bind hP (keeps_pull8To hP .s hsp ha) fun _ =>
        keeps_bind hP (keeps_pull8To hP .s hsp hb) fun _ =>
        keeps_bind hP (keeps_pull8To hP .s hsp hdp) fun _ =>
        keeps_bind hP (keeps_pull16To hP .s hsp hx) fun _ =>
        keeps_bind hP (keeps_pull16To hP .s hsp hy) fun _ => keeps_pull16To hP .s hsp hu)) fun _ =>
    keeps_bind hP (keeps_pull16To hP .s hsp hpc) fun _ => keeps_pure hP e

/-! Interrupts and the wait states -/

theorem keeps_service (hP : BusRel P) (hst : Stores P) (f : Frame) (mi mf : Bool) (vector : Word) (n : State → Nat)
    {line : State → State} (hsp : ∀ s w, P s (s.setSp .s w))
    (he : ∀ (s : State) e, P s { s with cc := { s.cc with e := e } })
    (hm : ∀ s : State, P s { s with cc := { s.cc with i := s.cc.i || mi, f := s.cc.f || mf } })
    (hpc : ∀ s w, P s { s with pc := w })
    (hwait : ∀ s, P s { s with waitCwai := false, waitSync := false }) (hline : ∀ s, P s (line s)) :
    Keeps P (do
      takeException (← entryFrame f) mi mf vector
      clearWaits
      spend (← look n)
      change line) :=
  keeps_bind hP (keeps_look hP _) fun g =>
    keeps_bind hP (keeps_takeException hP hst g mi mf vector hsp he hm hpc) fun _ =>
    keeps_bind hP (keeps_change hwait) fun _ =>
    keeps_bind hP (keeps_look hP _) fun k => keeps_bind hP (keeps_spend hP k) fun _ => keeps_change hline

theorem keeps_checkWaits (hP : BusRel P) (hsync : ∀ s, P s { s with waitSync := false }) : Keeps P checkWaits := by
  have hidle : Keeps P idleStep :=
    keeps_bind hP (keeps_look hP _) fun n => keeps_bind hP (keeps_spend hP n) fun _ => keeps_pure hP _
  intro s
  unfold checkWaits final
  by_cases hc : s.waitCwai = true
  · simp only [if_pos hc]; exact hidle s
  · by_cases hs : s.waitSync = true
    · by_cases hl : s.lineReleasesSync = true
      · simp only [if_neg hc, if_pos hs, if_pos hl]; exact hsync s
      · simp only [if_neg hc, if_pos hs, if_neg hl]; exact hidle s
    · simp only [if_neg hc, if_neg hs]; exact hP.refl s

/-- The interrupt check: one of the three services or the wait states. -/
theorem keeps_interruptCheck (hP : BusRel P) (hn : Keeps P serviceNmi) (hf : Keeps P serviceFirq)
    (hi : Keeps P serviceIrq) (hw : Keeps P checkWaits) : Keeps P interruptCheck := by
  have served {m : Act Unit} (hm : Keeps P m) : Keeps P (served m) :=
    keeps_bind hP hm fun _ => keeps_pure hP _
  intro s
  unfold interruptCheck final
  by_cases h1 : s.nmiReady = true
  · simp only [if_pos h1]; exact served hn s
  · by_cases h2 : s.firqReady = true
    · simp only [if_neg h1, if_pos h2]; exact served hf s
    · by_cases h3 : s.irqReady = true
      · simp only [if_neg h1, if_neg h2, if_pos h3]; exact served hi s
      · simp only [if_neg h1, if_neg h2, if_neg h3]; exact hw s

/-! Fetching -/

theorem faultOf_ne (r : Reject) : faultOf r ≠ .internalError := by cases r <;> decide

/-- Fetching, as long as the bytes left are enough for the longest instruction. -/
theorem keeps_fetchMore (hP : BusRel P) (hpc : ∀ s w, P s { s with pc := w }) (n : Nat) (bs : List Byte)
    (hb : bs.length < maxLength) (hn : maxLength ≤ n + bs.length) : Keeps P (fetchMore n bs) := by
  induction n generalizing bs with
  | zero => omega
  | succ n ih =>
    refine keeps_bind hP (keeps_fetch8 hP hpc) fun v => keeps_bind hP (keeps_look hP _) fun dc => ?_
    cases hd : decode dc (bs ++ [v]) with
    | more => exact ih _ (decode_more hd) (by rw [List.length_append, List.length_singleton]; omega)
    | ok i rest => exact keeps_pure hP i
    | bad r => exact keeps_raiseDecode hP (faultOf_ne r)

end Sys2Proof.Laws
end

