-- ==== Sys2Proof/Laws/KeepsExec.lean ====
section
/-! SUPPORT. Which relations the resolver and the shapes of instructions keep, and the one equation that turns `exec`
into the action behind it. -/

namespace Sys2Proof.Laws

open Sys2Proof Sys2Proof.Machine

variable {P : State → State → Prop}

/-! The resolver -/

theorem keeps_postInc (hP : BusRel P) (r : IxReg) (n : Word) (h : ∀ s w, P s (s.setIx r w)) : Keeps P (postInc r n) :=
  keeps_bind hP (keeps_look hP _) fun _ => keeps_bind hP (keeps_change fun s => h s _) fun _ => keeps_pure hP _

theorem keeps_preDec (hP : BusRel P) (r : IxReg) (n : Word) (h : ∀ s w, P s (s.setIx r w)) : Keeps P (preDec r n) :=
  keeps_bind hP (keeps_change fun s => h s _) fun _ => keeps_look hP _

theorem keeps_indirect (hP : BusRel P) (ind : Bool) (a : Word) : Keeps P (indirect ind a) := by
  cases ind
  · exact keeps_pure hP a
  · exact keeps_read16 hP a

/-- The resolver writes the base register of an automatic sub-mode and nothing else. -/
theorem keeps_eaIndexed (hP : BusRel P) (x : Idx) (h : ∀ r, Idx.moves x = some r → ∀ s w, P s (s.setIx r w)) :
    Keeps P (eaIndexed x) := by
  have direct {f : State → Word} (ind : Bool) : Keeps P (do indirect ind (← look f)) :=
    keeps_bind hP (keeps_look hP f) fun a => keeps_indirect hP ind a
  cases x with
  | off5 r n => exact keeps_look hP _
  | inc1 r => exact keeps_postInc hP r 1 (h r rfl)
  | inc2 r ind => exact keeps_bind hP (keeps_postInc hP r 2 (h r rfl)) fun a => keeps_indirect hP ind a
  | dec1 r => exact keeps_preDec hP r 1 (h r rfl)
  | dec2 r ind => exact keeps_bind hP (keeps_preDec hP r 2 (h r rfl)) fun a => keeps_indirect hP ind a
  | zero r ind => exact direct ind
  | accB r ind => exact direct ind
  | accA r ind => exact direct ind
  | off8 r n ind => exact direct ind
  | off16 r n ind => exact direct ind
  | accD r ind => exact direct ind
  | pcr8 n ind => exact direct ind
  | pcr16 n ind => exact direct ind
  | extInd n => exact keeps_read16 hP n

theorem keeps_ea (hP : BusRel P) (m : Mem) (h : ∀ r, Mem.moves m = some r → ∀ s w, P s (s.setIx r w)) :
    Keeps P (ea m) := by
  cases m with
  | dir dd => exact keeps_look hP _
  | ext a => exact keeps_pure hP a
  | idx x => exact keeps_eaIndexed hP x h

theorem keeps_operand8 (hP : BusRel P) (o : Src8) (h : ∀ r, Src8.moves o = some r → ∀ s w, P s (s.setIx r w)) :
    Keeps P (operand8 o) := by
  cases o with
  | imm b => exact keeps_pure hP b
  | mem m => exact keeps_bind hP (keeps_ea hP m h) fun a => keeps_read8 hP a

theorem keeps_operand16 (hP : BusRel P) (o : Src16) (h : ∀ r, Src16.moves o = some r → ∀ s w, P s (s.setIx r w)) :
    Keeps P (operand16 o) := by
  cases o with
  | imm w => exact keeps_pure hP w
  | mem m => exact keeps_bind hP (keeps_ea hP m h) fun a => keeps_read16 hP a

/-! The shapes of instructions -/

/-- Something read off the state, then a change that uses it. -/
theorem keeps_look_change {α β : Type} (hP : BusRel P) {g : State → α} {f : α → State → State} {k : α → Act β}
    (hf : ∀ s, P s (f (g s) s)) (hk : ∀ v, Keeps P (k v)) : Keeps P (do
      let v ← look g
      change (f v)
      k v) := by
  intro s
  exact hP.trans _ _ _ (hf s) (hk (g s) (f (g s) s))

theorem keeps_unaryAcc {f : CC → Byte → Byte × CC} {r : Acc}
    (h : ∀ (s : State) (v : Byte), P s ({ s with cc := (f s.cc v).2 }.setAcc r (f s.cc v).1)) :
    Keeps P (unaryAcc f r) :=
  keeps_change fun s => h s _

theorem keeps_testAcc {r : Acc} (h : ∀ (s : State) (v : Byte), P s { s with cc := s.cc.logic8 v }) : Keeps P (testAcc r) :=
  keeps_change fun s => h s _

theorem keeps_unaryMem (hP : BusRel P) (hst : Stores P) {f : CC → Byte → Byte × CC} {m : Mem}
    (hm : ∀ r, Mem.moves m = some r → ∀ s w, P s (s.setIx r w))
    (hcc : ∀ (s : State) (v : Byte), P s { s with cc := (f s.cc v).2 }) : Keeps P (unaryMem f m) :=
  keeps_bind hP (keeps_ea hP m hm) fun a => keeps_bind hP (keeps_read8 hP a) fun v =>
    keeps_look_change hP (fun s => hcc s v) fun o => keeps_write8 hP hst a o.1

theorem keeps_testMem (hP : BusRel P) {m : Mem} (hm : ∀ r, Mem.moves m = some r → ∀ s w, P s (s.setIx r w))
    (hcc : ∀ (s : State) (v : Byte), P s { s with cc := s.cc.logic8 v }) : Keeps P (testMem m) :=
  keeps_bind hP (keeps_ea hP m hm) fun a => keeps_bind hP (keeps_read8 hP a) fun _ => keeps_change fun s => hcc s _

theorem keeps_clearMem (hP : BusRel P) (hst : Stores P) {m : Mem} (hm : ∀ r, Mem.moves m = some r → ∀ s w, P s (s.setIx r w))
    (hcc : ∀ s : State, P s { s with cc := (aluClr s.cc 0).2 }) : Keeps P (clearMem m) :=
  keeps_bind hP (keeps_ea hP m hm) fun a => keeps_bind hP (keeps_look hP _) fun b =>
    keeps_bind hP (keeps_onlyIf hP b (keeps_bind hP (keeps_read8 hP a) fun _ => keeps_pure hP ())) fun _ =>
    keeps_look_change hP hcc fun o => keeps_write8 hP hst a o.1

theorem keeps_binary8 (hP : BusRel P) {f : CC → Byte → Byte → Byte × CC} {r : Acc} {o : Src8}
    (hm : ∀ q, Src8.moves o = some q → ∀ s w, P s (s.setIx q w))
    (h : ∀ (s : State) (v m : Byte), P s ({ s with cc := (f s.cc v m).2 }.setAcc r (f s.cc v m).1)) :
    Keeps P (binary8 f r o) :=
  keeps_bind hP (keeps_operand8 hP o hm) fun m => keeps_change fun s => h s _ m

theorem keeps_compare8 (hP : BusRel P) {f : CC → Byte → Byte → Byte × CC} {r : Acc} {o : Src8}
    (hm : ∀ q, Src8.moves o = some q → ∀ s w, P s (s.setIx q w))
    (hcc : ∀ (s : State) (v m : Byte), P s { s with cc := (f s.cc v m).2 }) : Keeps P (compare8 f r o) :=
  keeps_bind hP (keeps_operand8 hP o hm) fun m => keeps_change fun s => hcc s _ m

theorem keeps_store8 (hP : BusRel P) (hst : Stores P) {r : Acc} {m : Mem} (hm : ∀ q, Mem.moves m = some q → ∀ s w, P s (s.setIx q w))
    (hcc : ∀ (s : State) (v : Byte), P s { s with cc := s.cc.logic8 v }) : Keeps P (store8 r m) :=
  keeps_bind hP (keeps_ea hP m hm) fun a => keeps_look_change hP (fun s => hcc s _) fun v => keeps_write8 hP hst a v

theorem keeps_binary16 (hP : BusRel P) {f : CC → Word → Word → Word × CC} {r : Wide} {o : Src16}
    (hm : ∀ q, Src16.moves o = some q → ∀ s w, P s (s.setIx q w))
    (h : ∀ (s : State) (v m : Word), P s ({ s with cc := (f s.cc v m).2 }.setWide r (f s.cc v m).1)) :
    Keeps P (binary16 f r o) :=
  keeps_bind hP (keeps_operand16 hP o hm) fun m => keeps_change fun s => h s _ m

theorem keeps_compare16 (hP : BusRel P) {r : Wide} {o : Src16}
    (hm : ∀ q, Src16.moves o = some q → ∀ s w, P s (s.setIx q w))
    (hcc : ∀ (s : State) (v m : Word), P s { s with cc := (aluSub16 s.cc v m).2 }) : Keeps P (compare16 r o) :=
  keeps_bind hP (keeps_operand16 hP o hm) fun m => keeps_change fun s => hcc s _ m

theorem keeps_store16 (hP : BusRel P) (hst : Stores P) {r : Wide} {m : Mem} (hm : ∀ q, Mem.moves m = some q → ∀ s w, P s (s.setIx q w))
    (hcc : ∀ (s : State) (w : Word), P s { s with cc := s.cc.logic16 w }) : Keeps P (store16 r m) :=
  keeps_bind hP (keeps_ea hP m hm) fun a => keeps_look_change hP (fun s => hcc s _) fun w => keeps_write16 hP hst a w

theorem keeps_leaIndex (hP : BusRel P) {r : Wide} {x : Idx} (hm : ∀ q, Idx.moves x = some q → ∀ s w, P s (s.setIx q w))
    (h : ∀ (s : State) (z : Bool) (v : Word), P s ({ s with cc := { s.cc with z := z } }.setWide r v)) :
    Keeps P (leaIndex r x) :=
  keeps_bind hP (keeps_eaIndexed hP x hm) fun _ => keeps_change fun s => h s _ _

theorem keeps_leaStack (hP : BusRel P) {r : Wide} {x : Idx} (hm : ∀ q, Idx.moves x = some q → ∀ s w, P s (s.setIx q w))
    (h : ∀ (s : State) (v : Word), P s (s.setWide r v)) : Keeps P (leaStack r x) :=
  keeps_bind hP (keeps_eaIndexed hP x hm) fun _ => keeps_change fun s => h s _

theorem keeps_branchShort (hP : BusRel P) {c : Cond} {n : Byte}
    (hpc : ∀ (s : State) w, c.holds s.cc = true → P s { s with pc := w }) : Keeps P (branchShort c n) :=
  keeps_bind hP (keeps_look hP _) fun t => keeps_change fun s => by
    split
    next h => exact hpc s t h
    next => exact hP.refl s

theorem keeps_branchLong (hP : BusRel P) {c : Cond} {n : Word}
    (hpc : ∀ (s : State) w, c.holds s.cc = true → P s { s with pc := w }) : Keeps P (branchLong c n) :=
  keeps_bind hP (keeps_look hP _) fun t => keeps_change fun s => by
    split
    next h => exact hpc s t h
    next => exact hP.refl s

theorem keeps_call (hP : BusRel P) (hst : Stores P) (target : Word) (hsp : ∀ s w, P s (s.setSp .s w))
    (hpc : ∀ s w, P s { s with pc := w }) : Keeps P (call target) :=
  keeps_bind hP (keeps_look hP _) fun w => keeps_bind hP (keeps_push16 hP hst .s w hsp) fun _ =>
    keeps_change fun s => hpc s _

theorem keeps_pushList (hP : BusRel P) (hst : Stores P) (p : Sp) (l : RegList) (hsp : ∀ s w, P s (s.setSp p w)) :
    Keeps P (pushList p l) := by
  have word {f : State → Word} : Keeps P (do push16 p (← look f)) :=
    keeps_bind hP (keeps_look hP f) fun w => keeps_push16 hP hst p w hsp
  have byte {f : State → Byte} : Keeps P (do push8 p (← look f)) :=
    keeps_bind hP (keeps_look hP f) fun v => keeps_push8 hP hst p v hsp
  exact keeps_bind hP (keeps_onlyIf hP _ word) fun _ => keeps_bind hP (keeps_onlyIf hP _ word) fun _ =>
    keeps_bind hP (keeps_onlyIf hP _ word) fun _ => keeps_bind hP (keeps_onlyIf hP _ word) fun _ =>
    keeps_bind hP (keeps_onlyIf hP _ byte) fun _ => keeps_bind hP (keeps_onlyIf hP _ byte) fun _ =>
    keeps_bind hP (keeps_onlyIf hP _ byte) fun _ => keeps_onlyIf hP _ byte

/-- A pull writes only the registers of its list, its stack pointer and, for S, the NMI-armed latch. -/
theorem keeps_pullList (hP : BusRel P) (p : Sp) (l : RegList) (hsp : ∀ s w, P s (s.setSp p w))
    (hcc : l.cc = true → ∀ (s : State) (c : CC), P s { s with cc := c })
    (ha : l.a = true → ∀ (s : State) (v : Byte), P s { s with a := v })
    (hb : l.b = true → ∀ (s : State) (v : Byte), P s { s with b := v })
    (hdp : l.dp = true → ∀ (s : State) (v : Byte), P s { s with dp := v })
    (hx : l.x = true → ∀ (s : State) (w : Word), P s { s with x := w })
    (hy : l.y = true → ∀ (s : State) (w : Word), P s { s with y := w })
    (hother : l.other = true → Keeps P (pullOther p))
    (hpc : l.pc = true → ∀ (s : State) (w : Word), P s { s with pc := w }) : Keeps P (pullList p l) := by
  have only {b : Bool} {m : Act Unit} (h : b = true → Keeps P m) : Keeps P (onlyIf b m) := by
    cases b
    · exact keeps_pure hP ()
    · exact h rfl
  exact keeps_bind hP (only fun h => keeps_pull8To hP p hsp fun s _ => hcc h s _) fun _ =>
    keeps_bind hP (only fun h => keeps_pull8To hP p hsp (ha h)) fun _ =>
    keeps_bind hP (only fun h => keeps_pull8To hP p hsp (hb h)) fun _ =>
    keeps_bind hP (only fun h => keeps_pull8To hP p hsp (hdp h)) fun _ =>
    keeps_bind hP (only fun h => keeps_pull16To hP p hsp (hx h)) fun _ =>
    keeps_bind hP (only fun h => keeps_pull16To hP p hsp (hy h)) fun _ =>
    keeps_bind hP (only hother) fun _ => only fun h => keeps_pull16To hP p hsp (hpc h)

theorem keeps_checkPair (hP : BusRel P) (r1 r2 : Reg) : Keeps P (checkPair r1 r2) :=
  keeps_onlyIf hP _ (keeps_raiseDecode hP (by decide))

theorem keeps_softwareInterrupt (hP : BusRel P) (hst : Stores P) (mi mf : Bool) (vector : Word) (hsp : ∀ s w, P s (s.setSp .s w))
    (he : ∀ (s : State) e, P s { s with cc := { s.cc with e := e } })
    (hm : ∀ s : State, P s { s with cc := { s.cc with i := s.cc.i || mi, f := s.cc.f || mf } })
    (hpc : ∀ s w, P s { s with pc := w }) : Keeps P (softwareInterrupt mi mf vector) :=
  keeps_bind hP (keeps_look hP _) fun _ => keeps_bind hP (keeps_onlyIf hP _ (keeps_raiseDecode hP (by decide))) fun _ =>
    keeps_takeException hP hst _ mi mf vector hsp he hm hpc

/-- The cost is added after the effect. -/
theorem keeps_costed (hP : BusRel P) {m : Act Unit} (n : State → Nat) (hm : Keeps P m) :
    Keeps P (do
      m
      spend (← look n)) :=
  keeps_bind hP hm fun _ => keeps_bind hP (keeps_look hP n) fun k => keeps_spend hP k

end Sys2Proof.Laws
end

