-- ==== Sys2Proof/Laws/Exec.lean ====
section
/-! SUPPORT. The action behind each instruction, cost included, and the one equation from `exec` to it: proofs about all
instructions split on `action` and cite the shape lemmas. -/

namespace Sys2Proof.Laws

open Sys2Proof Sys2Proof.Machine

/-- An effect, then the cost of its instruction. -/
def costed (i : Instr) (m : Act Unit) : Act Unit := do
  m
  spend (← look fun s => cost s.cfg i)

/-- A long conditional branch, which costs more when it is taken. -/
def longBranch (i : Instr) (c : Cond) (n : Word) : Act Unit := do
  let taken ← look fun t => c.holds t.cc
  branchLong c n
  spend (← look fun t => cost t.cfg i + if taken then t.cfg.cycBranchTaken else 0)

/-- RTI, whose cost depends on the frame. -/
def rtiAction : Act Unit := do
  let entire ← returnFromException
  spend (← look fun t => if entire then t.cfg.cycRtiEntire else cost t.cfg .rti)

/-- The whole action of an instruction. -/
def action : Instr → Act Unit
  | .neg m => costed (.neg m) (unaryMem aluNeg m)
  | .com m => costed (.com m) (unaryMem aluCom m)
  | .lsr m => costed (.lsr m) (unaryMem aluLsr m)
  | .ror m => costed (.ror m) (unaryMem aluRor m)
  | .asr m => costed (.asr m) (unaryMem aluAsr m)
  | .asl m => costed (.asl m) (unaryMem aluAsl m)
  | .rol m => costed (.rol m) (unaryMem aluRol m)
  | .dec m => costed (.dec m) (unaryMem aluDec m)
  | .inc m => costed (.inc m) (unaryMem aluInc m)
  | .tst m => costed (.tst m) (testMem m)
  | .jmp m => costed (.jmp m) (do
      let a ← ea m
      change fun t => { t with pc := a })
  | .clr m => costed (.clr m) (clearMem m)
  | .nop => costed .nop (pure ())
  | .sync => costed .sync (change fun t => { t with waitSync := true })
  | .lbra n => costed (.lbra n) (branchLong .ra n)
  | .lbsr n => costed (.lbsr n) (do call (← eaRel16 n))
  | .daa => costed .daa (change fun t =>
      let o := aluDaa t.cc t.a (Config.freeFlag t.freeCount)
      { t with a := o.1, cc := o.2, freeCount := t.freeCount + 1 })
  | .orcc m => costed (.orcc m) (change fun t => { t with cc := CC.ofByte (t.cc.toByte ||| m) })
  | .andcc m => costed (.andcc m) (change fun t => { t with cc := CC.ofByte (t.cc.toByte &&& m) })
  | .sex => costed .sex (change fun t =>
      let o := aluSex t.cc t.b
      { t with a := o.1, cc := o.2 })
  | .exg r1 r2 => costed (.exg r1 r2) (do
      checkPair r1 r2
      change fun t => ((t.setReg r1 (t.reg r2)).setReg r2 (t.reg r1)).arm ((r1 == .s || r2 == .s) && t.cfg.armExg))
  | .tfr r1 r2 => costed (.tfr r1 r2) (do
      checkPair r1 r2
      change fun t => (t.setReg r2 (t.reg r1)).arm (r2 == .s && t.cfg.armTfr))
  | .bra n => costed (.bra n) (branchShort .ra n)
  | .brn n => costed (.brn n) (branchShort .rn n)
  | .bhi n => costed (.bhi n) (branchShort .hi n)
  | .bls n => costed (.bls n) (branchShort .ls n)
  | .bcc n => costed (.bcc n) (branchShort .cc n)
  | .bcs n => costed (.bcs n) (branchShort .cs n)
  | .bne n => costed (.bne n) (branchShort .ne n)
  | .beq n => costed (.beq n) (branchShort .eq n)
  | .bvc n => costed (.bvc n) (branchShort .vc n)
  | .bvs n => costed (.bvs n) (branchShort .vs n)
  | .bpl n => costed (.bpl n) (branchShort .pl n)
  | .bmi n => costed (.bmi n) (branchShort .mi n)
  | .bge n => costed (.bge n) (branchShort .ge n)
  | .blt n => costed (.blt n) (branchShort .lt n)
  | .bgt n => costed (.bgt n) (branchShort .gt n)
  | .ble n => costed (.ble n) (branchShort .le n)
  | .leax x => costed (.leax x) (leaIndex .x x)
  | .leay x => costed (.leay x) (leaIndex .y x)
  | .leas x => costed (.leas x) (do
      leaStack .s x
      change fun t => t.arm t.cfg.armLeas)
  | .leau x => costed (.leau x) (leaStack .u x)
  | .pshs l => costed (.pshs l) (pushList .s l)
  | .puls l => costed (.puls l) (pullList .s l)
  | .pshu l => costed (.pshu l) (pushList .u l)
  | .pulu l => costed (.pulu l) (pullList .u l)
  | .rts => costed .rts (pull16To .s fun t w => { t with pc := w })
  | .abx => costed .abx (change fun t => { t with x := t.x + zext8 t.b })
  | .rti => rtiAction
  | .cwai m => costed (.cwai m) (do
      change fun t => { t with cc := CC.ofByte (t.cc.toByte &&& m) }
      pushFrame .entire
      change fun t => { t with waitCwai := true })
  | .mul => costed .mul (change fun t =>
      let o := aluMul t.cc t.a t.b
      { t with cc := o.2 }.setD o.1)
  | .swi => costed .swi (softwareInterrupt true true 0xFFFA)
  | .nega => costed .nega (unaryAcc aluNeg .a)
  | .coma => costed .coma (unaryAcc aluCom .a)
  | .lsra => costed .lsra (unaryAcc aluLsr .a)
  | .rora => costed .rora (unaryAcc aluRor .a)
  | .asra => costed .asra (unaryAcc aluAsr .a)
  | .asla => costed .asla (unaryAcc aluAsl .a)
  | .rola => costed .rola (unaryAcc aluRol .a)
  | .deca => costed .deca (unaryAcc aluDec .a)
  | .inca => costed .inca (unaryAcc aluInc .a)
  | .tsta => costed .tsta (testAcc .a)
  | .clra => costed .clra (unaryAcc aluClr .a)
  | .negb => costed .negb (unaryAcc aluNeg .b)
  | .comb => costed .comb (unaryAcc aluCom .b)
  | .lsrb => costed .lsrb (unaryAcc aluLsr .b)
  | .rorb => costed .rorb (unaryAcc aluRor .b)
  | .asrb => costed .asrb (unaryAcc aluAsr .b)
  | .aslb => costed .aslb (unaryAcc aluAsl .b)
  | .rolb => costed .rolb (unaryAcc aluRol .b)
  | .decb => costed .decb (unaryAcc aluDec .b)
  | .incb => costed .incb (unaryAcc aluInc .b)
  | .tstb => costed .tstb (testAcc .b)
  | .clrb => costed .clrb (unaryAcc aluClr .b)
  | .suba o => costed (.suba o) (binary8 aluSub .a o)
  | .cmpa o => costed (.cmpa o) (compare8 aluSub .a o)
  | .sbca o => costed (.sbca o) (binary8 aluSbc .a o)
  | .subd o => costed (.subd o) (binary16 aluSub16 .d o)
  | .anda o => costed (.anda o) (binary8 aluAnd .a o)
  | .bita o => costed (.bita o) (compare8 aluAnd .a o)
  | .lda o => costed (.lda o) (binary8 aluLd .a o)
  | .eora o => costed (.eora o) (binary8 aluEor .a o)
  | .adca o => costed (.adca o) (binary8 aluAdc .a o)
  | .ora o => costed (.ora o) (binary8 aluOr .a o)
  | .adda o => costed (.adda o) (binary8 aluAdd .a o)
  | .cmpx o => costed (.cmpx o) (compare16 .x o)
  | .bsr n => costed (.bsr n) (do call (← eaRel8 n))
  | .ldx o => costed (.ldx o) (binary16 aluLd16 .x o)
  | .sta m => costed (.sta m) (store8 .a m)
  | .jsr m => costed (.jsr m) (do call (← ea m))
  | .stx m => costed (.stx m) (store16 .x m)
  | .subb o => costed (.subb o) (binary8 aluSub .b o)
  | .cmpb o => costed (.cmpb o) (compare8 aluSub .b o)
  | .sbcb o => costed (.sbcb o) (binary8 aluSbc .b o)
  | .addd o => costed (.addd o) (binary16 aluAdd16 .d o)
  | .andb o => costed (.andb o) (binary8 aluAnd .b o)
  | .bitb o => costed (.bitb o) (compare8 aluAnd .b o)
  | .ldb o => costed (.ldb o) (binary8 aluLd .b o)
  | .eorb o => costed (.eorb o) (binary8 aluEor .b o)
  | .adcb o => costed (.adcb o) (binary8 aluAdc .b o)
  | .orb o => costed (.orb o) (binary8 aluOr .b o)
  | .addb o => costed (.addb o) (binary8 aluAdd .b o)
  | .ldd o => costed (.ldd o) (binary16 aluLd16 .d o)
  | .ldu o => costed (.ldu o) (binary16 aluLd16 .u o)
  | .stb m => costed (.stb m) (store8 .b m)
  | .std m => costed (.std m) (store16 .d m)
  | .stu m => costed (.stu m) (store16 .u m)
  | .lbrn n => longBranch (.lbrn n) .rn n
  | .lbhi n => longBranch (.lbhi n) .hi n
  | .lbls n => longBranch (.lbls n) .ls n
  | .lbcc n => longBranch (.lbcc n) .cc n
  | .lbcs n => longBranch (.lbcs n) .cs n
  | .lbne n => longBranch (.lbne n) .ne n
  | .lbeq n => longBranch (.lbeq n) .eq n
  | .lbvc n => longBranch (.lbvc n) .vc n
  | .lbvs n => longBranch (.lbvs n) .vs n
  | .lbpl n => longBranch (.lbpl n) .pl n
  | .lbmi n => longBranch (.lbmi n) .mi n
  | .lbge n => longBranch (.lbge n) .ge n
  | .lblt n => longBranch (.lblt n) .lt n
  | .lbgt n => longBranch (.lbgt n) .gt n
  | .lble n => longBranch (.lble n) .le n
  | .swi2 => costed .swi2 (softwareInterrupt false false 0xFFF4)
  | .cmpd o => costed (.cmpd o) (compare16 .d o)
  | .cmpy o => costed (.cmpy o) (compare16 .y o)
  | .ldy o => costed (.ldy o) (binary16 aluLd16 .y o)
  | .sty m => costed (.sty m) (store16 .y m)
  | .lds o => costed (.lds o) (do
      binary16 aluLd16 .s o
      change fun t => t.arm t.cfg.armLds)
  | .sts m => costed (.sts m) (store16 .s m)
  | .swi3 => costed .swi3 (softwareInterrupt false false 0xFFF2)
  | .cmpu o => costed (.cmpu o) (compare16 .u o)
  | .cmps o => costed (.cmps o) (compare16 .s o)

/-- Every instruction answers a next state: the one its action ends in. -/
theorem exec_eq (i : Instr) (s : State) : exec i s = .next (final (action i) s) := by
  have h := finish_eq (action i) s
  cases i <;> exact h

theorem final_costed_ok {i : Instr} {m : Act Unit} {s t : State} (h : m s = .ok () t) :
    final (costed i m) s = t.tick (cost t.cfg i) := by
  refine final_ok (v := ()) ?_
  unfold costed
  rw [bind_ok h]
  rfl

theorem final_costed_error {i : Instr} {m : Act Unit} {s t : State} {k : Fault} (h : m s = .error k t) :
    final (costed i m) s = t := by
  refine final_error (k := k) ?_
  unfold costed
  rw [bind_error h]

/-- An instruction whose effect ends well: its state, with the cost added. -/
theorem exec_costed_ok {i : Instr} {m : Act Unit} {s t : State} (ha : action i = costed i m) (h : m s = .ok () t) :
    exec i s = .next (t.tick (cost t.cfg i)) := by
  rw [exec_eq, ha, final_costed_ok h]

/-- An instruction whose effect faults: the state at the fault, with no cost. -/
theorem exec_costed_error {i : Instr} {m : Act Unit} {s t : State} {k : Fault} (ha : action i = costed i m)
    (h : m s = .error k t) : exec i s = .next t := by
  rw [exec_eq, ha, final_costed_error h]

/-- A relation that every instruction's action keeps holds across `exec`. -/
theorem exec_of_keeps {P : State → State → Prop} {i : Instr} {s t : State} (hk : Keeps P (action i))
    (h : exec i s = .next t) : P s t := by
  rw [exec_eq] at h
  cases h
  exact hk s

end Sys2Proof.Laws
end

