-- ==== Sys2Proof/Laws/Writes.lean ====
section
/-! SUPPORT. What an instruction can write, said once: a relation that survives the writes an instruction is listed with
survives the instruction. Every rule about all instructions is one such relation. -/

namespace Sys2Proof.Laws

open Sys2Proof Sys2Proof.Machine

/-- The condition codes `k'` differ from `k` in flags that the instruction writes and in no other. -/
structure FlagsOf (j : Instr) (k k' : CC) : Prop where
  e : j.writesE = false → k'.e = k.e
  f : j.writesMasks = false → k'.f = k.f
  h : j.writesH = false → k'.h = k.h
  i : j.writesMasks = false → k'.i = k.i
  n : j.writesN = false → k'.n = k.n
  z : j.writesZ = false → k'.z = k.z
  v : j.writesV = false → k'.v = k.v
  c : j.writesC = false → k'.c = k.c

/-- The relation survives every write that the instruction is listed with. -/
structure Allows (P : State → State → Prop) (i : Instr) : Prop where
  a : i.writesA = true → ∀ (s : State) v, P s { s with a := v }
  b : i.writesB = true → ∀ (s : State) v, P s { s with b := v }
  x : i.writesX = true → ∀ (s : State) v, P s { s with x := v }
  y : i.writesY = true → ∀ (s : State) v, P s { s with y := v }
  u : i.writesU = true → ∀ (s : State) v, P s { s with u := v }
  s : i.writesS = true → ∀ (s : State) v, P s { s with s := v }
  pc : i.writesPC = true → ∀ (s : State) v, P s { s with pc := v }
  dp : i.writesDP = true → ∀ (s : State) v, P s { s with dp := v }
  moved : ∀ r, i.moves = some r → ∀ (s : State) w, P s (s.setIx r w)
  cc : ∀ (s : State) k, FlagsOf i s.cc k → P s { s with cc := k }
  armed : ∀ s : State, i.arms s.cfg = true → P s { s with nmiArmed := true }
  cwai : (∃ m, i = .cwai m) → ∀ s : State, P s { s with waitCwai := true }
  sync : i = .sync → ∀ s : State, P s { s with waitSync := true }
  stored : i.storesNothing = false → Stores P
  free : i = .daa → ∀ (s : State) n, P s { s with freeCount := n }

variable {P : State → State → Prop} {i : Instr}

/-- A flag that is written. -/
theorem written {p : Prop} {b : Bool} (hb : b = true) : b = false → p := fun h => absurd (hb.symm.trans h) (by decide)

/-- A flag that is not written. -/
theorem same {α : Type} {p : Prop} {v : α} : p → v = v := fun _ => rfl

/-- The base register that an instruction moves is that of its operand. -/
theorem src8_moves (o : Src8) : (match Src8.indexed? o with | some x => Idx.moves x | none => none) = Src8.moves o := by
  cases o with
  | imm b => rfl
  | mem m => cases m <;> rfl

theorem src16_moves (o : Src16) :
    (match Src16.indexed? o with | some x => Idx.moves x | none => none) = Src16.moves o := by
  cases o with
  | imm b => rfl
  | mem m => cases m <;> rfl

theorem mem_moves (m : Mem) : (match Mem.indexed? m with | some x => Idx.moves x | none => none) = Mem.moves m := by
  cases m <;> rfl

/-- The latch is set only by an instruction that may set it. -/
theorem allows_arm (hP : BusRel P) (A : Allows P i) (s : State) (b : Bool) (h : b = true → i.arms s.cfg = true) :
    P s (s.arm b) := by
  cases b with
  | false =>
    show P s { s with nmiArmed := s.nmiArmed || false }
    rw [Bool.or_false]
    exact hP.refl s
  | true =>
    show P s { s with nmiArmed := s.nmiArmed || true }
    rw [Bool.or_true]
    exact A.armed s (h rfl)

/-- A transfer writes its destination. -/
theorem allows_setReg (hP : BusRel P) (A : Allows P i) (r : Reg)
    (hit : ∀ f : Reg → Bool, f r = true → i.transfersTo f = true)
    (hA : i.transfersTo (fun r => r == .a || r == .d) = true → i.writesA = true)
    (hB : i.transfersTo (fun r => r == .b || r == .d) = true → i.writesB = true)
    (hX : i.transfersTo (fun r => r == .x) = true → i.writesX = true)
    (hY : i.transfersTo (fun r => r == .y) = true → i.writesY = true)
    (hU : i.transfersTo (fun r => r == .u) = true → i.writesU = true)
    (hS : i.transfersTo (fun r => r == .s) = true → i.writesS = true)
    (hPC : i.transfersTo (fun r => r == .pc) = true → i.writesPC = true)
    (hDP : i.transfersTo (fun r => r == .dp) = true → i.writesDP = true)
    (hCC : ∀ k k', i.transfersTo (fun r => r == .cc) = true → FlagsOf i k k')
    (s : State) (w : Word) : P s (s.setReg r w) := by
  cases r with
  | d => exact hP.trans _ _ _ (A.a (hA (hit _ rfl)) s _) (A.b (hB (hit _ rfl)) _ _)
  | x => exact A.x (hX (hit _ rfl)) s w
  | y => exact A.y (hY (hit _ rfl)) s w
  | u => exact A.u (hU (hit _ rfl)) s w
  | s => exact A.s (hS (hit _ rfl)) s w
  | pc => exact A.pc (hPC (hit _ rfl)) s w
  | a => exact A.a (hA (hit _ rfl)) s _
  | b => exact A.b (hB (hit _ rfl)) s _
  | cc => exact A.cc s _ (hCC _ _ (hit _ rfl))
  | dp => exact A.dp (hDP (hit _ rfl)) s _

/-- A write of D is a write of A and one of B. -/
theorem allows_setD (hP : BusRel P) (A : Allows P i) (ha : i.writesA = true) (hb : i.writesB = true) (s : State)
    (w : Word) : P s (s.setD w) :=
  hP.trans _ _ _ (A.a ha s (hi w)) (A.b hb { s with a := hi w } (lo w))

/-- An instruction that may change every flag. -/
theorem flagsOf_every {k k' : CC} (h : i.writesE = true ∧ i.writesMasks = true ∧ i.writesH = true)
    (h' : i.writesN = true ∧ i.writesZ = true ∧ i.writesV = true ∧ i.writesC = true) : FlagsOf i k k' :=
  ⟨written h.1, written h.2.1, written h.2.2, written h.2.1, written h'.1, written h'.2.1, written h'.2.2.1,
    written h'.2.2.2⟩

/-- An instruction that moves all of CC may change every flag. -/
theorem flagsOf_load {k k' : CC} (h : i.loadsCC = true) : FlagsOf i k k' := by
  have twice {b : Bool} (hb : b = true) : (!(!b)) = true := by rw [Bool.not_not, hb]
  cases i with
  | andcc m => exact flagsOf_every ⟨rfl, rfl, rfl⟩ ⟨rfl, rfl, rfl, rfl⟩
  | orcc m => exact flagsOf_every ⟨rfl, rfl, rfl⟩ ⟨rfl, rfl, rfl, rfl⟩
  | cwai m => exact flagsOf_every ⟨rfl, rfl, rfl⟩ ⟨rfl, rfl, rfl, rfl⟩
  | rti => exact flagsOf_every ⟨rfl, rfl, rfl⟩ ⟨rfl, rfl, rfl, rfl⟩
  | tfr r1 r2 => exact flagsOf_every ⟨h, h, h⟩ ⟨twice h, twice h, twice h, twice h⟩
  | exg r1 r2 =>
    have h' : (!(r1 != .cc && r2 != .cc)) = true := by
      rw [Bool.not_and, bne, bne, Bool.not_not, Bool.not_not]
      exact h
    exact flagsOf_every ⟨h, h, h⟩ ⟨h', h', h', h'⟩
  | puls l => exact flagsOf_every ⟨h, h, h⟩ ⟨twice h, twice h, twice h, twice h⟩
  | pulu l => exact flagsOf_every ⟨h, h, h⟩ ⟨twice h, twice h, twice h, twice h⟩
  | _ => exact absurd (show false = true from h) (by decide)

/-- A long conditional branch writes PC, where its condition can hold. -/
theorem keeps_longBranch (hP : BusRel P) {j : Instr} {c : Cond} {n : Word}
    (hpc : ∀ (s : State) w, c.holds s.cc = true → P s { s with pc := w }) : Keeps P (longBranch j c n) :=
  keeps_bind hP (keeps_look hP _) fun _ => keeps_bind hP (keeps_branchLong hP hpc) fun _ =>
    keeps_bind hP (keeps_look hP _) fun k => keeps_spend hP k

/-- An instruction keeps every relation that survives the writes it is listed with. -/
theorem keeps_action (hP : BusRel P) (i : Instr) (A : Allows P i) : Keeps P (action i) := by
  cases i with
  | neg m =>
    exact keeps_costed hP _ (keeps_unaryMem hP (A.stored rfl) (fun q hq => A.moved q ((mem_moves m).trans hq))
      (fun s v => A.cc s _ ⟨same, same, same, same, written rfl, written rfl, written rfl, written rfl⟩))
  | com m =>
    exact keeps_costed hP _ (keeps_unaryMem hP (A.stored rfl) (fun q hq => A.moved q ((mem_moves m).trans hq))
      (fun s v => A.cc s _ ⟨same, same, same, same, written rfl, written rfl, written rfl, written rfl⟩))
  | lsr m =>
    exact keeps_costed hP _ (keeps_unaryMem hP (A.stored rfl) (fun q hq => A.moved q ((mem_moves m).trans hq))
      (fun s v => A.cc s _ ⟨same, same, same, same, written rfl, written rfl, same, written rfl⟩))
  | ror m =>
    exact keeps_costed hP _ (keeps_unaryMem hP (A.stored rfl) (fun q hq => A.moved q ((mem_moves m).trans hq))
      (fun s v => A.cc s _ ⟨same, same, same, same, written rfl, written rfl, same, written rfl⟩))
  | asr m =>
    exact keeps_costed hP _ (keeps_unaryMem hP (A.stored rfl) (fun q hq => A.moved q ((mem_moves m).trans hq))
      (fun s v => A.cc s _ ⟨same, same, same, same, written rfl, written rfl, same, written rfl⟩))
  | asl m =>
    exact keeps_costed hP _ (keeps_unaryMem hP (A.stored rfl) (fun q hq => A.moved q ((mem_moves m).trans hq))
      (fun s v => A.cc s _ ⟨same, same, same, same, written rfl, written rfl, written rfl, written rfl⟩))
  | rol m =>
    exact keeps_costed hP _ (keeps_unaryMem hP (A.stored rfl) (fun q hq => A.moved q ((mem_moves m).trans hq))
      (fun s v => A.cc s _ ⟨same, same, same, same, written rfl, written rfl, written rfl, written rfl⟩))
  | dec m =>
    exact keeps_costed hP _ (keeps_unaryMem hP (A.stored rfl) (fun q hq => A.moved q ((mem_moves m).trans hq))
      (fun s v => A.cc s _ ⟨same, same, same, same, written rfl, written rfl, written rfl, same⟩))
  | inc m =>
    exact keeps_costed hP _ (keeps_unaryMem hP (A.stored rfl) (fun q hq => A.moved q ((mem_moves m).trans hq))
      (fun s v => A.cc s _ ⟨same, same, same, same, written rfl, written rfl, written rfl, same⟩))
  | tst m =>
    exact keeps_costed hP _ (keeps_testMem hP (fun q hq => A.moved q ((mem_moves m).trans hq)) (fun s v => A.cc s
      _ ⟨same, same, same, same, written rfl, written rfl, written rfl, same⟩))
  | jmp m =>
    exact keeps_costed hP _ (keeps_bind hP (keeps_ea hP m (fun q hq => A.moved q ((mem_moves m).trans hq))) fun a
      => keeps_change fun s => A.pc rfl s a)
  | clr m =>
    exact keeps_costed hP _ (keeps_clearMem hP (A.stored rfl) (fun q hq => A.moved q ((mem_moves m).trans hq))
      (fun s => A.cc s _ ⟨same, same, same, same, written rfl, written rfl, written rfl, written rfl⟩))
  | nop => exact keeps_costed hP _ (keeps_pure hP ())
  | sync => exact keeps_costed hP _ (keeps_change (A.sync rfl))
  | lbra n => exact keeps_costed hP _ (keeps_branchLong hP (fun s w _ => A.pc rfl s w))
  | lbsr n =>
    exact keeps_costed hP _ (keeps_bind hP (keeps_look hP _) fun a => keeps_call hP (A.stored rfl) a (A.s rfl)
      (A.pc rfl))
  | daa =>
    exact keeps_costed hP _ (keeps_change fun s => hP.trans _ { s with freeCount := s.freeCount + 1 } _ (A.free
      rfl s _) (hP.trans _ _ _ (A.a rfl _ _) (A.cc _ _ ⟨same, same, same, same, written rfl, written rfl, written
      rfl, written rfl⟩)))
  | orcc b => exact keeps_costed hP _ (keeps_change fun s => A.cc s _ (flagsOf_load rfl))
  | andcc b => exact keeps_costed hP _ (keeps_change fun s => A.cc s _ (flagsOf_load rfl))
  | sex =>
    exact keeps_costed hP _ (keeps_change fun s => hP.trans _ _ _ (A.a rfl s _) (A.cc _ _ ⟨same, same, same, same,
      written rfl, written rfl, same, same⟩))
  | exg r1 r2 =>
    exact keeps_costed hP _ (keeps_bind hP (keeps_checkPair hP r1 r2) fun _ => keeps_change fun s => hP.trans _ _
      _ (allows_setReg hP A r1 (fun f h => Bool.or_eq_true _ _ |>.mpr (.inl h)) (fun h => h) (fun h => h) (fun h
      => h) (fun h => h) (fun h => h) (fun h => h) (fun h => h) (fun h => h) (fun _ _ h => flagsOf_load h) _ _)
      (hP.trans _ _ _ (allows_setReg hP A r2 (fun f h => Bool.or_eq_true _ _ |>.mpr (.inr h)) (fun h => h) (fun h
      => h) (fun h => h) (fun h => h) (fun h => h) (fun h => h) (fun h => h) (fun h => h) (fun _ _ h =>
      flagsOf_load h) _ _) (allows_arm hP A _ _ fun h => by simpa [Instr.arms] using h)))
  | tfr r1 r2 =>
    exact keeps_costed hP _ (keeps_bind hP (keeps_checkPair hP r1 r2) fun _ => keeps_change fun s => hP.trans _ _
      _ (allows_setReg hP A r2 (fun f h => h) (fun h => h) (fun h => h) (fun h => h) (fun h => h) (fun h => h)
      (fun h => h) (fun h => h) (fun h => h) (fun _ _ h => flagsOf_load h) s _) (allows_arm hP A _ _ fun h => by
      simpa [Instr.arms] using h))
  | bra n => exact keeps_costed hP _ (keeps_branchShort hP (fun s w _ => A.pc rfl s w))
  | brn n => exact keeps_costed hP _ (keeps_branchShort hP (fun s w h => nomatch (show false = true from h)))
  | bhi n => exact keeps_costed hP _ (keeps_branchShort hP (fun s w _ => A.pc rfl s w))
  | bls n => exact keeps_costed hP _ (keeps_branchShort hP (fun s w _ => A.pc rfl s w))
  | bcc n => exact keeps_costed hP _ (keeps_branchShort hP (fun s w _ => A.pc rfl s w))
  | bcs n => exact keeps_costed hP _ (keeps_branchShort hP (fun s w _ => A.pc rfl s w))
  | bne n => exact keeps_costed hP _ (keeps_branchShort hP (fun s w _ => A.pc rfl s w))
  | beq n => exact keeps_costed hP _ (keeps_branchShort hP (fun s w _ => A.pc rfl s w))
  | bvc n => exact keeps_costed hP _ (keeps_branchShort hP (fun s w _ => A.pc rfl s w))
  | bvs n => exact keeps_costed hP _ (keeps_branchShort hP (fun s w _ => A.pc rfl s w))
  | bpl n => exact keeps_costed hP _ (keeps_branchShort hP (fun s w _ => A.pc rfl s w))
  | bmi n => exact keeps_costed hP _ (keeps_branchShort hP (fun s w _ => A.pc rfl s w))
  | bge n => exact keeps_costed hP _ (keeps_branchShort hP (fun s w _ => A.pc rfl s w))
  | blt n => exact keeps_costed hP _ (keeps_branchShort hP (fun s w _ => A.pc rfl s w))
  | bgt n => exact keeps_costed hP _ (keeps_branchShort hP (fun s w _ => A.pc rfl s w))
  | ble n => exact keeps_costed hP _ (keeps_branchShort hP (fun s w _ => A.pc rfl s w))
  | leax x =>
    exact keeps_costed hP _ (keeps_leaIndex hP (fun q hq => A.moved q hq) (fun s z v => hP.trans _ _ _ (A.x rfl s
      v) (A.cc _ _ ⟨same, same, same, same, same, written rfl, same, same⟩)))
  | leay x =>
    exact keeps_costed hP _ (keeps_leaIndex hP (fun q hq => A.moved q hq) (fun s z v => hP.trans _ _ _ (A.y rfl s
      v) (A.cc _ _ ⟨same, same, same, same, same, written rfl, same, same⟩)))
  | leas x =>
    exact keeps_costed hP _ (keeps_bind hP (keeps_leaStack hP (fun q hq => A.moved q hq) (fun s v => A.s rfl s v))
      fun _ => keeps_change fun s => allows_arm hP A s _ fun h => h)
  | leau x => exact keeps_costed hP _ (keeps_leaStack hP (fun q hq => A.moved q hq) (fun s v => A.u rfl s v))
  | pshs l => exact keeps_costed hP _ (keeps_pushList hP (A.stored rfl) .s l (A.s rfl))
  | puls l =>
    exact keeps_costed hP _ (keeps_pullList hP .s l (A.s rfl) (fun h s k => A.cc s k (flagsOf_load h)) A.a A.b
      A.dp A.x A.y (fun h => keeps_pull16To hP .s (A.s rfl) (fun s v => A.u h s v)) A.pc)
  | pshu l => exact keeps_costed hP _ (keeps_pushList hP (A.stored rfl) .u l (A.u rfl))
  | pulu l =>
    exact keeps_costed hP _ (keeps_pullList hP .u l (A.u rfl) (fun h s k => A.cc s k (flagsOf_load h)) A.a A.b
      A.dp A.x A.y (fun h => keeps_pull16To hP .u (A.u rfl) (fun s v => hP.trans _ _ _ (A.s h s v) (allows_arm hP
      A _ _ fun h' => (show (l.other && s.cfg.armPulu) = true by rw [h]; exact h')))) A.pc)
  | rts => exact keeps_costed hP _ (keeps_pull16To hP .s (A.s rfl) (A.pc rfl))
  | abx => exact keeps_costed hP _ (keeps_change fun s => A.x rfl s _)
  | rti =>
    exact keeps_bind hP (keeps_returnFromException hP (A.s rfl) (fun s k => A.cc s k (flagsOf_load rfl)) (A.pc
      rfl) (A.a rfl) (A.b rfl) (A.dp rfl) (A.x rfl) (A.y rfl) (A.u rfl)) fun _ => keeps_bind hP (keeps_look hP _)
      fun n => keeps_spend hP n
  | cwai b =>
    exact keeps_costed hP _ (keeps_bind hP (keeps_change fun s => A.cc s _ (flagsOf_load rfl)) fun _ => keeps_bind
      hP (keeps_pushFrame hP (A.stored rfl) .entire (A.s rfl) fun s e => A.cc s _ (flagsOf_load rfl)) fun _ =>
      keeps_change (A.cwai ⟨b, rfl⟩))
  | mul =>
    exact keeps_costed hP _ (keeps_change fun s => hP.trans _ _ _ (A.cc s (aluMul s.cc s.a s.b).2 ⟨same, same,
      same, same, same, written rfl, same, written rfl⟩) (allows_setD hP A rfl rfl _ _))
  | swi =>
    exact keeps_costed hP _ (keeps_softwareInterrupt hP (A.stored rfl) _ _ _ (A.s rfl) (fun s e => A.cc s _
      ⟨written rfl, written rfl, same, written rfl, same, same, same, same⟩) (fun s => A.cc s _ ⟨written rfl,
      written rfl, same, written rfl, same, same, same, same⟩) (A.pc rfl))
  | nega =>
    exact keeps_costed hP _ (keeps_unaryAcc (fun s v => hP.trans _ _ _ (A.cc s (aluNeg s.cc v).2 ⟨same, same,
      same, same, written rfl, written rfl, written rfl, written rfl⟩) (A.a rfl _ _)))
  | coma =>
    exact keeps_costed hP _ (keeps_unaryAcc (fun s v => hP.trans _ _ _ (A.cc s (aluCom s.cc v).2 ⟨same, same,
      same, same, written rfl, written rfl, written rfl, written rfl⟩) (A.a rfl _ _)))
  | lsra =>
    exact keeps_costed hP _ (keeps_unaryAcc (fun s v => hP.trans _ _ _ (A.cc s (aluLsr s.cc v).2 ⟨same, same,
      same, same, written rfl, written rfl, same, written rfl⟩) (A.a rfl _ _)))
  | rora =>
    exact keeps_costed hP _ (keeps_unaryAcc (fun s v => hP.trans _ _ _ (A.cc s (aluRor s.cc v).2 ⟨same, same,
      same, same, written rfl, written rfl, same, written rfl⟩) (A.a rfl _ _)))
  | asra =>
    exact keeps_costed hP _ (keeps_unaryAcc (fun s v => hP.trans _ _ _ (A.cc s (aluAsr s.cc v).2 ⟨same, same,
      same, same, written rfl, written rfl, same, written rfl⟩) (A.a rfl _ _)))
  | asla =>
    exact keeps_costed hP _ (keeps_unaryAcc (fun s v => hP.trans _ _ _ (A.cc s (aluAsl s.cc v).2 ⟨same, same,
      same, same, written rfl, written rfl, written rfl, written rfl⟩) (A.a rfl _ _)))
  | rola =>
    exact keeps_costed hP _ (keeps_unaryAcc (fun s v => hP.trans _ _ _ (A.cc s (aluRol s.cc v).2 ⟨same, same,
      same, same, written rfl, written rfl, written rfl, written rfl⟩) (A.a rfl _ _)))
  | deca =>
    exact keeps_costed hP _ (keeps_unaryAcc (fun s v => hP.trans _ _ _ (A.cc s (aluDec s.cc v).2 ⟨same, same,
      same, same, written rfl, written rfl, written rfl, same⟩) (A.a rfl _ _)))
  | inca =>
    exact keeps_costed hP _ (keeps_unaryAcc (fun s v => hP.trans _ _ _ (A.cc s (aluInc s.cc v).2 ⟨same, same,
      same, same, written rfl, written rfl, written rfl, same⟩) (A.a rfl _ _)))
  | tsta =>
    exact keeps_costed hP _ (keeps_testAcc (fun s v => A.cc s _ ⟨same, same, same, same, written rfl, written rfl,
      written rfl, same⟩))
  | clra =>
    exact keeps_costed hP _ (keeps_unaryAcc (fun s v => hP.trans _ _ _ (A.cc s (aluClr s.cc v).2 ⟨same, same,
      same, same, written rfl, written rfl, written rfl, written rfl⟩) (A.a rfl _ _)))
  | negb =>
    exact keeps_costed hP _ (keeps_unaryAcc (fun s v => hP.trans _ _ _ (A.cc s (aluNeg s.cc v).2 ⟨same, same,
      same, same, written rfl, written rfl, written rfl, written rfl⟩) (A.b rfl _ _)))
  | comb =>
    exact keeps_costed hP _ (keeps_unaryAcc (fun s v => hP.trans _ _ _ (A.cc s (aluCom s.cc v).2 ⟨same, same,
      same, same, written rfl, written rfl, written rfl, written rfl⟩) (A.b rfl _ _)))
  | lsrb =>
    exact keeps_costed hP _ (keeps_unaryAcc (fun s v => hP.trans _ _ _ (A.cc s (aluLsr s.cc v).2 ⟨same, same,
      same, same, written rfl, written rfl, same, written rfl⟩) (A.b rfl _ _)))
  | rorb =>
    exact keeps_costed hP _ (keeps_unaryAcc (fun s v => hP.trans _ _ _ (A.cc s (aluRor s.cc v).2 ⟨same, same,
      same, same, written rfl, written rfl, same, written rfl⟩) (A.b rfl _ _)))
  | asrb =>
    exact keeps_costed hP _ (keeps_unaryAcc (fun s v => hP.trans _ _ _ (A.cc s (aluAsr s.cc v).2 ⟨same, same,
      same, same, written rfl, written rfl, same, written rfl⟩) (A.b rfl _ _)))
  | aslb =>
    exact keeps_costed hP _ (keeps_unaryAcc (fun s v => hP.trans _ _ _ (A.cc s (aluAsl s.cc v).2 ⟨same, same,
      same, same, written rfl, written rfl, written rfl, written rfl⟩) (A.b rfl _ _)))
  | rolb =>
    exact keeps_costed hP _ (keeps_unaryAcc (fun s v => hP.trans _ _ _ (A.cc s (aluRol s.cc v).2 ⟨same, same,
      same, same, written rfl, written rfl, written rfl, written rfl⟩) (A.b rfl _ _)))
  | decb =>
    exact keeps_costed hP _ (keeps_unaryAcc (fun s v => hP.trans _ _ _ (A.cc s (aluDec s.cc v).2 ⟨same, same,
      same, same, written rfl, written rfl, written rfl, same⟩) (A.b rfl _ _)))
  | incb =>
    exact keeps_costed hP _ (keeps_unaryAcc (fun s v => hP.trans _ _ _ (A.cc s (aluInc s.cc v).2 ⟨same, same,
      same, same, written rfl, written rfl, written rfl, same⟩) (A.b rfl _ _)))
  | tstb =>
    exact keeps_costed hP _ (keeps_testAcc (fun s v => A.cc s _ ⟨same, same, same, same, written rfl, written rfl,
      written rfl, same⟩))
  | clrb =>
    exact keeps_costed hP _ (keeps_unaryAcc (fun s v => hP.trans _ _ _ (A.cc s (aluClr s.cc v).2 ⟨same, same,
      same, same, written rfl, written rfl, written rfl, written rfl⟩) (A.b rfl _ _)))
  | suba o =>
    exact keeps_costed hP _ (keeps_binary8 hP (fun q hq => A.moved q ((src8_moves o).trans hq)) (fun s v m =>
      hP.trans _ _ _ (A.cc s (aluSub s.cc v m).2 ⟨same, same, same, same, written rfl, written rfl, written rfl,
      written rfl⟩) (A.a rfl _ _)))
  | cmpa o =>
    exact keeps_costed hP _ (keeps_compare8 hP (fun q hq => A.moved q ((src8_moves o).trans hq)) (fun s v m =>
      A.cc s _ ⟨same, same, same, same, written rfl, written rfl, written rfl, written rfl⟩))
  | sbca o =>
    exact keeps_costed hP _ (keeps_binary8 hP (fun q hq => A.moved q ((src8_moves o).trans hq)) (fun s v m =>
      hP.trans _ _ _ (A.cc s (aluSbc s.cc v m).2 ⟨same, same, same, same, written rfl, written rfl, written rfl,
      written rfl⟩) (A.a rfl _ _)))
  | subd o =>
    exact keeps_costed hP _ (keeps_binary16 hP (fun q hq => A.moved q ((src16_moves o).trans hq)) (fun s v m =>
      hP.trans _ _ _ (A.cc s (aluSub16 s.cc v m).2 ⟨same, same, same, same, written rfl, written rfl, written rfl,
      written rfl⟩) (allows_setD hP A rfl rfl _ _)))
  | anda o =>
    exact keeps_costed hP _ (keeps_binary8 hP (fun q hq => A.moved q ((src8_moves o).trans hq)) (fun s v m =>
      hP.trans _ _ _ (A.cc s (aluAnd s.cc v m).2 ⟨same, same, same, same, written rfl, written rfl, written rfl,
      same⟩) (A.a rfl _ _)))
  | bita o =>
    exact keeps_costed hP _ (keeps_compare8 hP (fun q hq => A.moved q ((src8_moves o).trans hq)) (fun s v m =>
      A.cc s _ ⟨same, same, same, same, written rfl, written rfl, written rfl, same⟩))
  | lda o =>
    exact keeps_costed hP _ (keeps_binary8 hP (fun q hq => A.moved q ((src8_moves o).trans hq)) (fun s v m =>
      hP.trans _ _ _ (A.cc s (aluLd s.cc v m).2 ⟨same, same, same, same, written rfl, written rfl, written rfl,
      same⟩) (A.a rfl _ _)))
  | eora o =>
    exact keeps_costed hP _ (keeps_binary8 hP (fun q hq => A.moved q ((src8_moves o).trans hq)) (fun s v m =>
      hP.trans _ _ _ (A.cc s (aluEor s.cc v m).2 ⟨same, same, same, same, written rfl, written rfl, written rfl,
      same⟩) (A.a rfl _ _)))
  | adca o =>
    exact keeps_costed hP _ (keeps_binary8 hP (fun q hq => A.moved q ((src8_moves o).trans hq)) (fun s v m =>
      hP.trans _ _ _ (A.cc s (aluAdc s.cc v m).2 ⟨same, same, written rfl, same, written rfl, written rfl, written
      rfl, written rfl⟩) (A.a rfl _ _)))
  | ora o =>
    exact keeps_costed hP _ (keeps_binary8 hP (fun q hq => A.moved q ((src8_moves o).trans hq)) (fun s v m =>
      hP.trans _ _ _ (A.cc s (aluOr s.cc v m).2 ⟨same, same, same, same, written rfl, written rfl, written rfl,
      same⟩) (A.a rfl _ _)))
  | adda o =>
    exact keeps_costed hP _ (keeps_binary8 hP (fun q hq => A.moved q ((src8_moves o).trans hq)) (fun s v m =>
      hP.trans _ _ _ (A.cc s (aluAdd s.cc v m).2 ⟨same, same, written rfl, same, written rfl, written rfl, written
      rfl, written rfl⟩) (A.a rfl _ _)))
  | cmpx o =>
    exact keeps_costed hP _ (keeps_compare16 hP (fun q hq => A.moved q ((src16_moves o).trans hq)) (fun s v m =>
      A.cc s _ ⟨same, same, same, same, written rfl, written rfl, written rfl, written rfl⟩))
  | bsr n =>
    exact keeps_costed hP _ (keeps_bind hP (keeps_look hP _) fun a => keeps_call hP (A.stored rfl) a (A.s rfl)
      (A.pc rfl))
  | ldx o =>
    exact keeps_costed hP _ (keeps_binary16 hP (fun q hq => A.moved q ((src16_moves o).trans hq)) (fun s v m =>
      hP.trans _ _ _ (A.cc s (aluLd16 s.cc v m).2 ⟨same, same, same, same, written rfl, written rfl, written rfl,
      same⟩) (A.x rfl _ _)))
  | sta m =>
    exact keeps_costed hP _ (keeps_store8 hP (A.stored rfl) (fun q hq => A.moved q ((mem_moves m).trans hq)) (fun
      s v => A.cc s _ ⟨same, same, same, same, written rfl, written rfl, written rfl, same⟩))
  | jsr m =>
    exact keeps_costed hP _ (keeps_bind hP (keeps_ea hP m (fun q hq => A.moved q ((mem_moves m).trans hq))) fun a
      => keeps_call hP (A.stored rfl) a (A.s rfl) (A.pc rfl))
  | stx m =>
    exact keeps_costed hP _ (keeps_store16 hP (A.stored rfl) (fun q hq => A.moved q ((mem_moves m).trans hq)) (fun
      s v => A.cc s _ ⟨same, same, same, same, written rfl, written rfl, written rfl, same⟩))
  | subb o =>
    exact keeps_costed hP _ (keeps_binary8 hP (fun q hq => A.moved q ((src8_moves o).trans hq)) (fun s v m =>
      hP.trans _ _ _ (A.cc s (aluSub s.cc v m).2 ⟨same, same, same, same, written rfl, written rfl, written rfl,
      written rfl⟩) (A.b rfl _ _)))
  | cmpb o =>
    exact keeps_costed hP _ (keeps_compare8 hP (fun q hq => A.moved q ((src8_moves o).trans hq)) (fun s v m =>
      A.cc s _ ⟨same, same, same, same, written rfl, written rfl, written rfl, written rfl⟩))
  | sbcb o =>
    exact keeps_costed hP _ (keeps_binary8 hP (fun q hq => A.moved q ((src8_moves o).trans hq)) (fun s v m =>
      hP.trans _ _ _ (A.cc s (aluSbc s.cc v m).2 ⟨same, same, same, same, written rfl, written rfl, written rfl,
      written rfl⟩) (A.b rfl _ _)))
  | addd o =>
    exact keeps_costed hP _ (keeps_binary16 hP (fun q hq => A.moved q ((src16_moves o).trans hq)) (fun s v m =>
      hP.trans _ _ _ (A.cc s (aluAdd16 s.cc v m).2 ⟨same, same, same, same, written rfl, written rfl, written rfl,
      written rfl⟩) (allows_setD hP A rfl rfl _ _)))
  | andb o =>
    exact keeps_costed hP _ (keeps_binary8 hP (fun q hq => A.moved q ((src8_moves o).trans hq)) (fun s v m =>
      hP.trans _ _ _ (A.cc s (aluAnd s.cc v m).2 ⟨same, same, same, same, written rfl, written rfl, written rfl,
      same⟩) (A.b rfl _ _)))
  | bitb o =>
    exact keeps_costed hP _ (keeps_compare8 hP (fun q hq => A.moved q ((src8_moves o).trans hq)) (fun s v m =>
      A.cc s _ ⟨same, same, same, same, written rfl, written rfl, written rfl, same⟩))
  | ldb o =>
    exact keeps_costed hP _ (keeps_binary8 hP (fun q hq => A.moved q ((src8_moves o).trans hq)) (fun s v m =>
      hP.trans _ _ _ (A.cc s (aluLd s.cc v m).2 ⟨same, same, same, same, written rfl, written rfl, written rfl,
      same⟩) (A.b rfl _ _)))
  | eorb o =>
    exact keeps_costed hP _ (keeps_binary8 hP (fun q hq => A.moved q ((src8_moves o).trans hq)) (fun s v m =>
      hP.trans _ _ _ (A.cc s (aluEor s.cc v m).2 ⟨same, same, same, same, written rfl, written rfl, written rfl,
      same⟩) (A.b rfl _ _)))
  | adcb o =>
    exact keeps_costed hP _ (keeps_binary8 hP (fun q hq => A.moved q ((src8_moves o).trans hq)) (fun s v m =>
      hP.trans _ _ _ (A.cc s (aluAdc s.cc v m).2 ⟨same, same, written rfl, same, written rfl, written rfl, written
      rfl, written rfl⟩) (A.b rfl _ _)))
  | orb o =>
    exact keeps_costed hP _ (keeps_binary8 hP (fun q hq => A.moved q ((src8_moves o).trans hq)) (fun s v m =>
      hP.trans _ _ _ (A.cc s (aluOr s.cc v m).2 ⟨same, same, same, same, written rfl, written rfl, written rfl,
      same⟩) (A.b rfl _ _)))
  | addb o =>
    exact keeps_costed hP _ (keeps_binary8 hP (fun q hq => A.moved q ((src8_moves o).trans hq)) (fun s v m =>
      hP.trans _ _ _ (A.cc s (aluAdd s.cc v m).2 ⟨same, same, written rfl, same, written rfl, written rfl, written
      rfl, written rfl⟩) (A.b rfl _ _)))
  | ldd o =>
    exact keeps_costed hP _ (keeps_binary16 hP (fun q hq => A.moved q ((src16_moves o).trans hq)) (fun s v m =>
      hP.trans _ _ _ (A.cc s (aluLd16 s.cc v m).2 ⟨same, same, same, same, written rfl, written rfl, written rfl,
      same⟩) (allows_setD hP A rfl rfl _ _)))
  | ldu o =>
    exact keeps_costed hP _ (keeps_binary16 hP (fun q hq => A.moved q ((src16_moves o).trans hq)) (fun s v m =>
      hP.trans _ _ _ (A.cc s (aluLd16 s.cc v m).2 ⟨same, same, same, same, written rfl, written rfl, written rfl,
      same⟩) (A.u rfl _ _)))
  | stb m =>
    exact keeps_costed hP _ (keeps_store8 hP (A.stored rfl) (fun q hq => A.moved q ((mem_moves m).trans hq)) (fun
      s v => A.cc s _ ⟨same, same, same, same, written rfl, written rfl, written rfl, same⟩))
  | std m =>
    exact keeps_costed hP _ (keeps_store16 hP (A.stored rfl) (fun q hq => A.moved q ((mem_moves m).trans hq)) (fun
      s v => A.cc s _ ⟨same, same, same, same, written rfl, written rfl, written rfl, same⟩))
  | stu m =>
    exact keeps_costed hP _ (keeps_store16 hP (A.stored rfl) (fun q hq => A.moved q ((mem_moves m).trans hq)) (fun
      s v => A.cc s _ ⟨same, same, same, same, written rfl, written rfl, written rfl, same⟩))
  | lbrn n => exact keeps_longBranch hP (fun s w h => nomatch (show false = true from h))
  | lbhi n => exact keeps_longBranch hP (fun s w _ => A.pc rfl s w)
  | lbls n => exact keeps_longBranch hP (fun s w _ => A.pc rfl s w)
  | lbcc n => exact keeps_longBranch hP (fun s w _ => A.pc rfl s w)
  | lbcs n => exact keeps_longBranch hP (fun s w _ => A.pc rfl s w)
  | lbne n => exact keeps_longBranch hP (fun s w _ => A.pc rfl s w)
  | lbeq n => exact keeps_longBranch hP (fun s w _ => A.pc rfl s w)
  | lbvc n => exact keeps_longBranch hP (fun s w _ => A.pc rfl s w)
  | lbvs n => exact keeps_longBranch hP (fun s w _ => A.pc rfl s w)
  | lbpl n => exact keeps_longBranch hP (fun s w _ => A.pc rfl s w)
  | lbmi n => exact keeps_longBranch hP (fun s w _ => A.pc rfl s w)
  | lbge n => exact keeps_longBranch hP (fun s w _ => A.pc rfl s w)
  | lblt n => exact keeps_longBranch hP (fun s w _ => A.pc rfl s w)
  | lbgt n => exact keeps_longBranch hP (fun s w _ => A.pc rfl s w)
  | lble n => exact keeps_longBranch hP (fun s w _ => A.pc rfl s w)
  | swi2 =>
    exact keeps_costed hP _ (keeps_softwareInterrupt hP (A.stored rfl) _ _ _ (A.s rfl) (fun s e => A.cc s _
      ⟨written rfl, same, same, same, same, same, same, same⟩) (fun s => A.cc s _ ⟨fun _ => rfl, fun _ =>
      Bool.or_false _, fun _ => rfl, fun _ => Bool.or_false _, fun _ => rfl, fun _ => rfl, fun _ => rfl, fun _ =>
      rfl⟩) (A.pc rfl))
  | cmpd o =>
    exact keeps_costed hP _ (keeps_compare16 hP (fun q hq => A.moved q ((src16_moves o).trans hq)) (fun s v m =>
      A.cc s _ ⟨same, same, same, same, written rfl, written rfl, written rfl, written rfl⟩))
  | cmpy o =>
    exact keeps_costed hP _ (keeps_compare16 hP (fun q hq => A.moved q ((src16_moves o).trans hq)) (fun s v m =>
      A.cc s _ ⟨same, same, same, same, written rfl, written rfl, written rfl, written rfl⟩))
  | ldy o =>
    exact keeps_costed hP _ (keeps_binary16 hP (fun q hq => A.moved q ((src16_moves o).trans hq)) (fun s v m =>
      hP.trans _ _ _ (A.cc s (aluLd16 s.cc v m).2 ⟨same, same, same, same, written rfl, written rfl, written rfl,
      same⟩) (A.y rfl _ _)))
  | sty m =>
    exact keeps_costed hP _ (keeps_store16 hP (A.stored rfl) (fun q hq => A.moved q ((mem_moves m).trans hq)) (fun
      s v => A.cc s _ ⟨same, same, same, same, written rfl, written rfl, written rfl, same⟩))
  | lds o =>
    exact keeps_costed hP _ (keeps_bind hP (keeps_binary16 hP (fun q hq => A.moved q ((src16_moves o).trans hq))
      (fun s v m => hP.trans _ _ _ (A.cc s (aluLd16 s.cc v m).2 ⟨same, same, same, same, written rfl, written rfl,
      written rfl, same⟩) (A.s rfl _ _))) fun _ => keeps_change fun s => allows_arm hP A s _ fun h => h)
  | sts m =>
    exact keeps_costed hP _ (keeps_store16 hP (A.stored rfl) (fun q hq => A.moved q ((mem_moves m).trans hq)) (fun
      s v => A.cc s _ ⟨same, same, same, same, written rfl, written rfl, written rfl, same⟩))
  | swi3 =>
    exact keeps_costed hP _ (keeps_softwareInterrupt hP (A.stored rfl) _ _ _ (A.s rfl) (fun s e => A.cc s _
      ⟨written rfl, same, same, same, same, same, same, same⟩) (fun s => A.cc s _ ⟨fun _ => rfl, fun _ =>
      Bool.or_false _, fun _ => rfl, fun _ => Bool.or_false _, fun _ => rfl, fun _ => rfl, fun _ => rfl, fun _ =>
      rfl⟩) (A.pc rfl))
  | cmpu o =>
    exact keeps_costed hP _ (keeps_compare16 hP (fun q hq => A.moved q ((src16_moves o).trans hq)) (fun s v m =>
      A.cc s _ ⟨same, same, same, same, written rfl, written rfl, written rfl, written rfl⟩))
  | cmps o =>
    exact keeps_costed hP _ (keeps_compare16 hP (fun q hq => A.moved q ((src16_moves o).trans hq)) (fun s v m =>
      A.cc s _ ⟨same, same, same, same, written rfl, written rfl, written rfl, written rfl⟩))

end Sys2Proof.Laws
end

