-- ==== Sys2Proof/Laws/Step.lean ====
section
/-! SUPPORT. Everything a step can be, said once: the interrupt check taken apart, the fetch, and the five ways a step
ends. -/

namespace Sys2Proof.Laws

open Sys2Proof Sys2Proof.Machine

/-- A field of the state that bus accesses, faults and cycles leave alone is kept as an equation. -/
theorem busRel_field {α : Type} (f : State → α) (hf : ∀ s k, f { s with fault := some k } = f s)
    (ht : ∀ s n, f (s.tick n) = f s) (hw : ∀ s w n, f { s with world := w, handlerCount := n } = f s) :
    BusRel fun s t => f t = f s where
  refl _ := rfl
  trans _ _ _ h1 h2 := h2.trans h1
  faulted s k _ := hf s k
  ticked := ht
  handled s _ _ := hw s _ _

/-! How a step begins -/

@[simp] theorem begin_a (s : State) (held : Bool) : (s.begin held).a = s.a := rfl

@[simp] theorem begin_b (s : State) (held : Bool) : (s.begin held).b = s.b := rfl

@[simp] theorem begin_x (s : State) (held : Bool) : (s.begin held).x = s.x := rfl

@[simp] theorem begin_y (s : State) (held : Bool) : (s.begin held).y = s.y := rfl

@[simp] theorem begin_u (s : State) (held : Bool) : (s.begin held).u = s.u := rfl

@[simp] theorem begin_s (s : State) (held : Bool) : (s.begin held).s = s.s := rfl

@[simp] theorem begin_pc (s : State) (held : Bool) : (s.begin held).pc = s.pc := rfl

@[simp] theorem begin_dp (s : State) (held : Bool) : (s.begin held).dp = s.dp := rfl

@[simp] theorem begin_cc (s : State) (held : Bool) : (s.begin held).cc = s.cc := rfl

@[simp] theorem begin_clock (s : State) (held : Bool) : (s.begin held).clock = s.clock := rfl

@[simp] theorem begin_nmiArmed (s : State) (held : Bool) : (s.begin held).nmiArmed = s.nmiArmed := rfl

@[simp] theorem begin_waitCwai (s : State) (held : Bool) : (s.begin held).waitCwai = s.waitCwai := rfl

@[simp] theorem begin_waitSync (s : State) (held : Bool) : (s.begin held).waitSync = s.waitSync := rfl

@[simp] theorem begin_world (s : State) (held : Bool) : (s.begin held).world = s.world := rfl

@[simp] theorem begin_nextCb (s : State) (held : Bool) : (s.begin held).nextCb = s.nextCb := rfl

@[simp] theorem begin_freeCount (s : State) (held : Bool) : (s.begin held).freeCount = s.freeCount := rfl

@[simp] theorem begin_handlerCount (s : State) (held : Bool) : (s.begin held).handlerCount = s.handlerCount := rfl

@[simp] theorem begin_cfg (s : State) (held : Bool) : (s.begin held).cfg = s.cfg := rfl

@[simp] theorem begin_fault (s : State) (held : Bool) : (s.begin held).fault = none := rfl

@[simp] theorem begin_clockHeld (s : State) (held : Bool) : (s.begin held).clockHeld = held := rfl

@[simp] theorem begun_a (s : State) : s.begun.a = s.a := rfl

@[simp] theorem begun_b (s : State) : s.begun.b = s.b := rfl

@[simp] theorem begun_x (s : State) : s.begun.x = s.x := rfl

@[simp] theorem begun_y (s : State) : s.begun.y = s.y := rfl

@[simp] theorem begun_u (s : State) : s.begun.u = s.u := rfl

@[simp] theorem begun_s (s : State) : s.begun.s = s.s := rfl

@[simp] theorem begun_pc (s : State) : s.begun.pc = s.pc := rfl

@[simp] theorem begun_dp (s : State) : s.begun.dp = s.dp := rfl

@[simp] theorem begun_cc (s : State) : s.begun.cc = s.cc := rfl

@[simp] theorem begun_clock (s : State) : s.begun.clock = s.clock := rfl

@[simp] theorem begun_nmiArmed (s : State) : s.begun.nmiArmed = s.nmiArmed := rfl

@[simp] theorem begun_waitCwai (s : State) : s.begun.waitCwai = s.waitCwai := rfl

@[simp] theorem begun_waitSync (s : State) : s.begun.waitSync = s.waitSync := rfl

@[simp] theorem begun_world (s : State) : s.begun.world = s.world := rfl

@[simp] theorem begun_nextCb (s : State) : s.begun.nextCb = s.nextCb := rfl

@[simp] theorem begun_freeCount (s : State) : s.begun.freeCount = s.freeCount := rfl

@[simp] theorem begun_handlerCount (s : State) : s.begun.handlerCount = s.handlerCount := rfl

@[simp] theorem begun_cfg (s : State) : s.begun.cfg = s.cfg := rfl

@[simp] theorem begun_fault (s : State) : s.begun.fault = none := rfl

/-- Where the clock is not held, every clock that a handler of the step can see lies between the clock before and the
clock after the step (70_reset_and_hazards.md R441). -/
theorem clock_seen_le {s t : State} (h : step s = .next t) (hs : s.begun.clockHeld = false) {n : Nat}
    (hn : s.handlerCount ≤ n) (ht : n < t.handlerCount) :
    s.clock.toNat + Config.freeClockAdvance n ≤ t.clock.toNat := by
  have hm : s.mustHold = false := hs
  have hr : runStep (s.begin false) = .next t := by rw [← hm]; exact h
  unfold State.mustHold at hm
  rw [hr] at hm
  have hfit : clockFits s t = true := by simpa using hm
  have := List.all_eq_true.mp hfit (n - s.handlerCount) (List.mem_range.mpr (by omega))
  rw [Nat.add_sub_cancel' hn] at this
  exact of_decide_eq_true this

/-- A service never lets the step go on to an instruction. -/
theorem served_eq {m : Act Unit} {s t : State} {c : Check} (h : served m s = .ok c t) : c = .serviced ∧ m s = .ok () t := by
  unfold served at h
  obtain ⟨u, t1, h1, h2⟩ := bind_eq_ok h
  cases h2
  exact ⟨rfl, h1⟩

/-- The interrupt check when no line is ready: the wait states decide. -/
theorem interruptCheck_quiet {s : State} (hn : s.nmiReady = false) (hf : s.firqReady = false) (hi : s.irqReady = false) :
    interruptCheck s = checkWaits s := by
  simp [interruptCheck, hn, hf, hi]

/-- The interrupt check with an NMI ready. -/
theorem interruptCheck_nmi {s : State} (hn : s.nmiReady = true) : interruptCheck s = served serviceNmi s := by
  simp [interruptCheck, hn]

/-- The interrupt check with an FIRQ ready and no NMI. -/
theorem interruptCheck_firq {s : State} (hn : s.nmiReady = false) (hf : s.firqReady = true) :
    interruptCheck s = served serviceFirq s := by
  simp [interruptCheck, hn, hf]

/-- The interrupt check with an IRQ ready and neither NMI nor FIRQ. -/
theorem interruptCheck_irq {s : State} (hn : s.nmiReady = false) (hf : s.firqReady = false) (hi : s.irqReady = true) :
    interruptCheck s = served serviceIrq s := by
  simp [interruptCheck, hn, hf, hi]

/-- Ending a SYNC wait that does not hold changes nothing. -/
theorem noSync {s : State} (h : s.waitSync = false) : { s with waitSync := false } = s := by
  obtain ⟨⟩ := s
  cases h
  rfl

/-- The CWAI wait idles. -/
theorem checkWaits_cwai {s : State} (hc : s.waitCwai = true) : checkWaits s = .ok .idle (s.tick s.cfg.cycIdle) :=
  if_pos hc

/-- The SYNC wait idles with no line to release it. -/
theorem checkWaits_sync {s : State} (hc : s.waitCwai = false) (hs : s.waitSync = true)
    (hl : s.lineReleasesSync = false) : checkWaits s = .ok .idle (s.tick s.cfg.cycIdle) :=
  (if_neg (by rw [hc]; decide)).trans ((if_pos hs).trans (if_neg (by rw [hl]; decide)))

/-- With no wait left the step goes on. -/
theorem checkWaits_proceed {s : State} (hc : s.waitCwai = false) (hs : s.waitSync = true → s.lineReleasesSync = true) :
    checkWaits s = .ok .proceed { s with waitSync := false } := by
  refine (if_neg (by rw [hc]; decide)).trans ?_
  cases hw : s.waitSync with
  | true => exact if_pos (hs hw)
  | false => exact congrArg (EStateM.Result.ok Check.proceed) (noSync hw).symm

/-- The interrupt check when no interrupt is serviced. -/
theorem check_not_served {s t : State} {c : Check} (h : interruptCheck s = .ok c t) (hc : c ≠ .serviced) :
    s.nmiReady = false ∧ s.firqReady = false ∧ s.irqReady = false ∧ checkWaits s = .ok c t := by
  cases hn : s.nmiReady with
  | true => rw [interruptCheck_nmi hn] at h; exact absurd (served_eq h).1 hc
  | false =>
    cases hf : s.firqReady with
    | true => rw [interruptCheck_firq hn hf] at h; exact absurd (served_eq h).1 hc
    | false =>
      cases hi : s.irqReady with
      | true => rw [interruptCheck_irq hn hf hi] at h; exact absurd (served_eq h).1 hc
      | false => exact ⟨rfl, rfl, rfl, interruptCheck_quiet hn hf hi ▸ h⟩

/-- What lets the step go on: nothing ready, no CWAI wait, and a SYNC wait only if a line releases it; the state is the
same with the SYNC wait over. -/
theorem check_proceed {s t : State} (h : interruptCheck s = .ok .proceed t) :
    s.nmiReady = false ∧ s.firqReady = false ∧ s.irqReady = false ∧ s.waitCwai = false ∧
      (s.waitSync = true → s.lineReleasesSync = true) ∧ t = { s with waitSync := false } := by
  obtain ⟨hn, hf, hi, hw⟩ := check_not_served h (by decide)
  refine ⟨hn, hf, hi, ?_⟩
  cases hc : s.waitCwai with
  | true => rw [checkWaits_cwai hc] at hw; cases hw
  | false =>
    have hs : s.waitSync = true → s.lineReleasesSync = true := by
      intro hs
      cases hl : s.lineReleasesSync with
      | true => rfl
      | false => rw [checkWaits_sync hc hs hl] at hw; cases hw
    rw [checkWaits_proceed hc hs] at hw
    injection hw with _ ht
    exact ⟨rfl, hs, hc ▸ ht.symm⟩

/-- What makes a step idle: nothing ready, and a wait that holds; the idle cost is added. -/
theorem check_idle {s t : State} (h : interruptCheck s = .ok .idle t) :
    s.nmiReady = false ∧ s.firqReady = false ∧ s.irqReady = false ∧ (s.waitCwai = true ∨ s.waitSync = true) ∧
      t = s.tick s.cfg.cycIdle := by
  obtain ⟨hn, hf, hi, hw⟩ := check_not_served h (by decide)
  refine ⟨hn, hf, hi, ?_⟩
  cases hc : s.waitCwai with
  | true =>
    rw [checkWaits_cwai hc] at hw
    injection hw with _ ht
    exact ⟨.inl rfl, ht.symm⟩
  | false =>
    cases hs : s.waitSync with
    | false => rw [checkWaits_proceed hc fun h => absurd (hs.symm.trans h) (by decide)] at hw; cases hw
    | true =>
      cases hl : s.lineReleasesSync with
      | true => rw [checkWaits_proceed hc fun _ => hl] at hw; cases hw
      | false =>
        rw [checkWaits_sync hc hs hl] at hw
        injection hw with _ ht
        exact ⟨.inr rfl, ht.symm⟩

/-- The interrupt check of a state that the step will fetch in. -/
theorem check_of_quiet {s : State} (hn : s.nmiReady = false) (hf : s.firqReady = false) (hi : s.irqReady = false)
    (hc : s.waitCwai = false) (hs : s.waitSync = true → s.lineReleasesSync = true) :
    interruptCheck s = .ok .proceed { s with waitSync := false } :=
  (interruptCheck_quiet hn hf hi).trans (checkWaits_proceed hc hs)

/-- The five ways a step that has begun ends: the interrupt check faults, serves an interrupt or idles; the fetch faults; or the
instruction fetched is executed. -/
theorem runStep_cases (s : State) :
    (∃ k t, interruptCheck s = .error k t ∧ runStep s = .next t) ∨
    (∃ t, interruptCheck s = .ok .serviced t ∧ runStep s = .next t) ∨
    (∃ t, interruptCheck s = .ok .idle t ∧ runStep s = .next t) ∨
    (∃ t0 k t, interruptCheck s = .ok .proceed t0 ∧ fetchInstr t0 = .error k t ∧
      runStep s = .next t) ∨
    (∃ t0 i t, interruptCheck s = .ok .proceed t0 ∧ fetchInstr t0 = .ok i t ∧
      runStep s = exec i t) := by
  unfold runStep beforeExec
  cases h : interruptCheck s with
  | error k t => exact .inl ⟨k, t, rfl, by rw [bind_error h]⟩
  | ok c t =>
    cases c with
    | serviced => exact .inr (.inl ⟨t, rfl, by rw [bind_ok h]; rfl⟩)
    | idle => exact .inr (.inr (.inl ⟨t, rfl, by rw [bind_ok h]; rfl⟩))
    | proceed =>
      cases hf : fetchInstr t with
      | error k t1 => exact .inr (.inr (.inr (.inl ⟨t, k, t1, rfl, hf, by rw [bind_ok h]; simp only [bind_error hf]⟩)))
      | ok i t1 => exact .inr (.inr (.inr (.inr ⟨t, i, t1, rfl, hf, by rw [bind_ok h]; simp only [bind_ok hf]; rfl⟩)))

/-- The five ways a step ends. -/
theorem step_cases (s : State) :
    (∃ k t, interruptCheck s.begun = .error k t ∧ step s = .next t) ∨
    (∃ t, interruptCheck s.begun = .ok .serviced t ∧ step s = .next t) ∨
    (∃ t, interruptCheck s.begun = .ok .idle t ∧ step s = .next t) ∨
    (∃ t0 k t, interruptCheck s.begun = .ok .proceed t0 ∧ fetchInstr t0 = .error k t ∧ step s = .next t) ∨
    (∃ t0 i t, interruptCheck s.begun = .ok .proceed t0 ∧ fetchInstr t0 = .ok i t ∧ step s = exec i t) :=
  runStep_cases s.begun

/-- What an interrupt service can write: S, E, the masks, PC, the waits, the line, memory. -/
structure AllowsService (P : State → State → Prop) : Prop where
  s : ∀ (s : State) w, P s { s with s := w }
  cc : ∀ (s : State) e i f, P s { s with cc := { s.cc with e := e, i := i, f := f } }
  pc : ∀ (s : State) w, P s { s with pc := w }
  waits : ∀ s : State, P s { s with waitCwai := false, waitSync := false }
  stored : Stores P
  lines : ∀ (s : State) n f i, P s { s with world := { s.world with lineNmi := n, lineFirq := f, lineIrq := i } }

/-- The interrupt check keeps every relation that survives the writes of a service. -/
theorem keeps_check {P : State → State → Prop} (hP : BusRel P) (A : AllowsService P)
    (hsync : ∀ s : State, P s { s with waitSync := false }) : Keeps P interruptCheck := by
  refine keeps_interruptCheck hP ?_ ?_ ?_ (keeps_checkWaits hP hsync)
  · exact keeps_service hP A.stored _ _ _ _ _ A.s (fun s e => A.cc s e s.cc.i s.cc.f) (fun s => A.cc s s.cc.e _ _) A.pc A.waits
      fun s => A.lines s false s.world.lineFirq s.world.lineIrq
  · exact keeps_service hP A.stored _ _ _ _ _ A.s (fun s e => A.cc s e s.cc.i s.cc.f) (fun s => A.cc s s.cc.e _ _) A.pc A.waits
      fun s => A.lines s s.world.lineNmi _ s.world.lineIrq
  · exact keeps_service hP A.stored _ _ _ _ _ A.s (fun s e => A.cc s e s.cc.i s.cc.f) (fun s => A.cc s s.cc.e _ _) A.pc A.waits
      fun s => A.lines s s.world.lineNmi s.world.lineFirq _

/-- Fetching keeps every relation that survives a move of PC. -/
theorem keeps_fetchInstr {P : State → State → Prop} (hP : BusRel P) (hpc : ∀ (s : State) w, P s { s with pc := w }) :
    Keeps P fetchInstr := 
  keeps_fetchMore hP hpc maxLength [] (by decide) (by decide)

/-- A step that has begun keeps every relation that survives a service, a fetch and every instruction. -/
theorem runStep_keeps {P : State → State → Prop} (hP : BusRel P) (A : AllowsService P)
    (hsync : ∀ s : State, P s { s with waitSync := false }) (hi : ∀ i, Allows P i) {s t : State}
    (h : runStep s = .next t) : P s t := by
  have hc := keeps_check hP A hsync s
  rcases runStep_cases s with ⟨k, t1, h1, h2⟩ | ⟨t1, h1, h2⟩ | ⟨t1, h1, h2⟩ | ⟨t0, k, t1, h1, h2, h3⟩ |
      ⟨t0, i, t1, h1, h2, h3⟩
  · rw [final_error h1] at hc
    rw [h2] at h
    cases h
    exact hc
  · rw [final_ok h1] at hc
    rw [h2] at h
    cases h
    exact hc
  · rw [final_ok h1] at hc
    rw [h2] at h
    cases h
    exact hc
  · rw [final_ok h1] at hc
    have hf := keeps_fetchInstr hP A.pc t0
    rw [final_error h2] at hf
    rw [h3] at h
    cases h
    exact hP.trans _ _ _ hc hf
  · rw [final_ok h1] at hc
    have hf := keeps_fetchInstr hP A.pc t0
    rw [final_ok h2] at hf
    rw [h3] at h
    exact hP.trans _ _ _ hc (hP.trans _ _ _ hf (exec_of_keeps (keeps_action hP i (hi i)) h))

/-- A step keeps every relation that survives how it begins, a service, a fetch and every instruction. -/
theorem step_keeps {P : State → State → Prop} (hP : BusRel P) (A : AllowsService P)
    (hsync : ∀ s : State, P s { s with waitSync := false }) (hbegin : ∀ (s : State) held, P s (s.begin held))
    (hi : ∀ i, Allows P i) {s t : State} (h : step s = .next t) : P s t :=
  hP.trans _ _ _ (hbegin s _) (runStep_keeps hP A hsync hi h)

end Sys2Proof.Laws
end

