-- ==== Sys2Proof/Laws/Fetch.lean ====
section
/-! SUPPORT. Fetching bytes that raw pointers serve: one byte, and the whole instruction stream up to the byte that
settles what the decoder says. -/

namespace Sys2Proof.Laws

open Sys2Proof Sys2Proof.Machine

/-- A read of a byte that a raw pointer serves gives it and changes nothing. -/
theorem read8_peek {s : State} {a : Word} {v : Byte} (h : s.world.peek a = some v) : read8 a s = .ok v s := by
  unfold World.peek at h
  cases hs : s.world.readSpot a with
  | none => rw [hs] at h; cases h
  | some loc =>
    rw [hs] at h
    injection h with h
    rw [read8_pointer hs, h]

/-- A word read of two bytes that raw pointers serve. -/
theorem read16_peek {s : State} {a : Word} {h l : Byte} (hh : s.world.peek a = some h)
    (hl : s.world.peek (a + 1) = some l) : read16 a s = .ok (cat h l) s :=
  read16_ok (read8_peek hh) (read8_peek hl)

/-- A fetch of a byte that a raw pointer serves. -/
theorem fetch8_peek {s : State} {v : Byte} (h : s.world.peek s.pc = some v) :
    fetch8 s = .ok v { s with pc := s.pc + 1 } := fetch8_ok (read8_peek h)

/-- One byte more than the decoder has. -/
theorem fetchMore_more {s : State} {v : Byte} {n : Nat} {pre : List Byte} (h : s.world.peek s.pc = some v)
    (hd : decode s.cfg.extIndRrDontCare (pre ++ [v]) = .more) :
    fetchMore (n + 1) pre s = fetchMore n (pre ++ [v]) { s with pc := s.pc + 1 } := by
  unfold fetchMore
  rw [bind_ok (fetch8_peek h), look_bind_apply]
  simp only [hd]
  cases n <;> rfl

/-- The byte that completes an instruction. -/
theorem fetchMore_last {s : State} {v : Byte} {n : Nat} {pre rest : List Byte} {i : Instr}
    (h : s.world.peek s.pc = some v) (hd : decode s.cfg.extIndRrDontCare (pre ++ [v]) = .ok i rest) :
    fetchMore (n + 1) pre s = .ok i { s with pc := s.pc + 1 } := by
  unfold fetchMore
  rw [bind_ok (fetch8_peek h), look_bind_apply]
  simp only [hd]
  rfl

/-- The byte that makes an encoding illegal. -/
theorem fetchMore_bad {s : State} {v : Byte} {n : Nat} {pre : List Byte} {r : Reject}
    (h : s.world.peek s.pc = some v) (hd : decode s.cfg.extIndRrDontCare (pre ++ [v]) = .bad r) :
    fetchMore (n + 1) pre s = .error (faultOf r)
      { ({ s with pc := s.pc + 1 }.tick s.cfg.cycFault) with fault := some (faultOf r) } := by
  unfold fetchMore
  rw [bind_ok (fetch8_peek h), look_bind_apply]
  simp only [hd]
  rfl

/-- A fetch where nothing serves PC. -/
theorem fetchMore_unreadable {s : State} {n : Nat} {pre : List Byte} (h : s.world.readSpot s.pc = none)
    (hk : s.world.readHandler s.pc = none) :
    fetchMore (n + 1) pre s = .error .undefinedRead { s with fault := some .undefinedRead } := by
  unfold fetchMore
  rw [bind_error (fetch8_error (read8_fault h hk))]

theorem add_one_ofNat (a : Word) (n : Nat) : a + 1 + BitVec.ofNat 16 n = a + BitVec.ofNat 16 (n + 1) := by
  rw [BitVec.add_assoc]
  congr 1
  apply BitVec.eq_of_toNat_eq
  simp [Nat.add_comm]

/-- Bytes on which the decoder keeps asking for more are all fetched, and PC ends past them. -/
theorem fetchMore_run {s : State} {n : Nat} {pre bs : List Byte} (h : s.world.holdsBytes s.pc bs)
    (hd : ∀ k, k < bs.length → decode s.cfg.extIndRrDontCare (pre ++ bs.take (k + 1)) = .more) :
    fetchMore (n + bs.length) pre s =
      fetchMore n (pre ++ bs) { s with pc := s.pc + BitVec.ofNat 16 bs.length } := by
  induction bs generalizing s pre with
  | nil => simp
  | cons v vs ih =>
    have h1 := hd 0 (Nat.succ_pos _)
    rw [List.length_cons, ← Nat.add_assoc, fetchMore_more h.1 h1]
    refine (ih (s := { s with pc := s.pc + 1 }) h.2 fun k hk => ?_).trans ?_
    · rw [List.append_assoc]
      exact hd (k + 1) (Nat.succ_lt_succ hk)
    · simp only [add_one_ofNat, List.append_assoc, List.singleton_append]

/-- Holding a list of bytes is holding its beginning and, further on, the rest. -/
theorem holdsBytes_append {w : World} {a : Word} {xs ys : List Byte} (h : w.holdsBytes a (xs ++ ys)) :
    w.holdsBytes a xs ∧ w.holdsBytes (a + BitVec.ofNat 16 xs.length) ys := by
  induction xs generalizing a with
  | nil => exact ⟨trivial, by simpa using h⟩
  | cons v vs ih =>
    obtain ⟨h1, h2⟩ := h
    obtain ⟨h3, h4⟩ := ih h2
    exact ⟨⟨h1, h3⟩, by rwa [List.length_cons, ← add_one_ofNat]⟩

/-- A settled list of bytes is its last byte behind a beginning on which the decoder asked for more. -/
theorem split_last {dc : Bool} {bs : List Byte} (h0 : bs ≠ [])
    (hm : ∀ n, n < bs.length → decode dc (bs.take n) = .more) :
    ∃ pre v n, bs = pre ++ [v] ∧ maxLength = n + 1 + pre.length ∧
      ∀ k, k < pre.length → decode dc (pre.take (k + 1)) = .more := by
  obtain ⟨pre, v, rfl⟩ : ∃ pre v, bs = pre ++ [v] :=
    ⟨bs.dropLast, bs.getLast h0, (List.dropLast_concat_getLast h0).symm⟩
  have hl := hm pre.length (by rw [List.length_append, List.length_singleton]; omega)
  rw [List.take_left] at hl
  have hlt := decode_more hl
  refine ⟨pre, v, maxLength - 1 - pre.length, rfl, by omega, fun k hk => ?_⟩
  have h := hm (k + 1) (by rw [List.length_append, List.length_singleton]; omega)
  rwa [List.take_append_of_le_length (by omega)] at h

/-- The interrupt check of a state that fetches. -/
theorem check_of_fetches {s : State} (h : s.Fetches) :
    interruptCheck s.begun = .ok .proceed { s.begun with waitSync := false } :=
  check_of_quiet (s := s.begun) h.1 h.2.1 h.2.2.1 h.2.2.2.1 h.2.2.2.2

end Sys2Proof.Laws
end

