-- ==== Sys2Proof/Laws/PerInstr.lean ====
section
/-! SUPPORT. A law of every instruction, constructor by constructor: its encoding has 1 to 5 bytes (30_encoding.md
R100). -/

namespace Sys2Proof.Laws.EncodingLength

open Sys2Proof Sys2Proof.Machine

/-- The encoding has 1 to 5 bytes (30_encoding.md R100). -/
def Statement (i : Instr) : Prop := 1 ≤ (encode i).length ∧ (encode i).length ≤ maxLength

theorem opBytes_length (n : Nat) : 1 ≤ (opBytes n).length ∧ (opBytes n).length ≤ 2 := by
  unfold opBytes
  split
  · exact ⟨Nat.le_refl 1, Nat.le_succ 1⟩
  · exact ⟨Nat.le_succ 1, Nat.le_refl 2⟩

/-- Three operand bytes are the most there are. -/
theorem of_operand {i : Instr} (h : i.operandBytes.length ≤ 3) : Statement i := by
  obtain ⟨h1, h2⟩ := opBytes_length i.opNum
  unfold Statement encode maxLength
  rw [List.length_append]
  omega

theorem idx_length (x : Idx) : x.bytes.length ≤ 3 := by
  cases x <;> first | exact Nat.le_refl 3 | exact Nat.le_succ 2 | exact Nat.le_add_left 1 2

theorem mem_length (m : Mem) : m.bytes.length ≤ 3 := by
  cases m with
  | dir d => exact Nat.le_add_left 1 2
  | ext a => exact Nat.le_succ 2
  | idx x => exact idx_length x

theorem src8_length (o : Src8) : o.bytes.length ≤ 3 := by
  cases o with
  | imm b => exact Nat.le_add_left 1 2
  | mem m => exact mem_length m

theorem src16_length (o : Src16) : o.bytes.length ≤ 3 := by
  cases o with
  | imm w => exact Nat.le_succ 2
  | mem m => exact mem_length m

/-! One lemma per instruction -/

theorem neg (m : Mem) : Statement (.neg m) := of_operand (mem_length m)
theorem com (m : Mem) : Statement (.com m) := of_operand (mem_length m)
theorem lsr (m : Mem) : Statement (.lsr m) := of_operand (mem_length m)
theorem ror (m : Mem) : Statement (.ror m) := of_operand (mem_length m)
theorem asr (m : Mem) : Statement (.asr m) := of_operand (mem_length m)
theorem asl (m : Mem) : Statement (.asl m) := of_operand (mem_length m)
theorem rol (m : Mem) : Statement (.rol m) := of_operand (mem_length m)
theorem dec (m : Mem) : Statement (.dec m) := of_operand (mem_length m)
theorem inc (m : Mem) : Statement (.inc m) := of_operand (mem_length m)
theorem tst (m : Mem) : Statement (.tst m) := of_operand (mem_length m)
theorem jmp (m : Mem) : Statement (.jmp m) := of_operand (mem_length m)
theorem clr (m : Mem) : Statement (.clr m) := of_operand (mem_length m)
theorem nop : Statement .nop := of_operand (Nat.zero_le 3)
theorem sync : Statement .sync := of_operand (Nat.zero_le 3)
theorem lbra (n : Word) : Statement (.lbra n) := of_operand (Nat.le_succ 2)
theorem lbsr (n : Word) : Statement (.lbsr n) := of_operand (Nat.le_succ 2)
theorem daa : Statement .daa := of_operand (Nat.zero_le 3)
theorem orcc (b : Byte) : Statement (.orcc b) := of_operand (Nat.le_add_left 1 2)
theorem andcc (b : Byte) : Statement (.andcc b) := of_operand (Nat.le_add_left 1 2)
theorem sex : Statement .sex := of_operand (Nat.zero_le 3)
theorem exg (r1 r2 : Reg) : Statement (.exg r1 r2) := of_operand (Nat.le_add_left 1 2)
theorem tfr (r1 r2 : Reg) : Statement (.tfr r1 r2) := of_operand (Nat.le_add_left 1 2)
theorem bra (n : Byte) : Statement (.bra n) := of_operand (Nat.le_add_left 1 2)
theorem brn (n : Byte) : Statement (.brn n) := of_operand (Nat.le_add_left 1 2)
theorem bhi (n : Byte) : Statement (.bhi n) := of_operand (Nat.le_add_left 1 2)
theorem bls (n : Byte) : Statement (.bls n) := of_operand (Nat.le_add_left 1 2)
theorem bcc (n : Byte) : Statement (.bcc n) := of_operand (Nat.le_add_left 1 2)
theorem bcs (n : Byte) : Statement (.bcs n) := of_operand (Nat.le_add_left 1 2)
theorem bne (n : Byte) : Statement (.bne n) := of_operand (Nat.le_add_left 1 2)
theorem beq (n : Byte) : Statement (.beq n) := of_operand (Nat.le_add_left 1 2)
theorem bvc (n : Byte) : Statement (.bvc n) := of_operand (Nat.le_add_left 1 2)
theorem bvs (n : Byte) : Statement (.bvs n) := of_operand (Nat.le_add_left 1 2)
theorem bpl (n : Byte) : Statement (.bpl n) := of_operand (Nat.le_add_left 1 2)
theorem bmi (n : Byte) : Statement (.bmi n) := of_operand (Nat.le_add_left 1 2)
theorem bge (n : Byte) : Statement (.bge n) := of_operand (Nat.le_add_left 1 2)
theorem blt (n : Byte) : Statement (.blt n) := of_operand (Nat.le_add_left 1 2)
theorem bgt (n : Byte) : Statement (.bgt n) := of_operand (Nat.le_add_left 1 2)
theorem ble (n : Byte) : Statement (.ble n) := of_operand (Nat.le_add_left 1 2)
theorem leax (x : Idx) : Statement (.leax x) := of_operand (idx_length x)
theorem leay (x : Idx) : Statement (.leay x) := of_operand (idx_length x)
theorem leas (x : Idx) : Statement (.leas x) := of_operand (idx_length x)
theorem leau (x : Idx) : Statement (.leau x) := of_operand (idx_length x)
theorem pshs (l : RegList) : Statement (.pshs l) := of_operand (Nat.le_add_left 1 2)
theorem puls (l : RegList) : Statement (.puls l) := of_operand (Nat.le_add_left 1 2)
theorem pshu (l : RegList) : Statement (.pshu l) := of_operand (Nat.le_add_left 1 2)
theorem pulu (l : RegList) : Statement (.pulu l) := of_operand (Nat.le_add_left 1 2)
theorem rts : Statement .rts := of_operand (Nat.zero_le 3)
theorem abx : Statement .abx := of_operand (Nat.zero_le 3)
theorem rti : Statement .rti := of_operand (Nat.zero_le 3)
theorem cwai (b : Byte) : Statement (.cwai b) := of_operand (Nat.le_add_left 1 2)
theorem mul : Statement .mul := of_operand (Nat.zero_le 3)
theorem swi : Statement .swi := of_operand (Nat.zero_le 3)
theorem nega : Statement .nega := of_operand (Nat.zero_le 3)
theorem coma : Statement .coma := of_operand (Nat.zero_le 3)
theorem lsra : Statement .lsra := of_operand (Nat.zero_le 3)
theorem rora : Statement .rora := of_operand (Nat.zero_le 3)
theorem asra : Statement .asra := of_operand (Nat.zero_le 3)
theorem asla : Statement .asla := of_operand (Nat.zero_le 3)
theorem rola : Statement .rola := of_operand (Nat.zero_le 3)
theorem deca : Statement .deca := of_operand (Nat.zero_le 3)
theorem inca : Statement .inca := of_operand (Nat.zero_le 3)
theorem tsta : Statement .tsta := of_operand (Nat.zero_le 3)
theorem clra : Statement .clra := of_operand (Nat.zero_le 3)
theorem negb : Statement .negb := of_operand (Nat.zero_le 3)
theorem comb : Statement .comb := of_operand (Nat.zero_le 3)
theorem lsrb : Statement .lsrb := of_operand (Nat.zero_le 3)
theorem rorb : Statement .rorb := of_operand (Nat.zero_le 3)
theorem asrb : Statement .asrb := of_operand (Nat.zero_le 3)
theorem aslb : Statement .aslb := of_operand (Nat.zero_le 3)
theorem rolb : Statement .rolb := of_operand (Nat.zero_le 3)
theorem decb : Statement .decb := of_operand (Nat.zero_le 3)
theorem incb : Statement .incb := of_operand (Nat.zero_le 3)
theorem tstb : Statement .tstb := of_operand (Nat.zero_le 3)
theorem clrb : Statement .clrb := of_operand (Nat.zero_le 3)
theorem suba (o : Src8) : Statement (.suba o) := of_operand (src8_length o)
theorem cmpa (o : Src8) : Statement (.cmpa o) := of_operand (src8_length o)
theorem sbca (o : Src8) : Statement (.sbca o) := of_operand (src8_length o)
theorem subd (o : Src16) : Statement (.subd o) := of_operand (src16_length o)
theorem anda (o : Src8) : Statement (.anda o) := of_operand (src8_length o)
theorem bita (o : Src8) : Statement (.bita o) := of_operand (src8_length o)
theorem lda (o : Src8) : Statement (.lda o) := of_operand (src8_length o)
theorem eora (o : Src8) : Statement (.eora o) := of_operand (src8_length o)
theorem adca (o : Src8) : Statement (.adca o) := of_operand (src8_length o)
theorem ora (o : Src8) : Statement (.ora o) := of_operand (src8_length o)
theorem adda (o : Src8) : Statement (.adda o) := of_operand (src8_length o)
theorem cmpx (o : Src16) : Statement (.cmpx o) := of_operand (src16_length o)
theorem bsr (n : Byte) : Statement (.bsr n) := of_operand (Nat.le_add_left 1 2)
theorem ldx (o : Src16) : Statement (.ldx o) := of_operand (src16_length o)
theorem sta (m : Mem) : Statement (.sta m) := of_operand (mem_length m)
theorem jsr (m : Mem) : Statement (.jsr m) := of_operand (mem_length m)
theorem stx (m : Mem) : Statement (.stx m) := of_operand (mem_length m)
theorem subb (o : Src8) : Statement (.subb o) := of_operand (src8_length o)
theorem cmpb (o : Src8) : Statement (.cmpb o) := of_operand (src8_length o)
theorem sbcb (o : Src8) : Statement (.sbcb o) := of_operand (src8_length o)
theorem addd (o : Src16) : Statement (.addd o) := of_operand (src16_length o)
theorem andb (o : Src8) : Statement (.andb o) := of_operand (src8_length o)
theorem bitb (o : Src8) : Statement (.bitb o) := of_operand (src8_length o)
theorem ldb (o : Src8) : Statement (.ldb o) := of_operand (src8_length o)
theorem eorb (o : Src8) : Statement (.eorb o) := of_operand (src8_length o)
theorem adcb (o : Src8) : Statement (.adcb o) := of_operand (src8_length o)
theorem orb (o : Src8) : Statement (.orb o) := of_operand (src8_length o)
theorem addb (o : Src8) : Statement (.addb o) := of_operand (src8_length o)
theorem ldd (o : Src16) : Statement (.ldd o) := of_operand (src16_length o)
theorem ldu (o : Src16) : Statement (.ldu o) := of_operand (src16_length o)
theorem stb (m : Mem) : Statement (.stb m) := of_operand (mem_length m)
theorem std (m : Mem) : Statement (.std m) := of_operand (mem_length m)
theorem stu (m : Mem) : Statement (.stu m) := of_operand (mem_length m)
theorem lbrn (n : Word) : Statement (.lbrn n) := of_operand (Nat.le_succ 2)
theorem lbhi (n : Word) : Statement (.lbhi n) := of_operand (Nat.le_succ 2)
theorem lbls (n : Word) : Statement (.lbls n) := of_operand (Nat.le_succ 2)
theorem lbcc (n : Word) : Statement (.lbcc n) := of_operand (Nat.le_succ 2)
theorem lbcs (n : Word) : Statement (.lbcs n) := of_operand (Nat.le_succ 2)
theorem lbne (n : Word) : Statement (.lbne n) := of_operand (Nat.le_succ 2)
theorem lbeq (n : Word) : Statement (.lbeq n) := of_operand (Nat.le_succ 2)
theorem lbvc (n : Word) : Statement (.lbvc n) := of_operand (Nat.le_succ 2)
theorem lbvs (n : Word) : Statement (.lbvs n) := of_operand (Nat.le_succ 2)
theorem lbpl (n : Word) : Statement (.lbpl n) := of_operand (Nat.le_succ 2)
theorem lbmi (n : Word) : Statement (.lbmi n) := of_operand (Nat.le_succ 2)
theorem lbge (n : Word) : Statement (.lbge n) := of_operand (Nat.le_succ 2)
theorem lblt (n : Word) : Statement (.lblt n) := of_operand (Nat.le_succ 2)
theorem lbgt (n : Word) : Statement (.lbgt n) := of_operand (Nat.le_succ 2)
theorem lble (n : Word) : Statement (.lble n) := of_operand (Nat.le_succ 2)
theorem swi2 : Statement .swi2 := of_operand (Nat.zero_le 3)
theorem cmpd (o : Src16) : Statement (.cmpd o) := of_operand (src16_length o)
theorem cmpy (o : Src16) : Statement (.cmpy o) := of_operand (src16_length o)
theorem ldy (o : Src16) : Statement (.ldy o) := of_operand (src16_length o)
theorem sty (m : Mem) : Statement (.sty m) := of_operand (mem_length m)
theorem lds (o : Src16) : Statement (.lds o) := of_operand (src16_length o)
theorem sts (m : Mem) : Statement (.sts m) := of_operand (mem_length m)
theorem swi3 : Statement .swi3 := of_operand (Nat.zero_le 3)
theorem cmpu (o : Src16) : Statement (.cmpu o) := of_operand (src16_length o)
theorem cmps (o : Src16) : Statement (.cmps o) := of_operand (src16_length o)

end Sys2Proof.Laws.EncodingLength
end

