-- ==== Sys2Proof/Laws/Stack.lean ====
section
/-! SUPPORT. The stacks in plain memory: pushing a list of bytes, said once for every push of the machine, and pulling
bytes that raw pointers serve. -/

namespace Sys2Proof.Laws

open Sys2Proof Sys2Proof.Machine

/-- Push a list of bytes so that it lies in memory in its own order: the last byte first. -/
def pushBytes (p : Sp) : List Byte → Act Unit
  | [] => pure ()
  | v :: vs => do
    pushBytes p vs
    push8 p v

@[simp] theorem setSp_setSp (s : State) (p : Sp) (v w : Word) : (s.setSp p v).setSp p w = s.setSp p w := by
  cases p <;> rfl
@[simp] theorem setSp_same (s : State) (p : Sp) : s.setSp p (s.sp p) = s := by cases p <;> rfl
@[simp] theorem setSp_withWorld (s : State) (p : Sp) (w : World) (v : Word) :
    ({ s with world := w } : State).setSp p v = { s.setSp p v with world := w } := by cases p <;> rfl
@[simp] theorem withWorld_sp (s : State) (p : Sp) (w : World) : ({ s with world := w } : State).sp p = s.sp p := by
  cases p <;> rfl

/-- Pushing two lists, the one that lies higher first. -/
theorem pushBytes_append (p : Sp) (xs ys : List Byte) :
    pushBytes p (xs ++ ys) = (do
      pushBytes p ys
      pushBytes p xs : Act Unit) := by
  induction xs with
  | nil => exact (bind_pure (pushBytes p ys)).symm
  | cons v vs ih =>
    show (pushBytes p (vs ++ ys) >>= fun _ => push8 p v) = _
    rw [ih, bind_assoc]
    rfl

/-- A byte pushed is a list of one. -/
theorem push8_eq (p : Sp) (v : Byte) : push8 p v = pushBytes p [v] := rfl

/-- A word pushed is a list of two, the high byte lower. -/
theorem push16_eq (p : Sp) (w : Word) : push16 p w = pushBytes p [hi w, lo w] := rfl

theorem sub_succ_add_one (a : Word) (n : Nat) : a - BitVec.ofNat 16 (n + 1) + 1 = a - BitVec.ofNat 16 n := by
  apply BitVec.eq_of_toNat_eq
  simp [BitVec.toNat_sub, BitVec.toNat_add, BitVec.toNat_ofNat]
  omega

theorem sub_sub_one (a : Word) (n : Nat) : a - BitVec.ofNat 16 n - 1 = a - BitVec.ofNat 16 (n + 1) := by
  apply BitVec.eq_of_toNat_eq
  simp [BitVec.toNat_sub, BitVec.toNat_ofNat]
  omega

theorem add_zero_ofNat (a : Word) : a + BitVec.ofNat 16 0 = a := by simp

/-- Plain memory from `a` on, without its first byte. -/
theorem ram_tail {w : World} {a : Word} {n : Nat} (h : w.ram a (n + 1)) : w.ram (a + 1) n := by
  intro k hk
  obtain ⟨loc, h1, h2, h3⟩ := h (k + 1) (Nat.succ_lt_succ hk)
  refine ⟨loc, by rwa [add_one_ofNat], by rwa [add_one_ofNat], fun j hj hne => ?_⟩
  rw [add_one_ofNat]
  exact h3 (j + 1) (Nat.succ_lt_succ hj) fun h => hne (Nat.succ.inj h)

/-- Pushing a list in plain memory: where it lies, that nothing else changes, and where the pointer ends. -/
theorem pushBytes_ram (p : Sp) (bs : List Byte) (s : State) (hwf : s.world.wf = true)
    (hram : s.world.ram (s.sp p - BitVec.ofNat 16 bs.length) bs.length) :
    ∃ pm' : Memory,
      pushBytes p bs s = .ok () { s.setSp p (s.sp p - BitVec.ofNat 16 bs.length) with
        world := { s.world with pm := pm' } } ∧
      ({ s.world with pm := pm' } : World).wf = true ∧
      (∀ k, k < bs.length → ({ s.world with pm := pm' } : World).peek
        (s.sp p - BitVec.ofNat 16 bs.length + BitVec.ofNat 16 k) = bs[k]?) ∧
      ∀ b, (∀ loc, s.world.readSpot b = some loc →
          ¬ s.world.reaches (s.sp p - BitVec.ofNat 16 bs.length) bs.length loc) →
        ({ s.world with pm := pm' } : World).peek b = s.world.peek b := by
  induction bs with
  | nil => exact ⟨s.world.pm, by simp [pushBytes], hwf, fun k hk => absurd hk (Nat.not_lt_zero k), fun b _ => rfl⟩
  | cons v vs ih =>
    have htail := ram_tail hram
    rw [List.length_cons, sub_succ_add_one] at htail
    obtain ⟨pm', h1, h2, h3, h4⟩ := ih htail
    obtain ⟨loc, hr, hw, hd⟩ := hram 0 (Nat.succ_pos _)
    rw [add_zero_ofNat, List.length_cons] at hr hw
    refine ⟨pm'.write loc v, ?_, world_wf_store _ _ h2, fun k hk => ?_, fun b hb => ?_⟩
    · show (pushBytes p vs >>= fun _ => push8 p v) s = _
      rw [bind_ok h1]
      unfold push8
      rw [change_bind_apply, look_bind_apply]
      simp only [setSp_withWorld, setSp_setSp, withWorld_sp, setSp_sp, sub_sub_one, List.length_cons]
      exact write8_pointer (s := { s.setSp p (s.sp p - BitVec.ofNat 16 (vs.length + 1)) with
        world := { s.world with pm := pm' } }) v hw
    · rw [peek_store (w := { s.world with pm := pm' }) loc v _ h2, readSpot_store]
      cases k with
      | zero =>
        rw [add_zero_ofNat, List.length_cons, if_pos hr]
        rfl
      | succ k =>
        have hne := hd (k + 1) hk (Nat.succ_ne_zero k)
        rw [List.length_cons] at hne ⊢
        rw [if_neg hne, ← add_one_ofNat, sub_succ_add_one, h3 k (Nat.lt_of_succ_lt_succ hk)]
        rfl
    · rw [peek_store (w := { s.world with pm := pm' }) loc v _ h2, readSpot_store, if_neg fun h => ?_, h4 b fun l hl => ?_]
      · rintro ⟨k, hk, hwk⟩
        refine hb l hl ⟨k + 1, Nat.succ_lt_succ hk, ?_⟩
        rwa [List.length_cons, ← add_one_ofNat, sub_succ_add_one]
      · refine hb loc h ⟨0, Nat.succ_pos _, ?_⟩
        rwa [add_zero_ofNat]

/-- A pull of a byte that a raw pointer serves. -/
theorem pull8_peek {p : Sp} {s : State} {v : Byte} (h : s.world.peek (s.sp p) = some v) :
    pull8 p s = .ok v (s.setSp p (s.sp p + 1)) := by
  unfold pull8
  rw [look_bind_apply, bind_ok (read8_peek h)]
  rfl

/-- A pull of a word that raw pointers serve. -/
theorem pull16_peek {p : Sp} {s : State} {h l : Byte} (hh : s.world.peek (s.sp p) = some h)
    (hl : s.world.peek (s.sp p + 1) = some l) : pull16 p s = .ok (cat h l) (s.setSp p (s.sp p + 2)) := by
  unfold pull16
  rw [bind_ok (pull8_peek hh), bind_ok (pull8_peek (v := l) (by simpa using hl))]
  simp [BitVec.add_assoc]

/-- A pull of a byte into the state. -/
theorem pull8To_peek {p : Sp} {s : State} {v : Byte} {f : State → Byte → State} (h : s.world.peek (s.sp p) = some v) :
    pull8To p f s = .ok () (f (s.setSp p (s.sp p + 1)) v) := by
  unfold pull8To
  rw [bind_ok (pull8_peek h), change_apply]

/-- A pull of a word into the state. -/
theorem pull16To_peek {p : Sp} {s : State} {h l : Byte} {f : State → Word → State}
    (hh : s.world.peek (s.sp p) = some h) (hl : s.world.peek (s.sp p + 1) = some l) :
    pull16To p f s = .ok () (f (s.setSp p (s.sp p + 2)) (cat h l)) := by
  unfold pull16To
  rw [bind_ok (pull16_peek hh hl), change_apply]

/-- Pushing bytes keeps every relation that survives a move of the pointer. -/
theorem keeps_pushBytes {P : State → State → Prop} (hP : BusRel P) (hst : Stores P) (p : Sp) (bs : List Byte)
    (hsp : ∀ s w, P s (s.setSp p w)) : Keeps P (pushBytes p bs) := by
  induction bs with
  | nil => exact keeps_pure hP ()
  | cons v vs ih => exact keeps_bind hP ih fun _ => keeps_push8 hP hst p v hsp

/-- What is read off the state and not touched by a push. -/
structure Apart {α : Type} (p : Sp) (f : State → α) : Prop where
  bus : BusRel fun s t => f t = f s
  stored : Stores fun s t => f t = f s
  moved : ∀ (s : State) w, f (s.setSp p w) = f s

/-- After some bytes, a word read off the state. -/
theorem pushed_word {p : Sp} {f : State → Word} (hf : Apart p f) (bs : List Byte) (rest : Act Unit) (s : State) :
    (pushBytes p bs >>= fun _ => look f >>= fun w => push16 p w >>= fun _ => rest) s =
      (pushBytes p ([hi (f s), lo (f s)] ++ bs) >>= fun _ => rest) s := by
  have hk := keeps_pushBytes hf.bus hf.stored p bs hf.moved s
  rw [pushBytes_append, bind_assoc]
  cases h : pushBytes p bs s with
  | error k t => rw [bind_error h, bind_error h]
  | ok v t =>
    rw [final_ok h] at hk
    rw [bind_ok h, bind_ok h, look_bind_apply, push16_eq, hk]

/-- After some bytes, a byte read off the state. -/
theorem pushed_byte {p : Sp} {f : State → Byte} (hf : Apart p f) (bs : List Byte) (rest : Act Unit) (s : State) :
    (pushBytes p bs >>= fun _ => look f >>= fun w => push8 p w >>= fun _ => rest) s =
      (pushBytes p ([f s] ++ bs) >>= fun _ => rest) s := by
  have hk := keeps_pushBytes hf.bus hf.stored p bs hf.moved s
  rw [pushBytes_append, bind_assoc]
  cases h : pushBytes p bs s with
  | error k t => rw [bind_error h, bind_error h]
  | ok v t =>
    rw [final_ok h] at hk
    rw [bind_ok h, bind_ok h, look_bind_apply, push8_eq, hk]

/-- A field of the state that is no pointer of the stack. -/
theorem apart_field {α : Type} {p : Sp} (f : State → α) (hf : ∀ s k, f { s with fault := some k } = f s)
    (ht : ∀ s n, f (s.tick n) = f s) (hw : ∀ s w n, f { s with world := w, handlerCount := n } = f s)
    (hm : ∀ (s : State) w, f (s.setSp p w) = f s) : Apart p f :=
  ⟨busRel_field f hf ht hw, fun s _ _ => hw s _ s.handlerCount, hm⟩

theorem apart_pc (p : Sp) : Apart p State.pc :=
  apart_field _ (fun _ _ => rfl) (fun s n => tick_pc s n) (fun _ _ _ => rfl) fun s w => by cases p <;> rfl
theorem apart_x (p : Sp) : Apart p State.x :=
  apart_field _ (fun _ _ => rfl) (fun s n => tick_x s n) (fun _ _ _ => rfl) fun s w => by cases p <;> rfl
theorem apart_y (p : Sp) : Apart p State.y :=
  apart_field _ (fun _ _ => rfl) (fun s n => tick_y s n) (fun _ _ _ => rfl) fun s w => by cases p <;> rfl
theorem apart_other (p : Sp) : Apart p fun s => s.sp p.other :=
  apart_field _ (fun s _ => by cases p <;> rfl) (fun s n => by cases p <;> simp [Sp.other, State.sp])
    (fun s _ _ => by cases p <;> rfl) fun s w => by cases p <;> rfl
theorem apart_dp (p : Sp) : Apart p State.dp :=
  apart_field _ (fun _ _ => rfl) (fun s n => tick_dp s n) (fun _ _ _ => rfl) fun s w => by cases p <;> rfl
theorem apart_b (p : Sp) : Apart p State.b :=
  apart_field _ (fun _ _ => rfl) (fun s n => tick_b s n) (fun _ _ _ => rfl) fun s w => by cases p <;> rfl
theorem apart_a (p : Sp) : Apart p State.a :=
  apart_field _ (fun _ _ => rfl) (fun s n => tick_a s n) (fun _ _ _ => rfl) fun s w => by cases p <;> rfl
theorem apart_cc (p : Sp) : Apart p fun s => s.cc.toByte :=
  apart_field _ (fun _ _ => rfl) (fun s n => by rw [tick_cc]) (fun _ _ _ => rfl) fun s w => by cases p <;> rfl

/-- A push at the end of a chain of pushes. -/
theorem push_last (m : Act Unit) (p : Sp) (s : State) : m s = (pushBytes p [] >>= fun _ => m >>= fun _ => pure ()) s := by
  rw [bind_pure_unit]
  rfl

/-- The entire frame is one list of bytes. -/
theorem pushEntire_eq (s : State) : pushEntire s = pushBytes .s s.entireImage s := by
  have hu : Apart .s fun s : State => s.u := apart_other .s
  rw [push_last pushEntire .s s]
  unfold pushEntire
  simp only [bind_assoc]
  rw [pushed_word (apart_pc .s), pushed_word hu, pushed_word (apart_y .s), pushed_word (apart_x .s),
    pushed_byte (apart_dp .s), pushed_byte (apart_b .s), pushed_byte (apart_a .s), pushed_byte (apart_cc .s),
    bind_pure_unit]
  rfl

/-- A word that a register list may name. -/
theorem pushed_listed_word {p : Sp} {f : State → Word} (hf : Apart p f) (b : Bool) (bs : List Byte) (rest : Act Unit)
    (s : State) :
    (pushBytes p bs >>= fun _ => onlyIf b (look f >>= fun w => push16 p w) >>= fun _ => rest) s =
      (pushBytes p ((if b then [hi (f s), lo (f s)] else []) ++ bs) >>= fun _ => rest) s := by
  cases b with
  | false => rfl
  | true =>
    rw [onlyIf_true]
    simp only [bind_assoc]
    exact pushed_word hf bs rest s

/-- A byte that a register list may name. -/
theorem pushed_listed_byte {p : Sp} {f : State → Byte} (hf : Apart p f) (b : Bool) (bs : List Byte) (rest : Act Unit)
    (s : State) :
    (pushBytes p bs >>= fun _ => onlyIf b (look f >>= fun w => push8 p w) >>= fun _ => rest) s =
      (pushBytes p ((if b then [f s] else []) ++ bs) >>= fun _ => rest) s := by
  cases b with
  | false => rfl
  | true =>
    rw [onlyIf_true]
    simp only [bind_assoc]
    exact pushed_byte hf bs rest s

/-- The registers of a list are one list of bytes. -/
theorem pushList_eq (p : Sp) (l : RegList) (s : State) : pushList p l s = pushBytes p (l.image p s) s := by
  rw [push_last (pushList p l) p s]
  unfold pushList
  simp only [bind_assoc]
  rw [pushed_listed_word (apart_pc p), pushed_listed_word (apart_other p), pushed_listed_word (apart_y p),
    pushed_listed_word (apart_x p), pushed_listed_byte (apart_dp p), pushed_listed_byte (apart_b p),
    pushed_listed_byte (apart_a p), pushed_listed_byte (apart_cc p), bind_pure_unit]
  simp only [RegList.image, List.append_assoc, List.append_nil]
end Sys2Proof.Laws
end

