-- ==== Sys2Proof/Tests/Slice0.lean ====
section
/-! SUPPORT. Tests of the model against the spec: well-formedness, every row of the opcode table, single steps of
95_test_vectors.md, and for every statement with hypotheses a state and operands that meet them. -/

namespace Sys2Proof.Tests

set_option Elab.async false

open Sys2Proof Sys2Proof.Machine Sys2Proof.Laws

/-! ## Helpers -/

/-- The mapped pages of the test machine. -/
def pages : PageTable :=
  [(0x00, 0x0000), (0x20, 0x2000), (0x21, 0x2100), (0x30, 0x3000), (0x40, 0x4000), (0x50, 0x5000), (0x51, 0x5100),
   (0x52, 0x5200), (0x6F, 0x6F00), (0x70, 0x7000), (0x7F, 0x7F00), (0x80, 0x8000), (0x88, 0x8800), (0xFF, 0xFF00)]

/-- The conventions of 95_test_vectors.md: plain memory, PC at 0x4000, S at 0x8000, everything else zero. -/
def plain : State :=
  { State.reset with
    fault := none
    pc := 0x4000
    s := 0x8000
    cc := CC.ofByte 0x00
    world := { World.powerOn with rp := pages, wp := pages } }

/-- Bytes stored from an address on. -/
def put (s : State) (a : Word) (bs : List Byte) : State := { s with world := s.world.placeAll a bs }

/-- The test machine with an instruction at PC. -/
def code (bs : List Byte) : State := put plain 0x4000 bs

/-- One step ends in a state with the property. -/
def ends (s : State) (p : State → Bool) : Bool :=
  match step s with
  | .next t => p t
  | _ => false

/-- The bytes decode to the instruction, whatever follows, and the instruction's encoding is the bytes. -/
def decodesBothWays (r : List Byte × Instr) : Bool :=
  decide (decode false (r.1 ++ [0xEE]) = .ok r.2 [0xEE]) && r.2.wf && encode r.2 == r.1

/-! ## Well-formedness: the one check there is, on both instructions that have it -/

theorem test_wf_refuses_tfr : (Instr.tfr .a .x).wf = false := by decide
theorem test_wf_refuses_exg : (Instr.exg .d .cc).wf = false := by decide
theorem test_wf_accepts_tfr : (Instr.tfr .x .pc).wf = true := by decide
theorem test_wf_accepts_exg : (Instr.exg .cc .dp).wf = true := by decide

/-! ## Decoding: every row of the opcode table -/

/-- Rows of 30_encoding.md R108 to R110 (page one unary), with operand bytes. -/
def rows_page_one_unary_1 : List (List Byte × Instr) :=
  [([0x00, 0x5A], .neg (.dir 0x5A)), ([0x03, 0x5A], .com (.dir 0x5A)), ([0x04, 0x5A], .lsr (.dir 0x5A)),
   ([0x06, 0x5A], .ror (.dir 0x5A)), ([0x07, 0x5A], .asr (.dir 0x5A)), ([0x08, 0x5A], .asl (.dir 0x5A)),
   ([0x09, 0x5A], .rol (.dir 0x5A)), ([0x0A, 0x5A], .dec (.dir 0x5A)), ([0x0C, 0x5A], .inc (.dir 0x5A)),
   ([0x0D, 0x5A], .tst (.dir 0x5A)), ([0x0F, 0x5A], .clr (.dir 0x5A)), ([0x40], .nega), ([0x43], .coma),
   ([0x44], .lsra), ([0x46], .rora), ([0x47], .asra)]

theorem test_decode_page_one_unary_1 : rows_page_one_unary_1.all decodesBothWays = true := by decide +kernel

/-- Rows of 30_encoding.md R108 to R110 (page one unary), with operand bytes. -/
def rows_page_one_unary_2 : List (List Byte × Instr) :=
  [([0x48], .asla), ([0x49], .rola), ([0x4A], .deca), ([0x4C], .inca), ([0x4D], .tsta), ([0x4F], .clra),
   ([0x50], .negb), ([0x53], .comb), ([0x54], .lsrb), ([0x56], .rorb), ([0x57], .asrb), ([0x58], .aslb),
   ([0x59], .rolb), ([0x5A], .decb), ([0x5C], .incb), ([0x5D], .tstb)]

theorem test_decode_page_one_unary_2 : rows_page_one_unary_2.all decodesBothWays = true := by decide +kernel

/-- Rows of 30_encoding.md R108 to R110 (page one unary), with operand bytes. -/
def rows_page_one_unary_3 : List (List Byte × Instr) :=
  [([0x5F], .clrb), ([0x60, 0x1F], .neg (.idx (.off5 .x (-1)))),
   ([0x63, 0x8D, 0x12, 0x34], .com (.idx (.pcr16 0x1234 false))), ([0x64, 0x84], .lsr (.idx (.zero .x false))),
   ([0x66, 0xA0], .ror (.idx (.inc1 .y))), ([0x67, 0xD1], .asr (.idx (.inc2 .u true))),
   ([0x68, 0xE8, 0x9C], .asl (.idx (.off8 .s 0x9C false))), ([0x69, 0x1F], .rol (.idx (.off5 .x (-1)))),
   ([0x6A, 0x8D, 0x12, 0x34], .dec (.idx (.pcr16 0x1234 false))), ([0x6C, 0x84], .inc (.idx (.zero .x false))),
   ([0x6D, 0xA0], .tst (.idx (.inc1 .y))), ([0x6F, 0xE8, 0x9C], .clr (.idx (.off8 .s 0x9C false))),
   ([0x70, 0x12, 0x34], .neg (.ext 0x1234)), ([0x73, 0x12, 0x34], .com (.ext 0x1234)),
   ([0x74, 0x12, 0x34], .lsr (.ext 0x1234)), ([0x76, 0x12, 0x34], .ror (.ext 0x1234))]

theorem test_decode_page_one_unary_3 : rows_page_one_unary_3.all decodesBothWays = true := by decide +kernel

/-- Rows of 30_encoding.md R108 to R110 (page one unary), with operand bytes. -/
def rows_page_one_unary_4 : List (List Byte × Instr) :=
  [([0x77, 0x12, 0x34], .asr (.ext 0x1234)), ([0x78, 0x12, 0x34], .asl (.ext 0x1234)),
   ([0x79, 0x12, 0x34], .rol (.ext 0x1234)), ([0x7A, 0x12, 0x34], .dec (.ext 0x1234)),
   ([0x7C, 0x12, 0x34], .inc (.ext 0x1234)), ([0x7D, 0x12, 0x34], .tst (.ext 0x1234)),
   ([0x7F, 0x12, 0x34], .clr (.ext 0x1234))]

theorem test_decode_page_one_unary_4 : rows_page_one_unary_4.all decodesBothWays = true := by decide +kernel

/-- Rows of 30_encoding.md R108 to R110 (page one binary), with operand bytes. -/
def rows_page_one_binary_1 : List (List Byte × Instr) :=
  [([0x80, 0x5A], .suba (.imm 0x5A)), ([0x81, 0x5A], .cmpa (.imm 0x5A)), ([0x82, 0x5A], .sbca (.imm 0x5A)),
   ([0x84, 0x5A], .anda (.imm 0x5A)), ([0x85, 0x5A], .bita (.imm 0x5A)), ([0x86, 0x5A], .lda (.imm 0x5A)),
   ([0x88, 0x5A], .eora (.imm 0x5A)), ([0x89, 0x5A], .adca (.imm 0x5A)), ([0x8A, 0x5A], .ora (.imm 0x5A)),
   ([0x8B, 0x5A], .adda (.imm 0x5A)), ([0x90, 0x5A], .suba (.mem (.dir 0x5A))),
   ([0x91, 0x5A], .cmpa (.mem (.dir 0x5A))), ([0x92, 0x5A], .sbca (.mem (.dir 0x5A))),
   ([0x94, 0x5A], .anda (.mem (.dir 0x5A))), ([0x95, 0x5A], .bita (.mem (.dir 0x5A))),
   ([0x96, 0x5A], .lda (.mem (.dir 0x5A)))]

theorem test_decode_page_one_binary_1 : rows_page_one_binary_1.all decodesBothWays = true := by decide +kernel

/-- Rows of 30_encoding.md R108 to R110 (page one binary), with operand bytes. -/
def rows_page_one_binary_2 : List (List Byte × Instr) :=
  [([0x97, 0x5A], .sta (.dir 0x5A)), ([0x98, 0x5A], .eora (.mem (.dir 0x5A))),
   ([0x99, 0x5A], .adca (.mem (.dir 0x5A))), ([0x9A, 0x5A], .ora (.mem (.dir 0x5A))),
   ([0x9B, 0x5A], .adda (.mem (.dir 0x5A))), ([0xA0, 0x1F], .suba (.mem (.idx (.off5 .x (-1))))),
   ([0xA1, 0x8D, 0x12, 0x34], .cmpa (.mem (.idx (.pcr16 0x1234 false)))),
   ([0xA2, 0x84], .sbca (.mem (.idx (.zero .x false)))), ([0xA4, 0xD1], .anda (.mem (.idx (.inc2 .u true)))),
   ([0xA5, 0xE8, 0x9C], .bita (.mem (.idx (.off8 .s 0x9C false)))),
   ([0xA6, 0x1F], .lda (.mem (.idx (.off5 .x (-1))))),
   ([0xA7, 0x8D, 0x12, 0x34], .sta (.idx (.pcr16 0x1234 false))),
   ([0xA8, 0x84], .eora (.mem (.idx (.zero .x false)))), ([0xA9, 0xA0], .adca (.mem (.idx (.inc1 .y)))),
   ([0xAA, 0xD1], .ora (.mem (.idx (.inc2 .u true)))),
   ([0xAB, 0xE8, 0x9C], .adda (.mem (.idx (.off8 .s 0x9C false))))]

theorem test_decode_page_one_binary_2 : rows_page_one_binary_2.all decodesBothWays = true := by decide +kernel

/-- Rows of 30_encoding.md R108 to R110 (page one binary), with operand bytes. -/
def rows_page_one_binary_3 : List (List Byte × Instr) :=
  [([0xB0, 0x12, 0x34], .suba (.mem (.ext 0x1234))), ([0xB1, 0x12, 0x34], .cmpa (.mem (.ext 0x1234))),
   ([0xB2, 0x12, 0x34], .sbca (.mem (.ext 0x1234))), ([0xB4, 0x12, 0x34], .anda (.mem (.ext 0x1234))),
   ([0xB5, 0x12, 0x34], .bita (.mem (.ext 0x1234))), ([0xB6, 0x12, 0x34], .lda (.mem (.ext 0x1234))),
   ([0xB7, 0x12, 0x34], .sta (.ext 0x1234)), ([0xB8, 0x12, 0x34], .eora (.mem (.ext 0x1234))),
   ([0xB9, 0x12, 0x34], .adca (.mem (.ext 0x1234))), ([0xBA, 0x12, 0x34], .ora (.mem (.ext 0x1234))),
   ([0xBB, 0x12, 0x34], .adda (.mem (.ext 0x1234))), ([0xC0, 0x5A], .subb (.imm 0x5A)),
   ([0xC1, 0x5A], .cmpb (.imm 0x5A)), ([0xC2, 0x5A], .sbcb (.imm 0x5A)), ([0xC4, 0x5A], .andb (.imm 0x5A)),
   ([0xC5, 0x5A], .bitb (.imm 0x5A))]

theorem test_decode_page_one_binary_3 : rows_page_one_binary_3.all decodesBothWays = true := by decide +kernel

/-- Rows of 30_encoding.md R108 to R110 (page one binary), with operand bytes. -/
def rows_page_one_binary_4 : List (List Byte × Instr) :=
  [([0xC6, 0x5A], .ldb (.imm 0x5A)), ([0xC8, 0x5A], .eorb (.imm 0x5A)), ([0xC9, 0x5A], .adcb (.imm 0x5A)),
   ([0xCA, 0x5A], .orb (.imm 0x5A)), ([0xCB, 0x5A], .addb (.imm 0x5A)), ([0xD0, 0x5A], .subb (.mem (.dir 0x5A))),
   ([0xD1, 0x5A], .cmpb (.mem (.dir 0x5A))), ([0xD2, 0x5A], .sbcb (.mem (.dir 0x5A))),
   ([0xD4, 0x5A], .andb (.mem (.dir 0x5A))), ([0xD5, 0x5A], .bitb (.mem (.dir 0x5A))),
   ([0xD6, 0x5A], .ldb (.mem (.dir 0x5A))), ([0xD7, 0x5A], .stb (.dir 0x5A)),
   ([0xD8, 0x5A], .eorb (.mem (.dir 0x5A))), ([0xD9, 0x5A], .adcb (.mem (.dir 0x5A))),
   ([0xDA, 0x5A], .orb (.mem (.dir 0x5A))), ([0xDB, 0x5A], .addb (.mem (.dir 0x5A)))]

theorem test_decode_page_one_binary_4 : rows_page_one_binary_4.all decodesBothWays = true := by decide +kernel

/-- Rows of 30_encoding.md R108 to R110 (page one binary), with operand bytes. -/
def rows_page_one_binary_5 : List (List Byte × Instr) :=
  [([0xE0, 0xD1], .subb (.mem (.idx (.inc2 .u true)))),
   ([0xE1, 0xE8, 0x9C], .cmpb (.mem (.idx (.off8 .s 0x9C false)))),
   ([0xE2, 0x1F], .sbcb (.mem (.idx (.off5 .x (-1))))), ([0xE4, 0x84], .andb (.mem (.idx (.zero .x false)))),
   ([0xE5, 0xA0], .bitb (.mem (.idx (.inc1 .y)))), ([0xE6, 0xD1], .ldb (.mem (.idx (.inc2 .u true)))),
   ([0xE7, 0xE8, 0x9C], .stb (.idx (.off8 .s 0x9C false))), ([0xE8, 0x1F], .eorb (.mem (.idx (.off5 .x (-1))))),
   ([0xE9, 0x8D, 0x12, 0x34], .adcb (.mem (.idx (.pcr16 0x1234 false)))),
   ([0xEA, 0x84], .orb (.mem (.idx (.zero .x false)))), ([0xEB, 0xA0], .addb (.mem (.idx (.inc1 .y)))),
   ([0xF0, 0x12, 0x34], .subb (.mem (.ext 0x1234))), ([0xF1, 0x12, 0x34], .cmpb (.mem (.ext 0x1234))),
   ([0xF2, 0x12, 0x34], .sbcb (.mem (.ext 0x1234))), ([0xF4, 0x12, 0x34], .andb (.mem (.ext 0x1234))),
   ([0xF5, 0x12, 0x34], .bitb (.mem (.ext 0x1234)))]

theorem test_decode_page_one_binary_5 : rows_page_one_binary_5.all decodesBothWays = true := by decide +kernel

/-- Rows of 30_encoding.md R108 to R110 (page one binary), with operand bytes. -/
def rows_page_one_binary_6 : List (List Byte × Instr) :=
  [([0xF6, 0x12, 0x34], .ldb (.mem (.ext 0x1234))), ([0xF7, 0x12, 0x34], .stb (.ext 0x1234)),
   ([0xF8, 0x12, 0x34], .eorb (.mem (.ext 0x1234))), ([0xF9, 0x12, 0x34], .adcb (.mem (.ext 0x1234))),
   ([0xFA, 0x12, 0x34], .orb (.mem (.ext 0x1234))), ([0xFB, 0x12, 0x34], .addb (.mem (.ext 0x1234)))]

theorem test_decode_page_one_binary_6 : rows_page_one_binary_6.all decodesBothWays = true := by decide +kernel

/-- Rows of 30_encoding.md R108 to R110 (page one wide), with operand bytes. -/
def rows_page_one_wide_1 : List (List Byte × Instr) :=
  [([0x30, 0x84], .leax (.zero .x false)), ([0x31, 0xA0], .leay (.inc1 .y)), ([0x32, 0xD1], .leas (.inc2 .u true)),
   ([0x33, 0xE8, 0x9C], .leau (.off8 .s 0x9C false)), ([0x83, 0x12, 0x34], .subd (.imm 0x1234)),
   ([0x8C, 0x12, 0x34], .cmpx (.imm 0x1234)), ([0x8E, 0x12, 0x34], .ldx (.imm 0x1234)),
   ([0x93, 0x5A], .subd (.mem (.dir 0x5A))), ([0x9C, 0x5A], .cmpx (.mem (.dir 0x5A))),
   ([0x9E, 0x5A], .ldx (.mem (.dir 0x5A))), ([0x9F, 0x5A], .stx (.dir 0x5A)),
   ([0xA3, 0xA0], .subd (.mem (.idx (.inc1 .y)))), ([0xAC, 0x1F], .cmpx (.mem (.idx (.off5 .x (-1))))),
   ([0xAE, 0x84], .ldx (.mem (.idx (.zero .x false)))), ([0xAF, 0xA0], .stx (.idx (.inc1 .y))),
   ([0xB3, 0x12, 0x34], .subd (.mem (.ext 0x1234)))]

theorem test_decode_page_one_wide_1 : rows_page_one_wide_1.all decodesBothWays = true := by decide +kernel

/-- Rows of 30_encoding.md R108 to R110 (page one wide), with operand bytes. -/
def rows_page_one_wide_2 : List (List Byte × Instr) :=
  [([0xBC, 0x12, 0x34], .cmpx (.mem (.ext 0x1234))), ([0xBE, 0x12, 0x34], .ldx (.mem (.ext 0x1234))),
   ([0xBF, 0x12, 0x34], .stx (.ext 0x1234)), ([0xC3, 0x12, 0x34], .addd (.imm 0x1234)),
   ([0xCC, 0x12, 0x34], .ldd (.imm 0x1234)), ([0xCE, 0x12, 0x34], .ldu (.imm 0x1234)),
   ([0xD3, 0x5A], .addd (.mem (.dir 0x5A))), ([0xDC, 0x5A], .ldd (.mem (.dir 0x5A))),
   ([0xDD, 0x5A], .std (.dir 0x5A)), ([0xDE, 0x5A], .ldu (.mem (.dir 0x5A))), ([0xDF, 0x5A], .stu (.dir 0x5A)),
   ([0xE3, 0x8D, 0x12, 0x34], .addd (.mem (.idx (.pcr16 0x1234 false)))),
   ([0xEC, 0xD1], .ldd (.mem (.idx (.inc2 .u true)))), ([0xED, 0xE8, 0x9C], .std (.idx (.off8 .s 0x9C false))),
   ([0xEE, 0x1F], .ldu (.mem (.idx (.off5 .x (-1))))),
   ([0xEF, 0x8D, 0x12, 0x34], .stu (.idx (.pcr16 0x1234 false)))]

theorem test_decode_page_one_wide_2 : rows_page_one_wide_2.all decodesBothWays = true := by decide +kernel

/-- Rows of 30_encoding.md R108 to R110 (page one wide), with operand bytes. -/
def rows_page_one_wide_3 : List (List Byte × Instr) :=
  [([0xF3, 0x12, 0x34], .addd (.mem (.ext 0x1234))), ([0xFC, 0x12, 0x34], .ldd (.mem (.ext 0x1234))),
   ([0xFD, 0x12, 0x34], .std (.ext 0x1234)), ([0xFE, 0x12, 0x34], .ldu (.mem (.ext 0x1234))),
   ([0xFF, 0x12, 0x34], .stu (.ext 0x1234))]

theorem test_decode_page_one_wide_3 : rows_page_one_wide_3.all decodesBothWays = true := by decide +kernel

/-- Rows of 30_encoding.md R108 to R110 (page one control), with operand bytes. -/
def rows_page_one_control_1 : List (List Byte × Instr) :=
  [([0x0E, 0x5A], .jmp (.dir 0x5A)), ([0x16, 0x12, 0x34], .lbra 0x1234), ([0x17, 0x12, 0x34], .lbsr 0x1234),
   ([0x20, 0x5A], .bra 0x5A), ([0x21, 0x5A], .brn 0x5A), ([0x22, 0x5A], .bhi 0x5A), ([0x23, 0x5A], .bls 0x5A),
   ([0x24, 0x5A], .bcc 0x5A), ([0x25, 0x5A], .bcs 0x5A), ([0x26, 0x5A], .bne 0x5A), ([0x27, 0x5A], .beq 0x5A),
   ([0x28, 0x5A], .bvc 0x5A), ([0x29, 0x5A], .bvs 0x5A), ([0x2A, 0x5A], .bpl 0x5A), ([0x2B, 0x5A], .bmi 0x5A),
   ([0x2C, 0x5A], .bge 0x5A)]

theorem test_decode_page_one_control_1 : rows_page_one_control_1.all decodesBothWays = true := by decide +kernel

/-- Rows of 30_encoding.md R108 to R110 (page one control), with operand bytes. -/
def rows_page_one_control_2 : List (List Byte × Instr) :=
  [([0x2D, 0x5A], .blt 0x5A), ([0x2E, 0x5A], .bgt 0x5A), ([0x2F, 0x5A], .ble 0x5A), ([0x39], .rts),
   ([0x6E, 0xD1], .jmp (.idx (.inc2 .u true))), ([0x7E, 0x12, 0x34], .jmp (.ext 0x1234)),
   ([0x8D, 0x5A], .bsr 0x5A), ([0x9D, 0x5A], .jsr (.dir 0x5A)),
   ([0xAD, 0x8D, 0x12, 0x34], .jsr (.idx (.pcr16 0x1234 false))), ([0xBD, 0x12, 0x34], .jsr (.ext 0x1234))]

theorem test_decode_page_one_control_2 : rows_page_one_control_2.all decodesBothWays = true := by decide +kernel

/-- Rows of 30_encoding.md R108 to R110 (page one system), with operand bytes. -/
def rows_page_one_system_1 : List (List Byte × Instr) :=
  [([0x12], .nop), ([0x13], .sync), ([0x19], .daa), ([0x1A, 0x5A], .orcc 0x5A), ([0x1C, 0x5A], .andcc 0x5A),
   ([0x1D], .sex), ([0x1E, 0x8B], .exg .a .dp), ([0x1F, 0x8B], .tfr .a .dp),
   ([0x34, 0x92], .pshs ⟨true, false, false, true, false, false, true, false⟩),
   ([0x35, 0x92], .puls ⟨true, false, false, true, false, false, true, false⟩),
   ([0x36, 0x92], .pshu ⟨true, false, false, true, false, false, true, false⟩),
   ([0x37, 0x92], .pulu ⟨true, false, false, true, false, false, true, false⟩), ([0x3A], .abx), ([0x3B], .rti),
   ([0x3C, 0x5A], .cwai 0x5A), ([0x3D], .mul)]

theorem test_decode_page_one_system_1 : rows_page_one_system_1.all decodesBothWays = true := by decide +kernel

/-- Rows of 30_encoding.md R108 to R110 (page one system), with operand bytes. -/
def rows_page_one_system_2 : List (List Byte × Instr) :=
  [([0x3F], .swi)]

theorem test_decode_page_one_system_2 : rows_page_one_system_2.all decodesBothWays = true := by decide +kernel

/-- Rows of 30_encoding.md R108 to R110 (page two), with operand bytes. -/
def rows_page_two_1 : List (List Byte × Instr) :=
  [([0x10, 0x21, 0x12, 0x34], .lbrn 0x1234), ([0x10, 0x22, 0x12, 0x34], .lbhi 0x1234),
   ([0x10, 0x23, 0x12, 0x34], .lbls 0x1234), ([0x10, 0x24, 0x12, 0x34], .lbcc 0x1234),
   ([0x10, 0x25, 0x12, 0x34], .lbcs 0x1234), ([0x10, 0x26, 0x12, 0x34], .lbne 0x1234),
   ([0x10, 0x27, 0x12, 0x34], .lbeq 0x1234), ([0x10, 0x28, 0x12, 0x34], .lbvc 0x1234),
   ([0x10, 0x29, 0x12, 0x34], .lbvs 0x1234), ([0x10, 0x2A, 0x12, 0x34], .lbpl 0x1234),
   ([0x10, 0x2B, 0x12, 0x34], .lbmi 0x1234), ([0x10, 0x2C, 0x12, 0x34], .lbge 0x1234),
   ([0x10, 0x2D, 0x12, 0x34], .lblt 0x1234), ([0x10, 0x2E, 0x12, 0x34], .lbgt 0x1234),
   ([0x10, 0x2F, 0x12, 0x34], .lble 0x1234), ([0x10, 0x3F], .swi2)]

theorem test_decode_page_two_1 : rows_page_two_1.all decodesBothWays = true := by decide +kernel

/-- Rows of 30_encoding.md R108 to R110 (page two), with operand bytes. -/
def rows_page_two_2 : List (List Byte × Instr) :=
  [([0x10, 0x83, 0x12, 0x34], .cmpd (.imm 0x1234)), ([0x10, 0x8C, 0x12, 0x34], .cmpy (.imm 0x1234)),
   ([0x10, 0x8E, 0x12, 0x34], .ldy (.imm 0x1234)), ([0x10, 0x93, 0x5A], .cmpd (.mem (.dir 0x5A))),
   ([0x10, 0x9C, 0x5A], .cmpy (.mem (.dir 0x5A))), ([0x10, 0x9E, 0x5A], .ldy (.mem (.dir 0x5A))),
   ([0x10, 0x9F, 0x5A], .sty (.dir 0x5A)), ([0x10, 0xA3, 0x84], .cmpd (.mem (.idx (.zero .x false)))),
   ([0x10, 0xAC, 0xA0], .cmpy (.mem (.idx (.inc1 .y)))), ([0x10, 0xAE, 0xD1], .ldy (.mem (.idx (.inc2 .u true)))),
   ([0x10, 0xAF, 0xE8, 0x9C], .sty (.idx (.off8 .s 0x9C false))),
   ([0x10, 0xB3, 0x12, 0x34], .cmpd (.mem (.ext 0x1234))), ([0x10, 0xBC, 0x12, 0x34], .cmpy (.mem (.ext 0x1234))),
   ([0x10, 0xBE, 0x12, 0x34], .ldy (.mem (.ext 0x1234))), ([0x10, 0xBF, 0x12, 0x34], .sty (.ext 0x1234)),
   ([0x10, 0xCE, 0x12, 0x34], .lds (.imm 0x1234))]

theorem test_decode_page_two_2 : rows_page_two_2.all decodesBothWays = true := by decide +kernel

/-- Rows of 30_encoding.md R108 to R110 (page two), with operand bytes. -/
def rows_page_two_3 : List (List Byte × Instr) :=
  [([0x10, 0xDE, 0x5A], .lds (.mem (.dir 0x5A))), ([0x10, 0xDF, 0x5A], .sts (.dir 0x5A)),
   ([0x10, 0xEE, 0x1F], .lds (.mem (.idx (.off5 .x (-1))))),
   ([0x10, 0xEF, 0x8D, 0x12, 0x34], .sts (.idx (.pcr16 0x1234 false))),
   ([0x10, 0xFE, 0x12, 0x34], .lds (.mem (.ext 0x1234))), ([0x10, 0xFF, 0x12, 0x34], .sts (.ext 0x1234))]

theorem test_decode_page_two_3 : rows_page_two_3.all decodesBothWays = true := by decide +kernel

/-- Rows of 30_encoding.md R108 to R110 (page three), with operand bytes. -/
def rows_page_three : List (List Byte × Instr) :=
  [([0x11, 0x3F], .swi3), ([0x11, 0x83, 0x12, 0x34], .cmpu (.imm 0x1234)),
   ([0x11, 0x8C, 0x12, 0x34], .cmps (.imm 0x1234)), ([0x11, 0x93, 0x5A], .cmpu (.mem (.dir 0x5A))),
   ([0x11, 0x9C, 0x5A], .cmps (.mem (.dir 0x5A))), ([0x11, 0xA3, 0x84], .cmpu (.mem (.idx (.zero .x false)))),
   ([0x11, 0xAC, 0xA0], .cmps (.mem (.idx (.inc1 .y)))), ([0x11, 0xB3, 0x12, 0x34], .cmpu (.mem (.ext 0x1234))),
   ([0x11, 0xBC, 0x12, 0x34], .cmps (.mem (.ext 0x1234)))]

theorem test_decode_page_three : rows_page_three.all decodesBothWays = true := by decide +kernel
/-- The indexed post-bytes, form by form, from the table of 40_addressing_modes.md R147. -/
def subModes : List (List Byte × Idx) :=
  [([0x00], .off5 .x 0), ([0x3F], .off5 .y (-1)), ([0x50], .off5 .u (-16)), ([0x6F], .off5 .s 15),
   ([0x80], .inc1 .x), ([0xA1], .inc2 .y false), ([0xC2], .dec1 .u), ([0xE3], .dec2 .s false)] ++
  [([0x84], .zero .x false), ([0xA5], .accB .y false), ([0xC6], .accA .u false), ([0xE8, 0x80], .off8 .s 0x80 false),
   ([0x89, 0x12, 0x34], .off16 .x 0x1234 false), ([0xAB], .accD .y false), ([0x8C, 0xFE], .pcr8 0xFE false),
   ([0x8D, 0x80, 0x01], .pcr16 0x8001 false)] ++
  [([0xD1], .inc2 .u true), ([0xF3], .dec2 .s true), ([0x94], .zero .x true), ([0xB5], .accB .y true),
   ([0xD6], .accA .u true), ([0xF8, 0x04], .off8 .s 0x04 true), ([0x99, 0x12, 0x34], .off16 .x 0x1234 true)] ++
  [([0xBB], .accD .y true), ([0x9C, 0x7F], .pcr8 0x7F true), ([0x9D, 0x12, 0x34], .pcr16 0x1234 true),
   ([0x9F, 0x12, 0x34], .extInd 0x1234)]

theorem test_sub_modes :
    (subModes.all fun r => decide (takeIdx false (r.1 ++ [0xEE]) = .ok r.2 [0xEE]) && r.2.bytes == r.1) = true := by
  decide +kernel

/-- The register bits of the PC-relative forms do not count (40_addressing_modes.md R147). -/
theorem test_pcr_register_bits : takeIdx false [0xEC, 0x10] = .ok (.pcr8 0x10 false) [] := by decide

/-- `P_EXTIND_RR_DONTCARE` (40_addressing_modes.md R148). -/
theorem test_extended_indirect_dont_care :
    takeIdx true [0xBF, 0x12, 0x34] = .ok (.extInd 0x1234) [] ∧ takeIdx false [0xBF, 0x12, 0x34] = .bad .noSubMode := by
  decide

/-- The bits of the push and pull post-byte (45_stack_transfer.md R312). -/
theorem test_register_list :
    regListOf 0x06 = ⟨false, false, false, false, false, true, true, false⟩ ∧
      regListOf 0xC1 = ⟨true, true, false, false, false, false, false, true⟩ ∧
      regListOf 0x38 = ⟨false, false, true, true, true, false, false, false⟩ := by decide

/-- The register codes of TFR and EXG (45_stack_transfer.md R315). -/
theorem test_register_codes :
    ((List.range 16).map regOf) =
      [some .d, some .x, some .y, some .u, some .s, some .pc, none, none, some .a, some .b, some .cc, some .dp, none,
       none, none, none] := by decide

/-- The host's numbering: one byte, a prefix with its opcode, an opcode with operand bytes of zeros. -/
theorem test_table_words :
    decodeTableWord 8 0x12 = some .nop ∧ decodeTableWord 16 0x103F = some .swi2 ∧
      decodeTableWord 16 0x1183 = some (.cmpu (.imm 0)) ∧ decodeTableWord 8 0x01 = none ∧
      decodeTableWord 8 0xBD = some (.jsr (.ext 0)) := by decide +kernel

/-- The first step after reset with a word placed runs it (46_misc_system.md R332). -/
theorem test_first_step : ends (State.reset.withFetchWord 8 0x1A) (fun t =>
    t.pc == 0x0002 && t.cc.toByte == 0x50 && t.clock == 3 && t.fault == none) = true := by decide +kernel

/-! ## Single steps of 95_test_vectors.md -/

/-- 95_test_vectors.md, NEGA. -/
theorem test_nega : ends { (code [0x40]) with a := 0x80 } (fun t =>
    t.cc.toByte == 0x0B && t.pc == 0x4001 && t.clock == 2) = true := by decide +kernel

/-- 95_test_vectors.md, NEG <0x10. -/
theorem test_neg : ends { (put (code [0x00, 0x10]) 0x2010 [0x80]) with dp := 0x20 } (fun t =>
    t.cc.toByte == 0x0B && t.pc == 0x4002 && t.world.peek 0x2010 == some 0x80 && t.clock == 6) = true :=
      by decide +kernel

/-- 95_test_vectors.md, COMA. -/
theorem test_coma : ends { (code [0x43]) with a := 0x00 } (fun t =>
    t.a == 0xFF && t.cc.toByte == 0x09 && t.pc == 0x4001 && t.clock == 2) = true := by decide +kernel

/-- 95_test_vectors.md, LSRB. -/
theorem test_lsrb : ends { (code [0x54]) with b := 0x01, cc := CC.ofByte 0x08 } (fun t =>
    t.b == 0x00 && t.cc.toByte == 0x05 && t.pc == 0x4001 && t.clock == 2) = true := by decide +kernel

/-- 95_test_vectors.md, RORA. -/
theorem test_rora : ends { (code [0x46]) with a := 0x01, cc := CC.ofByte 0x00 } (fun t =>
    t.a == 0x00 && t.cc.toByte == 0x05 && t.pc == 0x4001 && t.clock == 2) = true := by decide +kernel

/-- 95_test_vectors.md, ASRA. -/
theorem test_asra : ends { (code [0x47]) with a := 0x81 } (fun t =>
    t.a == 0xC0 && t.cc.toByte == 0x09 && t.pc == 0x4001 && t.clock == 2) = true := by decide +kernel

/-- 95_test_vectors.md, ASLA. -/
theorem test_asla : ends { (code [0x48]) with a := 0x80 } (fun t =>
    t.a == 0x00 && t.cc.toByte == 0x07 && t.pc == 0x4001 && t.clock == 2) = true := by decide +kernel

/-- 95_test_vectors.md, ROLB. -/
theorem test_rolb : ends { (code [0x59]) with b := 0x80, cc := CC.ofByte 0x00 } (fun t =>
    t.b == 0x00 && t.cc.toByte == 0x07 && t.pc == 0x4001 && t.clock == 2) = true := by decide +kernel

/-- 95_test_vectors.md, DECA. -/
theorem test_deca : ends { (code [0x4A]) with a := 0x80, cc := CC.ofByte 0x01 } (fun t =>
    t.a == 0x7F && t.cc.toByte == 0x03 && t.pc == 0x4001 && t.clock == 2) = true := by decide +kernel

/-- 95_test_vectors.md, INCA. -/
theorem test_inca : ends { (code [0x4C]) with a := 0xFF, cc := CC.ofByte 0x01 } (fun t =>
    t.a == 0x00 && t.cc.toByte == 0x05 && t.pc == 0x4001 && t.clock == 2) = true := by decide +kernel

/-- 95_test_vectors.md, INC ,X. -/
theorem test_inc : ends { (put (code [0x6C, 0x84]) 0x2000 [0x7F]) with x := 0x2000 } (fun t =>
    t.cc.toByte == 0x0A && t.pc == 0x4002 && t.world.peek 0x2000 == some 0x80 && t.clock == 6) = true :=
      by decide +kernel

/-- 95_test_vectors.md, TSTA. -/
theorem test_tsta : ends { (code [0x4D]) with a := 0x00, cc := CC.ofByte 0x03 } (fun t =>
    t.cc.toByte == 0x05 && t.pc == 0x4001 && t.clock == 2) = true := by decide +kernel

/-- 95_test_vectors.md, TSTB. -/
theorem test_tstb : ends { (code [0x5D]) with b := 0x80, cc := CC.ofByte 0x23 } (fun t =>
    t.cc.toByte == 0x29 && t.pc == 0x4001 && t.clock == 2) = true := by decide +kernel

/-- 95_test_vectors.md, CLRB. -/
theorem test_clrb : ends { (code [0x5F]) with b := 0xAA, cc := CC.ofByte 0x2B } (fun t =>
    t.b == 0x00 && t.cc.toByte == 0x24 && t.pc == 0x4001 && t.clock == 2) = true := by decide +kernel

/-- 95_test_vectors.md, CLR 0x2000. -/
theorem test_clr : ends { (put (code [0x7F, 0x20, 0x00]) 0x2000 [0x99]) with cc := CC.ofByte 0xFB } (fun t =>
    t.cc.toByte == 0xF4 && t.pc == 0x4003 && t.world.peek 0x2000 == some 0x00 && t.clock == 7) = true :=
      by decide +kernel

/-- 95_test_vectors.md, ADDA #0x01. -/
theorem test_adda : ends { (code [0x8B, 0x01]) with a := 0x7F } (fun t =>
    t.a == 0x80 && t.cc.toByte == 0x2A && t.pc == 0x4002 && t.clock == 2) = true := by decide +kernel

/-- 95_test_vectors.md, ADDB #0x01. -/
theorem test_addb : ends { (code [0xCB, 0x01]) with b := 0x0F, cc := CC.ofByte 0x00 } (fun t =>
    t.b == 0x10 && t.cc.toByte == 0x20 && t.pc == 0x4002 && t.clock == 2) = true := by decide +kernel

/-- 95_test_vectors.md, ADCA #0x00. -/
theorem test_adca : ends { (code [0x89, 0x00]) with a := 0xFF, cc := CC.ofByte 0x01 } (fun t =>
    t.a == 0x00 && t.cc.toByte == 0x25 && t.pc == 0x4002 && t.clock == 2) = true := by decide +kernel

/-- 95_test_vectors.md, ADCB #0x7F. -/
theorem test_adcb : ends { (code [0xC9, 0x7F]) with b := 0x00, cc := CC.ofByte 0x01 } (fun t =>
    t.b == 0x80 && t.cc.toByte == 0x2A && t.pc == 0x4002 && t.clock == 2) = true := by decide +kernel

/-- 95_test_vectors.md, SUBA #0xFF. -/
theorem test_suba : ends { (code [0x80, 0xFF]) with a := 0x7F, cc := CC.ofByte 0x20 } (fun t =>
    t.a == 0x80 && t.cc.toByte == 0x2B && t.pc == 0x4002 && t.clock == 2) = true := by decide +kernel

/-- 95_test_vectors.md, SBCA #0x00. -/
theorem test_sbca : ends { (code [0x82, 0x00]) with a := 0x00, cc := CC.ofByte 0x01 } (fun t =>
    t.a == 0xFF && t.cc.toByte == 0x09 && t.pc == 0x4002 && t.clock == 2) = true := by decide +kernel

/-- 95_test_vectors.md, SBCB #0xFF. -/
theorem test_sbcb : ends { (code [0xC2, 0xFF]) with b := 0x00, cc := CC.ofByte 0x01 } (fun t =>
    t.cc.toByte == 0x05 && t.pc == 0x4002 && t.clock == 2) = true := by decide +kernel

/-- 95_test_vectors.md, CMPA #0x10. -/
theorem test_cmpa : ends { (code [0x81, 0x10]) with a := 0x10, cc := CC.ofByte 0x0B } (fun t =>
    t.cc.toByte == 0x04 && t.pc == 0x4002 && t.clock == 2) = true := by decide +kernel

/-- 95_test_vectors.md, CMPB #0x20. -/
theorem test_cmpb : ends { (code [0xC1, 0x20]) with b := 0x10 } (fun t =>
    t.cc.toByte == 0x09 && t.pc == 0x4002 && t.clock == 2) = true := by decide +kernel

/-- 95_test_vectors.md, ANDA #0x0F. -/
theorem test_anda : ends { (code [0x84, 0x0F]) with a := 0xF0, cc := CC.ofByte 0x03 } (fun t =>
    t.a == 0x00 && t.cc.toByte == 0x05 && t.pc == 0x4002 && t.clock == 2) = true := by decide +kernel

/-- 95_test_vectors.md, ANDB #0x80. -/
theorem test_andb : ends { (code [0xC4, 0x80]) with b := 0xFF, cc := CC.ofByte 0x03 } (fun t =>
    t.b == 0x80 && t.cc.toByte == 0x09 && t.pc == 0x4002 && t.clock == 2) = true := by decide +kernel

/-- 95_test_vectors.md, BITA #0x80. -/
theorem test_bita : ends { (code [0x85, 0x80]) with a := 0x7F, cc := CC.ofByte 0x0B } (fun t =>
    t.cc.toByte == 0x05 && t.pc == 0x4002 && t.clock == 2) = true := by decide +kernel

/-- 95_test_vectors.md, BITB #0x01. -/
theorem test_bitb : ends { (code [0xC5, 0x01]) with b := 0x01, cc := CC.ofByte 0x02 } (fun t =>
    t.cc.toByte == 0x00 && t.pc == 0x4002 && t.clock == 2) = true := by decide +kernel

/-- 95_test_vectors.md, ORA #0x80. -/
theorem test_ora : ends { (code [0x8A, 0x80]) with a := 0x01, cc := CC.ofByte 0x03 } (fun t =>
    t.a == 0x81 && t.cc.toByte == 0x09 && t.pc == 0x4002 && t.clock == 2) = true := by decide +kernel

/-- 95_test_vectors.md, ORB #0x00. -/
theorem test_orb : ends { (code [0xCA, 0x00]) with b := 0x00, cc := CC.ofByte 0x0A } (fun t =>
    t.cc.toByte == 0x04 && t.pc == 0x4002 && t.clock == 2) = true := by decide +kernel

/-- 95_test_vectors.md, EORA #0xFF. -/
theorem test_eora : ends { (code [0x88, 0xFF]) with a := 0xFF, cc := CC.ofByte 0x0B } (fun t =>
    t.a == 0x00 && t.cc.toByte == 0x05 && t.pc == 0x4002 && t.clock == 2) = true := by decide +kernel

/-- 95_test_vectors.md, EORB #0x0F. -/
theorem test_eorb : ends { (code [0xC8, 0x0F]) with b := 0xF0 } (fun t =>
    t.b == 0xFF && t.cc.toByte == 0x08 && t.pc == 0x4002 && t.clock == 2) = true := by decide +kernel

/-- 95_test_vectors.md, LDA D,X. -/
theorem test_lda : ends { (put (code [0xA6, 0x8B]) 0x2000 [0x06]) with a := 0x10, b := 0x00, x := 0x1000 } (fun t =>
    t.a == 0x06 && t.cc.toByte == 0x00 && t.pc == 0x4002 && t.clock == 8) = true := by decide +kernel

/-- 95_test_vectors.md, LDB 5,X. -/
theorem test_ldb : ends { (put (code [0xE6, 0x05]) 0x2005 [0xA5]) with x := 0x2000 } (fun t =>
    t.b == 0xA5 && t.cc.toByte == 0x08 && t.pc == 0x4002 && t.clock == 5) = true := by decide +kernel

/-- 95_test_vectors.md, STA 0x2000. -/
theorem test_sta : ends { (code [0xB7, 0x20, 0x00]) with a := 0x80, cc := CC.ofByte 0x07 } (fun t =>
    t.cc.toByte == 0x09 && t.pc == 0x4003 && t.world.peek 0x2000 == some 0x80 && t.clock == 5) = true :=
      by decide +kernel

/-- 95_test_vectors.md, STB <0x00. -/
theorem test_stb : ends { (code [0xD7, 0x00]) with b := 0x00, dp := 0x20, cc := CC.ofByte 0x0B } (fun t =>
    t.cc.toByte == 0x05 && t.pc == 0x4002 && t.world.peek 0x2000 == some 0x00 && t.clock == 4) = true :=
      by decide +kernel

/-- 95_test_vectors.md, ADDD #0x8000. -/
theorem test_addd : ends { (code [0xC3, 0x80, 0x00]) with a := 0x80, b := 0x00, cc := CC.ofByte 0x20 } (fun t =>
    t.a == 0x00 && t.cc.toByte == 0x27 && t.pc == 0x4003 && t.clock == 4) = true := by decide +kernel

/-- 95_test_vectors.md, SUBD #0x0001. -/
theorem test_subd : ends { (code [0x83, 0x00, 0x01]) with a := 0x00, b := 0x00 } (fun t =>
    t.a == 0xFF && t.b == 0xFF && t.cc.toByte == 0x09 && t.pc == 0x4003 && t.clock == 4) = true :=
      by decide +kernel

/-- 95_test_vectors.md, CMPX #0x2000. -/
theorem test_cmpx : ends { (code [0x8C, 0x20, 0x00]) with x := 0x1FFF } (fun t =>
    t.cc.toByte == 0x09 && t.pc == 0x4003 && t.clock == 4) = true := by decide +kernel

/-- 95_test_vectors.md, CMPD #0x8000. -/
theorem test_cmpd : ends { (code [0x10, 0x83, 0x80, 0x00]) with a := 0x7F, b := 0xFF } (fun t =>
    t.cc.toByte == 0x0B && t.pc == 0x4004 && t.clock == 5) = true := by decide +kernel

/-- 95_test_vectors.md, CMPY #0x0000. -/
theorem test_cmpy : ends { (code [0x10, 0x8C, 0x00, 0x00]) with y := 0x0000, cc := CC.ofByte 0x0B } (fun t =>
    t.cc.toByte == 0x04 && t.pc == 0x4004 && t.clock == 5) = true := by decide +kernel

/-- 95_test_vectors.md, CMPU #0x0001. -/
theorem test_cmpu : ends { (code [0x11, 0x83, 0x00, 0x01]) with u := 0x8000 } (fun t =>
    t.cc.toByte == 0x02 && t.pc == 0x4004 && t.clock == 5) = true := by decide +kernel

/-- 95_test_vectors.md, CMPS #0x8000. -/
theorem test_cmps : ends (code [0x11, 0x8C, 0x80, 0x00]) (fun t =>
    t.cc.toByte == 0x04 && t.pc == 0x4004 && t.clock == 5) = true := by decide +kernel

/-- 95_test_vectors.md, LDD #0x0000. -/
theorem test_ldd : ends { (code [0xCC, 0x00, 0x00]) with a := 0x01, b := 0x01, cc := CC.ofByte 0x0B } (fun t =>
    t.a == 0x00 && t.b == 0x00 && t.cc.toByte == 0x05 && t.pc == 0x4003 && t.clock == 3) = true :=
      by decide +kernel

/-- 95_test_vectors.md, LDX <0xFF. -/
theorem test_ldx : ends { (put (put (code [0x9E, 0xFF]) 0x20FF [0x12]) 0x2100 [0x34]) with dp := 0x20 } (fun t =>
    t.x == 0x1234 && t.cc.toByte == 0x00 && t.pc == 0x4002 && t.clock == 5) = true := by decide +kernel

/-- 95_test_vectors.md, LDY #0x1234. -/
theorem test_ldy : ends (code [0x10, 0x8E, 0x12, 0x34]) (fun t =>
    t.y == 0x1234 && t.cc.toByte == 0x00 && t.pc == 0x4004 && t.clock == 4) = true := by decide +kernel

/-- 95_test_vectors.md, LDU ,X++. -/
theorem test_ldu : ends { (put (code [0xEE, 0x81]) 0x2000 [0xAB, 0xCD]) with x := 0x2000 } (fun t =>
    t.x == 0x2002 && t.u == 0xABCD && t.cc.toByte == 0x08 && t.pc == 0x4002 && t.clock == 8) = true :=
      by decide +kernel

/-- 95_test_vectors.md, LDS <0x10. -/
theorem test_lds : ends { (put (code [0x10, 0xDE, 0x10]) 0x2010 [0x00, 0x00]) with dp := 0x20 } (fun t =>
    t.s == 0x0000 && t.cc.toByte == 0x04 && t.pc == 0x4003 && t.nmiArmed && t.clock == 6) = true :=
      by decide +kernel

/-- 95_test_vectors.md, STX 0x2000. -/
theorem test_stx : ends { (code [0xBF, 0x20, 0x00]) with x := 0x8001, cc := CC.ofByte 0x07 } (fun t =>
    t.cc.toByte == 0x09 && t.pc == 0x4003 && t.world.peek 0x2000 == some 0x80 && t.world.peek 0x2001 == some
      0x01 && t.clock == 6) = true := by decide +kernel

/-- 95_test_vectors.md, STD ,--Y. -/
theorem test_std : ends { (code [0xED, 0xA3]) with a := 0x00, b := 0x00, y := 0x2002, cc := CC.ofByte 0x0B } (fun t =>
    t.y == 0x2000 && t.cc.toByte == 0x05 && t.pc == 0x4002 && t.world.peek 0x2000 == some 0x00 && t.world.peek
      0x2001 == some 0x00 && t.clock == 8) = true := by decide +kernel

/-- 95_test_vectors.md, STY <0x20. -/
theorem test_sty : ends { (code [0x10, 0x9F, 0x20]) with y := 0x1234, dp := 0x20 } (fun t =>
    t.cc.toByte == 0x00 && t.pc == 0x4003 && t.world.peek 0x2020 == some 0x12 && t.world.peek 0x2021 == some
      0x34 && t.clock == 6) = true := by decide +kernel

/-- 95_test_vectors.md, STS 0x2000. -/
theorem test_sts : ends (code [0x10, 0xFF, 0x20, 0x00]) (fun t =>
    t.cc.toByte == 0x08 && t.pc == 0x4004 && t.world.peek 0x2000 == some 0x80 && t.world.peek 0x2001 == some
      0x00 && t.clock == 7) = true := by decide +kernel

/-- 95_test_vectors.md, STU ,X. -/
theorem test_stu : ends { (code [0xEF, 0x84]) with u := 0x00FF, x := 0x2000 } (fun t =>
    t.cc.toByte == 0x00 && t.pc == 0x4002 && t.world.peek 0x2000 == some 0x00 && t.world.peek 0x2001 == some
      0xFF && t.clock == 5) = true := by decide +kernel

/-- 95_test_vectors.md, LEAX -1,X. -/
theorem test_leax : ends { (code [0x30, 0x1F]) with x := 0x0001, cc := CC.ofByte 0x0B } (fun t =>
    t.x == 0x0000 && t.cc.toByte == 0x0F && t.pc == 0x4002 && t.clock == 5) = true := by decide +kernel

/-- 95_test_vectors.md, LEAY 0x1234,PCR. -/
theorem test_leay : ends { (code [0x31, 0x8D, 0x12, 0x34]) with cc := CC.ofByte 0x04 } (fun t =>
    t.y == 0x5238 && t.cc.toByte == 0x00 && t.pc == 0x4004 && t.clock == 9) = true := by decide +kernel

/-- 95_test_vectors.md, LEAU 2,U. -/
theorem test_leau : ends { (code [0x33, 0x42]) with u := 0xFFFF, cc := CC.ofByte 0x04 } (fun t =>
    t.u == 0x0001 && t.cc.toByte == 0x04 && t.pc == 0x4002 && t.clock == 5) = true := by decide +kernel

/-- 95_test_vectors.md, LEAS 2,S. -/
theorem test_leas : ends (code [0x32, 0x62]) (fun t =>
    t.s == 0x8002 && t.cc.toByte == 0x00 && t.pc == 0x4002 && t.nmiArmed && t.clock == 5) = true :=
      by decide +kernel

/-- 95_test_vectors.md, BRA +0x10. -/
theorem test_bra : ends (code [0x20, 0x10]) (fun t =>
    t.cc.toByte == 0x00 && t.pc == 0x4012 && t.clock == 3) = true := by decide +kernel

/-- 95_test_vectors.md, BRN +0x10. -/
theorem test_brn : ends (code [0x21, 0x10]) (fun t =>
    t.cc.toByte == 0x00 && t.pc == 0x4002 && t.clock == 3) = true := by decide +kernel

/-- 95_test_vectors.md, BHI +0x10. -/
theorem test_bhi : ends { (code [0x22, 0x10]) with cc := CC.ofByte 0x04 } (fun t =>
    t.cc.toByte == 0x04 && t.pc == 0x4002 && t.clock == 3) = true := by decide +kernel

/-- 95_test_vectors.md, BLS +0x10. -/
theorem test_bls : ends { (code [0x23, 0x10]) with cc := CC.ofByte 0x04 } (fun t =>
    t.cc.toByte == 0x04 && t.pc == 0x4012 && t.clock == 3) = true := by decide +kernel

/-- 95_test_vectors.md, BCC +0x10. -/
theorem test_bcc : ends { (code [0x24, 0x10]) with cc := CC.ofByte 0x01 } (fun t =>
    t.cc.toByte == 0x01 && t.pc == 0x4002 && t.clock == 3) = true := by decide +kernel

/-- 95_test_vectors.md, BCS +0x10. -/
theorem test_bcs : ends { (code [0x25, 0x10]) with cc := CC.ofByte 0x01 } (fun t =>
    t.cc.toByte == 0x01 && t.pc == 0x4012 && t.clock == 3) = true := by decide +kernel

/-- 95_test_vectors.md, BNE +0x10. -/
theorem test_bne : ends { (code [0x26, 0x10]) with cc := CC.ofByte 0x04 } (fun t =>
    t.cc.toByte == 0x04 && t.pc == 0x4002 && t.clock == 3) = true := by decide +kernel

/-- 95_test_vectors.md, BEQ +0x10. -/
theorem test_beq : ends { (code [0x27, 0x10]) with cc := CC.ofByte 0x04 } (fun t =>
    t.cc.toByte == 0x04 && t.pc == 0x4012 && t.clock == 3) = true := by decide +kernel

/-- 95_test_vectors.md, BVC +0x10. -/
theorem test_bvc : ends { (code [0x28, 0x10]) with cc := CC.ofByte 0x02 } (fun t =>
    t.cc.toByte == 0x02 && t.pc == 0x4002 && t.clock == 3) = true := by decide +kernel

/-- 95_test_vectors.md, BVS +0x10. -/
theorem test_bvs : ends { (code [0x29, 0x10]) with cc := CC.ofByte 0x02 } (fun t =>
    t.cc.toByte == 0x02 && t.pc == 0x4012 && t.clock == 3) = true := by decide +kernel

/-- 95_test_vectors.md, BPL +0x10. -/
theorem test_bpl : ends { (code [0x2A, 0x10]) with cc := CC.ofByte 0x08 } (fun t =>
    t.cc.toByte == 0x08 && t.pc == 0x4002 && t.clock == 3) = true := by decide +kernel

/-- 95_test_vectors.md, BMI +0x10. -/
theorem test_bmi : ends { (code [0x2B, 0x10]) with cc := CC.ofByte 0x08 } (fun t =>
    t.cc.toByte == 0x08 && t.pc == 0x4012 && t.clock == 3) = true := by decide +kernel

/-- 95_test_vectors.md, BGE +0x10. -/
theorem test_bge : ends { (code [0x2C, 0x10]) with cc := CC.ofByte 0x0A } (fun t =>
    t.cc.toByte == 0x0A && t.pc == 0x4012 && t.clock == 3) = true := by decide +kernel

/-- 95_test_vectors.md, BLT +0x10. -/
theorem test_blt : ends { (code [0x2D, 0x10]) with cc := CC.ofByte 0x0A } (fun t =>
    t.cc.toByte == 0x0A && t.pc == 0x4002 && t.clock == 3) = true := by decide +kernel

/-- 95_test_vectors.md, BGT +0x10. -/
theorem test_bgt : ends { (code [0x2E, 0x10]) with cc := CC.ofByte 0x0A } (fun t =>
    t.cc.toByte == 0x0A && t.pc == 0x4012 && t.clock == 3) = true := by decide +kernel

/-- 95_test_vectors.md, BLE +0x10. -/
theorem test_ble : ends { (code [0x2F, 0x10]) with cc := CC.ofByte 0x0A } (fun t =>
    t.cc.toByte == 0x0A && t.pc == 0x4002 && t.clock == 3) = true := by decide +kernel

/-- 95_test_vectors.md, LBRA +0x1000. -/
theorem test_lbra : ends (code [0x16, 0x10, 0x00]) (fun t =>
    t.cc.toByte == 0x00 && t.pc == 0x5003 && t.clock == 5) = true := by decide +kernel

/-- 95_test_vectors.md, LBRN +0x1000. -/
theorem test_lbrn : ends (code [0x10, 0x21, 0x10, 0x00]) (fun t =>
    t.cc.toByte == 0x00 && t.pc == 0x4004 && t.clock == 5) = true := by decide +kernel

/-- 95_test_vectors.md, LBEQ +0x0100. -/
theorem test_lbeq : ends { (code [0x10, 0x27, 0x01, 0x00]) with cc := CC.ofByte 0x04 } (fun t =>
    t.cc.toByte == 0x04 && t.pc == 0x4104 && t.clock == 6) = true := by decide +kernel

/-- 95_test_vectors.md, LBHI -0x4004. -/
theorem test_lbhi : ends { (code [0x10, 0x22, 0xBF, 0xFC]) with cc := CC.ofByte 0x00 } (fun t =>
    t.cc.toByte == 0x00 && t.pc == 0x0000 && t.clock == 6) = true := by decide +kernel

/-- 95_test_vectors.md, LBLT +0x0100. -/
theorem test_lblt : ends { (code [0x10, 0x2D, 0x01, 0x00]) with cc := CC.ofByte 0x02 } (fun t =>
    t.cc.toByte == 0x02 && t.pc == 0x4104 && t.clock == 6) = true := by decide +kernel

/-- 95_test_vectors.md, BSR +0x10. -/
theorem test_bsr : ends (code [0x8D, 0x10]) (fun t =>
    t.s == 0x7FFE && t.cc.toByte == 0x00 && t.pc == 0x4012 && t.world.peek 0x7FFE == some 0x40 && t.world.peek
      0x7FFF == some 0x02 && t.clock == 7) = true := by decide +kernel

/-- 95_test_vectors.md, LBSR +0x1000. -/
theorem test_lbsr : ends (code [0x17, 0x10, 0x00]) (fun t =>
    t.s == 0x7FFE && t.cc.toByte == 0x00 && t.pc == 0x5003 && t.world.peek 0x7FFE == some 0x40 && t.world.peek
      0x7FFF == some 0x03 && t.clock == 9) = true := by decide +kernel

/-- 95_test_vectors.md, JMP [,X]. -/
theorem test_jmp : ends { (put (code [0x6E, 0x94]) 0x2000 [0x50, 0x00]) with x := 0x2000 } (fun t =>
    t.cc.toByte == 0x00 && t.pc == 0x5000 && t.clock == 6) = true := by decide +kernel

/-- 95_test_vectors.md, JSR <0x10. -/
theorem test_jsr : ends { (code [0x9D, 0x10]) with dp := 0x50 } (fun t =>
    t.s == 0x7FFE && t.cc.toByte == 0x00 && t.pc == 0x5010 && t.world.peek 0x7FFE == some 0x40 && t.world.peek
      0x7FFF == some 0x02 && t.clock == 7) = true := by decide +kernel

/-- 95_test_vectors.md, RTS. -/
theorem test_rts : ends { (put (put (code [0x39]) 0xFFFF [0x12]) 0x0000 [0x34]) with s := 0xFFFF } (fun t =>
    t.s == 0x0001 && t.cc.toByte == 0x00 && t.pc == 0x1234 && t.clock == 5) = true := by decide +kernel

/-- 95_test_vectors.md, PSHS PC,U,Y,X,DP,B,A,CC. -/
theorem test_pshs : ends { (code [0x34, 0xFF]) with
      a := 0x11, b := 0x22, dp := 0x33, x := 0x4455, y := 0x6677, u := 0x8899, cc := CC.ofByte 0x0A } (fun t =>
    t.s == 0x7FF4 && t.cc.toByte == 0x0A && t.pc == 0x4002 && t.world.peek 0x7FF4 == some 0x0A && t.world.peek
      0x7FF5 == some 0x11 && t.world.peek 0x7FF6 == some 0x22 && t.world.peek 0x7FF7 == some 0x33 &&
      t.world.peek 0x7FF8 == some 0x44 && t.world.peek 0x7FF9 == some 0x55 && t.world.peek 0x7FFA == some 0x66
      && t.world.peek 0x7FFB == some 0x77 && t.world.peek 0x7FFC == some 0x88 && t.world.peek 0x7FFD == some
      0x99 && t.world.peek 0x7FFE == some 0x40 && t.world.peek 0x7FFF == some 0x02 && t.clock == 17) = true :=
      by decide +kernel

/-- 95_test_vectors.md, PSHU PC,S,Y,X,DP,B,A,CC. -/
theorem test_pshu : ends { (code [0x36, 0xFF]) with
      a := 0x11, b := 0x22, dp := 0x33, x := 0x4455, y := 0x6677, u := 0x7000, cc := CC.ofByte 0x0A } (fun t =>
    t.u == 0x6FF4 && t.cc.toByte == 0x0A && t.pc == 0x4002 && t.world.peek 0x6FF4 == some 0x0A && t.world.peek
      0x6FF5 == some 0x11 && t.world.peek 0x6FF6 == some 0x22 && t.world.peek 0x6FF7 == some 0x33 &&
      t.world.peek 0x6FF8 == some 0x44 && t.world.peek 0x6FF9 == some 0x55 && t.world.peek 0x6FFA == some 0x66
      && t.world.peek 0x6FFB == some 0x77 && t.world.peek 0x6FFC == some 0x80 && t.world.peek 0x6FFD == some
      0x00 && t.world.peek 0x6FFE == some 0x40 && t.world.peek 0x6FFF == some 0x02 && t.clock == 17) = true :=
      by decide +kernel

/-- 95_test_vectors.md, PULS CC,A,B,DP,X,Y,U,PC. -/
theorem test_puls : ends { (put (code [0x35, 0xFF]) 0x7FF4 [0x85, 0x11, 0x22, 0x33, 0x44, 0x55, 0x66, 0x77, 0x88,
    0x99, 0x50, 0x00]) with
      s := 0x7FF4 } (fun t =>
    t.a == 0x11 && t.b == 0x22 && t.dp == 0x33 && t.x == 0x4455 && t.y == 0x6677 && t.u == 0x8899 && t.s ==
      0x8000 && t.cc.toByte == 0x85 && t.pc == 0x5000 && t.clock == 17) = true := by decide +kernel

/-- 95_test_vectors.md, PULU CC,A,B,DP,X,Y,S,PC. -/
theorem test_pulu : ends { (put (code [0x37, 0xFF]) 0x7000 [0x85, 0x11, 0x22, 0x33, 0x44, 0x55, 0x66, 0x77, 0x7F,
    0x00, 0x50, 0x00]) with
      u := 0x7000 } (fun t =>
    t.a == 0x11 && t.b == 0x22 && t.dp == 0x33 && t.x == 0x4455 && t.y == 0x6677 && t.u == 0x700C && t.s ==
      0x7F00 && t.cc.toByte == 0x85 && t.pc == 0x5000 && t.nmiArmed && t.clock == 17) = true :=
      by decide +kernel

/-- 95_test_vectors.md, TFR X,S. -/
theorem test_tfr : ends { (code [0x1F, 0x14]) with x := 0x7F00 } (fun t =>
    t.s == 0x7F00 && t.cc.toByte == 0x00 && t.pc == 0x4002 && t.nmiArmed && t.clock == 6) = true :=
      by decide +kernel

/-- 95_test_vectors.md, EXG X,S. -/
theorem test_exg : ends { (code [0x1E, 0x14]) with x := 0x7F00 } (fun t =>
    t.x == 0x8000 && t.s == 0x7F00 && t.cc.toByte == 0x00 && t.pc == 0x4002 && t.nmiArmed && t.clock == 8) =
      true := by decide +kernel

/-- 95_test_vectors.md, NOP. -/
theorem test_nop : ends { (code [0x12]) with cc := CC.ofByte 0xFF } (fun t =>
    t.cc.toByte == 0xFF && t.pc == 0x4001 && t.clock == 2) = true := by decide +kernel

/-- 95_test_vectors.md, ANDCC #0xAF. -/
theorem test_andcc : ends { (code [0x1C, 0xAF]) with cc := CC.ofByte 0xFF } (fun t =>
    t.cc.toByte == 0xAF && t.pc == 0x4002 && t.clock == 3) = true := by decide +kernel

/-- 95_test_vectors.md, ORCC #0x50. -/
theorem test_orcc : ends { (code [0x1A, 0x50]) with cc := CC.ofByte 0x00 } (fun t =>
    t.cc.toByte == 0x50 && t.pc == 0x4002 && t.clock == 3) = true := by decide +kernel

/-- 95_test_vectors.md, DAA. -/
theorem test_daa : ends { (code [0x19]) with a := 0x9A, cc := CC.ofByte 0x00 } (fun t =>
    t.a == 0x00 && { t.cc with v := false }.toByte == 0x05 && t.pc == 0x4001 && t.clock == 2) = true :=
      by decide +kernel

/-- 95_test_vectors.md, MUL. -/
theorem test_mul : ends { (code [0x3D]) with a := 0x10, b := 0x08, cc := CC.ofByte 0x0F } (fun t =>
    t.a == 0x00 && t.b == 0x80 && t.cc.toByte == 0x0B && t.pc == 0x4001 && t.clock == 11) = true :=
      by decide +kernel

/-- 95_test_vectors.md, SEX. -/
theorem test_sex : ends { (code [0x1D]) with a := 0xAA, b := 0x00, cc := CC.ofByte 0x0B } (fun t =>
    t.a == 0x00 && t.cc.toByte == 0x07 && t.pc == 0x4001 && t.clock == 2) = true := by decide +kernel

/-- 95_test_vectors.md, ABX. -/
theorem test_abx : ends { (code [0x3A]) with b := 0xFF, x := 0x0001, cc := CC.ofByte 0x0F } (fun t =>
    t.x == 0x0100 && t.cc.toByte == 0x0F && t.pc == 0x4001 && t.clock == 3) = true := by decide +kernel

/-- 95_test_vectors.md, SYNC. -/
theorem test_sync : ends (code [0x13]) (fun t =>
    t.cc.toByte == 0x00 && t.pc == 0x4001 && t.waitSync && t.clock == 4) = true := by decide +kernel

/-- 95_test_vectors.md, CWAI #0xFF. -/
theorem test_cwai : ends { (code [0x3C, 0xFF]) with
      cc := CC.ofByte 0x50, a := 0x11, b := 0x22, dp := 0x33, x := 0x4455, y := 0x6677, u := 0x8899 } (fun t =>
    t.s == 0x7FF4 && t.cc.toByte == 0xD0 && t.pc == 0x4002 && t.waitCwai && t.world.peek 0x7FF4 == some 0xD0 &&
      t.world.peek 0x7FF5 == some 0x11 && t.world.peek 0x7FF6 == some 0x22 && t.world.peek 0x7FF7 == some 0x33
      && t.world.peek 0x7FF8 == some 0x44 && t.world.peek 0x7FF9 == some 0x55 && t.world.peek 0x7FFA == some
      0x66 && t.world.peek 0x7FFB == some 0x77 && t.world.peek 0x7FFC == some 0x88 && t.world.peek 0x7FFD ==
      some 0x99 && t.world.peek 0x7FFE == some 0x40 && t.world.peek 0x7FFF == some 0x02 && t.clock == 20) = true
      := by decide +kernel

/-- 95_test_vectors.md, RTI (E=1). -/
theorem test_rti : ends { (put (code [0x3B]) 0x7FF4 [0x80, 0x11, 0x22, 0x33, 0x44, 0x55, 0x66, 0x77, 0x88, 0x99,
    0x50, 0x00]) with
      s := 0x7FF4, cc := CC.ofByte 0xD0 } (fun t =>
    t.a == 0x11 && t.b == 0x22 && t.dp == 0x33 && t.x == 0x4455 && t.y == 0x6677 && t.u == 0x8899 && t.s ==
      0x8000 && t.cc.toByte == 0x80 && t.pc == 0x5000 && t.clock == 15) = true := by decide +kernel

/-- 95_test_vectors.md, SWI. -/
theorem test_swi : ends { (put (code [0x3F]) 0xFFFA [0x60, 0x00]) with
      cc := CC.ofByte 0x0A, a := 0x11, b := 0x22, dp := 0x33, x := 0x4455, y := 0x6677, u := 0x8899 } (fun t =>
    t.s == 0x7FF4 && t.cc.toByte == 0xDA && t.pc == 0x6000 && t.world.peek 0x7FF4 == some 0x8A && t.world.peek
      0x7FF5 == some 0x11 && t.world.peek 0x7FF6 == some 0x22 && t.world.peek 0x7FF7 == some 0x33 &&
      t.world.peek 0x7FF8 == some 0x44 && t.world.peek 0x7FF9 == some 0x55 && t.world.peek 0x7FFA == some 0x66
      && t.world.peek 0x7FFB == some 0x77 && t.world.peek 0x7FFC == some 0x88 && t.world.peek 0x7FFD == some
      0x99 && t.world.peek 0x7FFE == some 0x40 && t.world.peek 0x7FFF == some 0x01 && t.clock == 19) = true :=
      by decide +kernel

/-- 95_test_vectors.md, SWI2. -/
theorem test_swi2 : ends { (put (code [0x10, 0x3F]) 0xFFF4 [0x61, 0x00]) with cc := CC.ofByte 0x0A } (fun t =>
    t.s == 0x7FF4 && t.cc.toByte == 0x8A && t.pc == 0x6100 && t.world.peek 0x7FF4 == some 0x8A && t.world.peek
      0x7FF5 == some 0x00 && t.world.peek 0x7FF6 == some 0x00 && t.world.peek 0x7FF7 == some 0x00 &&
      t.world.peek 0x7FF8 == some 0x00 && t.world.peek 0x7FF9 == some 0x00 && t.world.peek 0x7FFA == some 0x00
      && t.world.peek 0x7FFB == some 0x00 && t.world.peek 0x7FFC == some 0x00 && t.world.peek 0x7FFD == some
      0x00 && t.world.peek 0x7FFE == some 0x40 && t.world.peek 0x7FFF == some 0x02 && t.clock == 20) = true :=
      by decide +kernel

/-- 95_test_vectors.md, SWI3. -/
theorem test_swi3 : ends { (put (code [0x11, 0x3F]) 0xFFF2 [0x62, 0x00]) with cc := CC.ofByte 0x5F } (fun t =>
    t.s == 0x7FF4 && t.cc.toByte == 0xDF && t.pc == 0x6200 && t.world.peek 0x7FF4 == some 0xDF && t.world.peek
      0x7FF5 == some 0x00 && t.world.peek 0x7FF6 == some 0x00 && t.world.peek 0x7FF7 == some 0x00 &&
      t.world.peek 0x7FF8 == some 0x00 && t.world.peek 0x7FF9 == some 0x00 && t.world.peek 0x7FFA == some 0x00
      && t.world.peek 0x7FFB == some 0x00 && t.world.peek 0x7FFC == some 0x00 && t.world.peek 0x7FFD == some
      0x00 && t.world.peek 0x7FFE == some 0x40 && t.world.peek 0x7FFF == some 0x02 && t.clock == 20) = true :=
      by decide +kernel
/-! ## Single steps, worked out from the rules -/

/-- 41_alu8_unary.md R182. -/
theorem test_com : ends (put (code [0x73, 0x20, 0x00]) 0x2000 [0x55]) (fun t =>
    t.world.peek 0x2000 == some 0xAA && t.cc.toByte == 0x09) = true := by decide +kernel

/-- 41_alu8_unary.md R183. -/
theorem test_lsr : ends { put (code [0x64, 0x80]) 0x2000 [0x01] with x := 0x2000, cc := CC.ofByte 0x0A } (fun t =>
    t.world.peek 0x2000 == some 0x00 && t.cc.toByte == 0x07 && t.x == 0x2001) = true := by decide +kernel

/-- 41_alu8_unary.md R184. -/
theorem test_ror : ends { put (code [0x06, 0x05]) 0x2005 [0x02] with dp := 0x20, cc := CC.ofByte 0x01 } (fun t =>
    t.world.peek 0x2005 == some 0x81 && t.cc.toByte == 0x08) = true := by decide +kernel

/-- 41_alu8_unary.md R185. -/
theorem test_asr : ends (put (code [0x77, 0x20, 0x00]) 0x2000 [0x83]) (fun t =>
    t.world.peek 0x2000 == some 0xC1 && t.cc.toByte == 0x09) = true := by decide +kernel

/-- 41_alu8_unary.md R186. -/
theorem test_asl : ends (put (code [0x78, 0x20, 0x00]) 0x2000 [0xC1]) (fun t =>
    t.world.peek 0x2000 == some 0x82 && t.cc.toByte == 0x09) = true := by decide +kernel

/-- 41_alu8_unary.md R187. -/
theorem test_rol : ends { put (code [0x79, 0x20, 0x00]) 0x2000 [0x80] with cc := CC.ofByte 0x01 } (fun t =>
    t.world.peek 0x2000 == some 0x01 && t.cc.toByte == 0x03) = true := by decide +kernel

/-- 41_alu8_unary.md R188. -/
theorem test_dec : ends { put (code [0x6A, 0xA2]) 0x2000 [0x01] with y := 0x2001, cc := CC.ofByte 0x01 } (fun t =>
    t.world.peek 0x2000 == some 0x00 && t.cc.toByte == 0x05 && t.y == 0x2000) = true := by decide +kernel

/-- 95_test_vectors.md S4. -/
theorem test_tst : ends { put (code [0x7D, 0x20, 0x00]) 0x2000 [0x80] with cc := CC.ofByte 0x03 } (fun t =>
    t.world.peek 0x2000 == some 0x80 && t.cc.toByte == 0x09 && t.clock == 7) = true := by decide +kernel

/-- 41_alu8_unary.md R181, R182, R184, R186: the forms on B. -/
theorem test_negb : ends { code [0x50] with b := 0x01 } (fun t => t.b == 0xFF && t.cc.toByte == 0x09) = true := by
  decide +kernel
theorem test_comb : ends { code [0x53] with b := 0xF0 } (fun t => t.b == 0x0F && t.cc.toByte == 0x01) = true := by
  decide +kernel
theorem test_rorb : ends { code [0x56] with b := 0x02, cc := CC.ofByte 0x01 } (fun t =>
    t.b == 0x81 && t.cc.toByte == 0x08) = true := by decide +kernel
theorem test_aslb : ends { code [0x58] with b := 0x41 } (fun t => t.b == 0x82 && t.cc.toByte == 0x0A) = true := by
  decide +kernel

/-- 41_alu8_unary.md R185, R188, R189, 42_alu8_binary.md R202: the forms on B. -/
theorem test_asrb : ends { code [0x57] with b := 0x02 } (fun t => t.b == 0x01 && t.cc.toByte == 0x00) = true := by
  decide +kernel
theorem test_decb : ends { code [0x5A] with b := 0x00 } (fun t => t.b == 0xFF && t.cc.toByte == 0x08) = true := by
  decide +kernel
theorem test_incb : ends { code [0x5C] with b := 0x7F } (fun t => t.b == 0x80 && t.cc.toByte == 0x0A) = true := by
  decide +kernel
theorem test_subb : ends { code [0xC0, 0x90] with b := 0x80 } (fun t => t.b == 0xF0 && t.cc.toByte == 0x09) = true := by
  decide +kernel

/-- 41_alu8_unary.md R183, R187, R191: the forms on A. -/
theorem test_lsra : ends { code [0x44] with a := 0x81, cc := CC.ofByte 0x08 } (fun t =>
    t.a == 0x40 && t.cc.toByte == 0x01) = true := by decide +kernel
theorem test_rola : ends { code [0x49] with a := 0x81, cc := CC.ofByte 0x00 } (fun t =>
    t.a == 0x02 && t.cc.toByte == 0x03) = true := by decide +kernel
theorem test_clra : ends { code [0x4F] with a := 0xAA, cc := CC.ofByte 0xFB } (fun t =>
    t.a == 0x00 && t.cc.toByte == 0xF4) = true := by decide +kernel

/-- A long branch from 0x4000 by 0x0100 with the condition codes given: taken, at 0x4104 with cost 6, or not, at 0x4004
with cost 5 (44_control_flow.md R270, 70_reset_and_hazards.md R440). -/
def longBranchGoes (op cc : Byte) (taken : Bool) : Bool :=
  ends { code [0x10, op, 0x01, 0x00] with cc := CC.ofByte cc } fun t =>
    t.pc == (if taken then 0x4104 else 0x4004) && t.clock == (if taken then 6 else 5) && t.cc.toByte == cc

/-- 44_control_flow.md R274 to R280: LBLS, LBCC, LBCS, LBNE, LBVC, LBVS. -/
theorem test_long_branches_unsigned :
    (longBranchGoes 0x23 0x04 true && longBranchGoes 0x24 0x01 false && longBranchGoes 0x25 0x01 true &&
      longBranchGoes 0x26 0x04 false && longBranchGoes 0x28 0x02 false && longBranchGoes 0x29 0x02 true) = true := by
  decide +kernel

/-- 44_control_flow.md R281 to R286: LBPL, LBMI, LBGE, LBGT, LBLE. -/
theorem test_long_branches_signed :
    (longBranchGoes 0x2A 0x08 false && longBranchGoes 0x2B 0x08 true && longBranchGoes 0x2C 0x0A true &&
      longBranchGoes 0x2E 0x0E false && longBranchGoes 0x2F 0x0E true) = true := by
  decide +kernel

/-! ## Faults, interrupts and wait states -/

/-- 95_test_vectors.md section 2.9, a prefix after a prefix. -/
theorem test_fault_instruction : ends { code [0x11, 0x11, 0x3F] with cc := CC.ofByte 0x05 } (fun t =>
    t.fault == some .instruction && t.pc == 0x4002 && t.cc.toByte == 0x05 && t.clock == 1) = true := by decide +kernel

/-- 95_test_vectors.md section 2.5, post-byte 0x90. -/
theorem test_fault_address_mode : ends { code [0xA6, 0x90] with x := 0x2000 } (fun t =>
    t.fault == some .addressMode && t.pc == 0x4002 && t.x == 0x2000 && t.clock == 1) = true := by decide +kernel

/-- 95_test_vectors.md section 2.7, EXG D,A. -/
theorem test_fault_register_select : ends (code [0x1E, 0x08]) (fun t =>
    t.fault == some .registerSelect && t.pc == 0x4002 && t.clock == 1) = true := by decide +kernel

/-- 95_test_vectors.md S6, steps 1 and 2: page 0x60 is not mapped. -/
theorem test_fault_read : ends { code [0xB6, 0x60, 0x00] with a := 0x7F, cc := CC.ofByte 0x04 } (fun t =>
    t.fault == some .undefinedRead && t.pc == 0x4003 && t.a == 0x7F && t.cc.toByte == 0x04 && t.clock == 0) = true := by
  decide +kernel
theorem test_fault_write : ends { code [0xB7, 0x60, 0x00] with a := 0x7F, cc := CC.ofByte 0x04 } (fun t =>
    t.fault == some .undefinedWrite && t.pc == 0x4003 && t.cc.toByte == 0x00 && t.clock == 0) = true := by decide +kernel

/-- The test machine with a line asserted, at a NOP, and the vectors of 95_test_vectors.md section 2.10. -/
def lines (n f i : Bool) (cc : Byte) : State :=
  let s := put (put (code [0x12]) 0xFFF6 [0x52, 0x00, 0x51, 0x00]) 0xFFFC [0x50, 0x00]
  { s with cc := CC.ofByte cc, world := { s.world with lineNmi := n, lineFirq := f, lineIrq := i } }

/-- 95_test_vectors.md I1. -/
theorem test_irq : ends { lines false false true 0x05 with a := 0x11 } (fun t =>
    t.s == 0x7FF4 && t.world.peek 0x7FF4 == some 0x85 && t.world.peek 0x7FF5 == some 0x11 &&
      t.world.peek 0x7FFE == some 0x40 && t.cc.toByte == 0x95 && t.pc == 0x5100 && t.clock == 19 &&
      t.world.lineIrq) = true := by decide +kernel

/-- 95_test_vectors.md I3. -/
theorem test_firq : ends (lines false true false 0x85) (fun t =>
    t.s == 0x7FFD && t.world.peek 0x7FFD == some 0x05 && t.cc.toByte == 0x45 && t.pc == 0x5200 &&
      t.clock == 10) = true := by decide +kernel

/-- 95_test_vectors.md S5, step 1: the non-maskable line wins. -/
theorem test_nmi : ends { lines true true true 0x00 with nmiArmed := true } (fun t =>
    t.s == 0x7FF4 && t.world.peek 0x7FF4 == some 0x80 && t.cc.toByte == 0xD0 && t.pc == 0x5000 && t.clock == 19 &&
      !t.world.lineNmi && t.world.lineFirq && t.world.lineIrq) = true := by decide +kernel

/-- 95_test_vectors.md I5, first step: a line that is not armed is not serviced. -/
theorem test_nmi_unarmed : ends (lines true false false 0x50) (fun t =>
    t.pc == 0x4001 && t.clock == 2 && t.world.lineNmi) = true := by decide +kernel

/-- 95_test_vectors.md W1, step 4: nothing is pushed again. -/
theorem test_irq_from_cwai : ends { lines false false true 0xC0 with waitCwai := true, s := 0x7FF4 } (fun t =>
    t.s == 0x7FF4 && t.cc.toByte == 0xD0 && t.pc == 0x5100 && !t.waitCwai && t.clock == 19) = true := by decide +kernel

/-- 95_test_vectors.md W2: masked lines do not end the stacked wait. -/
theorem test_cwai_idles : ends { lines true true true 0xD0 with waitCwai := true } (fun t =>
    t.waitCwai && t.pc == 0x4000 && t.clock == 1) = true := by decide +kernel

/-- 95_test_vectors.md Y1, step 3: a masked line ends the wait of SYNC and the instruction runs in the same step. -/
theorem test_sync_released : ends { lines false false true 0x50 with waitSync := true } (fun t =>
    !t.waitSync && t.pc == 0x4001 && t.clock == 2 && t.world.lineIrq) = true := by decide +kernel

/-- 95_test_vectors.md X3: the vector page is not mapped. -/
theorem test_fault_in_entry :
    ends { lines false false true 0x00 with world :=
      { (lines false false true 0x00).world with rp := SMap.put pages 0xFF none } } (fun t =>
        t.fault == some .undefinedRead && t.s == 0x7FF4 && t.cc.toByte == 0x90 && t.pc == 0x4000 &&
          t.clock == 0) = true := by decide +kernel

/-- 95_test_vectors.md section 2.11, first row. -/
theorem test_reset :
    (let r := hostReset { put plain 0xFFFE [0x12, 0x34] with
        a := 0x11, dp := 0x77, cc := CC.ofByte 0xAF, clock := 12345, nmiArmed := true, fault := some .instruction }
     r.code == none && r.state.pc == 0x1234 && r.state.cc.toByte == 0x50 && r.state.dp == 0x00 && r.state.a == 0x11 &&
       r.state.clock == 0 && !r.state.nmiArmed && r.state.s == 0x8000) = true := by decide +kernel

/-- 95_test_vectors.md section 2.12: `Run(3)` over a MUL overshoots by 8. -/
theorem test_run :
    (let r := hostRun 3 (code [0x3D, 0x12, 0x12, 0x12])
     r.code == none && r.state.clock == 11 && r.state.pc == 0x4001) = true := by decide +kernel


/-! ## Backing memory of a given size, and the clock that handlers see -/

/-- 20_memory.md R62, R68 with `PM_SIZE` = 0x2000: the last base with 256 bytes at and above it, and the one after it. -/
theorem test_pointer_fits :
    (ModuleAction.setReadPointer 0x20 (some 0x1F00)).admitted (some 0x2000) = true ∧
      (ModuleAction.setWritePointer 0x20 (some 0x1F01)).admitted (some 0x2000) = false ∧
      (ModuleAction.setReadPointer 0x20 none).admitted (some 0) = true := by decide

/-- 70_reset_and_hazards.md R441, R420: what the handlers of a reset see, and of a step that holds the clock. -/
theorem test_clock_held :
    State.clockSeen (State.cleared { plain with clock := 77 }) = 0 ∧
      State.clockSeen ({ plain with clock := 77 }.begin true) = 77 := by decide

/-! ## Hypotheses that are met

For every statement with hypotheses: a state and operands that meet them, clause by clause. -/

/-- A step that `ends` well has a next state. -/
theorem next_of_ends {s : State} {p : State → Bool} (h : ends s p = true) : ∃ t, step s = .next t ∧ p t = true := by
  unfold ends at h
  split at h
  · exact ⟨_, by assumption, h⟩
  · cases h

/-- `exec` answers a next state. -/
def runs (i : Instr) (s : State) : Bool :=
  match exec i s with
  | .next _ => true
  | _ => false

theorem next_of_runs {i : Instr} {s : State} (h : runs i s = true) : ∃ t, exec i s = .next t := by
  unfold runs at h
  split at h
  · exact ⟨_, by assumption⟩
  · cases h

/-- The test of `World.ram`. -/
def ramTest (w : World) (a : Word) (n : Nat) : Bool :=
  (List.range n).all fun k =>
    match w.readSpot (a + BitVec.ofNat 16 k) with
    | none => false
    | some loc =>
      w.writeSpot (a + BitVec.ofNat 16 k) == some loc &&
        (List.range n).all fun j => j == k || w.readSpot (a + BitVec.ofNat 16 j) != some loc

theorem ram_of_test {w : World} {a : Word} {n : Nat} (h : ramTest w a n = true) : w.ram a n := by
  intro k hk
  have hk' := List.all_eq_true.mp h k (List.mem_range.mpr hk)
  split at hk'
  · cases hk'
  · rename_i loc hloc
    rw [Bool.and_eq_true] at hk'
    refine ⟨loc, hloc, by simpa using hk'.1, fun j hj hne => ?_⟩
    have hj' := List.all_eq_true.mp hk'.2 j (List.mem_range.mpr hj)
    simpa [hne] using hj'

/-- An address that is read where none of the `n` addresses from `a` on is written. -/
theorem apart_of_test {w : World} {a b : Word} {n : Nat}
    (h : ∀ k, k < n → w.writeSpot (a + BitVec.ofNat 16 k) ≠ w.readSpot b) :
    ∀ loc, w.readSpot b = some loc → ¬ w.reaches a n loc := by
  intro loc hb ⟨k, hk, hw⟩
  exact h k hk (by rw [hw, hb])

/-- The bytes of a list, by place. -/
def at' (bs : List Byte) (k : Nat) : Byte := bs.getD k 0

/-- The test machine with what `Reset()` sets before it reads the vector. -/
def resetting : State :=
  { plain with
    cc := ⟨false, true, false, true, false, false, false, false⟩
    nmiArmed := false
    waitCwai := false
    waitSync := false
    dp := if plain.cfg.resetDpZero then 0x00 else plain.dp
    clock := 0
    clockHeld := true
    fault := none
    nextCb := (plain.cfg.period.map (BitVec.ofNat 64)).getD plain.nextCb }

theorem witness_ResetLoadsTheVector :
    (∃ h l t1 t2, read8 0xFFFE resetting = .ok h t1 ∧ read8 0xFFFF t1 = .ok l t2) ∧
      plain.world.readSpot 0xFFFE ≠ none :=
  ⟨⟨_, _, _, _, rfl, rfl⟩, by decide +kernel⟩

/-- The same state without page 0xFF. -/
def noVectors (s : State) : State := { s with world := { s.world with rp := SMap.put pages 0xFF none } }

theorem witness_ResetFaultKeepsPC :
    (∃ k t, read16 0xFFFE (noVectors resetting) = .error k t) ∧
      (noVectors plain).world.readSpot 0xFFFE = none ∧ (noVectors plain).world.readHandler 0xFFFE = none :=
  ⟨⟨_, _, rfl⟩, by decide +kernel, by decide +kernel⟩

/-- The test machine with handlers on page 0x60, whose pointers are null. -/
def handled : State := { plain with world := { plain.world with rh := [(0x60, 1)], wh := [(0x60, 2)] } }

theorem witness_ReadDispatch :
    SMap.find plain.world.rp 0xFF = some 0xFF00 ∧
      (SMap.find handled.world.rp 0x60 = none ∧ SMap.find handled.world.rh 0x60 = some 1) ∧
      (SMap.find plain.world.rp 0x60 = none ∧ SMap.find plain.world.rh 0x60 = none) := by decide +kernel

theorem witness_WriteDispatch :
    SMap.find plain.world.wp 0x00 = some 0x0000 ∧
      (SMap.find handled.world.wp 0x60 = none ∧ SMap.find handled.world.wh 0x60 = some 2) ∧
      (SMap.find plain.world.wp 0x60 = none ∧ SMap.find plain.world.wh 0x60 = none) := by decide +kernel

theorem witness_BusAccessTouchesOnlyWorld :
    (∃ v t, read8 0xFFFF plain = .ok v t) ∧ (∃ t, write8 0x0000 0x12 plain = .ok () t) ∧
      (∃ k t, read8 0x60FF plain = .error k t) ∧ (∃ k t, write8 0x6000 0x12 plain = .error k t) ∧
      (∃ v t, read8 0x6000 handled = .ok v t) ∧ (∃ t, write8 0x6000 0x12 handled = .ok () t) :=
  ⟨⟨_, _, rfl⟩, ⟨_, rfl⟩, ⟨_, _, rfl⟩, ⟨_, _, rfl⟩, ⟨_, _, rfl⟩, ⟨_, rfl⟩⟩

theorem witness_RegistrationChangesOneEntry : handled.world.wf = true := by decide +kernel

theorem witness_BackingMemoryHoldsLastWrite : Memory.wf [(0, 0x01), (0xFFFF, 0xFF)] = true := by decide +kernel

/-- The word at 0xFFFF has its second byte at 0x0000. -/
theorem witness_WordAccessIsBigEndian :
    plain.world.wf = true ∧ plain.world.ram 0xFFFF 2 ∧
      ∀ loc, plain.world.readSpot 0x0001 = some loc → ¬ plain.world.reaches 0xFFFF 2 loc :=
  ⟨by decide +kernel, ram_of_test (by decide +kernel), apart_of_test (by decide +kernel)⟩

theorem witness_DecodeOfEncode : (Instr.tfr .d .pc).wf = true ∧ (Instr.exg .cc .dp).wf = true := by decide

theorem witness_DecodeReadsItsOwnBytes :
    decode false [0x12] = .ok .nop [] ∧
      decode false [0x10, 0xEE, 0x99, 0x12, 0x34, 0x39] = .ok (.lds (.mem (.idx (.off16 .x 0x1234 true)))) [0x39] := by
  decide +kernel

theorem witness_OpcodesWithoutARow :
    ((0xCF : Byte) ≠ 0x10 ∧ (0xCF : Byte) ≠ 0x11 ∧ decode false [0xCF] = .bad .noOpcode) ∧
      decode false [0x10, 0x10] = .bad .noOpcode ∧ decode false [0x11, 0xBD] = .bad .noOpcode := by decide +kernel

theorem witness_IllegalRegisterPairs :
    decode false [0x1F, 0x08] = .bad .noRegisterPair ∧ decode false [0x1E, 0xF0] = .bad .noRegisterPair := by
  decide +kernel

/-- The test machine in the SYNC wait, at a NOP, with a masked line asserted: the wait ends and the step fetches. -/
def syncReleased : State :=
  { code [0x12] with waitSync := true, cc := CC.ofByte 0x50, world := { (code [0x12]).world with lineIrq := true } }

theorem witness_StepRunsTheDecodedInstruction :
    (syncReleased.Fetches ∧ syncReleased.world.holdsBytes syncReleased.pc [0x12] ∧
      decode syncReleased.cfg.extIndRrDontCare [0x12] = .ok .nop []) ∧
      ∃ t0 i t, interruptCheck (code [0x12]).begun = .ok .proceed t0 ∧ fetchInstr t0 = .ok i t :=
  ⟨⟨⟨rfl, rfl, rfl, rfl, fun _ => rfl⟩, ⟨by decide +kernel, trivial⟩, rfl⟩, _, _, _, rfl, rfl⟩

/-- The hypotheses of the statement on illegal encodings, for bytes at PC. -/
def refusedAtPc (bs : List Byte) (r : Reject) : Prop :=
  (code bs).Fetches ∧ (code bs).world.holdsBytes (code bs).pc bs ∧
    decode (code bs).cfg.extIndRrDontCare bs = .bad r ∧
    ∀ n, n < bs.length → decode (code bs).cfg.extIndRrDontCare (bs.take n) = .more

/-- A prefix behind a prefix, an illegal post-byte, an illegal pair. -/
theorem witness_IllegalEncodingEndsTheStep :
    refusedAtPc [0x10, 0x11] .noOpcode ∧ refusedAtPc [0xA6, 0x90] .noSubMode ∧
      refusedAtPc [0x1F, 0x08] .noRegisterPair := by
  refine ⟨?_, ?_, ?_⟩ <;>
    exact ⟨⟨rfl, rfl, rfl, rfl, by decide +kernel⟩, ⟨by decide +kernel, by decide +kernel, trivial⟩, rfl,
      by decide +kernel⟩

/-- PC on a page without entries, and an instruction that runs out of its page. -/
theorem witness_UnreadableFetchEndsTheStep :
    (let s : State := { plain with pc := 0x6000 }
     s.Fetches ∧ s.world.holdsBytes s.pc [] ∧ decode s.cfg.extIndRrDontCare [] = .more ∧
       s.world.readSpot s.pc = none ∧ s.world.readHandler s.pc = none) ∧
      (let s : State := put { plain with pc := 0x40FF } 0x40FF [0xB6]
       s.Fetches ∧ s.world.holdsBytes s.pc [0xB6] ∧ decode s.cfg.extIndRrDontCare [0xB6] = .more ∧
         s.world.readSpot (s.pc + 1) = none ∧ s.world.readHandler (s.pc + 1) = none) :=
  ⟨⟨⟨rfl, rfl, rfl, rfl, by decide +kernel⟩, trivial, rfl, by decide +kernel, by decide +kernel⟩,
    ⟨⟨rfl, rfl, rfl, rfl, by decide +kernel⟩, ⟨by decide +kernel, trivial⟩, rfl, by decide +kernel,
      by decide +kernel⟩⟩

/-- X at the last byte of page 0x5F, below an unmapped page. -/
def edge : State := { plain with x := 0x6000, y := 0x2000 }

theorem witness_ResolverMovesOnlyItsBase :
    edge.world.NoHandlers ∧ Mem.moves (.idx (.inc2 .y true)) ≠ some .x ∧
      (∃ a t, ea (.idx (.inc2 .y true)) edge = .ok a t) ∧
      (∃ k t, ea (.idx (.dec2 .x true)) { edge with x := 0x6002 } = .error k t) ∧
      (∃ v t, operand8 (.mem (.idx (.dec1 .y))) { edge with y := 0x2001 } = .ok v t) ∧
      (∃ k t, operand8 (.mem (.ext 0x6000)) edge = .error k t) ∧
      (∃ v t, operand16 (.mem (.dir 0xFF)) { edge with dp := 0x20 } = .ok v t) ∧
      (∃ k t, operand16 (.mem (.ext 0x40FF)) edge = .error k t) :=
  ⟨⟨rfl, rfl⟩, by decide, ⟨_, _, rfl⟩, ⟨_, _, rfl⟩, ⟨_, _, rfl⟩, ⟨_, _, rfl⟩, ⟨_, _, rfl⟩, ⟨_, _, rfl⟩⟩

/-- The last clause of the statement on CLR: with `P_CLR_READS` and without. -/
theorem witness_UnaryOnMemory :
    ∃ a t1 m t2, ea (.ext 0x20FF) plain = .ok a t1 ∧ read8 a t1 = .ok m t2 ∧
      (∀ res cc', ∃ t3, write8 a res { t2 with cc := cc' } = .ok () t3) ∧
      (if plain.cfg.clrReads then read8 a t1 = .ok m t2 else t2 = t1) ∧
      (if { plain.cfg with clrReads := false }.clrReads then read8 a t1 = .ok m t2 else t2 = t1) :=
  ⟨_, _, _, _, rfl, rfl, fun _ _ => ⟨_, rfl⟩, rfl, rfl⟩

/-- One operand for the statements on 8-bit operations. -/
theorem operand8_met :
    ∃ m t, operand8 (.mem (.idx (.inc1 .x))) (put { plain with x := 0xFFFF } 0xFFFF [0x80]) = .ok m t :=
  ⟨_, _, rfl⟩

theorem witness_ByteArithmetic : (∃ m t, operand8 (.imm 0x80) { plain with a := 0x80 } = .ok m t) ∧
    ∃ m t, operand8 (.mem (.idx (.inc1 .x))) (put { plain with x := 0xFFFF } 0xFFFF [0x80]) = .ok m t :=
  ⟨⟨_, _, rfl⟩, operand8_met⟩

theorem witness_ByteLogic :
    ∃ m t, operand8 (.mem (.idx (.inc1 .x))) (put { plain with x := 0xFFFF } 0xFFFF [0x80]) = .ok m t := operand8_met

/-- The word at 0xFFFF. -/
theorem operand16_met : ∃ m t, operand16 (.mem (.ext 0xFFFF)) (put plain 0xFFFF [0x80]) = .ok m t := ⟨_, _, rfl⟩

theorem witness_WordArithmetic : ∃ m t, operand16 (.mem (.ext 0xFFFF)) (put plain 0xFFFF [0x80]) = .ok m t :=
  operand16_met

theorem witness_WordLoad : ∃ m t, operand16 (.mem (.ext 0xFFFF)) (put plain 0xFFFF [0x80]) = .ok m t := operand16_met

theorem witness_Stores :
    ∃ a t1, ea (.ext 0xFFFF) plain = .ok a t1 ∧ (∀ v cc', ∃ t2, write8 a v { t1 with cc := cc' } = .ok () t2) ∧
      ∀ w cc', ∃ t2, write16 a w { t1 with cc := cc' } = .ok () t2 :=
  ⟨_, _, rfl, fun _ _ => ⟨_, rfl⟩, fun _ _ => ⟨_, rfl⟩⟩

theorem witness_LoadEffectiveAddress :
    (∃ a t, eaIndexed (.off5 .x (-1)) { plain with x := 0x0001 } = .ok a t) ∧
      ∃ a t, eaIndexed (.dec2 .s true) plain = .ok a t := ⟨⟨_, _, rfl⟩, _, _, rfl⟩

theorem witness_ShortBranches : (Instr.bra 0x80, true) ∈ [(Instr.bra 0x80, true), (.brn 0x80, false)] ∧
    (Instr.bhi 0x7F, !plain.cc.c && !plain.cc.z) ∈ [(Instr.bhi 0x7F, !plain.cc.c && !plain.cc.z)] := by decide

theorem witness_LongBranches : (Instr.lbgt 0x8000, !plain.cc.z && plain.cc.n == plain.cc.v) ∈
    [(Instr.lbgt 0x8000, !plain.cc.z && plain.cc.n == plain.cc.v)] := by decide

theorem witness_CompareThenBranch :
    ∃ m t u, operand8 (.imm 0x80) { plain with b := 0x7F } = .ok m t ∧
      exec (.cmpb (.imm 0x80)) { plain with b := 0x7F } = .next u := ⟨_, _, _, rfl, rfl⟩

/-- S at 0x0001: the two bytes lie at 0xFFFF and 0x0000. -/
theorem witness_CallsJumpsAndReturn :
    (let s : State := { plain with s := 0x0001 }
     ∃ t, push16 .s s.pc s = .ok () t) ∧
      (∃ a t1 t2, ea (.idx (.zero .x false)) plain = .ok a t1 ∧ push16 .s plain.pc t1 = .ok () t2) ∧
      ∃ w t, pull16 .s { plain with s := 0xFFFF } = .ok w t :=
  ⟨⟨_, rfl⟩, ⟨_, _, _, rfl, rfl⟩, _, _, rfl⟩

theorem witness_PushMovesThenWrites :
    (∃ t t', push8 .u 0x34 { plain with u := 0x0000 } = .ok () t ∧ push8 .u 0x12 t = .ok () t') ∧
      ∃ k t, push8 .s 0x34 { plain with s := 0x6000 + 1 } = .error k t :=
  ⟨⟨_, _, rfl, rfl⟩, _, _, rfl⟩

theorem witness_PullReadsThenMoves :
    (let s : State := { plain with s := 0xFFFF }
     ∃ h l t t', read8 (s.sp .s) s = .ok h t ∧ pull8 .s s = .ok h (t.setSp .s (s.sp .s + 1)) ∧
       pull8 .s (t.setSp .s (s.sp .s + 1)) = .ok l t') ∧
      (∃ k t, pull8 .s { plain with s := 0x6000 } = .error k t) ∧
      plain.world.wf = true ∧ plain.world.ram (State.sp { plain with u := 0x0001 } .u - 2) 2 :=
  ⟨⟨_, _, _, _, rfl, rfl, rfl⟩, ⟨_, _, rfl⟩, by decide +kernel, ram_of_test (by decide +kernel)⟩

/-- The empty list, and all eight bits with the bytes on both sides of 0x0000. -/
theorem witness_PushRegisterList :
    plain.world.wf = true ∧
      (let n := ((regListOf 0x00).image .s plain).length
       plain.world.ram (plain.sp .s - BitVec.ofNat 16 n) n) ∧
      (let s : State := { plain with u := 0x0006 }
       let n := ((regListOf 0xFF).image .u s).length
       s.world.ram (s.sp .u - BitVec.ofNat 16 n) n) :=
  ⟨by decide +kernel, ram_of_test (by decide +kernel), ram_of_test (by decide +kernel)⟩

theorem witness_PullRegisterList :
    (∀ k, k < 12 → plain.world.peek (State.s { plain with s := 0xFFFA } + BitVec.ofNat 16 k) = some (at' [] k)) ∧
      ∀ k, k < 12 → (put plain 0x7000 [0x01, 0x02]).world.peek
        (State.u { plain with u := 0x7000 } + BitVec.ofNat 16 k) = some (at' [0x01, 0x02] k) := by decide +kernel

theorem witness_PushThenPullRestores :
    let l := regListOf 0xFF
    let n := (l.image .s plain).length
    plain.world.wf = true ∧ plain.world.ram (plain.s - BitVec.ofNat 16 n) n ∧
      ∃ t, ∃ v : State, exec (.pshs l) plain = .next t ∧ v.s = t.s ∧ v.world = t.world ∧
        v.a ≠ plain.a ∧ v.pc ≠ plain.pc :=
  ⟨by decide +kernel, ram_of_test (by decide +kernel), by
    obtain ⟨t, ht⟩ := next_of_runs (i := .pshs (regListOf 0xFF)) (s := plain) (by decide +kernel)
    exact ⟨t, { t with a := plain.a + 1, pc := plain.pc + 1 }, ht, rfl, rfl,
      (by decide : plain.a + 1 ≠ plain.a), (by decide : plain.pc + 1 ≠ plain.pc)⟩⟩

theorem witness_TransferAndExchange :
    (sameWidth .s .d = true ∧ sameWidth .cc .dp = true ∧ sameWidth .d .a = false) ∧
      (∃ q, (q != Reg.d && !(Reg.d == .d && (q == .a || q == .b)) &&
        !(q == .d && (Reg.d == .a || Reg.d == .b))) = true) :=
  ⟨by decide, .dp, by decide⟩

/-- 99 + 99 = 198. -/
theorem witness_DecimalAddition :
    let s : State := { plain with a := 0x99 }
    (s.a.toNat / 16 ≤ 9 ∧ s.a.toNat % 16 ≤ 9) ∧
      ∃ t u, exec (.adda (.imm 0x99)) s = .next t ∧ exec .daa t = .next u :=
  ⟨by decide, _, _, rfl, rfl⟩

theorem witness_EntireFrameLayout :
    plain.world.wf = true ∧ plain.world.ram (State.s { plain with s := 0x0003 } - 12) 12 :=
  ⟨by decide +kernel, ram_of_test (by decide +kernel)⟩

/-- A stack in plain memory, and one whose seventh byte has no page. -/
theorem witness_WaitForInterruptStacks :
    let s0 (s : State) (m : Byte) : State := { s with cc := { CC.ofByte (s.cc.toByte &&& m) with e := true } }
    (∃ t, pushEntire (s0 plain 0xEF) = .ok () t) ∧
      ∃ k t, pushEntire (s0 { plain with s := 0x4006 } 0xEF) = .error k t :=
  ⟨⟨_, rfl⟩, _, _, rfl⟩

theorem witness_ReturnFromInterrupt :
    ((at' [0x7F, 0x12, 0x34] 0).getLsbD 7 = false ∧
      ∀ k, k < 3 → (put plain 0x7FF0 [0x7F, 0x12, 0x34]).world.peek (0x7FF0 + BitVec.ofNat 16 k) =
        some (at' [0x7F, 0x12, 0x34] k)) ∧
      (at' [0x80] 0).getLsbD 7 = true ∧
      ∀ k, k < 12 → (put plain 0xFFFF [0x80]).world.peek (0xFFFF + BitVec.ofNat 16 k) = some (at' [0x80] k) := by
  decide +kernel

theorem witness_SoftwareInterrupts :
    let s0 : State := { plain with cc := { plain.cc with e := true } }
    (plain.cfg.swi = true ∧ ∃ t1, pushEntire s0 = .ok () t1 ∧
      (∃ w t2, read16 0xFFFA { t1 with cc := { t1.cc with i := true, f := true } } = .ok w t2) ∧
      (∃ w t2, read16 0xFFF4 t1 = .ok w t2) ∧ ∃ w t2, read16 0xFFF2 t1 = .ok w t2) ∧
      ({ plain with cfg := { plain.cfg with swi := false } } : State).cfg.swi = false :=
  ⟨⟨rfl, _, rfl, ⟨_, _, rfl⟩, ⟨_, _, rfl⟩, _, _, rfl⟩, rfl⟩

theorem witness_NmiService :
    let s : State := { lines true true true 0x50 with nmiArmed := true }
    (s.world.lineNmi = true ∧ s.nmiArmed = true ∧ s.waitCwai = false) ∧
      (∃ t1 w t2, pushEntire { s.begun with cc := { s.cc with e := true } } = .ok () t1 ∧
        read16 0xFFFC { t1 with cc := { t1.cc with i := true, f := true } } = .ok w t2) ∧
      (let c : State := { s with waitCwai := true }
       c.waitCwai = true ∧ ∃ w t2,
         read16 0xFFFC { c.begun with cc := { c.cc with i := true, f := true } } = .ok w t2) :=
  ⟨⟨rfl, rfl, rfl⟩, ⟨_, _, _, rfl, rfl⟩, rfl, _, _, rfl⟩

theorem witness_FirqService :
    let s : State := lines true true true 0x90
    (s.nmiReady = false ∧ s.world.lineFirq = true ∧ s.cc.f = false ∧ s.waitCwai = false) ∧
      (∃ t0 t1 w t2, push16 .s s.pc { s.begun with cc := { s.cc with e := false } } = .ok () t0 ∧
        push8 .s ({ s.cc with e := false } : CC).toByte t0 = .ok () t1 ∧
        read16 0xFFF6 { t1 with cc := { t1.cc with f := true } } = .ok w t2) ∧
      (let c : State := { s with waitCwai := true }
       c.waitCwai = true ∧ ∃ w t2,
         read16 0xFFF6 { c.begun with cc := { c.cc with f := true } } = .ok w t2) :=
  ⟨⟨rfl, rfl, rfl, rfl⟩, ⟨_, _, _, _, rfl, rfl, rfl⟩, rfl, _, _, rfl⟩

theorem witness_IrqService :
    let s : State := lines true true true 0x40
    (s.nmiReady = false ∧ s.firqReady = false ∧ s.world.lineIrq = true ∧ s.cc.i = false ∧ s.waitCwai = false) ∧
      (∃ t1 w t2, pushEntire { s.begun with cc := { s.cc with e := true } } = .ok () t1 ∧
        read16 0xFFF8 { t1 with cc := { t1.cc with i := true } } = .ok w t2) ∧
      (let c : State := { s with waitCwai := true }
       c.waitCwai = true ∧ ∃ w t2,
         read16 0xFFF8 { c.begun with cc := { c.cc with i := true } } = .ok w t2) :=
  ⟨⟨rfl, rfl, rfl, rfl, rfl⟩, ⟨_, _, _, rfl, rfl⟩, rfl, _, _, rfl⟩

/-- A stack without a page, and vectors without a page. -/
theorem witness_FaultInInterruptEntry :
    let s : State := { lines false false true 0x00 with s := 0x4006 }
    let s' : State := noVectors (lines false false true 0x00)
    (s.nmiReady = false ∧ s.firqReady = false ∧ s.irqReady = true ∧ s.waitCwai = false) ∧
      (∃ k t1, pushEntire { s.begun with cc := { s.cc with e := true } } = .error k t1) ∧
      (s'.nmiReady = false ∧ s'.firqReady = false ∧ s'.irqReady = true ∧ s'.waitCwai = false) ∧
      ∃ t1 k t2, pushEntire { s'.begun with cc := { s'.cc with e := true } } = .ok () t1 ∧
        read16 0xFFF8 { t1 with cc := { t1.cc with i := true } } = .error k t2 :=
  ⟨⟨rfl, rfl, rfl, rfl⟩, ⟨_, _, rfl⟩, ⟨rfl, rfl, rfl, rfl⟩, _, _, _, rfl, rfl⟩

theorem witness_WaitStatesIdle :
    let s : State := { lines true true true 0xD0 with waitCwai := true }
    let s' : State := { lines false false false 0x00 with waitSync := true }
    (s.nmiReady = false ∧ s.firqReady = false ∧ s.irqReady = false ∧ s.waitCwai = true) ∧
      (s'.nmiReady = false ∧ s'.firqReady = false ∧ s'.irqReady = false ∧ s'.waitSync = true ∧
        s'.world.lineNmi = false ∧ s'.world.lineFirq = false ∧ s'.world.lineIrq = false) := by decide +kernel

theorem witness_InterruptThenReturnRestores :
    let s : State := { lines false true true 0x40 with waitSync := true }
    (s.world.wf = true ∧ s.nmiReady = false ∧ s.firqReady = false ∧ s.irqReady = true ∧ s.waitCwai = false) ∧
      s.world.ram (s.s - 12) 12 ∧ s.world.readSpot 0xFFF8 ≠ none ∧ ∃ t, step s = .next t := by
  refine ⟨by decide +kernel, ram_of_test (by decide +kernel), by decide +kernel, ?_⟩
  obtain ⟨t, ht, -⟩ := next_of_ends (s := { lines false true true 0x40 with waitSync := true }) (p := fun _ => true)
    (by decide +kernel)
  exact ⟨t, ht⟩

/-- With a size of PM that the pointers reach exactly. -/
theorem witness_StepKeepsInvariant_sized :
    let s : State := { code [0x13] with cfg := { Params.default with pmSize := some 0x10000 } }
    s.Inv ∧ ∃ t, step s = .next t :=
  ⟨⟨by decide +kernel, by decide +kernel, by decide +kernel⟩,
    (next_of_ends (p := fun _ => true) (by decide +kernel)).imp fun _ h => h.1⟩

theorem witness_StepKeepsInvariant :
    State.Inv (code [0x13]) ∧ ∃ t, step (code [0x13]) = .next t ∧ t.waitSync = true :=
  ⟨⟨by decide +kernel, by decide +kernel, by decide +kernel⟩, next_of_ends (p := fun t => t.waitSync) (by decide +kernel)⟩

/-- A step without a handler does not hold the clock, and one with a handler counts it. -/
theorem witness_StepAlwaysAnswers :
    (∃ t, step { code [0x12] with nmiArmed := true } = .next t ∧ (t.nmiArmed && !t.clockHeld) = true) ∧
      ∃ t, step (put handled 0x4000 [0xB6, 0x60, 0x00]) = .next t ∧ (t.handlerCount == 1) = true :=
  ⟨next_of_ends (p := fun t => t.nmiArmed && !t.clockHeld) (by decide +kernel),
    next_of_ends (p := fun t => t.handlerCount == 1) (by decide +kernel)⟩

/-- NOP writes nothing. -/
theorem witness_RegisterWriters :
    let s : State := { plain with nmiArmed := true }
    (∃ t, exec .nop s = .next t) ∧ s.nmiArmed = true ∧ Instr.nop.arms s.cfg = false ∧ Instr.nop.moves = none ∧
      [Instr.writesA, Instr.writesB, Instr.writesX, Instr.writesY, Instr.writesU, Instr.writesS, Instr.writesPC,
        Instr.writesDP].all (fun f => !f .nop) = true ∧ (∀ m, Instr.nop ≠ .cwai m) ∧ Instr.nop ≠ .sync :=
  ⟨⟨_, rfl⟩, rfl, rfl, rfl, rfl, fun _ => Instr.noConfusion, Instr.noConfusion⟩

theorem witness_FlagWriters :
    (∃ t, exec .abx { plain with cc := CC.ofByte 0xFF } = .next t) ∧
      [Instr.writesE, Instr.writesMasks, Instr.writesH, Instr.writesN, Instr.writesZ, Instr.writesV,
        Instr.writesC].all (fun f => !f .abx) = true := ⟨⟨_, rfl⟩, rfl⟩

theorem witness_MemoryFrameWithoutStores :
    plain.world.NoHandlers ∧ (∃ t, exec (.sta (.ext 0x2000)) plain = .next t) ∧
      (∃ t, exec (.lda (.mem (.ext 0x2000))) plain = .next t) ∧
      Instr.storesNothing (.lda (.mem (.ext 0x2000))) = true :=
  ⟨⟨rfl, rfl⟩, ⟨_, rfl⟩, ⟨_, rfl⟩, rfl⟩

/-- The byte just above what each instruction stores. -/
theorem witness_MemoryFrameOfStores :
    (plain.world.NoHandlers ∧ plain.world.wf = true) ∧
      (∃ a t1, ea (.ext 0xFFFF) plain = .ok a t1 ∧
        [Instr.neg (.ext 0xFFFF), .com (.ext 0xFFFF), .lsr (.ext 0xFFFF), .ror (.ext 0xFFFF), .asr (.ext 0xFFFF),
          .asl (.ext 0xFFFF), .rol (.ext 0xFFFF), .dec (.ext 0xFFFF), .inc (.ext 0xFFFF), .clr (.ext 0xFFFF),
          .sta (.ext 0xFFFF), .stb (.ext 0xFFFF), .std (.ext 0xFFFF), .stx (.ext 0xFFFF), .sty (.ext 0xFFFF),
          .stu (.ext 0xFFFF), .sts (.ext 0xFFFF), .jsr (.ext 0xFFFF)].all (fun i => runs i plain) = true) ∧
      [Instr.bsr 0x7F, .lbsr 0x8000, .pshs (regListOf 0xFF), .cwai 0xFF, .swi, .swi2, .swi3].all
        (fun i => runs i plain) = true ∧
      runs (.pshu (regListOf 0xFF)) { plain with u := 0x7000 } = true ∧
      (∀ loc, plain.world.readSpot 0x0001 = some loc → ¬ plain.world.reaches 0xFFFF 2 loc) ∧
      ∀ loc, plain.world.readSpot 0x8000 = some loc → ¬ plain.world.reaches (plain.s - 12) 12 loc :=
  ⟨⟨⟨rfl, rfl⟩, by decide +kernel⟩, ⟨_, _, rfl, by decide +kernel⟩, by decide +kernel, by decide +kernel,
    apart_of_test (by decide +kernel), apart_of_test (by decide +kernel)⟩

/-- The clock as high as the statement allows: no fault, a bus fault, a decode fault. -/
theorem witness_StepAdvancesTheClock :
    let late (s : State) : State := { s with clock := BitVec.ofNat 64 (2 ^ 64 - 21) }
    (∀ s ∈ [code [0x3F], code [0xB6, 0x60, 0x00], code [0x01]],
      (late s).cfg = Params.default ∧ (late s).clock.toNat + 20 < 2 ^ 64) ∧
      (∃ t, step (late (code [0x3F])) = .next t ∧ (t.fault == none) = true) ∧
      (∃ t, step (late (code [0xB6, 0x60, 0x00])) = .next t ∧ (t.fault == some .undefinedRead) = true) ∧
      ∃ t, step (late (code [0x01])) = .next t ∧ (t.fault == some .instruction) = true :=
  ⟨by decide +kernel, next_of_ends (p := fun t => t.fault == none) (by decide +kernel),
    next_of_ends (p := fun t => t.fault == some .undefinedRead) (by decide +kernel),
    next_of_ends (p := fun t => t.fault == some .instruction) (by decide +kernel)⟩

theorem witness_RunUsesItsBudget :
    (plain.cfg = Params.default ∧ plain.clock.toNat + 5 + 20 < 2 ^ 64) ∧
      (hostRun 5 (code [0x12, 0x12, 0x12])).code = none ∧ (hostRun 5 (code [0x12, 0x01])).code = some .instruction := by
  decide +kernel

end Sys2Proof.Tests
end

