-- ==== Sys2Proof/Proofs/Pull.lean ====
section
/-! The pulls of 45_stack_transfer.md R311: what a pull does when its read succeeds and when it faults, and that a word
pushed in plain memory is pulled back. -/

namespace Sys2Proof.Proofs

open Sys2Proof Sys2Proof.Machine Sys2Proof.Laws

/-- A read leaves the stack pointers alone, whatever serves it. -/
theorem read8_keeps_sp {s t : State} {a : Word} {v : Byte} (p : Sp) (h : read8 a s = .ok v t) : t.sp p = s.sp p := by
  have hbus : BusRel fun s t => t.sp p = s.sp p :=
    busRel_field (fun s => s.sp p) (fun s k => by cases p <;> rfl) (fun s n => by cases p <;> simp [State.sp])
      fun s w n => by cases p <;> rfl
  have hkeep := keeps_read8 hbus a s
  rwa [final_ok h] at hkeep

/-- The pointer moves after a read that succeeded (45_stack_transfer.md R311). -/
theorem pull8_ok {p : Sp} {s t : State} {v : Byte} (h : read8 (s.sp p) s = .ok v t) :
    pull8 p s = .ok v (t.setSp p (s.sp p + 1)) := by
  rw [← read8_keeps_sp p h]
  unfold pull8
  rw [look_bind_apply, bind_ok h]
  rfl

/-- A read that faults ends the pull before the pointer moves (45_stack_transfer.md R311). -/
theorem pull8_fault {p : Sp} {s t : State} {k : Fault} (h : read8 (s.sp p) s = .error k t) :
    pull8 p s = .error k t := by
  unfold pull8
  rw [look_bind_apply, bind_error h]

/-- The one way a pull can fault: nothing serves the byte at the pointer, and only the fault is recorded. -/
theorem eq_of_pull8_error {p : Sp} {s t : State} {k : Fault} (h : pull8 p s = .error k t) :
    k = .undefinedRead ∧ t = { s with fault := some .undefinedRead } := by
  rcases read8_cases (s.sp p) s with ⟨_, -, hr⟩ | ⟨_, -, -, hr⟩ | ⟨-, -, hr⟩
  · rw [pull8_ok hr] at h
    cases h
  · rw [pull8_ok hr] at h
    cases h
  · rw [pull8_fault hr] at h
    cases h
    exact ⟨rfl, rfl⟩

/-- A word is pulled in two pulls, the high byte first (45_stack_transfer.md R311). -/
theorem pull16_ok {p : Sp} {s t t' : State} {h l : Byte} (hh : pull8 p s = .ok h t) (hl : pull8 p t = .ok l t') :
    pull16 p s = .ok (cat h l) t' := by
  unfold pull16
  rw [bind_ok hh, bind_ok hl]
  rfl

/-- A pull of a word that lies at the pointer, the high byte lower. -/
theorem pull16_of_word {p : Sp} {q : State} {w : Word} (hh : q.world.peek (q.sp p) = some (hi w))
    (hl : q.world.peek (q.sp p + 1) = some (lo w)) : pull16 p q = .ok w (q.setSp p (q.sp p + 2)) := by
  rw [pull16_peek hh hl, cat_hi_lo]

/-- A word pushed in plain memory lies high byte lower, and nothing but the pointer and memory changes
(45_stack_transfer.md R310). -/
theorem push16_ram {p : Sp} {s : State} (w : Word) (hwf : s.world.wf = true) (hram : s.world.ram (s.sp p - 2) 2) :
    ∃ pm' : Memory,
      push16 p w s = .ok () { s.setSp p (s.sp p - 2) with world := { s.world with pm := pm' } } ∧
      ({ s.world with pm := pm' } : World).peek (s.sp p - 2) = some (hi w) ∧
      ({ s.world with pm := pm' } : World).peek (s.sp p - 1) = some (lo w) := by
  obtain ⟨pm', hpush, -, hbytes, -⟩ := pushBytes_ram p [hi w, lo w] s hwf hram
  have hh := hbytes 0 Nat.zero_lt_two
  have hl := hbytes 1 Nat.one_lt_two
  rw [add_zero_ofNat] at hh
  rw [show BitVec.ofNat 16 1 = 1 from rfl, List.length_cons, sub_succ_add_one] at hl
  exact ⟨pm', hpush, hh, hl⟩

/-- A word pushed in plain memory is pulled back, and the pointer ends where it started (45_stack_transfer.md R311). -/
theorem push16_then_pull16 {p : Sp} {s : State} (w : Word) (hwf : s.world.wf = true)
    (hram : s.world.ram (s.sp p - 2) 2) :
    ∃ pm' : Memory, ∃ q : State, q = { s.setSp p (s.sp p - 2) with world := { s.world with pm := pm' } } ∧
      push16 p w s = .ok () q ∧
      q.world.peek (s.sp p - 2) = some (hi w) ∧ q.world.peek (s.sp p - 1) = some (lo w) ∧
      pull16 p q = .ok w { s with world := q.world } := by
  obtain ⟨pm', hpush, hh, hl⟩ := push16_ram w hwf hram
  refine ⟨pm', _, rfl, hpush, hh, hl, ?_⟩
  have hpointer : ({ s.setSp p (s.sp p - 2) with world := { s.world with pm := pm' } } : State).sp p = s.sp p - 2 := by
    rw [withWorld_sp, setSp_sp]
  have hnext : s.sp p - 2 + 1 = s.sp p - 1 := sub_succ_add_one (s.sp p) 1
  rw [pull16_of_word (w := w) (by rw [hpointer]; exact hh) (by rw [hpointer, hnext]; exact hl), hpointer,
    BitVec.sub_add_cancel, setSp_withWorld, setSp_setSp, setSp_same]

/-- Settles O35: a pull by what its read can do, the word by two pulls, and the word pushed by the bytes that a push
leaves in plain memory. -/
theorem pullReadsThenMoves : Obligations.PullReadsThenMoves := fun _ _ _ _ _ _ w =>
  ⟨pull8_ok, fun _ => eq_of_pull8_error, pull16_ok, push16_then_pull16 w⟩

end Sys2Proof.Proofs
end

