-- ==== Sys2Proof/Proofs/Service.lean ====
section
/-! The interrupt services of 60_exceptions.md R373 to R375 as one service of an `Entry`, and what an entry that
meets no fault leaves. -/

namespace Sys2Proof.Proofs

open Sys2Proof Sys2Proof.Machine Sys2Proof.Laws

/-! Stacking the frame -/

theorem pushFrame_entire (s : State) : pushFrame .entire s = pushEntire { s with cc := { s.cc with e := true } } := rfl

theorem pushFrame_stacked (s : State) : pushFrame .stacked s = .ok () s := rfl

theorem push16_keeps_cc {p : Sp} {w : Word} {s t : State} (h : push16 p w s = .ok () t) : t.cc = s.cc := by
  have hkeep := keeps_push16 (busRel_field State.cc (fun _ _ => rfl) tick_cc fun _ _ _ => rfl) (fun _ _ _ => rfl) p w
    (fun s w => setSp_cc s p w) s
  rwa [final_ok h] at hkeep

/-- PC, then CC with E clear (60_exceptions.md R374). -/
theorem pushFrame_short_ok {s t0 t1 : State}
    (hpc : push16 .s s.pc { s with cc := { s.cc with e := false } } = .ok () t0)
    (hcc : push8 .s ({ s.cc with e := false } : CC).toByte t0 = .ok () t1) : pushFrame .short s = .ok () t1 := by
  have hkept : t0.cc = { s.cc with e := false } := push16_keeps_cc hpc
  rw [← hkept] at hcc
  exact (bind_ok hpc).trans hcc

/-! Taking the exception -/

/-- An entry that meets no fault: the frame, the masks, the vector. -/
theorem takeException_ok {f : Frame} {mi mf : Bool} {vector w : Word} {s t1 t2 : State}
    (hframe : pushFrame f s = .ok () t1)
    (hvector : read16 vector { t1 with cc := { t1.cc with i := t1.cc.i || mi, f := t1.cc.f || mf } } = .ok w t2) :
    takeException f mi mf vector s = .ok () { t2 with pc := w } := by
  unfold takeException
  rw [bind_ok hframe, change_bind_apply, bind_ok hvector, change_apply]

/-- No entry changes a parameter. -/
theorem takeException_keeps_cfg {f : Frame} {mi mf : Bool} {vector : Word} {s t : State}
    (h : takeException f mi mf vector s = .ok () t) : t.cfg = s.cfg := by
  have hkeep := keeps_takeException (busRel_field State.cfg (fun _ _ => rfl) tick_cfg fun _ _ _ => rfl)
    (fun _ _ _ => rfl) f mi mf vector (fun _ _ => rfl) (fun _ _ => rfl) (fun _ => rfl) (fun _ _ => rfl) s
  rwa [final_ok h] at hkeep

/-! The three services -/

/-- In what the three services differ. -/
structure Entry where
  /-- what is stacked outside the CWAI wait -/
  frame : Frame
  maskI : Bool
  maskF : Bool
  vector : Word
  cycles : Params → Nat
  /-- what becomes of the line -/
  release : Params → World → World

/-- 60_exceptions.md R373. -/
def nmiEntry : Entry := ⟨.entire, true, true, 0xFFFC, Params.cycNmi, fun _ w => { w with lineNmi := false }⟩

/-- 60_exceptions.md R374. -/
def firqEntry : Entry :=
  ⟨.short, false, true, 0xFFF6, Params.cycFirq,
    fun c w => { w with lineFirq := w.lineFirq && !c.maskableAutoclear }⟩

/-- 60_exceptions.md R375. -/
def irqEntry : Entry :=
  ⟨.entire, true, false, 0xFFF8, Params.cycIrq, fun c w => { w with lineIrq := w.lineIrq && !c.maskableAutoclear }⟩

/-- The service of an entry. -/
def Entry.service (e : Entry) : Act Unit := do
  takeException (← entryFrame e.frame) e.maskI e.maskF e.vector
  clearWaits
  spend (← look fun s => e.cycles s.cfg)
  change fun s => { s with world := e.release s.cfg s.world }

theorem serviceNmi_eq : serviceNmi = nmiEntry.service := rfl

theorem serviceFirq_eq : serviceFirq = firqEntry.service := rfl

theorem serviceIrq_eq : serviceIrq = irqEntry.service := rfl

/-- The state after a service whose vector read gave `w` and left `t`. -/
def Entry.entered (e : Entry) (c : Params) (w : Word) (t : State) : State :=
  { ({ t with pc := w, waitCwai := false, waitSync := false }.tick (e.cycles c)) with world := e.release c t.world }

/-- The condition codes with the masks of an entry set. -/
def Entry.masked (e : Entry) (k : CC) : CC := { k with i := k.i || e.maskI, f := k.f || e.maskF }

theorem nmiEntry_masked (k : CC) : nmiEntry.masked k = { k with i := true, f := true } := by
  simp [Entry.masked, nmiEntry]

theorem firqEntry_masked (k : CC) : firqEntry.masked k = { k with f := true } := by
  simp [Entry.masked, firqEntry]

theorem irqEntry_masked (k : CC) : irqEntry.masked k = { k with i := true } := by
  simp [Entry.masked, irqEntry]

/-- A service that meets no fault: the frame (none from the CWAI wait), the masks, the vector. -/
theorem Entry.service_ok {e : Entry} {s t1 t2 : State} {w : Word}
    (hframe : pushFrame (if s.waitCwai then .stacked else e.frame) s = .ok () t1)
    (hvector : read16 e.vector { t1 with cc := e.masked t1.cc } = .ok w t2) :
    e.service s = .ok () (e.entered s.cfg w t2) := by
  have htaken := takeException_ok hframe hvector
  have hcfg : t2.cfg = s.cfg := takeException_keeps_cfg (t := { t2 with pc := w }) htaken
  unfold Entry.service entryFrame clearWaits
  rw [look_bind_apply, bind_ok htaken]
  simp only [change_bind_apply, look_bind_apply, spend_bind_apply, change_apply, tick_cfg, tick_world, hcfg,
    Entry.entered]

/-- A step whose interrupt check serves an interrupt ends where the service ends. -/
theorem step_served {m : Act Unit} {s t : State} (hcheck : interruptCheck s.begun = served m s.begun)
    (hm : m s.begun = .ok () t) : step s = .next t := by
  have hserved : interruptCheck s.begun = .ok .serviced t := hcheck.trans (bind_ok hm)
  unfold step runStep beforeExec
  rw [bind_ok hserved]
  rfl

/-- Outside the CWAI wait the frame of the entry is stacked. -/
theorem step_stacking {e : Entry} {s t1 t2 : State} {w : Word}
    (hcheck : interruptCheck s.begun = served e.service s.begun) (hwait : s.waitCwai = false)
    (hframe : pushFrame e.frame s.begun = .ok () t1)
    (hvector : read16 e.vector { t1 with cc := e.masked t1.cc } = .ok w t2) :
    step s = .next (e.entered s.cfg w t2) :=
  step_served hcheck (Entry.service_ok (by simpa [hwait] using hframe) hvector)

/-- From the CWAI wait nothing is stacked (60_exceptions.md R378). -/
theorem step_stacked {e : Entry} {s t : State} {w : Word}
    (hcheck : interruptCheck s.begun = served e.service s.begun) (hwait : s.waitCwai = true)
    (hvector : read16 e.vector { s.begun with cc := e.masked s.cc } = .ok w t) :
    step s = .next (e.entered s.cfg w t) :=
  step_served hcheck (Entry.service_ok (by simp [hwait, pushFrame_stacked]) hvector)

/-- Settles O47: an armed NMI is served whatever else is asserted, by `nmiEntry`. -/
theorem nmiService : Obligations.NmiService := by
  intro s t1 t2 w hline harmed
  have hready : s.begun.nmiReady = true := by simp [State.nmiReady, hline, harmed]
  have hcheck : interruptCheck s.begun = served nmiEntry.service s.begun :=
    serviceNmi_eq ▸ interruptCheck_nmi hready
  refine ⟨fun hwait hpush hread => step_stacking hcheck hwait ((pushFrame_entire _).trans hpush) ?_,
    fun hwait hread => step_stacked hcheck hwait ?_⟩ <;>
    rwa [nmiEntry_masked]

/-- Settles O48: with no armed NMI an unmasked FIRQ is served, by `firqEntry`. -/
theorem firqService : Obligations.FirqService := by
  intro s t0 t1 t2 w hnmi hline hmask
  have hready : s.begun.firqReady = true := by simp [State.firqReady, hline, hmask]
  have hcheck : interruptCheck s.begun = served firqEntry.service s.begun :=
    serviceFirq_eq ▸ interruptCheck_firq hnmi hready
  refine ⟨fun hwait hpc hcc hread => step_stacking hcheck hwait (pushFrame_short_ok hpc hcc) ?_,
    fun hwait hread => step_stacked hcheck hwait ?_⟩ <;>
    rwa [firqEntry_masked]

/-- Settles O49: with neither an armed NMI nor an unmasked FIRQ an unmasked IRQ is served, by `irqEntry`. -/
theorem irqService : Obligations.IrqService := by
  intro s t1 t2 w hnmi hfirq hline hmask
  have hready : s.begun.irqReady = true := by simp [State.irqReady, hline, hmask]
  have hcheck : interruptCheck s.begun = served irqEntry.service s.begun :=
    serviceIrq_eq ▸ interruptCheck_irq hnmi hfirq hready
  refine ⟨fun hwait hpush hread => step_stacking hcheck hwait ((pushFrame_entire _).trans hpush) ?_,
    fun hwait hread => step_stacked hcheck hwait ?_⟩ <;>
    rwa [irqEntry_masked]

end Sys2Proof.Proofs
end

