-- ==== Sys2Proof/Proofs/Reset.lean ====
section
/-! `Reset()` of 70_reset_and_hazards.md R420 and R421: what it sets before its vector read, and what a read of the bus
that succeeds or faults can change after that. -/

namespace Sys2Proof.Proofs

open Sys2Proof Sys2Proof.Machine Sys2Proof.Laws

/-! What a read can change -/

/-- What faults in a composed action is its first part, or the rest after a first part that ended well. -/
theorem bind_eq_error {α β : Type} {m : Act α} {f : α → Act β} {s t : State} {k : Fault}
    (h : (m >>= f) s = .error k t) : m s = .error k t ∨ ∃ v t1, m s = .ok v t1 ∧ f v t1 = .error k t := by
  cases hm : m s with
  | ok v t1 => exact .inr ⟨v, t1, rfl, (bind_ok hm).symm.trans h⟩
  | error j t1 =>
    rw [bind_error hm] at h
    cases h
    exact .inl rfl

/-- A read that succeeds changes `world` and the count of handler runs alone (20_memory.md R66, R67). -/
theorem eq_of_read8_ok {s t : State} {a : Word} {v : Byte} (h : read8 a s = .ok v t) :
    ∃ w n, t = { s with world := w, handlerCount := n } := by
  rcases read8_cases a s with ⟨_, -, hr⟩ | ⟨_, -, -, hr⟩ | ⟨-, -, hr⟩ <;> rw [hr] at h <;> cases h
  · exact ⟨_, _, rfl⟩
  · exact ⟨_, _, rfl⟩

/-- A read that a raw pointer serves changes nothing (20_memory.md R64). -/
theorem eq_of_read8_ok_pointer {s t : State} {a : Word} {v : Byte} (hspot : s.world.readSpot a ≠ none)
    (h : read8 a s = .ok v t) : t = s := by
  obtain ⟨loc, hloc⟩ := Option.ne_none_iff_exists'.mp hspot
  rw [read8_pointer hloc] at h
  cases h
  rfl

/-- The one way a read can fault: nothing serves the page, and only the fault is recorded (20_memory.md R64). -/
theorem eq_of_read8_error {s t : State} {a : Word} {k : Fault} (h : read8 a s = .error k t) :
    k = .undefinedRead ∧ t = { s with fault := some .undefinedRead } := by
  rcases read8_cases a s with ⟨_, -, hr⟩ | ⟨_, -, -, hr⟩ | ⟨-, -, hr⟩ <;> rw [hr] at h <;> cases h
  exact ⟨rfl, rfl⟩

/-- A word read that faults: on its first byte, or on the second after what a handler did for the first. -/
theorem eq_of_read16_error {s t : State} {a : Word} {k : Fault} (h : read16 a s = .error k t) :
    ∃ w n, t = { s with fault := some .undefinedRead, world := w, handlerCount := n } := by
  rcases bind_eq_error h with hfirst | ⟨_, _, hfirst, hrest⟩
  · obtain ⟨-, rfl⟩ := eq_of_read8_error hfirst
    exact ⟨_, _, rfl⟩
  · obtain ⟨w, n, rfl⟩ := eq_of_read8_ok hfirst
    rcases bind_eq_error hrest with hsecond | ⟨_, _, -, hpure⟩
    · obtain ⟨-, rfl⟩ := eq_of_read8_error hsecond
      exact ⟨w, n, rfl⟩
    · cases hpure

/-- A word whose first byte nothing serves. -/
theorem read16_fault {s : State} {a : Word} (hspot : s.world.readSpot a = none)
    (hhandler : s.world.readHandler a = none) :
    read16 a s = .error .undefinedRead { s with fault := some .undefinedRead } :=
  bind_error (read8_fault hspot hhandler)

/-- Addresses of one page have a raw read pointer together (20_memory.md R62). -/
theorem readSpot_eq_none_of_page {w : World} {a b : Word} (hpage : pageOf a = pageOf b)
    (h : w.readSpot a = none) : w.readSpot b = none := by
  unfold World.readSpot at h ⊢
  rw [← hpage]
  cases hfind : SMap.find w.rp (pageOf a) with
  | none => rfl
  | some base => simp [hfind] at h

/-! `Reset()` -/

/-- What `Reset()` sets before its vector read, with `next_cb` as 70_reset_and_hazards.md R431 sets it. -/
theorem cleared_eq (s : State) : s.cleared =
    { s with
      cc := ⟨false, true, false, true, false, false, false, false⟩
      nmiArmed := false
      waitCwai := false
      waitSync := false
      dp := if s.cfg.resetDpZero then 0x00 else s.dp
      clock := 0
      clockHeld := true
      fault := none
      nextCb := (s.cfg.period.map (BitVec.ofNat 64)).getD s.nextCb } := by
  have hmasks : CC.ofByte 0x50 = ⟨false, true, false, true, false, false, false, false⟩ := by decide
  unfold State.cleared State.rearmCallback
  rw [hmasks]
  cases s.cfg.period <;> rfl

/-- PC is the vector, once both of its bytes are read (70_reset_and_hazards.md R420). -/
theorem hostReset_ok {s s0 t : State} {w : Word} (hs0 : s.cleared = s0) (h : read16 0xFFFE s0 = .ok w t) :
    hostReset s = ⟨t.fault, { t with pc := w }⟩ := by
  unfold hostReset
  rw [hs0, h]

/-- A vector read that faults ends the reset where it stands (70_reset_and_hazards.md R421). -/
theorem hostReset_error {s s0 t : State} {k : Fault} (hs0 : s.cleared = s0) (h : read16 0xFFFE s0 = .error k t) :
    hostReset s = ⟨t.fault, t⟩ := by
  unfold hostReset
  rw [hs0, h]

/-- Settles O1: each of the two reads changes `world` and `handlerCount` alone, and nothing where a raw pointer serves
the vector page. -/
theorem resetLoadsTheVector : Obligations.ResetLoadsTheVector := by
  intro s t1 t2 h l s0 hhigh hlow
  have hreset := hostReset_ok (cleared_eq s) (read16_ok hhigh hlow)
  have hpointer : s.world.readSpot 0xFFFE ≠ none → t2.world = s.world := fun hspot => by
    obtain rfl : t1 = s0 := eq_of_read8_ok_pointer hspot hhigh
    have hnext : s0.world.readSpot 0xFFFF ≠ none := fun hnone => hspot (readSpot_eq_none_of_page (by decide) hnone)
    rw [eq_of_read8_ok_pointer hnext hlow]
  obtain ⟨_, _, rfl⟩ := eq_of_read8_ok hhigh
  obtain ⟨_, _, rfl⟩ := eq_of_read8_ok hlow
  exact ⟨hreset, rfl, hpointer⟩

/-- Settles O2: a faulting word read records UndefinedRead and writes no register, so PC is kept. -/
theorem resetFaultKeepsPC : Obligations.ResetFaultKeepsPC := by
  intro s t k s0
  refine ⟨fun hread => ?_, fun hspot hhandler => hostReset_error (cleared_eq s) (read16_fault hspot hhandler)⟩
  have hreset := hostReset_error (cleared_eq s) hread
  obtain ⟨_, _, rfl⟩ := eq_of_read16_error hread
  exact hreset

end Sys2Proof.Proofs
end

