-- ==== Sys2Proof/Proofs/Encoding.lean ====
section
/-! The encoding of 30_encoding.md, both ways: the decoder gives back what the encoder wrote, and what it reads has the
length that the encoder gives it. -/

namespace Sys2Proof.Proofs

open Sys2Proof Sys2Proof.Machine Sys2Proof.Laws

/-! The opcode pages -/

/-- The row of an opcode byte is one of the rows. -/
theorem mem_of_rowOf {rows : List Row} {n : Nat} {sh : Shape} (h : rowOf rows n = some sh) : (n, sh) ∈ rows := by
  induction rows with
  | nil => cases h
  | cons r rows ih =>
    obtain ⟨k, sh'⟩ := r
    unfold rowOf at h
    split at h
    next hk =>
      cases h
      rw [hk]
      exact List.mem_cons_self ..
    next => exact List.mem_cons_of_mem _ (ih h)

/-- Where no opcode byte has two rows, a row is the row of its opcode byte. -/
theorem rowOf_of_mem {rows : List Row} (hnodup : (rows.map Prod.fst).Nodup) {r : Row} (h : r ∈ rows) :
    rowOf rows r.1 = some r.2 := by
  induction rows with
  | nil => cases h
  | cons r' rows ih =>
    rw [List.map_cons, List.nodup_cons] at hnodup
    obtain ⟨hfresh, hnodup⟩ := hnodup
    unfold rowOf
    cases h with
    | head => exact if_pos rfl
    | tail _ h =>
      rw [if_neg fun (heq : r.1 = r'.1) => hfresh (heq ▸ List.mem_map_of_mem h)]
      exact ih hnodup h

/-- Behind the bytes of an opcode number, `base` being what its page byte adds, the decoder reads the operand of its
row. -/
def IsPage (base : Nat) (rows : List Row) : Prop :=
  ∀ r ∈ rows, ∀ (dc : Bool) (bs : List Byte), decode dc (opBytes (base + r.1) ++ bs) = r.2.take dc bs

theorem IsPage.mono {base : Nat} {rows rows' : List Row} (hp : IsPage base rows) (hsub : ∀ r ∈ rows', r ∈ rows) :
    IsPage base rows' :=
  fun r hr => hp r (hsub r hr)

/-- A number below 256 as one opcode byte. -/
theorem opBytes_low {n : Nat} (h : n < 256) : opBytes n = [BitVec.ofNat 8 n] := if_pos h

theorem toNat_ofNat_low {n : Nat} (h : n < 256) : (BitVec.ofNat 8 n).toNat = n := by
  rw [BitVec.toNat_ofNat, Nat.mod_eq_of_lt h]

/-- The page byte 0x10 in front of an opcode byte. -/
theorem opBytes_page2 {n : Nat} (h : n < 256) : opBytes (0x1000 + n) = [0x10, BitVec.ofNat 8 n] := by
  unfold opBytes
  rw [if_neg (by omega), show (0x1000 + n) / 256 = 0x10 by omega, BitVec.ofNat_add]
  simp

/-- The page byte 0x11 in front of an opcode byte. -/
theorem opBytes_page3 {n : Nat} (h : n < 256) : opBytes (0x1100 + n) = [0x11, BitVec.ofNat 8 n] := by
  unfold opBytes
  rw [if_neg (by omega), show (0x1100 + n) / 256 = 0x11 by omega, BitVec.ofNat_add]
  simp

theorem page1_opcodes : ∀ n ∈ page1.map Prod.fst, n < 256 ∧ n ≠ 0x10 ∧ n ≠ 0x11 := by decide +kernel
theorem page2_opcodes : ∀ n ∈ page2.map Prod.fst, n < 256 := by decide +kernel
theorem page3_opcodes : ∀ n ∈ page3.map Prod.fst, n < 256 := by decide +kernel
theorem page1_nodup : (page1.map Prod.fst).Nodup := by decide +kernel
theorem page2_nodup : (page2.map Prod.fst).Nodup := by decide +kernel
theorem page3_nodup : (page3.map Prod.fst).Nodup := by decide +kernel

theorem isPage_page1 : IsPage 0 page1 := by
  intro r hr dc bs
  obtain ⟨hlt, hne2, hne3⟩ := page1_opcodes r.1 (List.mem_map_of_mem hr)
  have hop := toNat_ofNat_low hlt
  rw [Nat.zero_add, opBytes_low hlt]
  refine decode_page1 (fun h => hne2 ?_) (fun h => hne3 ?_) (by rw [hop]; exact rowOf_of_mem page1_nodup hr)
  · rw [← hop, h]
    rfl
  · rw [← hop, h]
    rfl

theorem isPage_page2 : IsPage 0x1000 page2 := by
  intro r hr dc bs
  have hlt := page2_opcodes r.1 (List.mem_map_of_mem hr)
  rw [opBytes_page2 hlt]
  exact decode_page2 (by rw [toNat_ofNat_low hlt]; exact rowOf_of_mem page2_nodup hr)

theorem isPage_page3 : IsPage 0x1100 page3 := by
  intro r hr dc bs
  have hlt := page3_opcodes r.1 (List.mem_map_of_mem hr)
  rw [opBytes_page3 hlt]
  exact decode_page3 (by rw [toNat_ofNat_low hlt]; exact rowOf_of_mem page3_nodup hr)

theorem isPage_unary : IsPage 0 page1Unary := isPage_page1.mono fun r h => by simp [page1, h]
theorem isPage_accumulator : IsPage 0 page1Accumulator := isPage_page1.mono fun r h => by simp [page1, h]
theorem isPage_branches : IsPage 0 page1Branches := isPage_page1.mono fun r h => by simp [page1, h]
theorem isPage_misc : IsPage 0 page1Misc := isPage_page1.mono fun r h => by simp [page1, h]
theorem isPage_onA : IsPage 0 page1OnA := isPage_page1.mono fun r h => by simp [page1, h]
theorem isPage_onB : IsPage 0 page1OnB := isPage_page1.mono fun r h => by simp [page1, h]
theorem isPage_wide : IsPage 0 page1Wide := isPage_page1.mono fun r h => by simp [page1, h]

/-! Decoding what was encoded -/

/-- Behind the opcode bytes of the instruction the decoder reads the operand of a format. -/
def Listed (i : Instr) (sh : Shape) : Prop :=
  ∀ (dc : Bool) (bs : List Byte), decode dc (opBytes i.opNum ++ bs) = sh.take dc bs

/-- An instruction whose opcode number has a row in a page. -/
theorem IsPage.listed {base : Nat} {rows : List Row} (hp : IsPage base rows) (n : Nat) {i : Instr} {sh : Shape}
    (hn : i.opNum = base + n) (hr : rowOf rows n = some sh) : Listed i sh := by
  intro dc bs
  rw [hn]
  exact hp _ (mem_of_rowOf hr) dc bs

/-- The decoder gives the instruction back, whatever follows its bytes. -/
def RoundTrips (i : Instr) : Prop :=
  ∀ (dc : Bool) (rest : List Byte), decode dc (encode i ++ rest) = .ok i rest

/-- A listed instruction whose operand survives its format is given back. -/
theorem Listed.roundTrips {i : Instr} {sh : Shape} (hl : Listed i sh)
    (hs : ∀ dc rest, sh.take dc (i.operandBytes ++ rest) = .ok i rest) : RoundTrips i := by
  intro dc rest
  unfold encode
  rw [List.append_assoc, hl, hs]

theorem roundTrips_inh {i : Instr} (hl : Listed i (.inh i)) (hb : i.operandBytes = []) : RoundTrips i :=
  hl.roundTrips fun dc rest => by rw [hb]; rfl

theorem roundTrips_imm8 {f : Byte → Instr} {b : Byte} (hl : Listed (f b) (.imm8 f))
    (hb : (f b).operandBytes = [b]) : RoundTrips (f b) :=
  hl.roundTrips fun dc rest => by rw [hb]; rfl

theorem roundTrips_dir {f : Byte → Instr} {d : Byte} (hl : Listed (f d) (.dir f))
    (hb : (f d).operandBytes = [d]) : RoundTrips (f d) :=
  hl.roundTrips fun dc rest => by rw [hb]; rfl

theorem roundTrips_rel8 {f : Byte → Instr} {n : Byte} (hl : Listed (f n) (.rel8 f))
    (hb : (f n).operandBytes = [n]) : RoundTrips (f n) :=
  hl.roundTrips fun dc rest => by rw [hb]; rfl

theorem roundTrips_imm16 {f : Word → Instr} {w : Word} (hl : Listed (f w) (.imm16 f))
    (hb : (f w).operandBytes = wordBytes w) : RoundTrips (f w) :=
  hl.roundTrips fun dc rest => by
    rw [hb]
    exact congrArg (Parsed.map f) (take16_wordBytes w rest)

theorem roundTrips_ext {f : Word → Instr} {a : Word} (hl : Listed (f a) (.ext f))
    (hb : (f a).operandBytes = wordBytes a) : RoundTrips (f a) :=
  hl.roundTrips fun dc rest => by
    rw [hb]
    exact congrArg (Parsed.map f) (take16_wordBytes a rest)

theorem roundTrips_rel16 {f : Word → Instr} {n : Word} (hl : Listed (f n) (.rel16 f))
    (hb : (f n).operandBytes = wordBytes n) : RoundTrips (f n) :=
  hl.roundTrips fun dc rest => by
    rw [hb]
    exact congrArg (Parsed.map f) (take16_wordBytes n rest)

theorem roundTrips_idx {f : Idx → Instr} {x : Idx} (hl : Listed (f x) (.idx f))
    (hb : (f x).operandBytes = x.bytes) : RoundTrips (f x) :=
  hl.roundTrips fun dc rest => by
    rw [hb]
    exact congrArg (Parsed.map f) (takeIdx_bytes dc x rest)

theorem roundTrips_list {f : RegList → Instr} {l : RegList} (hl : Listed (f l) (.list f))
    (hb : (f l).operandBytes = [l.byte]) : RoundTrips (f l) :=
  hl.roundTrips fun dc rest => by
    rw [hb]
    exact congrArg (fun r => Parsed.ok (f r) rest) (regListOf_byte l)

theorem roundTrips_pair {f : Reg → Reg → Instr} {r1 r2 : Reg} (hl : Listed (f r1 r2) (.pair f))
    (hb : (f r1 r2).operandBytes = [r1.code ++ r2.code]) (hw : sameWidth r1 r2 = true) : RoundTrips (f r1 r2) :=
  hl.roundTrips fun dc rest => by
    rw [hb]
    exact takePair_code f r1 r2 rest hw

/-- The three rows of a one-operand operation on memory. -/
theorem roundTrips_unary {f : Mem → Instr} {base : Nat} (k : Nat) (hp : IsPage base (memRows k f))
    (hn : ∀ m, (f m).opNum = base + k + m.unaryRow) (hb : ∀ m, (f m).operandBytes = m.bytes) (m : Mem) :
    RoundTrips (f m) := by
  have listed {sh : Shape} (hmem : (k + m.unaryRow, sh) ∈ memRows k f) : Listed (f m) sh := fun dc bs => by
    rw [hn, Nat.add_assoc]
    exact hp _ hmem dc bs
  cases m with
  | dir d => exact roundTrips_dir (f := fun d => f (.dir d)) (listed (by simp [memRows, Mem.unaryRow])) (hb _)
  | idx x =>
    exact roundTrips_idx (f := fun x => f (.idx x)) (listed (by simp [memRows, Mem.unaryRow, Nat.add_comm])) (hb _)
  | ext a =>
    exact roundTrips_ext (f := fun a => f (.ext a)) (listed (by simp [memRows, Mem.unaryRow, Nat.add_comm])) (hb _)

/-- The three rows of a store or of JSR. -/
theorem roundTrips_store {f : Mem → Instr} {base : Nat} (k : Nat) (hp : IsPage base (storeRows k f))
    (hn : ∀ m, (f m).opNum = base + k + m.storeRow) (hb : ∀ m, (f m).operandBytes = m.bytes) (m : Mem) :
    RoundTrips (f m) := by
  have listed {sh : Shape} (hmem : (k + m.storeRow, sh) ∈ storeRows k f) : Listed (f m) sh := fun dc bs => by
    rw [hn, Nat.add_assoc]
    exact hp _ hmem dc bs
  cases m with
  | dir d => exact roundTrips_dir (f := fun d => f (.dir d)) (listed (by simp [storeRows, Mem.storeRow])) (hb _)
  | idx x => exact roundTrips_idx (f := fun x => f (.idx x)) (listed (by simp [storeRows, Mem.storeRow])) (hb _)
  | ext a => exact roundTrips_ext (f := fun a => f (.ext a)) (listed (by simp [storeRows, Mem.storeRow])) (hb _)

/-- The four rows of an 8-bit source. -/
theorem roundTrips_src8 {f : Src8 → Instr} {base : Nat} (k : Nat) (hp : IsPage base (src8Rows k f))
    (hn : ∀ o, (f o).opNum = base + k + o.row) (hb : ∀ o, (f o).operandBytes = o.bytes) (o : Src8) :
    RoundTrips (f o) := by
  cases o with
  | imm b =>
    refine roundTrips_imm8 (f := fun b => f (.imm b)) (fun dc bs => ?_) (hb _)
    rw [hn]
    exact hp _ (List.mem_cons_self ..) dc bs
  | mem m =>
    refine roundTrips_store (f := fun m => f (.mem m)) (k + 0x10) (hp.mono fun r h => List.mem_cons_of_mem _ h) (fun m => ?_)
      (fun m => hb (.mem m)) m
    rw [hn]
    exact (Nat.add_assoc (base + k) 0x10 m.storeRow).symm

/-- The four rows of a 16-bit source. -/
theorem roundTrips_src16 {f : Src16 → Instr} {base : Nat} (k : Nat) (hp : IsPage base (src16Rows k f))
    (hn : ∀ o, (f o).opNum = base + k + o.row) (hb : ∀ o, (f o).operandBytes = o.bytes) (o : Src16) :
    RoundTrips (f o) := by
  cases o with
  | imm w =>
    refine roundTrips_imm16 (f := fun w => f (.imm w)) (fun dc bs => ?_) (hb _)
    rw [hn]
    exact hp _ (List.mem_cons_self ..) dc bs
  | mem m =>
    refine roundTrips_store (f := fun m => f (.mem m)) (k + 0x10) (hp.mono fun r h => List.mem_cons_of_mem _ h) (fun m => ?_)
      (fun m => hb (.mem m)) m
    rw [hn]
    exact (Nat.add_assoc (base + k) 0x10 m.storeRow).symm

/-- Every well-formed instruction is given back, by the rows of its constructor. -/
theorem instr_roundTrips (i : Instr) (hw : i.wf = true) : RoundTrips i := by
  cases i with
  | neg m => exact roundTrips_unary 0x00 (isPage_unary.mono fun r h => by simp [page1Unary, h]) (fun _ => rfl) (fun _ => rfl) m
  | com m => exact roundTrips_unary 0x03 (isPage_unary.mono fun r h => by simp [page1Unary, h]) (fun _ => rfl) (fun _ => rfl) m
  | lsr m => exact roundTrips_unary 0x04 (isPage_unary.mono fun r h => by simp [page1Unary, h]) (fun _ => rfl) (fun _ => rfl) m
  | ror m => exact roundTrips_unary 0x06 (isPage_unary.mono fun r h => by simp [page1Unary, h]) (fun _ => rfl) (fun _ => rfl) m
  | asr m => exact roundTrips_unary 0x07 (isPage_unary.mono fun r h => by simp [page1Unary, h]) (fun _ => rfl) (fun _ => rfl) m
  | asl m => exact roundTrips_unary 0x08 (isPage_unary.mono fun r h => by simp [page1Unary, h]) (fun _ => rfl) (fun _ => rfl) m
  | rol m => exact roundTrips_unary 0x09 (isPage_unary.mono fun r h => by simp [page1Unary, h]) (fun _ => rfl) (fun _ => rfl) m
  | dec m => exact roundTrips_unary 0x0A (isPage_unary.mono fun r h => by simp [page1Unary, h]) (fun _ => rfl) (fun _ => rfl) m
  | inc m => exact roundTrips_unary 0x0C (isPage_unary.mono fun r h => by simp [page1Unary, h]) (fun _ => rfl) (fun _ => rfl) m
  | tst m => exact roundTrips_unary 0x0D (isPage_unary.mono fun r h => by simp [page1Unary, h]) (fun _ => rfl) (fun _ => rfl) m
  | jmp m => exact roundTrips_unary 0x0E (isPage_unary.mono fun r h => by simp [page1Unary, h]) (fun _ => rfl) (fun _ => rfl) m
  | clr m => exact roundTrips_unary 0x0F (isPage_unary.mono fun r h => by simp [page1Unary, h]) (fun _ => rfl) (fun _ => rfl) m
  | nop => exact roundTrips_inh (isPage_misc.listed 0x12 rfl rfl) rfl
  | sync => exact roundTrips_inh (isPage_misc.listed 0x13 rfl rfl) rfl
  | lbra n => exact roundTrips_rel16 (isPage_branches.listed 0x16 rfl rfl) rfl
  | lbsr n => exact roundTrips_rel16 (isPage_branches.listed 0x17 rfl rfl) rfl
  | daa => exact roundTrips_inh (isPage_misc.listed 0x19 rfl rfl) rfl
  | orcc n => exact roundTrips_imm8 (isPage_misc.listed 0x1A rfl rfl) rfl
  | andcc n => exact roundTrips_imm8 (isPage_misc.listed 0x1C rfl rfl) rfl
  | sex => exact roundTrips_inh (isPage_misc.listed 0x1D rfl rfl) rfl
  | exg r1 r2 => exact roundTrips_pair (isPage_misc.listed 0x1E rfl rfl) rfl hw
  | tfr r1 r2 => exact roundTrips_pair (isPage_misc.listed 0x1F rfl rfl) rfl hw
  | bra n => exact roundTrips_rel8 (isPage_branches.listed 0x20 rfl rfl) rfl
  | brn n => exact roundTrips_rel8 (isPage_branches.listed 0x21 rfl rfl) rfl
  | bhi n => exact roundTrips_rel8 (isPage_branches.listed 0x22 rfl rfl) rfl
  | bls n => exact roundTrips_rel8 (isPage_branches.listed 0x23 rfl rfl) rfl
  | bcc n => exact roundTrips_rel8 (isPage_branches.listed 0x24 rfl rfl) rfl
  | bcs n => exact roundTrips_rel8 (isPage_branches.listed 0x25 rfl rfl) rfl
  | bne n => exact roundTrips_rel8 (isPage_branches.listed 0x26 rfl rfl) rfl
  | beq n => exact roundTrips_rel8 (isPage_branches.listed 0x27 rfl rfl) rfl
  | bvc n => exact roundTrips_rel8 (isPage_branches.listed 0x28 rfl rfl) rfl
  | bvs n => exact roundTrips_rel8 (isPage_branches.listed 0x29 rfl rfl) rfl
  | bpl n => exact roundTrips_rel8 (isPage_branches.listed 0x2A rfl rfl) rfl
  | bmi n => exact roundTrips_rel8 (isPage_branches.listed 0x2B rfl rfl) rfl
  | bge n => exact roundTrips_rel8 (isPage_branches.listed 0x2C rfl rfl) rfl
  | blt n => exact roundTrips_rel8 (isPage_branches.listed 0x2D rfl rfl) rfl
  | bgt n => exact roundTrips_rel8 (isPage_branches.listed 0x2E rfl rfl) rfl
  | ble n => exact roundTrips_rel8 (isPage_branches.listed 0x2F rfl rfl) rfl
  | leax x => exact roundTrips_idx (isPage_misc.listed 0x30 rfl rfl) rfl
  | leay x => exact roundTrips_idx (isPage_misc.listed 0x31 rfl rfl) rfl
  | leas x => exact roundTrips_idx (isPage_misc.listed 0x32 rfl rfl) rfl
  | leau x => exact roundTrips_idx (isPage_misc.listed 0x33 rfl rfl) rfl
  | pshs l => exact roundTrips_list (isPage_misc.listed 0x34 rfl rfl) rfl
  | puls l => exact roundTrips_list (isPage_misc.listed 0x35 rfl rfl) rfl
  | pshu l => exact roundTrips_list (isPage_misc.listed 0x36 rfl rfl) rfl
  | pulu l => exact roundTrips_list (isPage_misc.listed 0x37 rfl rfl) rfl
  | rts => exact roundTrips_inh (isPage_misc.listed 0x39 rfl rfl) rfl
  | abx => exact roundTrips_inh (isPage_misc.listed 0x3A rfl rfl) rfl
  | rti => exact roundTrips_inh (isPage_misc.listed 0x3B rfl rfl) rfl
  | cwai n => exact roundTrips_imm8 (isPage_misc.listed 0x3C rfl rfl) rfl
  | mul => exact roundTrips_inh (isPage_misc.listed 0x3D rfl rfl) rfl
  | swi => exact roundTrips_inh (isPage_misc.listed 0x3F rfl rfl) rfl
  | nega => exact roundTrips_inh (isPage_accumulator.listed 0x40 rfl rfl) rfl
  | coma => exact roundTrips_inh (isPage_accumulator.listed 0x43 rfl rfl) rfl
  | lsra => exact roundTrips_inh (isPage_accumulator.listed 0x44 rfl rfl) rfl
  | rora => exact roundTrips_inh (isPage_accumulator.listed 0x46 rfl rfl) rfl
  | asra => exact roundTrips_inh (isPage_accumulator.listed 0x47 rfl rfl) rfl
  | asla => exact roundTrips_inh (isPage_accumulator.listed 0x48 rfl rfl) rfl
  | rola => exact roundTrips_inh (isPage_accumulator.listed 0x49 rfl rfl) rfl
  | deca => exact roundTrips_inh (isPage_accumulator.listed 0x4A rfl rfl) rfl
  | inca => exact roundTrips_inh (isPage_accumulator.listed 0x4C rfl rfl) rfl
  | tsta => exact roundTrips_inh (isPage_accumulator.listed 0x4D rfl rfl) rfl
  | clra => exact roundTrips_inh (isPage_accumulator.listed 0x4F rfl rfl) rfl
  | negb => exact roundTrips_inh (isPage_accumulator.listed 0x50 rfl rfl) rfl
  | comb => exact roundTrips_inh (isPage_accumulator.listed 0x53 rfl rfl) rfl
  | lsrb => exact roundTrips_inh (isPage_accumulator.listed 0x54 rfl rfl) rfl
  | rorb => exact roundTrips_inh (isPage_accumulator.listed 0x56 rfl rfl) rfl
  | asrb => exact roundTrips_inh (isPage_accumulator.listed 0x57 rfl rfl) rfl
  | aslb => exact roundTrips_inh (isPage_accumulator.listed 0x58 rfl rfl) rfl
  | rolb => exact roundTrips_inh (isPage_accumulator.listed 0x59 rfl rfl) rfl
  | decb => exact roundTrips_inh (isPage_accumulator.listed 0x5A rfl rfl) rfl
  | incb => exact roundTrips_inh (isPage_accumulator.listed 0x5C rfl rfl) rfl
  | tstb => exact roundTrips_inh (isPage_accumulator.listed 0x5D rfl rfl) rfl
  | clrb => exact roundTrips_inh (isPage_accumulator.listed 0x5F rfl rfl) rfl
  | suba o => exact roundTrips_src8 0x80 (isPage_onA.mono fun r h => by simp [page1OnA, h]) (fun _ => rfl) (fun _ => rfl) o
  | cmpa o => exact roundTrips_src8 0x81 (isPage_onA.mono fun r h => by simp [page1OnA, h]) (fun _ => rfl) (fun _ => rfl) o
  | sbca o => exact roundTrips_src8 0x82 (isPage_onA.mono fun r h => by simp [page1OnA, h]) (fun _ => rfl) (fun _ => rfl) o
  | subd o => exact roundTrips_src16 0x83 (isPage_wide.mono fun r h => by simp [page1Wide, h]) (fun _ => rfl) (fun _ => rfl) o
  | anda o => exact roundTrips_src8 0x84 (isPage_onA.mono fun r h => by simp [page1OnA, h]) (fun _ => rfl) (fun _ => rfl) o
  | bita o => exact roundTrips_src8 0x85 (isPage_onA.mono fun r h => by simp [page1OnA, h]) (fun _ => rfl) (fun _ => rfl) o
  | lda o => exact roundTrips_src8 0x86 (isPage_onA.mono fun r h => by simp [page1OnA, h]) (fun _ => rfl) (fun _ => rfl) o
  | eora o => exact roundTrips_src8 0x88 (isPage_onA.mono fun r h => by simp [page1OnA, h]) (fun _ => rfl) (fun _ => rfl) o
  | adca o => exact roundTrips_src8 0x89 (isPage_onA.mono fun r h => by simp [page1OnA, h]) (fun _ => rfl) (fun _ => rfl) o
  | ora o => exact roundTrips_src8 0x8A (isPage_onA.mono fun r h => by simp [page1OnA, h]) (fun _ => rfl) (fun _ => rfl) o
  | adda o => exact roundTrips_src8 0x8B (isPage_onA.mono fun r h => by simp [page1OnA, h]) (fun _ => rfl) (fun _ => rfl) o
  | cmpx o => exact roundTrips_src16 0x8C (isPage_wide.mono fun r h => by simp [page1Wide, h]) (fun _ => rfl) (fun _ => rfl) o
  | bsr n => exact roundTrips_rel8 (isPage_branches.listed 0x8D rfl rfl) rfl
  | ldx o => exact roundTrips_src16 0x8E (isPage_wide.mono fun r h => by simp [page1Wide, h]) (fun _ => rfl) (fun _ => rfl) o
  | sta m => exact roundTrips_store 0x97 (isPage_wide.mono fun r h => by simp [page1Wide, h]) (fun _ => rfl) (fun _ => rfl) m
  | jsr m => exact roundTrips_store 0x9D (isPage_wide.mono fun r h => by simp [page1Wide, h]) (fun _ => rfl) (fun _ => rfl) m
  | stx m => exact roundTrips_store 0x9F (isPage_wide.mono fun r h => by simp [page1Wide, h]) (fun _ => rfl) (fun _ => rfl) m
  | subb o => exact roundTrips_src8 0xC0 (isPage_onB.mono fun r h => by simp [page1OnB, h]) (fun _ => rfl) (fun _ => rfl) o
  | cmpb o => exact roundTrips_src8 0xC1 (isPage_onB.mono fun r h => by simp [page1OnB, h]) (fun _ => rfl) (fun _ => rfl) o
  | sbcb o => exact roundTrips_src8 0xC2 (isPage_onB.mono fun r h => by simp [page1OnB, h]) (fun _ => rfl) (fun _ => rfl) o
  | addd o => exact roundTrips_src16 0xC3 (isPage_wide.mono fun r h => by simp [page1Wide, h]) (fun _ => rfl) (fun _ => rfl) o
  | andb o => exact roundTrips_src8 0xC4 (isPage_onB.mono fun r h => by simp [page1OnB, h]) (fun _ => rfl) (fun _ => rfl) o
  | bitb o => exact roundTrips_src8 0xC5 (isPage_onB.mono fun r h => by simp [page1OnB, h]) (fun _ => rfl) (fun _ => rfl) o
  | ldb o => exact roundTrips_src8 0xC6 (isPage_onB.mono fun r h => by simp [page1OnB, h]) (fun _ => rfl) (fun _ => rfl) o
  | eorb o => exact roundTrips_src8 0xC8 (isPage_onB.mono fun r h => by simp [page1OnB, h]) (fun _ => rfl) (fun _ => rfl) o
  | adcb o => exact roundTrips_src8 0xC9 (isPage_onB.mono fun r h => by simp [page1OnB, h]) (fun _ => rfl) (fun _ => rfl) o
  | orb o => exact roundTrips_src8 0xCA (isPage_onB.mono fun r h => by simp [page1OnB, h]) (fun _ => rfl) (fun _ => rfl) o
  | addb o => exact roundTrips_src8 0xCB (isPage_onB.mono fun r h => by simp [page1OnB, h]) (fun _ => rfl) (fun _ => rfl) o
  | ldd o => exact roundTrips_src16 0xCC (isPage_wide.mono fun r h => by simp [page1Wide, h]) (fun _ => rfl) (fun _ => rfl) o
  | ldu o => exact roundTrips_src16 0xCE (isPage_wide.mono fun r h => by simp [page1Wide, h]) (fun _ => rfl) (fun _ => rfl) o
  | stb m => exact roundTrips_store 0xD7 (isPage_wide.mono fun r h => by simp [page1Wide, h]) (fun _ => rfl) (fun _ => rfl) m
  | std m => exact roundTrips_store 0xDD (isPage_wide.mono fun r h => by simp [page1Wide, h]) (fun _ => rfl) (fun _ => rfl) m
  | stu m => exact roundTrips_store 0xDF (isPage_wide.mono fun r h => by simp [page1Wide, h]) (fun _ => rfl) (fun _ => rfl) m
  | lbrn n => exact roundTrips_rel16 (isPage_page2.listed 0x21 rfl rfl) rfl
  | lbhi n => exact roundTrips_rel16 (isPage_page2.listed 0x22 rfl rfl) rfl
  | lbls n => exact roundTrips_rel16 (isPage_page2.listed 0x23 rfl rfl) rfl
  | lbcc n => exact roundTrips_rel16 (isPage_page2.listed 0x24 rfl rfl) rfl
  | lbcs n => exact roundTrips_rel16 (isPage_page2.listed 0x25 rfl rfl) rfl
  | lbne n => exact roundTrips_rel16 (isPage_page2.listed 0x26 rfl rfl) rfl
  | lbeq n => exact roundTrips_rel16 (isPage_page2.listed 0x27 rfl rfl) rfl
  | lbvc n => exact roundTrips_rel16 (isPage_page2.listed 0x28 rfl rfl) rfl
  | lbvs n => exact roundTrips_rel16 (isPage_page2.listed 0x29 rfl rfl) rfl
  | lbpl n => exact roundTrips_rel16 (isPage_page2.listed 0x2A rfl rfl) rfl
  | lbmi n => exact roundTrips_rel16 (isPage_page2.listed 0x2B rfl rfl) rfl
  | lbge n => exact roundTrips_rel16 (isPage_page2.listed 0x2C rfl rfl) rfl
  | lblt n => exact roundTrips_rel16 (isPage_page2.listed 0x2D rfl rfl) rfl
  | lbgt n => exact roundTrips_rel16 (isPage_page2.listed 0x2E rfl rfl) rfl
  | lble n => exact roundTrips_rel16 (isPage_page2.listed 0x2F rfl rfl) rfl
  | swi2 => exact roundTrips_inh (isPage_page2.listed 0x3F rfl rfl) rfl
  | cmpd o => exact roundTrips_src16 0x83 (isPage_page2.mono fun r h => by simp [page2, h]) (fun _ => rfl) (fun _ => rfl) o
  | cmpy o => exact roundTrips_src16 0x8C (isPage_page2.mono fun r h => by simp [page2, h]) (fun _ => rfl) (fun _ => rfl) o
  | ldy o => exact roundTrips_src16 0x8E (isPage_page2.mono fun r h => by simp [page2, h]) (fun _ => rfl) (fun _ => rfl) o
  | sty m => exact roundTrips_store 0x9F (isPage_page2.mono fun r h => by simp [page2, h]) (fun _ => rfl) (fun _ => rfl) m
  | lds o => exact roundTrips_src16 0xCE (isPage_page2.mono fun r h => by simp [page2, h]) (fun _ => rfl) (fun _ => rfl) o
  | sts m => exact roundTrips_store 0xDF (isPage_page2.mono fun r h => by simp [page2, h]) (fun _ => rfl) (fun _ => rfl) m
  | swi3 => exact roundTrips_inh (isPage_page3.listed 0x3F rfl rfl) rfl
  | cmpu o => exact roundTrips_src16 0x83 (isPage_page3.mono fun r h => by simp [page3, h]) (fun _ => rfl) (fun _ => rfl) o
  | cmps o => exact roundTrips_src16 0x8C (isPage_page3.mono fun r h => by simp [page3, h]) (fun _ => rfl) (fun _ => rfl) o

/-- Settles O10: every constructor by the rows of its opcode numbers. -/
theorem decodeOfEncode : Obligations.DecodeOfEncode := fun dc i rest hw => instr_roundTrips i hw dc rest

/-! What the decoder reads -/

/-- A well-formed instruction with this opcode number and this many operand bytes. -/
def Sized (n operand : Nat) (i : Instr) : Prop := i.wf = true ∧ i.opNum = n ∧ i.operandBytes.length = operand

/-- Every instruction that the operand of the format completes has this opcode number, and as many operand bytes as the
format takes. -/
def Shape.Makes (n : Nat) : Shape → Prop
  | .inh i => Sized n 0 i
  | .imm8 f => ∀ b, Sized n 1 (f b)
  | .imm16 f => ∀ w, Sized n 2 (f w)
  | .dir f => ∀ d, Sized n 1 (f d)
  | .ext f => ∀ a, Sized n 2 (f a)
  | .idx f => ∀ x, Sized n x.bytes.length (f x)
  | .rel8 f => ∀ d, Sized n 1 (f d)
  | .rel16 f => ∀ d, Sized n 2 (f d)
  | .list f => ∀ l, Sized n 1 (f l)
  | .pair f => ∀ r1 r2, sameWidth r1 r2 = true → Sized n 1 (f r1 r2)

/-- Every row makes instructions of its opcode number. -/
def Made (base : Nat) (rows : List Row) : Prop := ∀ r ∈ rows, Shape.Makes (base + r.1) r.2

theorem made_append {base : Nat} {rows rows' : List Row} : Made base (rows ++ rows') ↔ Made base rows ∧ Made base rows' :=
  List.forall_mem_append

theorem made_nil {base : Nat} : Made base [] := fun _ h => nomatch h

theorem made_cons {base : Nat} {r : Row} {rows : List Row} :
    Made base (r :: rows) ↔ Shape.Makes (base + r.1) r.2 ∧ Made base rows :=
  List.forall_mem_cons

theorem made_memRows {f : Mem → Instr} {base k : Nat} (hw : ∀ m, (f m).wf = true)
    (hn : ∀ m, (f m).opNum = base + k + m.unaryRow) (hb : ∀ m, (f m).operandBytes = m.bytes) :
    Made base (memRows k f) := by
  have sized (m : Mem) : Sized (base + k + m.unaryRow) m.bytes.length (f m) := ⟨hw m, hn m, by rw [hb]⟩
  refine made_cons.mpr ⟨fun d => ?_, made_cons.mpr ⟨fun x => ?_, made_cons.mpr ⟨fun a => ?_, made_nil⟩⟩⟩
  · rw [Nat.add_comm 0x00 k]
    exact sized (.dir d)
  · rw [Nat.add_comm 0x60 k, ← Nat.add_assoc]
    exact sized (.idx x)
  · rw [Nat.add_comm 0x70 k, ← Nat.add_assoc]
    exact sized (.ext a)

theorem made_storeRows {f : Mem → Instr} {base k : Nat} (hw : ∀ m, (f m).wf = true)
    (hn : ∀ m, (f m).opNum = base + k + m.storeRow) (hb : ∀ m, (f m).operandBytes = m.bytes) :
    Made base (storeRows k f) := by
  have sized (m : Mem) : Sized (base + k + m.storeRow) m.bytes.length (f m) := ⟨hw m, hn m, by rw [hb]⟩
  exact made_cons.mpr ⟨fun d => sized (.dir d), made_cons.mpr ⟨fun x => sized (.idx x),
    made_cons.mpr ⟨fun a => sized (.ext a), made_nil⟩⟩⟩

theorem made_src8Rows {f : Src8 → Instr} {base k : Nat} (hw : ∀ o, (f o).wf = true)
    (hn : ∀ o, (f o).opNum = base + k + o.row) (hb : ∀ o, (f o).operandBytes = o.bytes) :
    Made base (src8Rows k f) :=
  made_cons.mpr ⟨fun b => ⟨hw _, hn _, by rw [hb]; rfl⟩, made_storeRows (fun m => hw _)
    (fun m => (hn _).trans (Nat.add_assoc (base + k) 0x10 m.storeRow).symm) fun m => hb _⟩

theorem made_src16Rows {f : Src16 → Instr} {base k : Nat} (hw : ∀ o, (f o).wf = true)
    (hn : ∀ o, (f o).opNum = base + k + o.row) (hb : ∀ o, (f o).operandBytes = o.bytes) :
    Made base (src16Rows k f) :=
  made_cons.mpr ⟨fun b => ⟨hw _, hn _, by rw [hb]; rfl⟩, made_storeRows (fun m => hw _)
    (fun m => (hn _).trans (Nat.add_assoc (base + k) 0x10 m.storeRow).symm) fun m => hb _⟩

theorem made_unary : Made 0 page1Unary := by
  simp only [page1Unary, made_append]
  refine ⟨⟨⟨⟨⟨⟨⟨⟨⟨⟨⟨?_, ?_⟩, ?_⟩, ?_⟩, ?_⟩, ?_⟩, ?_⟩, ?_⟩, ?_⟩, ?_⟩, ?_⟩, ?_⟩ <;>
    exact made_memRows (fun _ => rfl) (fun _ => rfl) fun _ => rfl

theorem made_onA : Made 0 page1OnA := by
  simp only [page1OnA, made_append]
  refine ⟨⟨⟨⟨⟨⟨⟨⟨⟨?_, ?_⟩, ?_⟩, ?_⟩, ?_⟩, ?_⟩, ?_⟩, ?_⟩, ?_⟩, ?_⟩ <;>
    exact made_src8Rows (fun _ => rfl) (fun _ => rfl) fun _ => rfl

theorem made_onB : Made 0 page1OnB := by
  simp only [page1OnB, made_append]
  refine ⟨⟨⟨⟨⟨⟨⟨⟨⟨?_, ?_⟩, ?_⟩, ?_⟩, ?_⟩, ?_⟩, ?_⟩, ?_⟩, ?_⟩, ?_⟩ <;>
    exact made_src8Rows (fun _ => rfl) (fun _ => rfl) fun _ => rfl

theorem made_wide : Made 0 page1Wide := by
  simp only [page1Wide, made_append]
  refine ⟨⟨⟨⟨⟨⟨⟨⟨⟨⟨⟨?_, ?_⟩, ?_⟩, ?_⟩, ?_⟩, ?_⟩, ?_⟩, ?_⟩, ?_⟩, ?_⟩, ?_⟩, ?_⟩
  iterate 6 exact made_src16Rows (fun _ => rfl) (fun _ => rfl) fun _ => rfl
  iterate 6 exact made_storeRows (fun _ => rfl) (fun _ => rfl) fun _ => rfl

theorem made_accumulator : Made 0 page1Accumulator := by
  simp [page1Accumulator, made_cons, made_nil, Shape.Makes, Sized, Instr.wf, Instr.opNum, Instr.operandBytes]

theorem made_branches : Made 0 page1Branches := by
  simp [page1Branches, made_cons, made_nil, Shape.Makes, Sized, Instr.wf, Instr.opNum, Instr.operandBytes, wordBytes]

theorem made_misc : Made 0 page1Misc := by
  simp [page1Misc, made_cons, made_nil, Shape.Makes, Sized, Instr.wf, Instr.opNum, Instr.operandBytes]

theorem made_page1 : Made 0 page1 := by
  simp only [page1, made_append]
  exact ⟨⟨⟨⟨⟨⟨made_unary, made_accumulator⟩, made_branches⟩, made_misc⟩, made_onA⟩, made_onB⟩, made_wide⟩

theorem made_page2 : Made 0x1000 page2 := by
  simp only [page2, made_append]
  refine ⟨⟨⟨⟨⟨⟨?_, ?_⟩, ?_⟩, ?_⟩, ?_⟩, ?_⟩, ?_⟩
  · simp [made_cons, made_nil, Shape.Makes, Sized, Instr.wf, Instr.opNum, Instr.operandBytes, wordBytes]
  iterate 4 exact made_src16Rows (fun _ => rfl) (fun _ => rfl) fun _ => rfl
  iterate 2 exact made_storeRows (fun _ => rfl) (fun _ => rfl) fun _ => rfl

theorem made_page3 : Made 0x1100 page3 := by
  simp only [page3, made_append]
  refine ⟨⟨?_, ?_⟩, ?_⟩
  · simp [made_cons, made_nil, Shape.Makes, Sized, Instr.wf, Instr.opNum, Instr.operandBytes]
  iterate 2 exact made_src16Rows (fun _ => rfl) (fun _ => rfl) fun _ => rfl

/-! The bytes that an operand takes -/

theorem map_eq_ok {α β : Type} {f : α → β} {p : Parsed α} {v : β} {rest : List Byte} (h : p.map f = .ok v rest) :
    ∃ w, p = .ok w rest ∧ f w = v := by
  cases p with
  | more => cases h
  | ok w rest' => cases h; exact ⟨w, rfl, rfl⟩
  | bad r => cases h

theorem take8_length {bs rest : List Byte} {b : Byte} (h : take8 bs = .ok b rest) : bs.length = 1 + rest.length := by
  cases bs with
  | nil => cases h
  | cons b bs => cases h; exact Nat.add_comm ..

theorem take16_length {bs rest : List Byte} {w : Word} (h : take16 bs = .ok w rest) : bs.length = 2 + rest.length := by
  match bs, h with
  | _ :: _ :: rest, rfl => exact Nat.add_comm rest.length 2

/-- A sub-mode takes as many offset bytes as its encoding has. -/
theorem takeSubMode_length {free : Bool} {r : IxReg} {ind : Bool} {m : Nat} {bs rest : List Byte} {x : Idx}
    (h : takeSubMode free r ind m bs = .ok x rest) : bs.length + 1 = x.bytes.length + rest.length := by
  have none {y : Idx} (hy : y.bytes.length = 1) (h : Parsed.ok y bs = .ok x rest) :
      bs.length + 1 = x.bytes.length + rest.length := by
    cases h
    rw [hy, Nat.add_comm]
  have one {f : Byte → Idx} (hf : ∀ n, (f n).bytes.length = 2) (h : (take8 bs).map f = .ok x rest) :
      bs.length + 1 = x.bytes.length + rest.length := by
    obtain ⟨n, hn, rfl⟩ := map_eq_ok h
    rw [hf, take8_length hn]
    omega
  have two {f : Word → Idx} (hf : ∀ n, (f n).bytes.length = 3) (h : (take16 bs).map f = .ok x rest) :
      bs.length + 1 = x.bytes.length + rest.length := by
    obtain ⟨n, hn, rfl⟩ := map_eq_ok h
    rw [hf, take16_length hn]
    omega
  unfold takeSubMode at h
  split at h
  case h_8 | h_11 => exact one (fun _ => rfl) h
  case h_9 | h_12 => exact two (fun _ => rfl) h
  case h_13 =>
    split at h
    · exact two (fun _ => rfl) h
    · cases h
  case h_14 => cases h
  all_goals exact none rfl h

theorem takeIdx_length {dc : Bool} {bs rest : List Byte} {x : Idx} (h : takeIdx dc bs = .ok x rest) :
    bs.length = x.bytes.length + rest.length := by
  cases bs with
  | nil => cases h
  | cons pb bs =>
    simp only [takeIdx] at h
    split at h
    · exact takeSubMode_length h
    · cases h
      exact Nat.add_comm ..

theorem takePair_ok {f : Reg → Reg → Instr} {bs rest : List Byte} {i : Instr} (h : takePair f bs = .ok i rest) :
    bs.length = 1 + rest.length ∧ ∃ r1 r2, sameWidth r1 r2 = true ∧ f r1 r2 = i := by
  cases bs with
  | nil => cases h
  | cons pb bs =>
    simp only [takePair] at h
    split at h
    next r1 r2 _ _ =>
      split at h
      next hw => cases h; exact ⟨Nat.add_comm .., r1, r2, hw, rfl⟩
      next => cases h
    next => cases h

/-- An operand takes as many bytes as the encoding of the instruction it completes has. -/
theorem take_sized {dc : Bool} {n : Nat} {sh : Shape} (hm : Shape.Makes n sh) {bs rest : List Byte} {i : Instr}
    (h : sh.take dc bs = .ok i rest) :
    i.wf = true ∧ i.opNum = n ∧ bs.length = i.operandBytes.length + rest.length := by
  have sized {k : Nat} (hi : Sized n k i) (hk : bs.length = k + rest.length) :
      i.wf = true ∧ i.opNum = n ∧ bs.length = i.operandBytes.length + rest.length := by
    obtain ⟨hw, hn, hb⟩ := hi
    exact ⟨hw, hn, by rw [hb]; exact hk⟩
  have byte {f : Byte → Instr} (hf : ∀ b, Sized n 1 (f b)) (h : (take8 bs).map f = .ok i rest) :
      i.wf = true ∧ i.opNum = n ∧ bs.length = i.operandBytes.length + rest.length := by
    obtain ⟨b, hb, rfl⟩ := map_eq_ok h
    exact sized (hf b) (take8_length hb)
  have word {f : Word → Instr} (hf : ∀ w, Sized n 2 (f w)) (h : (take16 bs).map f = .ok i rest) :
      i.wf = true ∧ i.opNum = n ∧ bs.length = i.operandBytes.length + rest.length := by
    obtain ⟨w, hw, rfl⟩ := map_eq_ok h
    exact sized (hf w) (take16_length hw)
  cases sh with
  | inh j => cases h; exact sized hm (Nat.zero_add _).symm
  | imm8 f => exact byte hm h
  | imm16 f => exact word hm h
  | dir f => exact byte hm h
  | ext f => exact word hm h
  | idx f =>
    obtain ⟨x, hx, rfl⟩ := map_eq_ok h
    exact sized (hm x) (takeIdx_length hx)
  | rel8 f => exact byte hm h
  | rel16 f => exact word hm h
  | list f => exact byte (fun b => hm (regListOf b)) h
  | pair f =>
    obtain ⟨hlen, r1, r2, hw, rfl⟩ := takePair_ok h
    exact sized (hm r1 r2 hw) hlen

/-- What is read behind the page bytes is well formed and has the length of its encoding. -/
theorem decodePage_sized {dc : Bool} {base : Nat} {rows : List Row} (hm : Made base rows) {op : Byte}
    {bs rest : List Byte} {i : Instr} (h : decodePage dc rows op bs = .ok i rest) :
    i.wf = true ∧ i.opNum = base + op.toNat ∧ bs.length = i.operandBytes.length + rest.length := by
  unfold decodePage at h
  split at h
  next sh hr => exact take_sized (hm _ (mem_of_rowOf hr)) h
  next => cases h

theorem encode_length {i : Instr} {n : Nat} (h : (opBytes i.opNum).length = n) :
    (encode i).length = n + i.operandBytes.length := by
  rw [encode, List.length_append, h]

theorem decodeSecond_sized {dc : Bool} {base : Nat} {rows : List Row} (hm : Made base rows) (hbase : 256 ≤ base)
    {bs rest : List Byte} {i : Instr} (h : decodeSecond dc rows bs = .ok i rest) :
    i.wf = true ∧ bs.length + 1 = (encode i).length + rest.length := by
  cases bs with
  | nil => cases h
  | cons op bs =>
    obtain ⟨hw, hn, hlen⟩ := decodePage_sized hm h
    have hop : (opBytes i.opNum).length = 2 := by
      unfold opBytes
      rw [if_neg (by omega)]
      rfl
    rw [encode_length hop, List.length_cons, hlen]
    exact ⟨hw, by omega⟩

/-- What the decoder reads is well formed and has the length of its encoding. -/
theorem decode_sized {dc : Bool} {bs rest : List Byte} {i : Instr} (h : decode dc bs = .ok i rest) :
    i.wf = true ∧ bs.length = (encode i).length + rest.length := by
  cases bs with
  | nil => cases h
  | cons op bs =>
    simp only [decode] at h
    split at h
    · exact decodeSecond_sized made_page2 (by decide) h
    · split at h
      · exact decodeSecond_sized made_page3 (by decide) h
      · obtain ⟨hw, hn, hlen⟩ := decodePage_sized made_page1 h
        have hop : (opBytes i.opNum).length = 1 := by
          have hlt := op.isLt
          unfold opBytes
          rw [if_pos (by omega)]
          rfl
        rw [encode_length hop, List.length_cons, hlen]
        exact ⟨hw, by omega⟩

/-- Settles O11: the bytes are those that `local_decode` names, and their number is that of the encoding. -/
theorem decodeReadsItsOwnBytes : Obligations.DecodeReadsItsOwnBytes := by
  intro dc bs rest i h
  obtain ⟨hw, hlen⟩ := decode_sized h
  obtain ⟨own, hown, hagain, hmore⟩ := local_decode dc bs i rest h
  have hsize : own.length = (encode i).length := by
    rw [hown, List.length_append] at hlen
    omega
  have hmin : 1 ≤ own.length := by
    rw [hsize, encode, List.length_append]
    exact Nat.le_add_right_of_le (EncodingLength.opBytes_length i.opNum).1
  have hmax : own.length ≤ 5 := by
    have hlt := decode_more (hmore (own.length - 1) (by omega))
    rw [List.length_take] at hlt
    unfold maxLength at hlt
    omega
  exact ⟨hw, own, hown, hsize, hmin, hmax, hagain, hmore⟩

end Sys2Proof.Proofs
end


-- ==== Sys2Proof/Proofs/Illegal.lean ====
section
/-! The illegal encodings of 30_encoding.md R111 and R112: which opcode bytes, indexed post-bytes and register pairs the
decoder refuses. -/

namespace Sys2Proof.Proofs

open Sys2Proof Sys2Proof.Machine Sys2Proof.Laws

theorem map_eq_bad {α β : Type} {f : α → β} {p : Parsed α} {r : Reject} : p.map f = .bad r ↔ p = .bad r := by
  cases p <;> simp [Parsed.map]

theorem take8_ne_bad (bs : List Byte) (r : Reject) : take8 bs ≠ .bad r := by
  cases bs <;> exact fun h => nomatch h

theorem take16_ne_bad (bs : List Byte) (r : Reject) : take16 bs ≠ .bad r := by
  match bs with
  | [] => exact fun h => nomatch h
  | [_] => exact fun h => nomatch h
  | _ :: _ :: _ => exact fun h => nomatch h

/-- A byte offset is never illegal, nor is a word offset. -/
theorem map_take8_ne_bad {α : Type} (f : Byte → α) (bs : List Byte) (r : Reject) : (take8 bs).map f ≠ .bad r :=
  fun h => take8_ne_bad bs r (map_eq_bad.mp h)

theorem map_take16_ne_bad {α : Type} (f : Word → α) (bs : List Byte) (r : Reject) : (take16 bs).map f ≠ .bad r :=
  fun h => take16_ne_bad bs r (map_eq_bad.mp h)

/-! Indexed post-bytes -/

/-- The form 1 post-bytes of 40_addressing_modes.md R148 that no sub-mode has. -/
def illegalSubMode (free ind : Bool) (m : Nat) : Bool :=
  match m, ind with
  | 0x0, ind => ind
  | 0x2, ind => ind
  | 0x1, _ | 0x3, _ | 0x4, _ | 0x5, _ | 0x6, _ | 0x8, _ | 0x9, _ | 0xB, _ | 0xC, _ | 0xD, _ => false
  | 0xF, true => !free
  | _, _ => true

theorem takeSubMode_bad {free ind : Bool} {r : IxReg} {m : Nat} {bs : List Byte} {k : Reject} :
    takeSubMode free r ind m bs = .bad k ↔ k = .noSubMode ∧ illegalSubMode free ind m = true := by
  unfold takeSubMode
  split
  case h_13 =>
    cases free
    · simp [illegalSubMode, eq_comm]
    · simp [illegalSubMode, map_take16_ne_bad]
  case h_14 h1 h2 h3 h4 h5 h6 h7 h8 h9 h10 h11 h12 h13 =>
    have hill : illegalSubMode free ind m = true := by
      unfold illegalSubMode
      split <;> simp_all
    simp [hill, eq_comm]
  all_goals simp [illegalSubMode, map_take8_ne_bad, map_take16_ne_bad]

/-- What is illegal in a post-byte, apart from the bytes that follow (40_addressing_modes.md R148). -/
def illegalPostByte (dc : Bool) (pb : Byte) : Bool :=
  pb.getLsbD 7 &&
    illegalSubMode (dc || (pb.extractLsb' 5 2).toNat == 0) (pb.getLsbD 4) (pb.extractLsb' 0 4).toNat

theorem takeIdx_bad {dc : Bool} {pb : Byte} {bs : List Byte} {k : Reject} :
    takeIdx dc (pb :: bs) = .bad k ↔ k = .noSubMode ∧ illegalPostByte dc pb = true := by
  simp only [takeIdx, illegalPostByte]
  cases pb.getLsbD 7 <;> simp [takeSubMode_bad]

/-- Settles O13: `illegalPostByte` on the 256 post-bytes. -/
theorem illegalIndexedPostBytes : Obligations.IllegalIndexedPostBytes := by
  intro pb rest always
  simp only [takeIdx_bad, true_and]
  revert pb
  decide +kernel

/-! Register pairs -/

/-- The post-bytes that `CheckPair` accepts (45_stack_transfer.md R315). -/
def legalPair (pb : Byte) : Bool :=
  match regOf (pb.extractLsb' 4 4).toNat, regOf (pb.extractLsb' 0 4).toNat with
  | some r1, some r2 => sameWidth r1 r2
  | _, _ => false

theorem takePair_bad {f : Reg → Reg → Instr} {pb : Byte} {bs : List Byte} {k : Reject} :
    takePair f (pb :: bs) = .bad k ↔ k = .noRegisterPair ∧ legalPair pb = false := by
  simp only [takePair, legalPair]
  cases regOf (pb.extractLsb' 4 4).toNat with
  | none => simp [eq_comm]
  | some r1 =>
    cases regOf (pb.extractLsb' 0 4).toNat with
    | none => simp [eq_comm]
    | some r2 => cases hw : sameWidth r1 r2 <;> simp [hw, eq_comm]

theorem legalPair_eq_false_iff (pb : Byte) : legalPair pb = false ↔
    pb.toNat / 16 ∈ [6, 7, 0xC, 0xD, 0xE, 0xF] ∨ pb.toNat % 16 ∈ [6, 7, 0xC, 0xD, 0xE, 0xF] ∨
      decide (pb.toNat / 16 < 8) ≠ decide (pb.toNat % 16 < 8) := by
  revert pb
  decide +kernel

/-- Settles O14: `legalPair` on the 256 post-bytes. -/
theorem illegalRegisterPairs : Obligations.IllegalRegisterPairs := by
  intro dc op pb rest hop
  refine Iff.trans ?_ (legalPair_eq_false_iff pb)
  have pair {f : Reg → Reg → Instr} (hd : decode dc (op :: pb :: rest) = takePair f (pb :: rest)) :
      decode dc (op :: pb :: rest) = .bad .noRegisterPair ↔ legalPair pb = false := by
    rw [hd, takePair_bad]
    exact and_iff_right rfl
  rcases hop with rfl | rfl
  · exact pair (isPage_misc (0x1E, .pair .exg) (mem_of_rowOf rfl) dc (pb :: rest))
  · exact pair (isPage_misc (0x1F, .pair .tfr) (mem_of_rowOf rfl) dc (pb :: rest))

/-! Opcode bytes -/

/-- No operand is refused as an opcode. -/
theorem take_ne_noOpcode (dc : Bool) (sh : Shape) (bs : List Byte) : sh.take dc bs ≠ .bad .noOpcode := by
  cases sh with
  | inh i => exact fun h => nomatch h
  | imm8 f => exact map_take8_ne_bad f bs _
  | imm16 f => exact map_take16_ne_bad f bs _
  | dir f => exact map_take8_ne_bad f bs _
  | ext f => exact map_take16_ne_bad f bs _
  | idx f =>
    intro h
    cases bs with
    | nil => cases h
    | cons pb bs => exact nomatch (takeIdx_bad.mp (map_eq_bad.mp h)).1
  | rel8 f => exact map_take8_ne_bad f bs _
  | rel16 f => exact map_take16_ne_bad f bs _
  | list f => exact map_take8_ne_bad _ bs _
  | pair f =>
    intro h
    cases bs with
    | nil => cases h
    | cons pb bs => exact nomatch (takePair_bad.mp h).1

/-- An opcode byte is refused exactly where its page has no row for it. -/
theorem decodePage_noOpcode {dc : Bool} {rows : List Row} {op : Byte} {bs : List Byte} :
    decodePage dc rows op bs = .bad .noOpcode ↔ (rowOf rows op.toNat).isNone = true := by
  unfold decodePage
  cases rowOf rows op.toNat with
  | none => simp
  | some sh => simp [take_ne_noOpcode]

theorem page1_rows (op : Byte) (h2 : op ≠ 0x10) (h3 : op ≠ 0x11) : (rowOf page1 op.toNat).isNone = true ↔ op.toNat ∈
    [0x01, 0x02, 0x05, 0x0B, 0x14, 0x15, 0x18, 0x1B, 0x38, 0x3E, 0x41] ++
    [0x42, 0x45, 0x4B, 0x4E, 0x51, 0x52, 0x55, 0x5B, 0x5E, 0x61, 0x62] ++
    [0x65, 0x6B, 0x71, 0x72, 0x75, 0x7B, 0x87, 0x8F, 0xC7, 0xCD, 0xCF] := by
  revert op
  decide +kernel

theorem page2_rows (op : Byte) : (rowOf page2 op.toNat).isNone = true ↔ op.toNat ∉
    [0x21, 0x22, 0x23, 0x24, 0x25, 0x26, 0x27, 0x28, 0x29, 0x2A, 0x2B, 0x2C, 0x2D, 0x2E, 0x2F, 0x3F] ++
    [0x83, 0x8C, 0x8E, 0x93, 0x9C, 0x9E, 0x9F, 0xA3, 0xAC, 0xAE, 0xAF, 0xB3, 0xBC, 0xBE, 0xBF] ++
    [0xCE, 0xDE, 0xDF, 0xEE, 0xEF, 0xFE, 0xFF] := by
  revert op
  decide +kernel

theorem page3_rows (op : Byte) : (rowOf page3 op.toNat).isNone = true ↔ op.toNat ∉
    [0x3F, 0x83, 0x8C, 0x93, 0x9C, 0xA3, 0xAC, 0xB3, 0xBC] := by
  revert op
  decide +kernel

/-- Settles O12: the bytes that each page has no row for. -/
theorem opcodesWithoutARow : Obligations.OpcodesWithoutARow := by
  refine ⟨fun dc op rest h2 h3 => ?_, fun dc op rest => ?_, fun dc op rest => ?_⟩
  · rw [← page1_rows op h2 h3]
    simp only [decode, if_neg h2, if_neg h3, decodePage_noOpcode]
  · exact decodePage_noOpcode.trans (page2_rows op)
  · exact decodePage_noOpcode.trans (page3_rows op)

/-- Settles O15: each word by running the decoder on it. -/
theorem specWordsDecode : Obligations.SpecWordsDecode := by
  unfold Obligations.SpecWordsDecode
  decide +kernel

end Sys2Proof.Proofs
end

