-- ==== Sys2Proof/Proofs/Frames.lean ====
section
/-! The frames of all instructions (10_state.md R33, R37, R38): each is one relation between the state before and the state
after, and `keeps_action` carries it through every instruction. -/

namespace Sys2Proof.Proofs

open Sys2Proof Sys2Proof.Machine Sys2Proof.Laws

/-- What a list of writers allows contradicts what it excludes. -/
theorem excluded {p : Prop} {b : Bool} (ht : b = true) (hf : b = false) : p :=
  absurd (ht.symm.trans hf) (by decide)

/-! Registers -/

/-- Every register, latch and wait that the instruction is no writer of has its value still (10_state.md R37). -/
structure RegistersOf (i : Instr) (before after : State) : Prop where
  a : i.writesA = false → after.a = before.a
  b : i.writesB = false → after.b = before.b
  x : i.writesX = false → i.moves ≠ some .x → after.x = before.x
  y : i.writesY = false → i.moves ≠ some .y → after.y = before.y
  u : i.writesU = false → i.moves ≠ some .u → after.u = before.u
  s : i.writesS = false → i.moves ≠ some .s → after.s = before.s
  pc : i.writesPC = false → after.pc = before.pc
  dp : i.writesDP = false → after.dp = before.dp
  latch : before.nmiArmed = true → after.nmiArmed = true
  armed : i.arms before.cfg = false → after.nmiArmed = before.nmiArmed
  waitCwai : (∀ m, i ≠ .cwai m) → after.waitCwai = before.waitCwai
  waitSync : i ≠ .sync → after.waitSync = before.waitSync
  clockHeld : after.clockHeld = before.clockHeld
  cfg : after.cfg = before.cfg
  nextCb : after.nextCb = before.nextCb

theorem RegistersOf.refl (i : Instr) (s : State) : RegistersOf i s s where
  a _ := rfl
  b _ := rfl
  x _ _ := rfl
  y _ _ := rfl
  u _ _ := rfl
  s _ _ := rfl
  pc _ := rfl
  dp _ := rfl
  latch h := h
  armed _ := rfl
  waitCwai _ := rfl
  waitSync _ := rfl
  clockHeld := rfl
  cfg := rfl
  nextCb := rfl

theorem RegistersOf.trans {i : Instr} {s t u : State} (h1 : RegistersOf i s t) (h2 : RegistersOf i t u) :
    RegistersOf i s u where
  a h := (h2.a h).trans (h1.a h)
  b h := (h2.b h).trans (h1.b h)
  x h hm := (h2.x h hm).trans (h1.x h hm)
  y h hm := (h2.y h hm).trans (h1.y h hm)
  u h hm := (h2.u h hm).trans (h1.u h hm)
  s h hm := (h2.s h hm).trans (h1.s h hm)
  pc h := (h2.pc h).trans (h1.pc h)
  dp h := (h2.dp h).trans (h1.dp h)
  latch h := h2.latch (h1.latch h)
  armed h := (h2.armed (by rw [h1.cfg]; exact h)).trans (h1.armed h)
  waitCwai h := (h2.waitCwai h).trans (h1.waitCwai h)
  waitSync h := (h2.waitSync h).trans (h1.waitSync h)
  clockHeld := h2.clockHeld.trans h1.clockHeld
  cfg := h2.cfg.trans h1.cfg
  nextCb := h2.nextCb.trans h1.nextCb

theorem busRel_registersOf (i : Instr) : BusRel (RegistersOf i) where
  refl := RegistersOf.refl i
  trans _ _ _ := RegistersOf.trans
  faulted s _ _ := { RegistersOf.refl i s with }
  ticked s n := by constructor <;> simp
  handled s ms _ := { RegistersOf.refl i s with }

/-- Every write that an instruction is listed with is one that its frame excepts. -/
theorem allows_registersOf (i : Instr) : Allows (RegistersOf i) i where
  a hw s _ := { RegistersOf.refl i s with a := excluded hw }
  b hw s _ := { RegistersOf.refl i s with b := excluded hw }
  x hw s _ := { RegistersOf.refl i s with x := fun h => excluded hw h }
  y hw s _ := { RegistersOf.refl i s with y := fun h => excluded hw h }
  u hw s _ := { RegistersOf.refl i s with u := fun h => excluded hw h }
  s hw s _ := { RegistersOf.refl i s with s := fun h => excluded hw h }
  pc hw s _ := { RegistersOf.refl i s with pc := excluded hw }
  dp hw s _ := { RegistersOf.refl i s with dp := excluded hw }
  moved r hr s _ := by
    cases r with
    | x => exact { RegistersOf.refl i s with x := fun _ hm => absurd hr hm }
    | y => exact { RegistersOf.refl i s with y := fun _ hm => absurd hr hm }
    | u => exact { RegistersOf.refl i s with u := fun _ hm => absurd hr hm }
    | s => exact { RegistersOf.refl i s with s := fun _ hm => absurd hr hm }
  cc s _ _ := { RegistersOf.refl i s with }
  armed s ha := { RegistersOf.refl i s with latch := fun _ => rfl, armed := excluded ha }
  cwai hm s := { RegistersOf.refl i s with waitCwai := fun h => absurd hm.choose_spec (h _) }
  sync hi s := { RegistersOf.refl i s with waitSync := fun h => absurd hi h }
  stored _ s _ _ := { RegistersOf.refl i s with }
  free _ s _ := { RegistersOf.refl i s with }

/-- The frame of an instruction, faulted or not. -/
theorem exec_registersOf {i : Instr} {s t : State} (h : exec i s = .next t) : RegistersOf i s t :=
  exec_of_keeps (keeps_action (busRel_registersOf i) i (allows_registersOf i)) h

/-- Settles O55: the clauses of `RegistersOf`. -/
theorem registerWriters : Obligations.RegisterWriters := by
  intro i s t h
  have F := exec_registersOf h
  exact ⟨F.a, F.b, F.x, F.y, F.u, F.s, F.pc, F.dp, F.latch, F.armed, F.waitCwai, F.waitSync, F.clockHeld, F.cfg, F.nextCb⟩

/-! Flags -/

theorem flagsOf_refl (i : Instr) (k : CC) : FlagsOf i k k :=
  ⟨same, same, same, same, same, same, same, same⟩

theorem flagsOf_trans {i : Instr} {k k' k'' : CC} (h1 : FlagsOf i k k') (h2 : FlagsOf i k' k'') : FlagsOf i k k'' where
  e h := (h2.e h).trans (h1.e h)
  f h := (h2.f h).trans (h1.f h)
  h h := (h2.h h).trans (h1.h h)
  i h := (h2.i h).trans (h1.i h)
  n h := (h2.n h).trans (h1.n h)
  z h := (h2.z h).trans (h1.z h)
  v h := (h2.v h).trans (h1.v h)
  c h := (h2.c h).trans (h1.c h)

theorem busRel_flagsOf (i : Instr) : BusRel fun s t => FlagsOf i s.cc t.cc where
  refl s := flagsOf_refl i s.cc
  trans _ _ _ := flagsOf_trans
  faulted s _ _ := flagsOf_refl i s.cc
  ticked s n := by
    rw [tick_cc]
    exact flagsOf_refl i s.cc
  handled s _ _ := flagsOf_refl i s.cc

theorem allows_flagsOf (i : Instr) : Allows (fun s t => FlagsOf i s.cc t.cc) i where
  a _ s _ := flagsOf_refl i s.cc
  b _ s _ := flagsOf_refl i s.cc
  x _ s _ := flagsOf_refl i s.cc
  y _ s _ := flagsOf_refl i s.cc
  u _ s _ := flagsOf_refl i s.cc
  s _ s _ := flagsOf_refl i s.cc
  pc _ s _ := flagsOf_refl i s.cc
  dp _ s _ := flagsOf_refl i s.cc
  moved r _ s w := by
    rw [setIx_cc]
    exact flagsOf_refl i s.cc
  cc _ _ h := h
  armed s _ := flagsOf_refl i s.cc
  cwai _ s := flagsOf_refl i s.cc
  sync _ s := flagsOf_refl i s.cc
  stored _ s _ _ := flagsOf_refl i s.cc
  free _ s _ := flagsOf_refl i s.cc

/-- Settles O56: the clauses of `FlagsOf`. -/
theorem flagWriters : Obligations.FlagWriters := by
  intro i s t h
  have F := exec_of_keeps (keeps_action (busRel_flagsOf i) i (allows_flagsOf i)) h
  exact ⟨F.e, fun hm => ⟨F.f hm, F.i hm⟩, F.h, F.n, F.z, F.v, F.c⟩

/-! Memory without handlers -/

/-- With no handler installed backing memory alone can change, and where `quiet` holds not even that. -/
def StoresOnly (quiet : Prop) (s t : State) : Prop :=
  s.world.NoHandlers → t.world = { s.world with pm := t.world.pm } ∧ (quiet → t.world = s.world)

theorem storesOnly_of_eq {quiet : Prop} {s t : State} (h : t.world = s.world) : StoresOnly quiet s t := fun _ =>
  ⟨by rw [h], fun _ => h⟩

/-- Where backing memory alone changes, no handler comes in. -/
theorem noHandlers_of_pm {w w' : World} (hn : w.NoHandlers) (h : w' = { w with pm := w'.pm }) : w'.NoHandlers := by
  rw [h]
  exact hn

theorem busRel_storesOnly (quiet : Prop) : BusRel (StoresOnly quiet) where
  refl _ := storesOnly_of_eq rfl
  trans s t u h1 h2 hn := by
    obtain ⟨hpm1, hq1⟩ := h1 hn
    obtain ⟨hpm2, hq2⟩ := h2 (noHandlers_of_pm hn hpm1)
    refine ⟨?_, fun hq => (hq2 hq).trans (hq1 hq)⟩
    rw [hpm2, hpm1]
  faulted _ _ _ := storesOnly_of_eq rfl
  ticked s n := storesOnly_of_eq (tick_world s n)
  handled _ _ hh hn := absurd hn hh

theorem stores_storesOnly {quiet : Prop} (hq : ¬ quiet) : Stores (StoresOnly quiet) := fun _ _ _ _ =>
  ⟨rfl, fun h => absurd h hq⟩

theorem allows_storesOnly (i : Instr) : Allows (StoresOnly (i.storesNothing = true)) i where
  a _ _ _ := storesOnly_of_eq rfl
  b _ _ _ := storesOnly_of_eq rfl
  x _ _ _ := storesOnly_of_eq rfl
  y _ _ _ := storesOnly_of_eq rfl
  u _ _ _ := storesOnly_of_eq rfl
  s _ _ _ := storesOnly_of_eq rfl
  pc _ _ _ := storesOnly_of_eq rfl
  dp _ _ _ := storesOnly_of_eq rfl
  moved r _ s w := storesOnly_of_eq (setIx_world s r w)
  cc _ _ _ := storesOnly_of_eq rfl
  armed _ _ := storesOnly_of_eq rfl
  cwai _ _ := storesOnly_of_eq rfl
  sync _ _ := storesOnly_of_eq rfl
  stored h := stores_storesOnly (by rw [h]; decide)
  free _ _ _ := storesOnly_of_eq rfl

/-- Settles O57: a handler run is the one way that an instruction could reach more than backing memory. -/
theorem memoryFrameWithoutStores : Obligations.MemoryFrameWithoutStores := fun i _ _ hn h =>
  exec_of_keeps (keeps_action (busRel_storesOnly _) i (allows_storesOnly i)) h hn

/-! The invariant -/

/-- The tables and the memory are canonical and every pointer references backing memory. -/
def WorldGood (s : State) : Prop := s.world.wf = true ∧ s.world.fits s.cfg.pmSize = true

/-- A step of an action keeps a good world good. -/
def KeepsWorld (s t : State) : Prop := WorldGood s → WorldGood t

theorem keepsWorld_of_eq {s t : State} (hw : t.world = s.world) (hc : t.cfg = s.cfg) : KeepsWorld s t := fun h => by
  unfold WorldGood
  rw [hw, hc]
  exact h

theorem busRel_keepsWorld : BusRel KeepsWorld where
  refl _ := id
  trans _ _ _ h1 h2 := h2 ∘ h1
  faulted _ _ _ := keepsWorld_of_eq rfl rfl
  ticked s n := keepsWorld_of_eq (tick_world s n) (tick_cfg s n)
  handled _ ms _ := fun ⟨hwf, hfits⟩ => ⟨world_wf_actAll _ ms hwf, world_fits_actAll ms hfits⟩

theorem stores_keepsWorld : Stores KeepsWorld := fun _ loc v ⟨hwf, hfits⟩ => ⟨world_wf_store loc v hwf, hfits⟩

theorem allows_keepsWorld (i : Instr) : Allows KeepsWorld i where
  a _ _ _ := keepsWorld_of_eq rfl rfl
  b _ _ _ := keepsWorld_of_eq rfl rfl
  x _ _ _ := keepsWorld_of_eq rfl rfl
  y _ _ _ := keepsWorld_of_eq rfl rfl
  u _ _ _ := keepsWorld_of_eq rfl rfl
  s _ _ _ := keepsWorld_of_eq rfl rfl
  pc _ _ _ := keepsWorld_of_eq rfl rfl
  dp _ _ _ := keepsWorld_of_eq rfl rfl
  moved r _ s w := keepsWorld_of_eq (setIx_world s r w) (setIx_cfg s r w)
  cc _ _ _ := keepsWorld_of_eq rfl rfl
  armed _ _ := keepsWorld_of_eq rfl rfl
  cwai _ _ := keepsWorld_of_eq rfl rfl
  sync _ _ := keepsWorld_of_eq rfl rfl
  stored _ := stores_keepsWorld
  free _ _ _ := keepsWorld_of_eq rfl rfl

theorem allowsService_keepsWorld : AllowsService KeepsWorld where
  s _ _ := keepsWorld_of_eq rfl rfl
  cc _ _ _ _ := keepsWorld_of_eq rfl rfl
  pc _ _ := keepsWorld_of_eq rfl rfl
  waits _ := keepsWorld_of_eq rfl rfl
  stored := stores_keepsWorld
  lines _ n f i := fun ⟨hwf, hfits⟩ => ⟨world_wf_lines n f i hwf, hfits⟩

/-- Every step keeps a good world good. -/
theorem step_keepsWorld {s t : State} (h : step s = .next t) : KeepsWorld s t :=
  step_keeps busRel_keepsWorld allowsService_keepsWorld (fun _ => keepsWorld_of_eq rfl rfl)
    (fun _ _ => keepsWorld_of_eq rfl rfl) allows_keepsWorld h

/-- The two wait states do not hold together (10_state.md R39). -/
def OneWait (s : State) : Prop := ¬ (s.waitCwai = true ∧ s.waitSync = true)

/-- What the interrupt check and the fetch do to the waits: each is what it was, or over. -/
def WaitsEnd (s t : State) : Prop :=
  (t.waitCwai = true → s.waitCwai = true) ∧ (t.waitSync = true → s.waitSync = true)

theorem waitsEnd_of_eq {s t : State} (hc : t.waitCwai = s.waitCwai) (hs : t.waitSync = s.waitSync) : WaitsEnd s t :=
  ⟨fun h => hc ▸ h, fun h => hs ▸ h⟩

theorem WaitsEnd.oneWait {s t : State} (h : WaitsEnd s t) (hs : OneWait s) : OneWait t := fun ⟨hc, hy⟩ =>
  hs ⟨h.1 hc, h.2 hy⟩

theorem busRel_waitsEnd : BusRel WaitsEnd where
  refl _ := ⟨id, id⟩
  trans _ _ _ := fun ⟨hc1, hs1⟩ ⟨hc2, hs2⟩ => ⟨hc1 ∘ hc2, hs1 ∘ hs2⟩
  faulted _ _ _ := ⟨id, id⟩
  ticked s n := waitsEnd_of_eq (tick_waitCwai s n) (tick_waitSync s n)
  handled _ _ _ := ⟨id, id⟩

theorem keeps_check_waitsEnd : Keeps WaitsEnd interruptCheck :=
  keeps_check busRel_waitsEnd
    { s := fun _ _ => ⟨id, id⟩
      cc := fun _ _ _ _ => ⟨id, id⟩
      pc := fun _ _ => ⟨id, id⟩
      waits := fun _ => ⟨(nomatch ·), (nomatch ·)⟩
      stored := fun _ _ _ => ⟨id, id⟩
      lines := fun _ _ _ _ => ⟨id, id⟩ }
    fun _ => ⟨id, (nomatch ·)⟩

theorem keeps_fetch_waitsEnd : Keeps WaitsEnd fetchInstr :=
  keeps_fetchInstr busRel_waitsEnd fun _ _ => ⟨id, id⟩

/-- An instruction that runs outside both waits begins one at most. -/
theorem exec_oneWait {i : Instr} {s t : State} (hc : s.waitCwai ≠ true) (hs : s.waitSync ≠ true)
    (h : exec i s = .next t) : OneWait t := by
  have F := exec_registersOf h
  rintro ⟨hct, hst⟩
  by_cases hi : i = .sync
  · exact hc (F.waitCwai (fun m hm => nomatch hi.symm.trans hm) ▸ hct)
  · exact hs (F.waitSync hi ▸ hst)

/-- Every step keeps the waits apart: an instruction is reached outside both. -/
theorem step_oneWait {s t : State} (h : step s = .next t) (hs : OneWait s) : OneWait t := by
  have hcheck := keeps_check_waitsEnd s.begun
  have hbegun : OneWait s.begun := hs
  rcases step_cases s with ⟨k, t1, h1, h2⟩ | ⟨t1, h1, h2⟩ | ⟨t1, h1, h2⟩ | ⟨t0, k, t1, h1, h2, h3⟩ |
      ⟨t0, i, t1, h1, h2, h3⟩
  · rw [final_error h1] at hcheck
    cases h2.symm.trans h
    exact hcheck.oneWait hbegun
  · rw [final_ok h1] at hcheck
    cases h2.symm.trans h
    exact hcheck.oneWait hbegun
  · rw [final_ok h1] at hcheck
    cases h2.symm.trans h
    exact hcheck.oneWait hbegun
  · rw [final_ok h1] at hcheck
    cases h3.symm.trans h
    have hfetch := keeps_fetch_waitsEnd t0
    rw [final_error h2] at hfetch
    exact hfetch.oneWait (hcheck.oneWait hbegun)
  · obtain ⟨-, -, -, hcwai, -, rfl⟩ := check_proceed h1
    have hfetch := keeps_fetch_waitsEnd { s.begun with waitSync := false }
    rw [final_ok h2] at hfetch
    refine exec_oneWait (fun hc => ?_) (fun hy => nomatch hfetch.2 hy) (h3.symm.trans h)
    exact absurd (hcwai.symm.trans (hfetch.1 hc)) (by decide)

/-- Settles O53: the three parts of the invariant. -/
theorem stepKeepsInvariant : Obligations.StepKeepsInvariant := by
  intro s t ⟨hwf, hone, hfits⟩ h
  obtain ⟨hwf', hfits'⟩ := step_keepsWorld h ⟨hwf, hfits⟩
  exact ⟨hwf', step_oneWait h hone, hfits'⟩

/-! What every step answers -/

/-- What no part of a step breaks. -/
structure Steady (s t : State) : Prop where
  fault : s.fault ≠ some .internalError → t.fault ≠ some .internalError
  latch : s.nmiArmed = true → t.nmiArmed = true
  cfg : t.cfg = s.cfg
  nextCb : t.nextCb = s.nextCb
  clockHeld : t.clockHeld = s.clockHeld
  handlers : s.handlerCount ≤ t.handlerCount

theorem Steady.refl (s : State) : Steady s s := ⟨id, id, rfl, rfl, rfl, Nat.le_refl _⟩

theorem busRel_steady : BusRel Steady where
  refl := Steady.refl
  trans _ _ _ h1 h2 :=
    ⟨h2.fault ∘ h1.fault, h2.latch ∘ h1.latch, h2.cfg.trans h1.cfg, h2.nextCb.trans h1.nextCb,
      h2.clockHeld.trans h1.clockHeld, Nat.le_trans h1.handlers h2.handlers⟩
  faulted s k hk := { Steady.refl s with fault := fun _ h => hk (Option.some.inj h) }
  ticked s n := by constructor <;> simp
  handled s ms _ := { Steady.refl s with handlers := Nat.le_succ _ }

theorem allows_steady (i : Instr) : Allows Steady i where
  a _ s _ := { Steady.refl s with }
  b _ s _ := { Steady.refl s with }
  x _ s _ := { Steady.refl s with }
  y _ s _ := { Steady.refl s with }
  u _ s _ := { Steady.refl s with }
  s _ s _ := { Steady.refl s with }
  pc _ s _ := { Steady.refl s with }
  dp _ s _ := { Steady.refl s with }
  moved r _ s w := by constructor <;> simp
  cc s _ _ := { Steady.refl s with }
  armed s _ := { Steady.refl s with latch := fun _ => rfl }
  cwai _ s := { Steady.refl s with }
  sync _ s := { Steady.refl s with }
  stored _ s _ _ := { Steady.refl s with }
  free _ s _ := { Steady.refl s with }

theorem allowsService_steady : AllowsService Steady where
  s s _ := { Steady.refl s with }
  cc s _ _ _ := { Steady.refl s with }
  pc s _ := { Steady.refl s with }
  waits s := { Steady.refl s with }
  stored s _ _ := { Steady.refl s with }
  lines s _ _ _ := { Steady.refl s with }

/-- A step always has a next state. -/
theorem step_next (s : State) : ∃ t, step s = .next t := by
  rcases step_cases s with ⟨_, t, -, h⟩ | ⟨t, -, h⟩ | ⟨t, -, h⟩ | ⟨_, _, t, -, -, h⟩ | ⟨_, i, t, -, -, h⟩
  · exact ⟨t, h⟩
  · exact ⟨t, h⟩
  · exact ⟨t, h⟩
  · exact ⟨t, h⟩
  · exact ⟨_, h.trans (exec_eq i t)⟩

/-- A step is steady once it has begun. -/
theorem step_steady {s t : State} (h : step s = .next t) : Steady s.begun t :=
  runStep_keeps busRel_steady allowsService_steady (fun s => { Steady.refl s with }) allows_steady h

/-- Settles O54: `Steady` from the state in which the step has begun, and `clock_seen_le` for the clock of handlers. -/
theorem stepAlwaysAnswers : Obligations.StepAlwaysAnswers := by
  intro s
  obtain ⟨t, h⟩ := step_next s
  have S := step_steady h
  refine ⟨t, h, S.fault (by simp), S.latch, S.cfg, S.nextCb, S.handlers, S.clockHeld, fun hheld n hn ht => ?_⟩
  exact clock_seen_le h (S.clockHeld ▸ hheld) hn ht

end Sys2Proof.Proofs
end

