-- ==== Sys2Proof/Proofs/Clock.lean ====
section
/-! The clock (10_state.md R39, 70_reset_and_hazards.md R430, R440): an action that is no cost leaves it alone, so a step
adds one cost, and `Run` uses its budget. -/

namespace Sys2Proof.Proofs

open Sys2Proof Sys2Proof.Machine Sys2Proof.Laws

/-! Actions that cost nothing -/

/-- The two faults of the bus, which cost nothing. -/
def Fault.ofBus (k : Fault) : Prop := k = .undefinedRead ∨ k = .undefinedWrite

/-- The three faults of an illegal encoding, which cost `CYC_FAULT`. -/
def Fault.ofDecode (k : Fault) : Prop := k = .instruction ∨ k = .addressMode ∨ k = .registerSelect

/-- Clock, fault code and parameters are as before. -/
structure Unbilled (s t : State) : Prop where
  clock : t.clock = s.clock
  fault : t.fault = s.fault
  cfg : t.cfg = s.cfg

/-- What a fault of an action has cost: nothing on the bus, `CYC_FAULT` in decoding. -/
structure FaultBilled (k : Fault) (s t : State) : Prop where
  fault : t.fault = some k
  cost : Fault.ofBus k ∧ t.clock = s.clock ∨
    Fault.ofDecode k ∧ (s.clock.toNat + s.cfg.cycFault < 2 ^ 64 → t.clock.toNat = s.clock.toNat + s.cfg.cycFault)

/-- An action without a cost of its own: a fault in it costs what its kind costs. -/
def Costless {α : Type} (m : Act α) : Prop :=
  ∀ s, (∀ v t, m s = .ok v t → Unbilled s t) ∧ ∀ k t, m s = .error k t → FaultBilled k s t

theorem Unbilled.refl (s : State) : Unbilled s s := ⟨rfl, rfl, rfl⟩

theorem Unbilled.trans {s t u : State} (h1 : Unbilled s t) (h2 : Unbilled t u) : Unbilled s u :=
  ⟨h2.clock.trans h1.clock, h2.fault.trans h1.fault, h2.cfg.trans h1.cfg⟩

theorem FaultBilled.after {k : Fault} {s t u : State} (h1 : Unbilled s t) (h2 : FaultBilled k t u) :
    FaultBilled k s u := by
  refine ⟨h2.fault, ?_⟩
  rw [← h1.clock, ← h1.cfg]
  exact h2.cost

theorem costless_of_ok {α : Type} {m : Act α} (h : ∀ s, ∃ v t, m s = .ok v t ∧ Unbilled s t) : Costless m := by
  intro s
  obtain ⟨v, t, hm, hu⟩ := h s
  refine ⟨fun v' t' h' => ?_, fun k t' h' => ?_⟩
  · rw [hm] at h'
    cases h'
    exact hu
  · rw [hm] at h'
    cases h'

theorem costless_pure {α : Type} (v : α) : Costless (pure v : Act α) :=
  costless_of_ok fun s => ⟨v, s, rfl, Unbilled.refl s⟩

theorem costless_look {α : Type} (f : State → α) : Costless (look f) :=
  costless_of_ok fun s => ⟨f s, s, rfl, Unbilled.refl s⟩

theorem costless_change {f : State → State} (h : ∀ s, Unbilled s (f s)) : Costless (change f) :=
  costless_of_ok fun s => ⟨(), f s, rfl, h s⟩

theorem costless_bind {α β : Type} {m : Act α} {f : α → Act β} (hm : Costless m) (hf : ∀ v, Costless (f v)) :
    Costless (m >>= f) := by
  intro s
  obtain ⟨hok, herr⟩ := hm s
  cases h : m s with
  | ok v t =>
    have hu := hok v t h
    rw [bind_ok h]
    exact ⟨fun w u hw => hu.trans ((hf v t).1 w u hw), fun k u hk => FaultBilled.after hu ((hf v t).2 k u hk)⟩
  | error k t =>
    rw [bind_error h]
    refine ⟨fun _ _ h' => (nomatch h'), fun k' t' h' => ?_⟩
    cases h'
    exact herr k t h

theorem costless_onlyIf (b : Bool) {m : Act Unit} (hm : Costless m) : Costless (onlyIf b m) := by
  cases b
  · exact costless_pure ()
  · exact hm

theorem costless_raiseDecode {α : Type} {k : Fault} (hk : Fault.ofDecode k) : Costless (raiseDecode k : Act α) := by
  intro s
  rw [raiseDecode_apply]
  refine ⟨fun _ _ h => (nomatch h), fun k' t h => ?_⟩
  cases h
  exact ⟨rfl, .inr ⟨hk, tick_clock_toNat s s.cfg.cycFault⟩⟩

theorem costless_read8 (a : Word) : Costless (read8 a) := by
  intro s
  refine ⟨fun v t h => ?_, fun k t h => ?_⟩
  · obtain ⟨w, n, rfl⟩ := eq_of_read8_ok h
    exact ⟨rfl, rfl, rfl⟩
  · obtain ⟨rfl, rfl⟩ := eq_of_read8_error h
    exact ⟨rfl, .inl ⟨.inl rfl, rfl⟩⟩

theorem costless_write8 (a : Word) (v : Byte) : Costless (write8 a v) := by
  intro s
  rcases write8_cases a v s with ⟨loc, -, h⟩ | ⟨k, -, -, h⟩ | ⟨-, -, h⟩ <;>
    rw [h] <;> refine ⟨fun _ _ h' => ?_, fun _ _ h' => ?_⟩ <;> cases h'
  · exact ⟨rfl, rfl, rfl⟩
  · exact ⟨rfl, rfl, rfl⟩
  · exact ⟨rfl, .inl ⟨.inr rfl, rfl⟩⟩

theorem costless_read16 (a : Word) : Costless (read16 a) :=
  costless_bind (costless_read8 a) fun _ => costless_bind (costless_read8 _) fun _ => costless_pure _

theorem costless_write16 (a w : Word) : Costless (write16 a w) :=
  costless_bind (costless_write8 a _) fun _ => costless_write8 _ _

/-! The stacks -/

theorem unbilled_setSp (s : State) (p : Sp) (w : Word) : Unbilled s (s.setSp p w) := by
  constructor <;> simp

theorem costless_push8 (p : Sp) (v : Byte) : Costless (push8 p v) :=
  costless_bind (costless_change fun s => unbilled_setSp s p _) fun _ =>
    costless_bind (costless_look _) fun a => costless_write8 a v

theorem costless_push16 (p : Sp) (w : Word) : Costless (push16 p w) :=
  costless_bind (costless_push8 p _) fun _ => costless_push8 p _

theorem costless_pushBytes (p : Sp) (bs : List Byte) : Costless (pushBytes p bs) := by
  induction bs with
  | nil => exact costless_pure ()
  | cons v vs ih => exact costless_bind ih fun _ => costless_push8 p v

theorem costless_pushEntire : Costless pushEntire := fun s => by
  rw [pushEntire_eq]
  exact costless_pushBytes .s s.entireImage s

theorem costless_pushList (p : Sp) (l : RegList) : Costless (pushList p l) := fun s => by
  rw [pushList_eq]
  exact costless_pushBytes p (l.image p s) s

theorem costless_pull8 (p : Sp) : Costless (pull8 p) :=
  costless_bind (costless_look _) fun a => costless_bind (costless_read8 a) fun t =>
    costless_bind (costless_change fun s => unbilled_setSp s p _) fun _ => costless_pure t

theorem costless_pull16 (p : Sp) : Costless (pull16 p) :=
  costless_bind (costless_pull8 p) fun _ => costless_bind (costless_pull8 p) fun _ => costless_pure _

theorem costless_pull8To (p : Sp) {f : State → Byte → State} (hf : ∀ s v, Unbilled s (f s v)) :
    Costless (pull8To p f) :=
  costless_bind (costless_pull8 p) fun v => costless_change fun s => hf s v

theorem costless_pull16To (p : Sp) {f : State → Word → State} (hf : ∀ s w, Unbilled s (f s w)) :
    Costless (pull16To p f) :=
  costless_bind (costless_pull16 p) fun w => costless_change fun s => hf s w

theorem costless_pullOther (p : Sp) : Costless (pullOther p) :=
  costless_pull16To p fun s w => by cases p <;> exact ⟨rfl, rfl, rfl⟩

theorem costless_pullList (p : Sp) (l : RegList) : Costless (pullList p l) :=
  costless_bind (costless_onlyIf _ (costless_pull8To p fun _ _ => ⟨rfl, rfl, rfl⟩)) fun _ =>
  costless_bind (costless_onlyIf _ (costless_pull8To p fun _ _ => ⟨rfl, rfl, rfl⟩)) fun _ =>
  costless_bind (costless_onlyIf _ (costless_pull8To p fun _ _ => ⟨rfl, rfl, rfl⟩)) fun _ =>
  costless_bind (costless_onlyIf _ (costless_pull8To p fun _ _ => ⟨rfl, rfl, rfl⟩)) fun _ =>
  costless_bind (costless_onlyIf _ (costless_pull16To p fun _ _ => ⟨rfl, rfl, rfl⟩)) fun _ =>
  costless_bind (costless_onlyIf _ (costless_pull16To p fun _ _ => ⟨rfl, rfl, rfl⟩)) fun _ =>
  costless_bind (costless_onlyIf _ (costless_pullOther p)) fun _ =>
  costless_onlyIf _ (costless_pull16To p fun _ _ => ⟨rfl, rfl, rfl⟩)

theorem costless_pushFrame (f : Frame) : Costless (pushFrame f) := by
  cases f with
  | entire => exact costless_bind (costless_change fun _ => ⟨rfl, rfl, rfl⟩) fun _ => costless_pushEntire
  | short =>
    exact costless_bind (costless_change fun _ => ⟨rfl, rfl, rfl⟩) fun _ =>
      costless_bind (costless_look _) fun _ => costless_bind (costless_push16 .s _) fun _ =>
      costless_bind (costless_look _) fun _ => costless_push8 .s _
  | stacked => exact costless_pure ()

theorem costless_takeException (f : Frame) (mi mf : Bool) (vector : Word) :
    Costless (takeException f mi mf vector) :=
  costless_bind (costless_pushFrame f) fun _ => costless_bind (costless_change fun _ => ⟨rfl, rfl, rfl⟩) fun _ =>
    costless_bind (costless_read16 vector) fun _ => costless_change fun _ => ⟨rfl, rfl, rfl⟩

theorem costless_returnFromException : Costless returnFromException :=
  costless_bind (costless_pull8To .s fun _ _ => ⟨rfl, rfl, rfl⟩) fun _ => costless_bind (costless_look _) fun e =>
    costless_bind (costless_onlyIf e
      (costless_bind (costless_pull8To .s fun _ _ => ⟨rfl, rfl, rfl⟩) fun _ =>
        costless_bind (costless_pull8To .s fun _ _ => ⟨rfl, rfl, rfl⟩) fun _ =>
        costless_bind (costless_pull8To .s fun _ _ => ⟨rfl, rfl, rfl⟩) fun _ =>
        costless_bind (costless_pull16To .s fun _ _ => ⟨rfl, rfl, rfl⟩) fun _ =>
        costless_bind (costless_pull16To .s fun _ _ => ⟨rfl, rfl, rfl⟩) fun _ =>
        costless_pull16To .s fun _ _ => ⟨rfl, rfl, rfl⟩)) fun _ =>
    costless_bind (costless_pull16To .s fun _ _ => ⟨rfl, rfl, rfl⟩) fun _ => costless_pure e

theorem costless_softwareInterrupt (mi mf : Bool) (vector : Word) : Costless (softwareInterrupt mi mf vector) :=
  costless_bind (costless_look _) fun _ =>
    costless_bind (costless_onlyIf _ (costless_raiseDecode (.inl rfl))) fun _ => costless_takeException _ mi mf vector

theorem costless_call (target : Word) : Costless (call target) :=
  costless_bind (costless_look _) fun w => costless_bind (costless_push16 .s w) fun _ =>
    costless_change fun _ => ⟨rfl, rfl, rfl⟩

theorem costless_checkPair (r1 r2 : Reg) : Costless (checkPair r1 r2) :=
  costless_onlyIf _ (costless_raiseDecode (.inr (.inr rfl)))

/-! The resolver -/

theorem unbilled_setIx (s : State) (r : IxReg) (w : Word) : Unbilled s (s.setIx r w) := by
  constructor <;> simp

theorem costless_indirect (ind : Bool) (a : Word) : Costless (indirect ind a) := by
  cases ind
  · exact costless_pure a
  · exact costless_read16 a

theorem costless_postInc (r : IxReg) (n : Word) : Costless (postInc r n) :=
  costless_bind (costless_look _) fun _ =>
    costless_bind (costless_change fun s => unbilled_setIx s r _) fun _ => costless_pure _

theorem costless_preDec (r : IxReg) (n : Word) : Costless (preDec r n) :=
  costless_bind (costless_change fun s => unbilled_setIx s r _) fun _ => costless_look _

theorem costless_eaIndexed (x : Idx) : Costless (eaIndexed x) := by
  have direct {f : State → Word} (ind : Bool) : Costless (do indirect ind (← look f)) :=
    costless_bind (costless_look f) fun a => costless_indirect ind a
  cases x with
  | off5 r n => exact costless_look _
  | inc1 r => exact costless_postInc r 1
  | inc2 r ind => exact costless_bind (costless_postInc r 2) fun a => costless_indirect ind a
  | dec1 r => exact costless_preDec r 1
  | dec2 r ind => exact costless_bind (costless_preDec r 2) fun a => costless_indirect ind a
  | zero r ind => exact direct ind
  | accB r ind => exact direct ind
  | accA r ind => exact direct ind
  | off8 r n ind => exact direct ind
  | off16 r n ind => exact direct ind
  | accD r ind => exact direct ind
  | pcr8 n ind => exact direct ind
  | pcr16 n ind => exact direct ind
  | extInd n => exact costless_read16 n

theorem costless_ea (m : Mem) : Costless (ea m) := by
  cases m with
  | dir dd => exact costless_look _
  | ext a => exact costless_pure a
  | idx x => exact costless_eaIndexed x

theorem costless_operand8 (o : Src8) : Costless (operand8 o) := by
  cases o with
  | imm b => exact costless_pure b
  | mem m => exact costless_bind (costless_ea m) fun a => costless_read8 a

theorem costless_operand16 (o : Src16) : Costless (operand16 o) := by
  cases o with
  | imm w => exact costless_pure w
  | mem m => exact costless_bind (costless_ea m) fun a => costless_read16 a

/-! The shapes of instructions -/

theorem costless_unaryAcc (f : CC → Byte → Byte × CC) (r : Acc) : Costless (unaryAcc f r) :=
  costless_change fun s => by constructor <;> simp

theorem costless_unaryMem (f : CC → Byte → Byte × CC) (m : Mem) : Costless (unaryMem f m) :=
  costless_bind (costless_ea m) fun a => costless_bind (costless_read8 a) fun _ => costless_bind (costless_look _) fun o =>
    costless_bind (costless_change fun _ => ⟨rfl, rfl, rfl⟩) fun _ => costless_write8 a o.1

theorem costless_testAcc (r : Acc) : Costless (testAcc r) := costless_change fun _ => ⟨rfl, rfl, rfl⟩

theorem costless_testMem (m : Mem) : Costless (testMem m) :=
  costless_bind (costless_ea m) fun a => costless_bind (costless_read8 a) fun _ =>
    costless_change fun _ => ⟨rfl, rfl, rfl⟩

theorem costless_clearMem (m : Mem) : Costless (clearMem m) :=
  costless_bind (costless_ea m) fun a => costless_bind (costless_look _) fun b =>
    costless_bind (costless_onlyIf b (costless_bind (costless_read8 a) fun _ => costless_pure ())) fun _ =>
    costless_bind (costless_look _) fun o =>
    costless_bind (costless_change fun _ => ⟨rfl, rfl, rfl⟩) fun _ => costless_write8 a o.1

theorem costless_binary8 (f : CC → Byte → Byte → Byte × CC) (r : Acc) (o : Src8) : Costless (binary8 f r o) :=
  costless_bind (costless_operand8 o) fun _ => costless_change fun s => by constructor <;> simp

theorem costless_compare8 (f : CC → Byte → Byte → Byte × CC) (r : Acc) (o : Src8) : Costless (compare8 f r o) :=
  costless_bind (costless_operand8 o) fun _ => costless_change fun _ => ⟨rfl, rfl, rfl⟩

theorem costless_store8 (r : Acc) (m : Mem) : Costless (store8 r m) :=
  costless_bind (costless_ea m) fun a => costless_bind (costless_look _) fun v =>
    costless_bind (costless_change fun _ => ⟨rfl, rfl, rfl⟩) fun _ => costless_write8 a v

theorem costless_binary16 (f : CC → Word → Word → Word × CC) (r : Wide) (o : Src16) : Costless (binary16 f r o) :=
  costless_bind (costless_operand16 o) fun _ => costless_change fun s => by constructor <;> simp

theorem costless_compare16 (r : Wide) (o : Src16) : Costless (compare16 r o) :=
  costless_bind (costless_operand16 o) fun _ => costless_change fun _ => ⟨rfl, rfl, rfl⟩

theorem costless_store16 (r : Wide) (m : Mem) : Costless (store16 r m) :=
  costless_bind (costless_ea m) fun a => costless_bind (costless_look _) fun w =>
    costless_bind (costless_change fun _ => ⟨rfl, rfl, rfl⟩) fun _ => costless_write16 a w

theorem costless_leaIndex (r : Wide) (x : Idx) : Costless (leaIndex r x) :=
  costless_bind (costless_eaIndexed x) fun _ => costless_change fun s => by constructor <;> simp

theorem costless_leaStack (r : Wide) (x : Idx) : Costless (leaStack r x) :=
  costless_bind (costless_eaIndexed x) fun _ => costless_change fun s => by constructor <;> simp

/-- A branch, taken or not. -/
theorem costless_branch (c : Cond) (t : Word) :
    Costless (change fun s => if c.holds s.cc then { s with pc := t } else s) :=
  costless_change fun s => by split <;> exact ⟨rfl, rfl, rfl⟩

theorem costless_branchShort (c : Cond) (n : Byte) : Costless (branchShort c n) :=
  costless_bind (costless_look _) fun t => costless_branch c t

theorem costless_branchLong (c : Cond) (n : Word) : Costless (branchLong c n) :=
  costless_bind (costless_look _) fun t => costless_branch c t

/-! What a cost adds -/

/-- The state after one cost between `lo` and `hi`, or the fault that came before it. -/
def Billed (lo hi : Nat) {α : Type} (m : Act α) : Prop :=
  ∀ s, s.cfg = Params.default → s.clock.toNat + hi < 2 ^ 64 →
    (∀ v t, m s = .ok v t → t.fault = s.fault ∧ s.clock.toNat + lo ≤ t.clock.toNat ∧
      t.clock.toNat ≤ s.clock.toNat + hi) ∧
    ∀ k t, m s = .error k t → FaultBilled k s t

/-- Nothing that costs before a cost. -/
theorem billed_after {α β : Type} {lo hi : Nat} {m : Act α} {f : α → Act β} (hm : Costless m)
    (hf : ∀ v, Billed lo hi (f v)) : Billed lo hi (m >>= f) := by
  intro s hcfg hclock
  obtain ⟨hok, herr⟩ := hm s
  cases h : m s with
  | ok v t =>
    have hu := hok v t h
    obtain ⟨hok', herr'⟩ := hf v t (hu.cfg.trans hcfg) (by rw [hu.clock]; exact hclock)
    rw [hu.clock, hu.fault] at hok'
    rw [bind_ok h]
    exact ⟨hok', fun k u hk => FaultBilled.after hu (herr' k u hk)⟩
  | error k t =>
    rw [bind_error h]
    refine ⟨fun _ _ h' => (nomatch h'), fun k' t' h' => ?_⟩
    cases h'
    exact herr k t h

/-- The cost, and then something that costs nothing and does not fault. -/
theorem billed_cost_then {β : Type} {lo hi : Nat} {n : State → Nat} {rest : Act β}
    (hn : ∀ s : State, s.cfg = Params.default → lo ≤ n s ∧ n s ≤ hi)
    (hrest : ∀ s, ∃ v t, rest s = .ok v t ∧ Unbilled s t) :
    Billed lo hi (look n >>= fun k => spend k >>= fun _ => rest) := by
  intro s hcfg hclock
  obtain ⟨hlo, hhi⟩ := hn s hcfg
  obtain ⟨w, u, hu, hb⟩ := hrest (s.tick (n s))
  have hticked := tick_clock_toNat s (n s) (by omega)
  rw [look_bind_apply, spend_bind_apply, hu]
  refine ⟨fun w' t' h' => ?_, fun _ _ h' => (nomatch h')⟩
  cases h'
  rw [hb.fault, hb.clock, hticked, tick_fault]
  exact ⟨rfl, by omega, by omega⟩

/-- The cost at the end of an instruction. -/
theorem billed_cost {lo hi : Nat} {n : State → Nat} (hn : ∀ s : State, s.cfg = Params.default → lo ≤ n s ∧ n s ≤ hi) :
    Billed lo hi (do spend (← look n)) :=
  billed_cost_then (rest := pure ()) hn fun s => ⟨(), s, rfl, Unbilled.refl s⟩

/-! The default costs -/

/-- The costs of 70_reset_and_hazards.md R442: at least one cycle, at most 20, and at most 12 before the add-on of an
indexed operand. -/
def CycleBounds (n : Nat) (x : Option Idx) : Prop := 1 ≤ n ∧ n ≤ 20 ∧ (x ≠ none → n ≤ 12)

theorem cycleBounds_plain {n : Nat} (h : 1 ≤ n ∧ n ≤ 20) : CycleBounds n none := ⟨h.1, h.2, fun h => absurd rfl h⟩

theorem cycleBounds_mem (m : Mem) {d x e : Nat} (hd : 1 ≤ d ∧ d ≤ 20) (hx : 1 ≤ x ∧ x ≤ 12) (he : 1 ≤ e ∧ e ≤ 20) :
    CycleBounds (Mem.cycles m d x e) (Mem.indexed? m) := by
  cases m with
  | dir _ => exact cycleBounds_plain hd
  | ext _ => exact cycleBounds_plain he
  | idx _ => exact ⟨hx.1, Nat.le_trans hx.2 (by decide), fun _ => hx.2⟩

theorem cycleBounds_src8 (o : Src8) : CycleBounds (Src8.cycles o) (Src8.indexed? o) := by
  cases o with
  | imm _ => exact cycleBounds_plain (n := 2) (by decide)
  | mem m => exact cycleBounds_mem m (by decide) (by decide) (by decide)

theorem cycleBounds_src16 (o : Src16) {n : Nat} (hn : 1 ≤ n ∧ n ≤ 10) :
    CycleBounds (Src16.cycles o n) (Src16.indexed? o) := by
  cases o with
  | imm _ => exact cycleBounds_plain (n := n) (by omega)
  | mem m => exact cycleBounds_mem m (by omega) (by omega) (by omega)

theorem baseCycles_bounds (i : Instr) : CycleBounds (baseCycles i) (indexedOf i) := by
  cases i
  case neg m | com m | lsr m | ror m | asr m | asl m | rol m | dec m | inc m | tst m | jmp m | clr m |
    sta m | jsr m | stx m | stb m | std m | stu m | sty m | sts m =>
    exact cycleBounds_mem m (by decide) (by decide) (by decide)
  case suba o | cmpa o | sbca o | anda o | bita o | lda o | eora o | adca o | ora o | adda o | subb o |
    cmpb o | sbcb o | andb o | bitb o | ldb o | eorb o | adcb o | orb o | addb o =>
    exact cycleBounds_src8 o
  case subd o | cmpx o | ldx o | addd o | ldd o | ldu o | cmpd o | cmpy o | ldy o | lds o | cmpu o | cmps o =>
    exact cycleBounds_src16 o (by decide)
  case leax x | leay x | leas x | leau x =>
    simp [baseCycles, CycleBounds]
  all_goals exact cycleBounds_plain (by simp [baseCycles])

theorem idxCost_default_le (x : Idx) : idxCost Params.default x ≤ 8 := by
  have dflt : idxCost Params.default x = idxCycles x := rfl
  have indirect (ind : Bool) {n : Nat} (hn : n ≤ 5) : indirectCycles ind n ≤ 8 := by
    cases ind
    · exact Nat.le_trans hn (by decide)
    · exact Nat.add_le_add_right hn 3
  rw [dflt]
  cases x with
  | off5 r n | inc1 r | dec1 r | extInd n => simp [idxCycles]
  | inc2 r ind | dec2 r ind | zero r ind | accB r ind | accA r ind | off8 r n ind | off16 r n ind | accD r ind
  | pcr8 n ind | pcr16 n ind => exact indirect ind (by decide)

theorem listBytes_le (l : RegList) : listBytes l ≤ 12 := by
  have bit (b : Bool) : b.toNat ≤ 1 := Bool.toNat_le b
  have := bit l.cc; have := bit l.a; have := bit l.b; have := bit l.dp
  have := bit l.x; have := bit l.y; have := bit l.other; have := bit l.pc
  unfold listBytes
  omega

/-- What the default table charges for the bytes of a list. -/
theorem cost_list {i : Instr} {l : RegList} (hc : cost Params.default i = 5 + 0 + 1 * listBytes l) :
    1 ≤ cost Params.default i ∧ cost Params.default i ≤ 20 := by
  have := listBytes_le l
  omega

/-- Every default cost is between 1 and 20 (70_reset_and_hazards.md R440, R442, R443). -/
theorem cost_default_bounds (i : Instr) : 1 ≤ cost Params.default i ∧ cost Params.default i ≤ 20 := by
  have addOn (hc : cost Params.default i = baseCycles i +
      (match indexedOf i with | some x => idxCost Params.default x | none => 0) + 0) :
      1 ≤ cost Params.default i ∧ cost Params.default i ≤ 20 := by
    obtain ⟨hlo, hhi, hidx⟩ := baseCycles_bounds i
    rw [hc]
    cases hx : indexedOf i with
    | none => exact ⟨by simpa using hlo, by simpa using hhi⟩
    | some x =>
      have hbase := hidx (by rw [hx]; exact Option.some_ne_none x)
      have hle := idxCost_default_le x
      exact ⟨by simp only; omega, by simp only; omega⟩
  cases i with
  | pshs l | puls l | pshu l | pulu l => exact cost_list (l := l) rfl
  | _ => exact addOn rfl

/-! Every instruction has one cost -/

theorem billed_costed {i : Instr} {m : Act Unit} (hm : Costless m) : Billed 1 20 (costed i m) :=
  billed_after hm fun _ => billed_cost fun s hs => by
    rw [hs]
    exact cost_default_bounds i

/-- A long conditional branch costs 5, and 6 when it is taken. -/
theorem billed_longBranch {i : Instr} {c : Cond} {n : Word} (hc : cost Params.default i = 5) :
    Billed 1 20 (longBranch i c n) :=
  billed_after (costless_look _) fun taken => billed_after (costless_branchLong c n) fun _ =>
    billed_cost fun s hs => by
      rw [hs, hc]
      cases taken <;> decide

theorem billed_rti : Billed 1 20 rtiAction :=
  billed_after costless_returnFromException fun entire => billed_cost fun s hs => by
    rw [hs]
    cases entire <;> decide

theorem unbilled_arm (s : State) (b : Bool) : Unbilled s (s.arm b) := ⟨rfl, rfl, rfl⟩

theorem unbilled_setReg (s : State) (r : Reg) (w : Word) : Unbilled s (s.setReg r w) := by
  constructor <;> simp

/-- Every instruction adds between 1 and 20 cycles, or faults for the price of its fault. -/
theorem billed_action (i : Instr) : Billed 1 20 (action i) := by
  cases i with
  | neg m => exact billed_costed (costless_unaryMem _ _)
  | com m => exact billed_costed (costless_unaryMem _ _)
  | lsr m => exact billed_costed (costless_unaryMem _ _)
  | ror m => exact billed_costed (costless_unaryMem _ _)
  | asr m => exact billed_costed (costless_unaryMem _ _)
  | asl m => exact billed_costed (costless_unaryMem _ _)
  | rol m => exact billed_costed (costless_unaryMem _ _)
  | dec m => exact billed_costed (costless_unaryMem _ _)
  | inc m => exact billed_costed (costless_unaryMem _ _)
  | tst m => exact billed_costed (costless_testMem _)
  | jmp m => exact billed_costed (costless_bind (costless_ea m) fun _ => costless_change fun _ => ⟨rfl, rfl, rfl⟩)
  | clr m => exact billed_costed (costless_clearMem _)
  | nop => exact billed_costed (costless_pure ())
  | sync => exact billed_costed (costless_change fun _ => ⟨rfl, rfl, rfl⟩)
  | lbra n => exact billed_costed (costless_branchLong _ _)
  | lbsr n => exact billed_costed (costless_bind (costless_look _) costless_call)
  | daa => exact billed_costed (costless_change fun _ => ⟨rfl, rfl, rfl⟩)
  | orcc n => exact billed_costed (costless_change fun _ => ⟨rfl, rfl, rfl⟩)
  | andcc n => exact billed_costed (costless_change fun _ => ⟨rfl, rfl, rfl⟩)
  | sex => exact billed_costed (costless_change fun _ => ⟨rfl, rfl, rfl⟩)
  | exg r1 r2 => exact billed_costed (costless_bind (costless_checkPair r1 r2) fun _ => costless_change fun s =>
      (unbilled_setReg s r1 _).trans ((unbilled_setReg _ r2 _).trans (unbilled_arm _ _)))
  | tfr r1 r2 => exact billed_costed (costless_bind (costless_checkPair r1 r2) fun _ => costless_change fun s =>
      (unbilled_setReg s r2 _).trans (unbilled_arm _ _))
  | bra n => exact billed_costed (costless_branchShort _ _)
  | brn n => exact billed_costed (costless_branchShort _ _)
  | bhi n => exact billed_costed (costless_branchShort _ _)
  | bls n => exact billed_costed (costless_branchShort _ _)
  | bcc n => exact billed_costed (costless_branchShort _ _)
  | bcs n => exact billed_costed (costless_branchShort _ _)
  | bne n => exact billed_costed (costless_branchShort _ _)
  | beq n => exact billed_costed (costless_branchShort _ _)
  | bvc n => exact billed_costed (costless_branchShort _ _)
  | bvs n => exact billed_costed (costless_branchShort _ _)
  | bpl n => exact billed_costed (costless_branchShort _ _)
  | bmi n => exact billed_costed (costless_branchShort _ _)
  | bge n => exact billed_costed (costless_branchShort _ _)
  | blt n => exact billed_costed (costless_branchShort _ _)
  | bgt n => exact billed_costed (costless_branchShort _ _)
  | ble n => exact billed_costed (costless_branchShort _ _)
  | leax x => exact billed_costed (costless_leaIndex _ _)
  | leay x => exact billed_costed (costless_leaIndex _ _)
  | leas x =>
    exact billed_costed (costless_bind (costless_leaStack _ _) fun _ => costless_change fun s => unbilled_arm s _)
  | leau x => exact billed_costed (costless_leaStack _ _)
  | pshs l => exact billed_costed (costless_pushList _ _)
  | puls l => exact billed_costed (costless_pullList _ _)
  | pshu l => exact billed_costed (costless_pushList _ _)
  | pulu l => exact billed_costed (costless_pullList _ _)
  | rts => exact billed_costed (costless_pull16To .s fun _ _ => ⟨rfl, rfl, rfl⟩)
  | abx => exact billed_costed (costless_change fun _ => ⟨rfl, rfl, rfl⟩)
  | rti => exact billed_rti
  | cwai n => exact billed_costed (costless_bind (costless_change fun _ => ⟨rfl, rfl, rfl⟩) fun _ =>
      costless_bind (costless_pushFrame _) fun _ => costless_change fun _ => ⟨rfl, rfl, rfl⟩)
  | mul => exact billed_costed (costless_change fun _ => ⟨rfl, rfl, rfl⟩)
  | swi => exact billed_costed (costless_softwareInterrupt _ _ _)
  | nega => exact billed_costed (costless_unaryAcc _ _)
  | coma => exact billed_costed (costless_unaryAcc _ _)
  | lsra => exact billed_costed (costless_unaryAcc _ _)
  | rora => exact billed_costed (costless_unaryAcc _ _)
  | asra => exact billed_costed (costless_unaryAcc _ _)
  | asla => exact billed_costed (costless_unaryAcc _ _)
  | rola => exact billed_costed (costless_unaryAcc _ _)
  | deca => exact billed_costed (costless_unaryAcc _ _)
  | inca => exact billed_costed (costless_unaryAcc _ _)
  | tsta => exact billed_costed (costless_testAcc _)
  | clra => exact billed_costed (costless_unaryAcc _ _)
  | negb => exact billed_costed (costless_unaryAcc _ _)
  | comb => exact billed_costed (costless_unaryAcc _ _)
  | lsrb => exact billed_costed (costless_unaryAcc _ _)
  | rorb => exact billed_costed (costless_unaryAcc _ _)
  | asrb => exact billed_costed (costless_unaryAcc _ _)
  | aslb => exact billed_costed (costless_unaryAcc _ _)
  | rolb => exact billed_costed (costless_unaryAcc _ _)
  | decb => exact billed_costed (costless_unaryAcc _ _)
  | incb => exact billed_costed (costless_unaryAcc _ _)
  | tstb => exact billed_costed (costless_testAcc _)
  | clrb => exact billed_costed (costless_unaryAcc _ _)
  | suba o => exact billed_costed (costless_binary8 _ _ _)
  | cmpa o => exact billed_costed (costless_compare8 _ _ _)
  | sbca o => exact billed_costed (costless_binary8 _ _ _)
  | subd o => exact billed_costed (costless_binary16 _ _ _)
  | anda o => exact billed_costed (costless_binary8 _ _ _)
  | bita o => exact billed_costed (costless_compare8 _ _ _)
  | lda o => exact billed_costed (costless_binary8 _ _ _)
  | eora o => exact billed_costed (costless_binary8 _ _ _)
  | adca o => exact billed_costed (costless_binary8 _ _ _)
  | ora o => exact billed_costed (costless_binary8 _ _ _)
  | adda o => exact billed_costed (costless_binary8 _ _ _)
  | cmpx o => exact billed_costed (costless_compare16 _ _)
  | bsr n => exact billed_costed (costless_bind (costless_look _) costless_call)
  | ldx o => exact billed_costed (costless_binary16 _ _ _)
  | sta m => exact billed_costed (costless_store8 _ _)
  | jsr m => exact billed_costed (costless_bind (costless_ea m) costless_call)
  | stx m => exact billed_costed (costless_store16 _ _)
  | subb o => exact billed_costed (costless_binary8 _ _ _)
  | cmpb o => exact billed_costed (costless_compare8 _ _ _)
  | sbcb o => exact billed_costed (costless_binary8 _ _ _)
  | addd o => exact billed_costed (costless_binary16 _ _ _)
  | andb o => exact billed_costed (costless_binary8 _ _ _)
  | bitb o => exact billed_costed (costless_compare8 _ _ _)
  | ldb o => exact billed_costed (costless_binary8 _ _ _)
  | eorb o => exact billed_costed (costless_binary8 _ _ _)
  | adcb o => exact billed_costed (costless_binary8 _ _ _)
  | orb o => exact billed_costed (costless_binary8 _ _ _)
  | addb o => exact billed_costed (costless_binary8 _ _ _)
  | ldd o => exact billed_costed (costless_binary16 _ _ _)
  | ldu o => exact billed_costed (costless_binary16 _ _ _)
  | stb m => exact billed_costed (costless_store8 _ _)
  | std m => exact billed_costed (costless_store16 _ _)
  | stu m => exact billed_costed (costless_store16 _ _)
  | lbrn n => exact billed_longBranch rfl
  | lbhi n => exact billed_longBranch rfl
  | lbls n => exact billed_longBranch rfl
  | lbcc n => exact billed_longBranch rfl
  | lbcs n => exact billed_longBranch rfl
  | lbne n => exact billed_longBranch rfl
  | lbeq n => exact billed_longBranch rfl
  | lbvc n => exact billed_longBranch rfl
  | lbvs n => exact billed_longBranch rfl
  | lbpl n => exact billed_longBranch rfl
  | lbmi n => exact billed_longBranch rfl
  | lbge n => exact billed_longBranch rfl
  | lblt n => exact billed_longBranch rfl
  | lbgt n => exact billed_longBranch rfl
  | lble n => exact billed_longBranch rfl
  | swi2 => exact billed_costed (costless_softwareInterrupt _ _ _)
  | cmpd o => exact billed_costed (costless_compare16 _ _)
  | cmpy o => exact billed_costed (costless_compare16 _ _)
  | ldy o => exact billed_costed (costless_binary16 _ _ _)
  | sty m => exact billed_costed (costless_store16 _ _)
  | lds o =>
    exact billed_costed (costless_bind (costless_binary16 _ _ _) fun _ => costless_change fun s => unbilled_arm s _)
  | sts m => exact billed_costed (costless_store16 _ _)
  | swi3 => exact billed_costed (costless_softwareInterrupt _ _ _)
  | cmpu o => exact billed_costed (costless_compare16 _ _)
  | cmps o => exact billed_costed (costless_compare16 _ _)

/-! Every step has one cost -/

theorem costless_fetch8 : Costless fetch8 :=
  costless_bind (costless_look _) fun a => costless_bind (costless_read8 a) fun t =>
    costless_bind (costless_change fun _ => ⟨rfl, rfl, rfl⟩) fun _ => costless_pure t

theorem faultOf_ofDecode (r : Reject) : Fault.ofDecode (faultOf r) := by
  cases r with
  | noOpcode => exact .inl rfl
  | noSubMode => exact .inr (.inl rfl)
  | noRegisterPair => exact .inr (.inr rfl)

/-- Fetching, as long as the bytes left are enough for the longest instruction. -/
theorem costless_fetchMore (n : Nat) (bs : List Byte) (hb : bs.length < maxLength)
    (hn : maxLength ≤ n + bs.length) : Costless (fetchMore n bs) := by
  induction n generalizing bs with
  | zero => omega
  | succ n ih =>
    refine costless_bind costless_fetch8 fun v => costless_bind (costless_look _) fun dc => ?_
    cases hd : decode dc (bs ++ [v]) with
    | more => exact ih _ (decode_more hd) (by rw [List.length_append, List.length_singleton]; omega)
    | ok i rest => exact costless_pure i
    | bad r => exact costless_raiseDecode (faultOf_ofDecode r)

theorem costless_fetchInstr : Costless fetchInstr := costless_fetchMore maxLength [] (by decide) (by decide)

/-- The services of 60_exceptions.md R373 to R375. -/
theorem billed_service {e : Entry} (hc : 1 ≤ e.cycles Params.default ∧ e.cycles Params.default ≤ 20) :
    Billed 1 20 (served e.service) := by
  have hservice : Billed 1 20 e.service :=
    billed_after (costless_look _) fun f => billed_after (costless_takeException f _ _ _) fun _ =>
      billed_after (costless_change fun _ => ⟨rfl, rfl, rfl⟩) fun _ =>
      billed_cost_then (fun s hs => by rw [hs]; exact hc) fun s => ⟨(), _, rfl, rfl, rfl, rfl⟩
  intro s hcfg hclock
  obtain ⟨hok, herr⟩ := hservice s hcfg hclock
  unfold served
  cases h : e.service s with
  | ok v t =>
    rw [bind_ok h]
    refine ⟨fun v' t' h' => ?_, fun _ _ h' => (nomatch h')⟩
    cases h'
    exact hok v t h
  | error k t =>
    rw [bind_error h]
    refine ⟨fun _ _ h' => (nomatch h'), fun k' t' h' => ?_⟩
    cases h'
    exact herr k t h

theorem billed_idle : Billed 1 20 idleStep :=
  billed_cost_then (fun s hs => by rw [hs]; decide) fun s => ⟨_, s, rfl, Unbilled.refl s⟩

/-- The interrupt check, unless it lets the step go on. -/
theorem interruptCheck_billed {s : State} (hcfg : s.cfg = Params.default) (hclock : s.clock.toNat + 20 < 2 ^ 64) :
    (∀ c t, interruptCheck s = .ok c t → c ≠ .proceed →
      t.fault = s.fault ∧ s.clock.toNat + 1 ≤ t.clock.toNat ∧ t.clock.toNat ≤ s.clock.toNat + 20) ∧
    ∀ k t, interruptCheck s = .error k t → FaultBilled k s t := by
  have billed {m : Act Check} (hm : Billed 1 20 m) (heq : interruptCheck s = m s) :
      (∀ c t, interruptCheck s = .ok c t → c ≠ .proceed →
        t.fault = s.fault ∧ s.clock.toNat + 1 ≤ t.clock.toNat ∧ t.clock.toNat ≤ s.clock.toNat + 20) ∧
      ∀ k t, interruptCheck s = .error k t → FaultBilled k s t := by
    obtain ⟨hok, herr⟩ := hm s hcfg hclock
    rw [heq]
    exact ⟨fun c t h _ => hok c t h, herr⟩
  cases hn : s.nmiReady with
  | true => exact billed (billed_service (e := nmiEntry) (by decide)) (interruptCheck_nmi hn)
  | false =>
    cases hf : s.firqReady with
    | true => exact billed (billed_service (e := firqEntry) (by decide)) (interruptCheck_firq hn hf)
    | false =>
      cases hi : s.irqReady with
      | true => exact billed (billed_service (e := irqEntry) (by decide)) (interruptCheck_irq hn hf hi)
      | false =>
        have hquiet := interruptCheck_quiet hn hf hi
        by_cases hwait : s.waitCwai = true ∨ (s.waitSync = true ∧ s.lineReleasesSync = false)
        · refine billed billed_idle (hquiet.trans ?_)
          rcases hwait with hc | ⟨hs, hl⟩
          · exact if_pos hc
          · by_cases hc : s.waitCwai = true
            · exact if_pos hc
            · exact (if_neg hc).trans ((if_pos hs).trans (if_neg (by rw [hl]; decide)))
        · rw [not_or, not_and, Bool.not_eq_true, Bool.not_eq_false] at hwait
          rw [hquiet, checkWaits_proceed hwait.1 hwait.2]
          exact ⟨fun c t h hne => by cases h; exact absurd rfl hne, fun k t h => (nomatch h)⟩

/-- What a step has cost when it ends, by the fault code it ends with. -/
structure StepBill (s t : State) : Prop where
  well : t.fault = none → s.clock.toNat + 1 ≤ t.clock.toNat ∧ t.clock.toNat ≤ s.clock.toNat + 20
  bus : t.fault = some .undefinedRead ∨ t.fault = some .undefinedWrite → t.clock = s.clock
  decode : t.fault = some .instruction ∨ t.fault = some .addressMode ∨ t.fault = some .registerSelect →
    t.clock.toNat = s.clock.toNat + 1

theorem StepBill.of_ok {s t : State} (hf : t.fault = none)
    (hc : s.clock.toNat + 1 ≤ t.clock.toNat ∧ t.clock.toNat ≤ s.clock.toNat + 20) : StepBill s t := by
  refine ⟨fun _ => hc, fun h => ?_, fun h => ?_⟩ <;> simp [hf] at h

theorem StepBill.of_fault {k : Fault} {s t : State} (hcfg : s.cfg = Params.default)
    (hclock : s.clock.toNat + 20 < 2 ^ 64) (h : FaultBilled k s t) : StepBill s t := by
  obtain ⟨hf, hc⟩ := h
  have hfault : s.cfg.cycFault = 1 := by rw [hcfg]; rfl
  rw [hfault] at hc
  rcases hc with ⟨hk, hc⟩ | ⟨hk, hc⟩
  · refine ⟨fun h => ?_, fun _ => hc, fun h => ?_⟩
    · simp [hf] at h
    · rcases hk with rfl | rfl <;> simp [hf] at h
  · refine ⟨fun h => ?_, fun h => ?_, fun _ => hc (by omega)⟩
    · simp [hf] at h
    · rcases hk with rfl | rfl | rfl <;> simp [hf] at h

/-- The bill of an instruction that runs in a state without a fault. -/
theorem exec_billed {i : Instr} {s t : State} (hcfg : s.cfg = Params.default) (hclock : s.clock.toNat + 20 < 2 ^ 64)
    (hfault : s.fault = none) (h : exec i s = .next t) : StepBill s t := by
  obtain ⟨hok, herr⟩ := billed_action i s hcfg hclock
  rw [exec_eq] at h
  cases hm : action i s with
  | ok v u =>
    rw [final_ok hm] at h
    cases h
    obtain ⟨hf, hc⟩ := hok v _ hm
    exact .of_ok (hf.trans hfault) hc
  | error k u =>
    rw [final_error hm] at h
    cases h
    exact .of_fault hcfg hclock (herr k _ hm)

/-- The bill of a step, by the five ways it ends. -/
theorem step_billed {s t : State} (hcfg : s.cfg = Params.default) (hclock : s.clock.toNat + 20 < 2 ^ 64)
    (h : step s = .next t) : StepBill s.begun t := by
  obtain ⟨hok, herr⟩ := interruptCheck_billed (s := s.begun) hcfg hclock
  rcases step_cases s with ⟨k, t1, h1, h2⟩ | ⟨t1, h1, h2⟩ | ⟨t1, h1, h2⟩ | ⟨t0, k, t1, h1, h2, h3⟩ |
      ⟨t0, i, t1, h1, h2, h3⟩
  · cases h2.symm.trans h
    exact .of_fault hcfg hclock (herr k _ h1)
  · cases h2.symm.trans h
    obtain ⟨hf, hc⟩ := hok _ _ h1 (by decide)
    exact .of_ok hf hc
  · cases h2.symm.trans h
    obtain ⟨hf, hc⟩ := hok _ _ h1 (by decide)
    exact .of_ok hf hc
  · cases h3.symm.trans h
    obtain ⟨-, -, -, -, -, rfl⟩ := check_proceed h1
    exact .of_fault hcfg hclock (FaultBilled.after (t := { s.begun with waitSync := false }) ⟨rfl, rfl, rfl⟩
      ((costless_fetchInstr _).2 k _ h2))
  · obtain ⟨-, -, -, -, -, rfl⟩ := check_proceed h1
    have hu := (costless_fetchInstr _).1 i t1 h2
    have hbill := exec_billed (hu.cfg.trans hcfg) (by rw [hu.clock]; exact hclock) hu.fault (h3.symm.trans h)
    obtain ⟨hwell, hbus, hdecode⟩ := hbill
    rw [hu.clock] at hwell hbus hdecode
    exact ⟨hwell, hbus, hdecode⟩

/-- Settles O59: the bill of the step. -/
theorem stepAdvancesTheClock : Obligations.StepAdvancesTheClock := by
  intro s t hcfg hclock h
  have hbill := step_billed hcfg hclock h
  exact ⟨hbill.well, hbill.bus, hbill.decode⟩

/-! The loop of `Run` -/

/-- `Step()` answers what `step` leads to. -/
theorem hostStep_eq {s t : State} (h : step s = .next t) : hostStep s = ⟨t.fault, t⟩ := by
  unfold hostStep
  rw [h]

/-- Without a callback the periodic check does nothing. -/
theorem periodicCheck_default {s : State} (hcfg : s.cfg = Params.default) : periodicCheck s = s := by
  unfold periodicCheck
  rw [hcfg]
  rfl

/-- What `Run` may answer: the budget used and overshot by less than the largest step cost, or the fault code of the
state it stopped in. -/
def WithinBudget (start budget : Nat) (r : Returned) : Prop :=
  (r.code = none → start + budget ≤ r.state.clock.toNat ∧ r.state.clock.toNat ≤ start + budget + 19) ∧
    ∀ k, r.code = some k → r.state.fault = some k

/-- The loop, from a state inside the budget (or at its end) with steps enough left for it. -/
theorem runLoop_withinBudget {start : BitVec 64} {budget : Nat} (hmax : start.toNat + budget + 20 < 2 ^ 64) (fuel : Nat)
    (s : State) (hcfg : s.cfg = Params.default) (hlo : start.toNat ≤ s.clock.toNat)
    (hhi : s.clock.toNat ≤ start.toNat + budget + 19) (hfuel : start.toNat + budget ≤ s.clock.toNat + fuel) :
    WithinBudget start.toNat budget (runLoop budget start fuel s) := by
  induction fuel generalizing s with
  | zero => exact ⟨fun _ => ⟨hfuel, hhi⟩, fun _ h => (nomatch h)⟩
  | succ fuel ih =>
    unfold runLoop
    rw [BitVec.toNat_sub_of_le hlo]
    by_cases hin : s.clock.toNat - start.toNat < budget
    · obtain ⟨t, ht⟩ := step_next s
      obtain ⟨hwell, -, -⟩ := step_billed hcfg (by omega) ht
      have hcfg' : t.cfg = Params.default := (step_steady ht).cfg.trans hcfg
      simp only [if_pos hin, hostStep_eq ht, periodicCheck_default hcfg']
      cases hf : t.fault with
      | some k =>
        refine ⟨fun h => (nomatch h), fun k' h => ?_⟩
        cases h
        exact hf
      | none =>
        obtain ⟨hmin, hmore⟩ := hwell hf
        rw [begun_clock] at hmin hmore
        exact ih t hcfg' (by omega) (by omega) (by omega)
    · rw [if_neg hin]
      have hout : start.toNat + budget ≤ s.clock.toNat := by omega
      exact ⟨fun _ => ⟨hout, hhi⟩, fun _ h => (nomatch h)⟩

/-- Settles O60: the loop from the clock at its start. -/
theorem runUsesItsBudget : Obligations.RunUsesItsBudget := by
  intro n s hcfg hmax
  obtain ⟨hok, hfault⟩ :=
    runLoop_withinBudget (start := s.clock) hmax n s hcfg (Nat.le_refl _) (by omega) (Nat.le_refl _)
  exact ⟨rfl, hok, hfault⟩

end Sys2Proof.Proofs
end

