-- ==== Sys2Proof/Proofs/Bus.lean ====
section
/-! The bus and the operands (20_memory.md, 40_addressing_modes.md): what an access and the resolver answer and what they
leave alone. -/

namespace Sys2Proof.Proofs

open Sys2Proof Sys2Proof.Machine Sys2Proof.Laws

/-! Registration and backing memory -/

/-- Settles O7: a canonical table with one entry set, and the rest of `world` as it was. -/
theorem registrationChangesOneEntry : Obligations.RegistrationChangesOneEntry := by
  intro w p e hwf
  obtain ⟨hrp, hwp, hrh, hwh, -⟩ := world_wf_iff.mp hwf
  exact ⟨fun q => find_put _ e q hrp, rfl, fun q => find_put _ e q hwp, rfl, fun q => find_put _ e q hrh, rfl,
    fun q => find_put _ e q hwh, rfl⟩

/-- What a canonical memory lists is not what an unlisted location reads as. -/
theorem find_ne_fill {m : Memory} (hm : m.wf = true) (l : Nat) : SMap.find m l ≠ some Memory.fill := by
  intro hfind
  simp only [Memory.wf, Bool.and_eq_true] at hm
  obtain ⟨-, hall⟩ := hm
  induction m with
  | nil => cases hfind
  | cons c m ih =>
    obtain ⟨k, v⟩ := c
    rw [List.all_cons, Bool.and_eq_true] at hall
    obtain ⟨hv, hall⟩ := hall
    unfold SMap.find at hfind
    split at hfind
    · simp [Option.some.inj hfind] at hv
    · exact ih hfind hall

/-- In a canonical memory a read tells what is listed. -/
theorem find_eq_of_read {m : Memory} (hm : m.wf = true) (l : Nat) :
    SMap.find m l = if m.read l = Memory.fill then none else some (m.read l) := by
  have hne := find_ne_fill hm l
  unfold Memory.read
  cases hf : SMap.find m l with
  | none => simp
  | some b =>
    have hb : b ≠ Memory.fill := fun h => hne (by rw [hf, h])
    simp [hb]

/-- Canonical memories that read alike are one memory. -/
theorem memory_ext {m n : Memory} (hm : m.wf = true) (hn : n.wf = true) (h : ∀ l, m.read l = n.read l) : m = n :=
  wf_ext (wf_of_memory_wf hm) (wf_of_memory_wf hn) fun l => by
    rw [find_eq_of_read hm, find_eq_of_read hn, h]

/-- Settles O8: read after write, and equality of canonical memories. -/
theorem backingMemoryHoldsLastWrite : Obligations.BackingMemoryHoldsLastWrite :=
  ⟨fun _ loc l v hm => ⟨memory_wf_write loc v hm, memory_read_write loc v l hm⟩, fun _ _ => memory_ext⟩

/-! Bus accesses -/

/-- The read pointer of a page, at the offset of the address. -/
theorem readSpot_eq (w : World) (a : Word) :
    w.readSpot a = (SMap.find w.rp (a.toNat / 256)).map (· + a.toNat % 256) := by
  unfold World.readSpot
  rw [pageOf_eq, offOf_eq]
  cases SMap.find w.rp (a.toNat / 256) <;> rfl

/-- The write pointer of a page, at the offset of the address. -/
theorem writeSpot_eq (w : World) (a : Word) :
    w.writeSpot a = (SMap.find w.wp (a.toNat / 256)).map (· + a.toNat % 256) := by
  unfold World.writeSpot
  rw [pageOf_eq, offOf_eq]
  cases SMap.find w.wp (a.toNat / 256) <;> rfl

theorem readHandler_eq (w : World) (a : Word) : w.readHandler a = SMap.find w.rh (a.toNat / 256) := by
  unfold World.readHandler
  rw [pageOf_eq]

theorem writeHandler_eq (w : World) (a : Word) : w.writeHandler a = SMap.find w.wh (a.toNat / 256) := by
  unfold World.writeHandler
  rw [pageOf_eq]

/-- Settles O4: the three cases of a read, by the tables' entries. -/
theorem readDispatch : Obligations.ReadDispatch := by
  refine fun s a => ⟨fun base hrp => ?_, fun k hrp hrh => ?_, fun hrp hrh => ?_⟩
  · exact read8_pointer (by rw [readSpot_eq, hrp]; rfl)
  · exact read8_handler (by rw [readSpot_eq, hrp]; rfl) ((readHandler_eq ..).trans hrh)
  · exact read8_fault (by rw [readSpot_eq, hrp]; rfl) ((readHandler_eq ..).trans hrh)

/-- Settles O5: the three cases of a write, by the tables' entries. -/
theorem writeDispatch : Obligations.WriteDispatch := by
  refine fun s a v => ⟨fun base hwp => ?_, fun k hwp hwh => ?_, fun hwp hwh => ?_⟩
  · exact write8_pointer v (by rw [writeSpot_eq, hwp]; rfl)
  · exact write8_handler v (by rw [writeSpot_eq, hwp]; rfl) ((writeHandler_eq ..).trans hwh)
  · exact write8_fault v (by rw [writeSpot_eq, hwp]; rfl) ((writeHandler_eq ..).trans hwh)

/-- A write that succeeds changes `world` and the count of handler runs alone (20_memory.md R66, R67). -/
theorem eq_of_write8_ok {s t : State} {a : Word} {v : Byte} (h : write8 a v s = .ok () t) :
    ∃ w n, t = { s with world := w, handlerCount := n } := by
  rcases write8_cases a v s with ⟨_, -, hw⟩ | ⟨_, -, -, hw⟩ | ⟨-, -, hw⟩ <;> rw [hw] at h <;> cases h
  · exact ⟨_, _, rfl⟩
  · exact ⟨_, _, rfl⟩

/-- The one way a write can fault: nothing serves the page, and only the fault is recorded (20_memory.md R65). -/
theorem eq_of_write8_error {s t : State} {a : Word} {v : Byte} {k : Fault} (h : write8 a v s = .error k t) :
    k = .undefinedWrite ∧ t = { s with fault := some .undefinedWrite } := by
  rcases write8_cases a v s with ⟨_, -, hw⟩ | ⟨_, -, -, hw⟩ | ⟨-, -, hw⟩ <;> rw [hw] at h <;> cases h
  exact ⟨rfl, rfl⟩

/-- Settles O6: what an access that ends well and one that faults leave. -/
theorem busAccessTouchesOnlyWorld : Obligations.BusAccessTouchesOnlyWorld := by
  refine fun s t a v k => ⟨fun h => ?_, fun h => ?_, eq_of_read8_error, eq_of_write8_error⟩
  · obtain ⟨w, n, rfl⟩ := eq_of_read8_ok h
    rfl
  · obtain ⟨w, n, rfl⟩ := eq_of_write8_ok h
    rfl

/-- Two bytes of plain memory, the second address modulo 2^16. -/
theorem ram_two {w : World} {a : Word} (h : w.ram a 2) : ∃ l1 l2, l2 ≠ l1 ∧
    w.readSpot a = some l1 ∧ w.writeSpot a = some l1 ∧
    w.readSpot (a + 1) = some l2 ∧ w.writeSpot (a + 1) = some l2 := by
  obtain ⟨l1, hr1, hw1, hd⟩ := h 0 Nat.zero_lt_two
  obtain ⟨l2, hr2, hw2, -⟩ := h 1 Nat.one_lt_two
  rw [add_zero_ofNat] at hr1 hw1
  refine ⟨l1, l2, fun heq => ?_, hr1, hw1, hr2, hw2⟩
  exact hd 1 Nat.one_lt_two Nat.one_ne_zero (heq ▸ hr2)

/-- Settles O9: the two bytes are stored one after the other at locations of their own. -/
theorem wordAccessIsBigEndian : Obligations.WordAccessIsBigEndian := by
  intro s a w hwf hram
  obtain ⟨l1, l2, hne, hr1, hw1, hr2, hw2⟩ := ram_two hram
  have hwf1 := world_wf_store l1 (hi w) hwf
  have hpeek (b : Word) : ((s.stored l1 (hi w)).stored l2 (lo w)).world.peek b =
      if s.world.readSpot b = some l2 then some (lo w)
      else if s.world.readSpot b = some l1 then some (hi w) else s.world.peek b := by
    refine (peek_store l2 (lo w) b hwf1).trans ?_
    rw [readSpot_store, peek_store l1 (hi w) b hwf]
  have hhigh : ((s.stored l1 (hi w)).stored l2 (lo w)).world.peek a = some (hi w) := by
    rw [hpeek, if_neg (by rw [hr1]; exact fun h => hne (Option.some.inj h).symm), if_pos hr1]
  have hlow : ((s.stored l1 (hi w)).stored l2 (lo w)).world.peek (a + 1) = some (lo w) := by
    rw [hpeek, if_pos hr2]
  refine ⟨_, write16_ok (write8_pointer _ hw1) (write8_pointer _ hw2), hhigh, hlow, ?_, rfl, fun b hb => ?_⟩
  · rw [read16_peek hhigh hlow, cat_hi_lo]
  · rw [hpeek, if_neg fun h => hb l2 h ⟨1, Nat.one_lt_two, hw2⟩,
      if_neg fun h => hb l1 h ⟨0, Nat.zero_lt_two, by rw [add_zero_ofNat]; exact hw1⟩]

/-! Pushes -/

theorem push8_eq_write8 (p : Sp) (v : Byte) (s : State) :
    push8 p v s = write8 (s.sp p - 1) v (s.setSp p (s.sp p - 1)) := by
  unfold push8
  rw [change_bind_apply, look_bind_apply, setSp_sp]

/-- The one way a push can fault: the pointer has moved and the write recorded its fault. -/
theorem eq_of_push8_error {p : Sp} {s t : State} {v : Byte} {k : Fault} (h : push8 p v s = .error k t) :
    k = .undefinedWrite ∧ t = { s.setSp p (s.sp p - 1) with fault := some .undefinedWrite } :=
  eq_of_write8_error (push8_eq_write8 p v s ▸ h)

/-- Settles O34: a push is a write behind the moved pointer. -/
theorem pushMovesThenWrites : Obligations.PushMovesThenWrites := by
  refine fun p s t t' v w => ⟨push8_eq_write8 p v s, fun hlow hhigh => (bind_ok hlow).trans hhigh, fun k h => ?_⟩
  obtain ⟨hk, rfl⟩ := eq_of_push8_error h
  exact ⟨by cases p <;> rfl, hk, rfl⟩

/-! The resolver -/

/-- Settles O19: each address as the sum that its mode is. -/
theorem simpleAddressingModes : Obligations.SimpleAddressingModes := by
  refine fun s dd n a w => ⟨?_, rfl, ?_, ?_⟩
  · exact congrArg (EStateM.Result.ok · s) (cat_eq_ofNat s.dp dd)
  · exact congrArg (EStateM.Result.ok · s) (add_sext8 s.pc n)
  · refine congrArg (EStateM.Result.ok · s) ?_
    rw [BitVec.ofNat_add, BitVec.ofNat_toNat, BitVec.ofNat_toNat, BitVec.setWidth_eq, BitVec.setWidth_eq]

/-- A word added modulo 2^16, as a sum of integers. -/
theorem add_eq_ofInt (a n : Word) : a + n = BitVec.ofInt 16 (a.toNat + n.toNat) := by
  rw [BitVec.ofInt_add]
  simp

/-- A word subtracted modulo 2^16, as a difference of integers. -/
theorem sub_eq_ofInt (a n : Word) : a - n = BitVec.ofInt 16 (a.toNat + -n.toNat) := by
  rw [BitVec.ofInt_add, BitVec.ofInt_neg, BitVec.sub_eq_add_neg]
  simp

theorem d_toNat (s : State) : (s.d.toNat : Int) = 256 * s.a.toNat + s.b.toNat := by
  rw [State.d, toNat_cat]
  omega

/-- A direct form answers the address itself. -/
theorem eaIndexed_look {x : Idx} {f : State → Word} {s : State} {a : Word}
    (hx : eaIndexed x = (do indirect false (← look f))) (ha : f s = a) : eaIndexed x s = .ok a s := by
  rw [hx, ← ha]
  rfl

/-- An indirect form reads the word at the address. -/
theorem eaIndexed_read {x : Idx} {f : State → Word} {s : State} {a : Word}
    (hx : eaIndexed x = (do indirect true (← look f))) (ha : f s = a) : eaIndexed x s = read16 a s := by
  rw [hx, ← ha]
  rfl

/-- A pre-decrement answers the register as it has just been moved. -/
theorem preDec_apply (r : IxReg) (n : Word) (s : State) : preDec r n s = .ok (s.ix r - n) (s.setIx r (s.ix r - n)) := by
  unfold preDec
  rw [change_bind_apply, look_apply, setIx_ix]

/-- Settles O20: each sub-mode's address as the sum that it is, read through where the form is indirect. -/
theorem indexedAddressingModes : Obligations.IndexedAddressingModes := by
  intro s r n5 n w base plus fromPC
  have hinc1 : s.ix r + 1 = plus 1 := add_eq_ofInt _ _
  have hinc2 : s.ix r + 2 = plus 2 := add_eq_ofInt _ _
  have hdec1 : s.ix r - 1 = plus (-1) := sub_eq_ofInt _ _
  have hdec2 : s.ix r - 2 = plus (-2) := sub_eq_ofInt _ _
  have hd : s.ix r + s.d = plus (256 * s.a.toNat + s.b.toNat) := by rw [← d_toNat, add_eq_ofInt]
  have hdir2 : preDec r 2 s = .ok (plus (-2)) (s.setIx r (plus (-2))) := by rw [preDec_apply, hdec2]
  refine ⟨congrArg (EStateM.Result.ok · s) (add_sext5 _ n5), congrArg (fun a => EStateM.Result.ok (s.ix r) (s.setIx r a)) hinc1,
    congrArg (fun a => EStateM.Result.ok (s.ix r) (s.setIx r a)) hinc2, by rw [← hdec1]; exact preDec_apply r 1 s, hdir2,
    eaIndexed_look rfl rfl, eaIndexed_look rfl (add_sext8 _ _), eaIndexed_look rfl (add_sext8 _ _),
    eaIndexed_look rfl (add_sext8 _ _), eaIndexed_look rfl (add_eq_ofInt _ _), eaIndexed_look rfl hd,
    eaIndexed_look rfl (add_sext8 _ _), eaIndexed_look rfl (add_eq_ofInt _ _),
    congrArg (fun a => read16 (s.ix r) (s.setIx r a)) hinc2, bind_ok hdir2,
    eaIndexed_read rfl rfl, eaIndexed_read rfl (add_sext8 _ _), eaIndexed_read rfl (add_sext8 _ _),
    eaIndexed_read rfl (add_sext8 _ _), eaIndexed_read rfl (add_eq_ofInt _ _), eaIndexed_read rfl hd,
    eaIndexed_read rfl (add_sext8 _ _), eaIndexed_read rfl (add_eq_ofInt _ _), rfl⟩

/-- From `s` the state `t` is `u` but for base registers that the sub-mode moves and for what handlers did to
`world`. -/
def Resolved (moved : Option IxReg) (s u t : State) : Prop :=
  t = { u with x := t.x, y := t.y, u := t.u, s := t.s, world := t.world, handlerCount := t.handlerCount } ∧
    (∀ q, moved ≠ some q → t.ix q = s.ix q) ∧ (s.world.NoHandlers → t.world = s.world)

/-- An action that moves the base register of its sub-mode at most, and whose one fault is an undefined read. -/
def Resolves (moved : Option IxReg) {α : Type} (m : Act α) : Prop :=
  ∀ s, (∀ v t, m s = .ok v t → Resolved moved s s t) ∧
    ∀ k t, m s = .error k t → k = .undefinedRead ∧ Resolved moved s { s with fault := some .undefinedRead } t

theorem Resolved.refl (moved : Option IxReg) (s : State) : Resolved moved s s s := ⟨rfl, fun _ _ => rfl, fun _ => rfl⟩

theorem Resolved.trans {moved : Option IxReg} {s t u : State} (h1 : Resolved moved s s t) (h2 : Resolved moved t t u) :
    Resolved moved s s u := by
  obtain ⟨heq1, hix1, hw1⟩ := h1
  obtain ⟨heq2, hix2, hw2⟩ := h2
  refine ⟨heq2.trans (by rw [heq1]), fun q hq => (hix2 q hq).trans (hix1 q hq), fun hn => ?_⟩
  exact (hw2 (by rw [hw1 hn]; exact hn)).trans (hw1 hn)

theorem Resolved.trans_fault {moved : Option IxReg} {s t u : State} (h1 : Resolved moved s s t)
    (h2 : Resolved moved t { t with fault := some .undefinedRead } u) :
    Resolved moved s { s with fault := some .undefinedRead } u := by
  obtain ⟨heq1, hix1, hw1⟩ := h1
  obtain ⟨heq2, hix2, hw2⟩ := h2
  refine ⟨heq2.trans (by rw [heq1]), fun q hq => (hix2 q hq).trans (hix1 q hq), fun hn => ?_⟩
  exact (hw2 (by rw [hw1 hn]; exact hn)).trans (hw1 hn)

section
variable {moved : Option IxReg}

theorem resolves_of_ok {α : Type} {m : Act α} (h : ∀ s, ∃ v t, m s = .ok v t ∧ Resolved moved s s t) :
    Resolves moved m := by
  intro s
  obtain ⟨v, t, hm, hr⟩ := h s
  rw [hm]
  refine ⟨fun _ _ h' => ?_, fun _ _ h' => (nomatch h')⟩
  cases h'
  exact hr

theorem resolves_pure {α : Type} (v : α) : Resolves moved (pure v : Act α) :=
  resolves_of_ok fun s => ⟨v, s, rfl, Resolved.refl moved s⟩

theorem resolves_look {α : Type} (f : State → α) : Resolves moved (look f) :=
  resolves_of_ok fun s => ⟨f s, s, rfl, Resolved.refl moved s⟩

theorem resolves_bind {α β : Type} {m : Act α} {f : α → Act β} (hm : Resolves moved m)
    (hf : ∀ v, Resolves moved (f v)) : Resolves moved (m >>= f) := by
  intro s
  obtain ⟨hok, herr⟩ := hm s
  cases h : m s with
  | ok v t =>
    have hr := hok v t h
    rw [bind_ok h]
    refine ⟨fun w u hw => hr.trans ((hf v t).1 w u hw), fun k u hk => ?_⟩
    obtain ⟨hkind, hu⟩ := (hf v t).2 k u hk
    exact ⟨hkind, hr.trans_fault hu⟩
  | error k t =>
    rw [bind_error h]
    refine ⟨fun _ _ h' => (nomatch h'), fun k' t' h' => ?_⟩
    cases h'
    exact herr k t h

theorem resolves_read8 (a : Word) : Resolves moved (read8 a) := by
  intro s
  refine ⟨fun v t h => ?_, fun k t h => ?_⟩
  · rcases read8_cases a s with ⟨loc, -, hr⟩ | ⟨k, -, hk, hr⟩ | ⟨-, -, hr⟩ <;> rw [hr] at h <;> cases h
    · exact Resolved.refl moved s
    · refine ⟨rfl, fun q _ => by cases q <;> rfl, fun hn => ?_⟩
      rw [World.readHandler, hn.1] at hk
      cases hk
  · obtain ⟨hk, rfl⟩ := eq_of_read8_error h
    exact ⟨hk, rfl, fun q _ => by cases q <;> rfl, fun _ => rfl⟩

theorem resolves_read16 (a : Word) : Resolves moved (read16 a) :=
  resolves_bind (resolves_read8 a) fun _ => resolves_bind (resolves_read8 _) fun _ => resolves_pure _

theorem resolves_indirect (ind : Bool) (a : Word) : Resolves moved (indirect ind a) := by
  cases ind
  · exact resolves_pure a
  · exact resolves_read16 a

end

/-- A move of the base register that the sub-mode names. -/
theorem resolved_setIx (s : State) (r : IxReg) (w : Word) : Resolved (some r) s s (s.setIx r w) := by
  refine ⟨by cases r <;> rfl, fun q hq => setIx_ix_ne s w fun h => hq (h ▸ rfl), fun _ => setIx_world s r w⟩

theorem resolves_move (r : IxReg) (f : State → Word) : Resolves (some r) (change fun s => s.setIx r (f s)) :=
  resolves_of_ok fun s => ⟨(), _, rfl, resolved_setIx s r (f s)⟩

theorem resolves_postInc (r : IxReg) (n : Word) : Resolves (some r) (postInc r n) :=
  resolves_bind (resolves_look _) fun _ => resolves_bind (resolves_move r _) fun _ => resolves_pure _

theorem resolves_preDec (r : IxReg) (n : Word) : Resolves (some r) (preDec r n) :=
  resolves_bind (resolves_move r _) fun _ => resolves_look _

theorem resolves_eaIndexed (x : Idx) : Resolves (Idx.moves x) (eaIndexed x) := by
  have direct {f : State → Word} (ind : Bool) : Resolves none (do indirect ind (← look f)) :=
    resolves_bind (resolves_look f) fun a => resolves_indirect ind a
  cases x with
  | off5 r n => exact resolves_look _
  | inc1 r => exact resolves_postInc r 1
  | inc2 r ind => exact resolves_bind (resolves_postInc r 2) fun a => resolves_indirect ind a
  | dec1 r => exact resolves_preDec r 1
  | dec2 r ind => exact resolves_bind (resolves_preDec r 2) fun a => resolves_indirect ind a
  | zero r ind => exact direct ind
  | accB r ind => exact direct ind
  | accA r ind => exact direct ind
  | off8 r n ind => exact direct ind
  | off16 r n ind => exact direct ind
  | accD r ind => exact direct ind
  | pcr8 n ind => exact direct ind
  | pcr16 n ind => exact direct ind
  | extInd n => exact resolves_read16 n

theorem resolves_ea (m : Mem) : Resolves (Mem.moves m) (ea m) := by
  cases m with
  | dir dd => exact resolves_look _
  | ext a => exact resolves_pure a
  | idx x => exact resolves_eaIndexed x

theorem resolves_operand8 (o : Src8) : Resolves (Src8.moves o) (operand8 o) := by
  cases o with
  | imm b => exact resolves_pure b
  | mem m => exact resolves_bind (resolves_ea m) fun a => resolves_read8 a

theorem resolves_operand16 (o : Src16) : Resolves (Src16.moves o) (operand16 o) := by
  cases o with
  | imm w => exact resolves_pure w
  | mem m => exact resolves_bind (resolves_ea m) fun a => resolves_read16 a

/-- Settles O21: addresses and operands by `Resolves`. -/
theorem resolverMovesOnlyItsBase : Obligations.ResolverMovesOnlyItsBase := by
  intro s t only
  exact ⟨fun m a => (resolves_ea m s).1 a t, fun m k => (resolves_ea m s).2 k t, fun o v => (resolves_operand8 o s).1 v t,
    fun o k => (resolves_operand8 o s).2 k t, fun o v => (resolves_operand16 o s).1 v t,
    fun o k => (resolves_operand16 o s).2 k t⟩

/-! Reset -/

/-- Settles O3: the power-on tables are null, so the vector read faults, and `State.reset` is canonical. -/
theorem resetStateIsPowerOnReset : Obligations.ResetStateIsPowerOnReset := by
  refine ⟨hostReset_error rfl (read16_fault rfl rfl), ?_, ?_, ?_⟩ <;> decide

end Sys2Proof.Proofs
end

