-- ==== Sys2Proof/Proofs/Flags.lean ====
section
/-! The flag computations of 41_alu8_unary.md, 42_alu8_binary.md R201 and 43_alu16.md R240 as exact arithmetic. -/

namespace Sys2Proof.Proofs

open Sys2Proof Sys2Proof.Machine Sys2Proof.Laws

/-- N and Z of a result, as sign and zero test. -/
theorem ofResult_eq {w : Nat} (k : CC) (r : BitVec w) (v c : Bool) :
    k.ofResult r v c = { k with n := r.msb, z := r == 0, v := v, c := c } := by
  unfold CC.ofResult CC.withNZVC
  rw [BitVec.msb_eq_toInt]
  rfl

/-- The zero test of a word, as the decision of the equation. -/
theorem bitVec_beq_eq_decide {w : Nat} (a b : BitVec w) : (a == b) = decide (a = b) := rfl

theorem logic8_eq (k : CC) (r : Byte) : k.logic8 r = k.ofResult r false k.c := (ofResult_eq k r false k.c).symm

theorem logic16_eq (k : CC) (r : Word) : k.logic16 r = k.ofResult r false k.c := (ofResult_eq k r false k.c).symm

/-! One operand: each result and each flag on the 256 bytes -/

theorem aluNeg_eq (k : CC) (m : Byte) : aluNeg k m = (BitVec.ofInt 8 (-m.toInt),
    k.ofResult (BitVec.ofInt 8 (-m.toInt)) (!fitsSigned 8 (-m.toInt)) (decide (m ≠ 0))) := by
  have hres : 0 - m = BitVec.ofInt 8 (-m.toInt) := by rw [BitVec.ofInt_neg]; simp
  have hv : (m == 0x80) = !fitsSigned 8 (-m.toInt) := by revert m; decide +kernel
  have hc : (m != 0) = decide (m ≠ 0) := by rw [bne, bitVec_beq_eq_decide, decide_not]
  rw [ofResult_eq, ← hres, ← hv, ← hc]
  rfl

theorem aluCom_eq (k : CC) (m : Byte) : aluCom k m = (BitVec.ofNat 8 (255 - m.toNat),
    k.ofResult (BitVec.ofNat 8 (255 - m.toNat)) false true) := by
  have hres : ~~~m = BitVec.ofNat 8 (255 - m.toNat) := by revert m; decide +kernel
  rw [ofResult_eq, ← hres]
  rfl

theorem aluLsr_eq (k : CC) (m : Byte) : aluLsr k m = (BitVec.ofNat 8 (m.toNat / 2),
    k.ofResult (BitVec.ofNat 8 (m.toNat / 2)) k.v (decide (m.toNat % 2 = 1))) := by
  have hres : m >>> 1 = BitVec.ofNat 8 (m.toNat / 2) := by revert m; decide +kernel
  have hn : (m >>> 1).msb = false := by revert m; decide +kernel
  have hc : m.getLsbD 0 = decide (m.toNat % 2 = 1) := by revert m; decide +kernel
  rw [ofResult_eq, ← hres, ← hc, hn]
  rfl

theorem aluRor_eq (k : CC) (m : Byte) : aluRor k m = (BitVec.ofNat 8 (m.toNat / 2 + 128 * k.c.toNat),
    k.ofResult (BitVec.ofNat 8 (m.toNat / 2 + 128 * k.c.toNat)) k.v (decide (m.toNat % 2 = 1))) := by
  have hres (c : Bool) : (BitVec.ofBool c ++ m.extractLsb' 1 7 : Byte) = BitVec.ofNat 8 (m.toNat / 2 + 128 * c.toNat) := by
    revert m c
    decide +kernel
  have hc : m.getLsbD 0 = decide (m.toNat % 2 = 1) := by revert m; decide +kernel
  rw [ofResult_eq, ← hres, ← hc]
  rfl

theorem aluAsr_eq (k : CC) (m : Byte) : aluAsr k m = (BitVec.ofInt 8 (m.toInt / 2),
    k.ofResult (BitVec.ofInt 8 (m.toInt / 2)) k.v (decide (m.toNat % 2 = 1))) := by
  have hres : (BitVec.ofBool m.msb ++ m.extractLsb' 1 7 : Byte) = BitVec.ofInt 8 (m.toInt / 2) := by
    revert m
    decide +kernel
  have hc : m.getLsbD 0 = decide (m.toNat % 2 = 1) := by revert m; decide +kernel
  rw [ofResult_eq, ← hres, ← hc]
  rfl

/-- The overflow and the carry of a shift to the left. -/
theorem shiftLeft_flags (m : Byte) : (m.getLsbD 7 ^^ m.getLsbD 6) = !fitsSigned 8 (2 * m.toInt) ∧
    m.getLsbD 7 = decide (128 ≤ m.toNat) := by
  revert m
  decide +kernel

theorem aluAsl_eq (k : CC) (m : Byte) : aluAsl k m = (BitVec.ofNat 8 (2 * m.toNat),
    k.ofResult (BitVec.ofNat 8 (2 * m.toNat)) (!fitsSigned 8 (2 * m.toInt)) (decide (128 ≤ m.toNat))) := by
  have hres : m <<< 1 = BitVec.ofNat 8 (2 * m.toNat) := by revert m; decide +kernel
  obtain ⟨hv, hc⟩ := shiftLeft_flags m
  rw [ofResult_eq, ← hres, ← hv, ← hc]
  rfl

theorem aluRol_eq (k : CC) (m : Byte) : aluRol k m = (BitVec.ofNat 8 (2 * m.toNat + k.c.toNat),
    k.ofResult (BitVec.ofNat 8 (2 * m.toNat + k.c.toNat)) (!fitsSigned 8 (2 * m.toInt)) (decide (128 ≤ m.toNat))) := by
  have hres (c : Bool) : (m.extractLsb' 0 7 ++ BitVec.ofBool c : Byte) = BitVec.ofNat 8 (2 * m.toNat + c.toNat) := by
    revert m c
    decide +kernel
  obtain ⟨hv, hc⟩ := shiftLeft_flags m
  rw [ofResult_eq, ← hres, ← hv, ← hc]
  rfl

theorem aluDec_eq (k : CC) (m : Byte) : aluDec k m = (BitVec.ofInt 8 (m.toInt - 1),
    k.ofResult (BitVec.ofInt 8 (m.toInt - 1)) (!fitsSigned 8 (m.toInt - 1)) k.c) := by
  have hres : m - 1 = BitVec.ofInt 8 (m.toInt - 1) := by revert m; decide +kernel
  have hv : (m == 0x80) = !fitsSigned 8 (m.toInt - 1) := by revert m; decide +kernel
  rw [ofResult_eq, ← hres, ← hv]
  rfl

theorem aluInc_eq (k : CC) (m : Byte) : aluInc k m = (BitVec.ofInt 8 (m.toInt + 1),
    k.ofResult (BitVec.ofInt 8 (m.toInt + 1)) (!fitsSigned 8 (m.toInt + 1)) k.c) := by
  have hres : m + 1 = BitVec.ofInt 8 (m.toInt + 1) := by revert m; decide +kernel
  have hv : (m == 0x7F) = !fitsSigned 8 (m.toInt + 1) := by revert m; decide +kernel
  rw [ofResult_eq, ← hres, ← hv]
  rfl

theorem aluClr_eq (k : CC) (m : Byte) : aluClr k m = (0, k.ofResult (0 : Byte) false false) := by
  rw [ofResult_eq]
  rfl

/-! Two operands: signed overflow for every width, then the four adders -/

/-- A number's sign bit and its signed value, with `half` for half the range. -/
theorem toInt_of_half {w half : Nat} (hw : 2 ^ (w + 1) = 2 * half) (x : BitVec (w + 1)) :
    x.toNat < 2 * half ∧ x.msb = decide (half ≤ x.toNat) ∧
      x.toInt = if half ≤ x.toNat then (x.toNat : Int) - 2 * half else x.toNat := by
  have hlt := x.isLt
  have hhalf : 2 ^ (w + 1 - 1) = half := by
    rw [Nat.add_sub_cancel]
    have := Nat.pow_succ 2 w
    omega
  refine ⟨by omega, by rw [BitVec.msb_eq_decide, hhalf], ?_⟩
  rw [BitVec.toInt_eq_toNat_cond, hw]
  split <;> split <;> push_cast <;> omega

theorem fitsSigned_eq {w half : Nat} (hw : 2 ^ (w + 1) = 2 * half) (v : Int) :
    fitsSigned (w + 1) v = decide (-(half : Int) ≤ v ∧ v < half) := by
  have hhalf : (2 : Int) ^ (w + 1 - 1) = half := by
    rw [Nat.add_sub_cancel]
    have := Nat.pow_succ 2 w
    have hw' : 2 ^ w = half := by omega
    rw [← hw']
    push_cast
    rfl
  unfold fitsSigned
  rw [hhalf]

/-- Signed overflow of a sum: equal signs in, the other sign out (42_alu8_binary.md R201). -/
theorem overflow_add {w : Nat} (x y r : BitVec (w + 1)) (c : Nat) (hc : c ≤ 1)
    (hr : r.toNat = x.toNat + y.toNat + c ∨ r.toNat + 2 ^ (w + 1) = x.toNat + y.toNat + c) :
    (x.msb == y.msb && r.msb != x.msb) = !fitsSigned (w + 1) (x.toInt + y.toInt + c) := by
  obtain ⟨half, hw⟩ : ∃ half, 2 ^ (w + 1) = 2 * half := ⟨2 ^ w, by rw [Nat.pow_succ, Nat.mul_comm]⟩
  obtain ⟨hx, hxm, hxi⟩ := toInt_of_half hw x
  obtain ⟨hy, hym, hyi⟩ := toInt_of_half hw y
  obtain ⟨hr', hrm, -⟩ := toInt_of_half hw r
  rw [fitsSigned_eq hw, hxi, hyi, hxm, hym, hrm]
  by_cases h1 : half ≤ x.toNat <;> by_cases h2 : half ≤ y.toNat <;> by_cases h3 : half ≤ r.toNat <;>
    simp [h1, h2, h3] <;> omega

/-- Signed overflow of a difference: unlike signs in, and the sign of the result is not that of the first. -/
theorem overflow_sub {w : Nat} (x y r : BitVec (w + 1)) (c : Nat) (hc : c ≤ 1)
    (hr : r.toNat + y.toNat + c = x.toNat ∨ r.toNat + y.toNat + c = x.toNat + 2 ^ (w + 1)) :
    (x.msb != y.msb && r.msb != x.msb) = !fitsSigned (w + 1) (x.toInt - y.toInt - c) := by
  obtain ⟨half, hw⟩ : ∃ half, 2 ^ (w + 1) = 2 * half := ⟨2 ^ w, by rw [Nat.pow_succ, Nat.mul_comm]⟩
  obtain ⟨hx, hxm, hxi⟩ := toInt_of_half hw x
  obtain ⟨hy, hym, hyi⟩ := toInt_of_half hw y
  obtain ⟨hr', hrm, -⟩ := toInt_of_half hw r
  rw [fitsSigned_eq hw, hxi, hyi, hxm, hym, hrm]
  by_cases h1 : half ≤ x.toNat <;> by_cases h2 : half ≤ y.toNat <;> by_cases h3 : half ≤ r.toNat <;>
    simp [h1, h2, h3] <;> omega

theorem toNat_carryIn (c : Bool) : (carryIn 9 c).toNat = c.toNat := by
  cases c <;> rfl

theorem add8_eq (x m : Byte) (c : Bool) :
    add8 x m c =
      { r := BitVec.ofNat 8 (x.toNat + m.toNat + c.toNat)
        h := decide (16 ≤ x.toNat % 16 + m.toNat % 16 + c.toNat)
        n := (BitVec.ofNat 8 (x.toNat + m.toNat + c.toNat)).msb
        z := BitVec.ofNat 8 (x.toNat + m.toNat + c.toNat) == 0
        v := !fitsSigned 8 (x.toInt + m.toInt + c.toNat)
        c := decide (256 ≤ x.toNat + m.toNat + c.toNat) } := by
  have hc := Bool.toNat_le c
  have hx := x.isLt
  have hm := m.isLt
  have hs : (x.setWidth 9 + m.setWidth 9 + carryIn 9 c).toNat = x.toNat + m.toNat + c.toNat := by
    simp only [BitVec.toNat_add, BitVec.toNat_setWidth, toNat_carryIn]
    omega
  have hr : (x.setWidth 9 + m.setWidth 9 + carryIn 9 c).setWidth 8 =
      BitVec.ofNat 8 (x.toNat + m.toNat + c.toNat) :=
    BitVec.eq_of_toNat_eq (by rw [BitVec.toNat_setWidth, hs, BitVec.toNat_ofNat])
  have hmsb : (x.setWidth 9 + m.setWidth 9 + carryIn 9 c).msb = decide (256 ≤ x.toNat + m.toNat + c.toNat) := by
    rw [BitVec.msb_eq_decide, hs]
  have hv := overflow_add x m (BitVec.ofNat 8 (x.toNat + m.toNat + c.toNat)) c.toNat hc
    (by rw [BitVec.toNat_ofNat]; omega)
  have hh : decide (15 < (x.extractLsb' 0 4).toNat + (m.extractLsb' 0 4).toNat + c.toNat) =
      decide (16 ≤ x.toNat % 16 + m.toNat % 16 + c.toNat) := by
    simp only [BitVec.extractLsb'_toNat, Nat.shiftRight_zero]
    rfl
  unfold add8
  simp only [hr, hmsb, hv, hh]

theorem sub8_eq (x m : Byte) (c : Bool) :
    sub8 x m c =
      { r := BitVec.ofInt 8 (x.toNat - m.toNat - c.toNat)
        h := false
        n := (BitVec.ofInt 8 (x.toNat - m.toNat - c.toNat)).msb
        z := BitVec.ofInt 8 (x.toNat - m.toNat - c.toNat) == 0
        v := !fitsSigned 8 (x.toInt - m.toInt - c.toNat)
        c := decide (x.toNat < m.toNat + c.toNat) } := by
  have hc := Bool.toNat_le c
  have hx := x.isLt
  have hm := m.isLt
  have hs : (x.setWidth 9 - m.setWidth 9 - carryIn 9 c).toNat = (512 + x.toNat - m.toNat - c.toNat) % 512 := by
    simp only [BitVec.toNat_sub, BitVec.toNat_setWidth, toNat_carryIn]
    omega
  have hr : (x.setWidth 9 - m.setWidth 9 - carryIn 9 c).setWidth 8 =
      BitVec.ofInt 8 (x.toNat - m.toNat - c.toNat) :=
    BitVec.eq_of_toNat_eq (by rw [BitVec.toNat_setWidth, hs, BitVec.toNat_ofInt]; omega)
  have hmsb : (x.setWidth 9 - m.setWidth 9 - carryIn 9 c).msb = decide (x.toNat < m.toNat + c.toNat) := by
    rw [BitVec.msb_eq_decide, hs]
    exact decide_eq_decide.mpr (by omega)
  have hv := overflow_sub x m (BitVec.ofInt 8 (x.toNat - m.toNat - c.toNat)) c.toNat hc
    (by rw [BitVec.toNat_ofInt]; omega)
  unfold sub8
  simp only [hr, hmsb, hv]

theorem add16_eq (x m : Word) :
    add16 x m =
      { r := BitVec.ofNat 16 (x.toNat + m.toNat)
        h := false
        n := (BitVec.ofNat 16 (x.toNat + m.toNat)).msb
        z := BitVec.ofNat 16 (x.toNat + m.toNat) == 0
        v := !fitsSigned 16 (x.toInt + m.toInt)
        c := decide (65536 ≤ x.toNat + m.toNat) } := by
  have hx := x.isLt
  have hm := m.isLt
  have hs : (x.setWidth 17 + m.setWidth 17).toNat = x.toNat + m.toNat := by
    simp only [BitVec.toNat_add, BitVec.toNat_setWidth]
    omega
  have hr : (x.setWidth 17 + m.setWidth 17).setWidth 16 = BitVec.ofNat 16 (x.toNat + m.toNat) :=
    BitVec.eq_of_toNat_eq (by rw [BitVec.toNat_setWidth, hs, BitVec.toNat_ofNat])
  have hmsb : (x.setWidth 17 + m.setWidth 17).msb = decide (65536 ≤ x.toNat + m.toNat) := by
    rw [BitVec.msb_eq_decide, hs]
  have hv := overflow_add x m (BitVec.ofNat 16 (x.toNat + m.toNat)) 0 (by omega)
    (by rw [BitVec.toNat_ofNat]; omega)
  simp only [Int.natCast_zero, Int.add_zero] at hv
  unfold add16
  simp only [hr, hmsb, hv]

theorem sub16_eq (x m : Word) :
    sub16 x m =
      { r := BitVec.ofInt 16 (x.toNat - m.toNat)
        h := false
        n := (BitVec.ofInt 16 (x.toNat - m.toNat)).msb
        z := BitVec.ofInt 16 (x.toNat - m.toNat) == 0
        v := !fitsSigned 16 (x.toInt - m.toInt)
        c := decide (x.toNat < m.toNat) } := by
  have hx := x.isLt
  have hm := m.isLt
  have hs : (x.setWidth 17 - m.setWidth 17).toNat = (131072 + x.toNat - m.toNat) % 131072 := by
    simp only [BitVec.toNat_sub, BitVec.toNat_setWidth]
    omega
  have hr : (x.setWidth 17 - m.setWidth 17).setWidth 16 = BitVec.ofInt 16 (x.toNat - m.toNat) :=
    BitVec.eq_of_toNat_eq (by rw [BitVec.toNat_setWidth, hs, BitVec.toNat_ofInt]; omega)
  have hmsb : (x.setWidth 17 - m.setWidth 17).msb = decide (x.toNat < m.toNat) := by
    rw [BitVec.msb_eq_decide, hs]
    exact decide_eq_decide.mpr (by omega)
  have hv := overflow_sub x m (BitVec.ofInt 16 (x.toNat - m.toNat)) 0 (by omega)
    (by rw [BitVec.toNat_ofInt]; omega)
  simp only [Int.natCast_zero, Int.sub_zero] at hv
  unfold sub16
  simp only [hr, hmsb, hv]

theorem aluAdc_eq (k : CC) (x m : Byte) :
    aluAdc k x m = (BitVec.ofNat 8 (x.toNat + m.toNat + k.c.toNat),
      { k.ofResult (BitVec.ofNat 8 (x.toNat + m.toNat + k.c.toNat)) (!fitsSigned 8 (x.toInt + m.toInt + k.c.toNat))
          (decide (256 ≤ x.toNat + m.toNat + k.c.toNat)) with
        h := decide (16 ≤ x.toNat % 16 + m.toNat % 16 + k.c.toNat) }) := by
  unfold aluAdc
  rw [add8_eq, ofResult_eq]
  rfl

theorem aluAdd_eq (k : CC) (x m : Byte) :
    aluAdd k x m = (BitVec.ofNat 8 (x.toNat + m.toNat + 0),
      { k.ofResult (BitVec.ofNat 8 (x.toNat + m.toNat + 0)) (!fitsSigned 8 (x.toInt + m.toInt + (0 : Nat)))
          (decide (256 ≤ x.toNat + m.toNat + 0)) with
        h := decide (16 ≤ x.toNat % 16 + m.toNat % 16 + 0) }) := by
  unfold aluAdd
  rw [add8_eq, ofResult_eq]
  rfl

theorem aluSbc_eq (k : CC) (x m : Byte) :
    aluSbc k x m = (BitVec.ofInt 8 (x.toNat - m.toNat - k.c.toNat),
      k.ofResult (BitVec.ofInt 8 (x.toNat - m.toNat - k.c.toNat)) (!fitsSigned 8 (x.toInt - m.toInt - k.c.toNat))
        (decide (x.toNat < m.toNat + k.c.toNat))) := by
  unfold aluSbc
  rw [sub8_eq, ofResult_eq]
  rfl

theorem aluSub_eq (k : CC) (x m : Byte) :
    aluSub k x m = (BitVec.ofInt 8 (x.toNat - m.toNat - (0 : Nat)),
      k.ofResult (BitVec.ofInt 8 (x.toNat - m.toNat - (0 : Nat))) (!fitsSigned 8 (x.toInt - m.toInt - (0 : Nat)))
        (decide (x.toNat < m.toNat + 0))) := by
  unfold aluSub
  rw [sub8_eq, ofResult_eq]
  rfl

theorem aluAdd16_eq (k : CC) (x m : Word) :
    aluAdd16 k x m = (BitVec.ofNat 16 (x.toNat + m.toNat),
      k.ofResult (BitVec.ofNat 16 (x.toNat + m.toNat)) (!fitsSigned 16 (x.toInt + m.toInt))
        (decide (65536 ≤ x.toNat + m.toNat))) := by
  unfold aluAdd16
  rw [add16_eq, ofResult_eq]
  rfl

theorem aluSub16_eq (k : CC) (x m : Word) :
    aluSub16 k x m = (BitVec.ofInt 16 (x.toNat - m.toNat),
      k.ofResult (BitVec.ofInt 16 (x.toNat - m.toNat)) (!fitsSigned 16 (x.toInt - m.toInt))
        (decide (x.toNat < m.toNat))) := by
  unfold aluSub16
  rw [sub16_eq, ofResult_eq]
  rfl

end Sys2Proof.Proofs

end

