-- ==== Sys2Proof/Proofs/Alu.lean ====
section
/-! The one- and two-operand instructions (41_alu8_unary.md, 42_alu8_binary.md, 43_alu16.md): each is its effect on the
state and its cost, the effect by the flag computations of Proofs/Flags. -/

namespace Sys2Proof.Proofs

open Sys2Proof Sys2Proof.Machine Sys2Proof.Laws

/-- An instruction whose effect ends well adds the cost that the parameters of its first state give. -/
theorem exec_of_effect {i : Instr} {m : Act Unit} {s t : State} (ha : action i = costed i m) (hm : Costless m)
    (h : m s = .ok () t) : exec i s = .next (t.tick (cost s.cfg i)) := by
  rw [exec_costed_ok ha h, ((hm s).1 _ _ h).cfg]

/-- What the resolver leaves alone, of the fields that an instruction reads after it. -/
theorem Resolved.kept {moved : Option IxReg} {s t : State} (h : Resolved moved s s t) :
    t.cfg = s.cfg ∧ t.nmiArmed = s.nmiArmed ∧ t.pc = s.pc ∧ t.cc = s.cc := by
  obtain ⟨heq, -⟩ := h
  rw [heq]
  exact ⟨rfl, rfl, rfl, rfl⟩

theorem read8_keeps_cc {s t : State} {a : Word} {v : Byte} (h : read8 a s = .ok v t) : t.cc = s.cc := by
  obtain ⟨w, n, rfl⟩ := eq_of_read8_ok h
  rfl

theorem d_eq_ofNat (s : State) : s.d = BitVec.ofNat 16 (256 * s.a.toNat + s.b.toNat) := cat_eq_ofNat s.a s.b

/-! One operand -/

theorem exec_unaryAcc {i : Instr} {f : CC → Byte → Byte × CC} {r : Acc} {s : State} {res : Byte} {k : CC}
    (ha : action i = costed i (unaryAcc f r)) (hf : f s.cc (s.acc r) = (res, k)) :
    exec i s = .next (({ s with cc := k }.setAcc r res).tick (cost s.cfg i)) := by
  refine exec_of_effect ha (costless_unaryAcc f r) ?_
  unfold unaryAcc
  simp only [change_apply, hf]

theorem exec_testAcc {i : Instr} {r : Acc} {s : State} (ha : action i = costed i (testAcc r)) :
    exec i s = .next ({ s with cc := s.cc.ofResult (s.acc r) false s.cc.c }.tick (cost s.cfg i)) := by
  rw [← logic8_eq]
  exact exec_of_effect ha (costless_testAcc r) rfl

/-- Settles O22: each register form is its computation on the accumulator. -/
theorem unaryOnAccumulator : Obligations.UnaryOnAccumulator := fun r _ =>
  ⟨exec_unaryAcc (by cases r <;> rfl) (aluNeg_eq _ _), exec_unaryAcc (by cases r <;> rfl) (aluCom_eq _ _),
    exec_unaryAcc (by cases r <;> rfl) (aluLsr_eq _ _), exec_unaryAcc (by cases r <;> rfl) (aluRor_eq _ _),
    exec_unaryAcc (by cases r <;> rfl) (aluAsr_eq _ _), exec_unaryAcc (by cases r <;> rfl) (aluAsl_eq _ _),
    exec_unaryAcc (by cases r <;> rfl) (aluRol_eq _ _), exec_unaryAcc (by cases r <;> rfl) (aluDec_eq _ _),
    exec_unaryAcc (by cases r <;> rfl) (aluInc_eq _ _), exec_testAcc (by cases r <;> rfl),
    exec_unaryAcc (by cases r <;> rfl) (aluClr_eq _ _)⟩

theorem exec_unaryMem {i : Instr} {f : CC → Byte → Byte × CC} {mm : Mem} {s t1 t2 t3 : State} {a : Word} {m res : Byte}
    {k : CC} (ha : action i = costed i (unaryMem f mm)) (hea : ea mm s = .ok a t1) (hf : f t1.cc m = (res, k))
    (hread : read8 a t1 = .ok m t2) (hwrite : write8 a res { t2 with cc := k } = .ok () t3) :
    exec i s = .next (t3.tick (cost s.cfg i)) := by
  refine exec_of_effect ha (costless_unaryMem f mm) ?_
  unfold unaryMem
  rw [bind_ok hea, bind_ok hread, look_bind_apply, change_bind_apply, read8_keeps_cc hread, hf]
  exact hwrite

theorem exec_tst {mm : Mem} {s t1 t2 : State} {a : Word} {m : Byte} (hea : ea mm s = .ok a t1)
    (hread : read8 a t1 = .ok m t2) :
    exec (.tst mm) s = .next ({ t2 with cc := t1.cc.ofResult m false t1.cc.c }.tick (cost s.cfg (.tst mm))) := by
  refine exec_of_effect rfl (costless_testMem mm) ?_
  unfold testMem
  rw [bind_ok hea, bind_ok hread, change_apply, logic8_eq, read8_keeps_cc hread]

/-- CLR with the read it makes, or does not make, before its write. -/
theorem exec_clr {mm : Mem} {s t1 t2 t3 : State} {a : Word} {m : Byte} (hea : ea mm s = .ok a t1)
    (hread : if s.cfg.clrReads then read8 a t1 = .ok m t2 else t2 = t1)
    (hwrite : write8 a 0 { t2 with cc := t1.cc.ofResult (0 : Byte) false false } = .ok () t3) :
    exec (.clr mm) s = .next (t3.tick (cost s.cfg (.clr mm))) := by
  refine exec_of_effect rfl (costless_clearMem mm) ?_
  have hcfg : t1.cfg = s.cfg := (((costless_ea mm) s).1 _ _ hea).cfg
  have hdone : (onlyIf t1.cfg.clrReads (do
      let _ ← read8 a
      pure ())) t1 = .ok () t2 ∧ t2.cc = t1.cc := by
    rw [hcfg]
    split at hread
    · next hreads =>
      rw [hreads, onlyIf_true, bind_ok hread]
      exact ⟨rfl, read8_keeps_cc hread⟩
    · next hreads =>
      rw [Bool.not_eq_true] at hreads
      rw [hreads, onlyIf_false, hread]
      exact ⟨rfl, rfl⟩
  obtain ⟨hreads, hcc⟩ := hdone
  unfold clearMem
  rw [bind_ok hea, look_bind_apply, bind_ok hreads, look_bind_apply, change_bind_apply, hcc, aluClr_eq]
  exact hwrite

/-- Settles O23: each memory form is its computation between a read and a write at one address. -/
theorem unaryOnMemory : Obligations.UnaryOnMemory := fun _ _ _ _ _ _ hea =>
  ⟨fun hr _ hw => exec_unaryMem rfl hea (aluNeg_eq _ _) hr hw, fun hr _ hw => exec_unaryMem rfl hea (aluCom_eq _ _) hr hw,
    fun hr _ hw => exec_unaryMem rfl hea (aluLsr_eq _ _) hr hw, fun hr _ hw => exec_unaryMem rfl hea (aluRor_eq _ _) hr hw,
    fun hr _ hw => exec_unaryMem rfl hea (aluAsr_eq _ _) hr hw, fun hr _ hw => exec_unaryMem rfl hea (aluAsl_eq _ _) hr hw,
    fun hr _ hw => exec_unaryMem rfl hea (aluRol_eq _ _) hr hw, fun hr _ hw => exec_unaryMem rfl hea (aluDec_eq _ _) hr hw,
    fun hr _ hw => exec_unaryMem rfl hea (aluInc_eq _ _) hr hw, exec_tst hea, fun hr _ hw => exec_clr hea hr hw⟩

/-! Two operands of 8 bits -/

theorem exec_binary8 {i : Instr} {f : CC → Byte → Byte → Byte × CC} {r : Acc} {o : Src8} {s t : State} {m res : Byte}
    {k : CC} (ha : action i = costed i (binary8 f r o)) (ho : operand8 o s = .ok m t)
    (hf : f t.cc (t.acc r) m = (res, k)) :
    exec i s = .next (({ t with cc := k }.setAcc r res).tick (cost s.cfg i)) := by
  refine exec_of_effect ha (costless_binary8 f r o) ?_
  unfold binary8
  simp only [bind_ok ho, change_apply, hf]

theorem exec_compare8 {i : Instr} {f : CC → Byte → Byte → Byte × CC} {r : Acc} {o : Src8} {s t : State} {m res : Byte}
    {k : CC} (ha : action i = costed i (compare8 f r o)) (ho : operand8 o s = .ok m t)
    (hf : f t.cc (t.acc r) m = (res, k)) : exec i s = .next ({ t with cc := k }.tick (cost s.cfg i)) := by
  refine exec_of_effect ha (costless_compare8 f r o) ?_
  unfold compare8
  simp only [bind_ok ho, change_apply, hf]

/-- Settles O24: the sums and differences of Proofs/Flags. -/
theorem byteArithmetic : Obligations.ByteArithmetic := fun r _ _ _ _ ho =>
  ⟨exec_binary8 (by cases r <;> rfl) ho (aluAdd_eq _ _ _), exec_binary8 (by cases r <;> rfl) ho (aluAdc_eq _ _ _),
    exec_binary8 (by cases r <;> rfl) ho (aluSub_eq _ _ _), exec_binary8 (by cases r <;> rfl) ho (aluSbc_eq _ _ _),
    exec_compare8 (by cases r <;> rfl) ho (aluSub_eq _ _ _)⟩

/-- What a logic operation answers: a result and its flags. -/
theorem logic_out (k : CC) (res : Byte) : (res, k.logic8 res) = (res, k.ofResult res false k.c) := by
  rw [logic8_eq]

/-- Settles O25: the operations are bitwise, and their flags are those of `CC.logic8`. -/
theorem byteLogic : Obligations.ByteLogic := fun r _ _ _ _ ho =>
  ⟨⟨_, fun _ _ => BitVec.getLsbD_and, exec_binary8 (by cases r <;> rfl) ho (logic_out _ _)⟩,
    ⟨_, fun _ _ => BitVec.getLsbD_xor, exec_binary8 (by cases r <;> rfl) ho (logic_out _ _)⟩,
    ⟨_, fun _ _ => BitVec.getLsbD_or, exec_binary8 (by cases r <;> rfl) ho (logic_out _ _)⟩,
    ⟨_, fun _ _ => rfl, exec_binary8 (by cases r <;> rfl) ho (logic_out _ _)⟩,
    _, fun _ _ => BitVec.getLsbD_and, exec_compare8 (r := r) (by cases r <;> rfl) ho (logic_out _ _)⟩

/-! Two operands of 16 bits -/

theorem exec_binary16 {i : Instr} {f : CC → Word → Word → Word × CC} {r : Wide} {o : Src16} {s t : State} {m res : Word}
    {k : CC} (ha : action i = costed i (binary16 f r o)) (ho : operand16 o s = .ok m t)
    (hf : f t.cc (t.wide r) m = (res, k)) :
    exec i s = .next (({ t with cc := k }.setWide r res).tick (cost s.cfg i)) := by
  refine exec_of_effect ha (costless_binary16 f r o) ?_
  unfold binary16
  simp only [bind_ok ho, change_apply, hf]

theorem exec_compare16 {i : Instr} {r : Wide} {o : Src16} {s t : State} {m : Word} {k : CC}
    (ha : action i = costed i (compare16 r o)) (ho : operand16 o s = .ok m t)
    (hf : (aluSub16 t.cc (t.wide r) m).2 = k) : exec i s = .next ({ t with cc := k }.tick (cost s.cfg i)) := by
  refine exec_of_effect ha (costless_compare16 r o) ?_
  unfold compare16
  simp only [bind_ok ho, change_apply, hf]

/-- A 16-bit register is D from its halves or the register itself. -/
theorem wide_eq_pick (t : State) (r : Wide) :
    t.wide r = r.pick (BitVec.ofNat 16 (256 * t.a.toNat + t.b.toNat)) t.x t.y t.u t.s := by
  cases r
  · exact d_eq_ofNat t
  all_goals rfl

/-- Settles O26: the 16-bit sums and differences of Proofs/Flags, on D as a number. -/
theorem wordArithmetic : Obligations.WordArithmetic := by
  intro o s t m ho
  refine ⟨exec_binary16 (r := .d) rfl ho ?_, exec_binary16 (r := .d) rfl ho ?_, fun r => ?_⟩
  · rw [wide_eq_pick, aluSub16_eq]
    rfl
  · rw [wide_eq_pick, aluAdd16_eq]
    rfl
  · refine exec_compare16 (r := r) (by cases r <;> rfl) ho ?_
    rw [wide_eq_pick, aluSub16_eq]

/-- What a 16-bit load answers: the word and its flags. -/
theorem aluLd16_eq (k : CC) (x m : Word) : aluLd16 k x m = (m, k.ofResult m false k.c) := by
  unfold aluLd16
  rw [logic16_eq]

/-- An effect followed by the latch of 10_state.md R29. -/
theorem exec_armed {i : Instr} {m : Act Unit} {on : Params → Bool} {s t : State}
    (ha : action i = costed i (do
      m
      change fun t => t.arm (on t.cfg)))
    (hm : Costless m) (h : m s = .ok () t) :
    exec i s = .next ((t.arm (on s.cfg)).tick (cost s.cfg i)) := by
  refine exec_of_effect ha (costless_bind hm fun _ => costless_change fun _ => ⟨rfl, rfl, rfl⟩) ?_
  rw [bind_ok h, change_apply, ((hm s).1 _ _ h).cfg]

/-- Settles O27: the word itself with the flags of a load; LDS sets the latch after it. -/
theorem wordLoad : Obligations.WordLoad := by
  intro o s t m ho
  refine ⟨exec_binary16 (r := .d) rfl ho (aluLd16_eq _ _ _), exec_binary16 (r := .x) rfl ho (aluLd16_eq _ _ _),
    exec_binary16 (r := .y) rfl ho (aluLd16_eq _ _ _), exec_binary16 (r := .u) rfl ho (aluLd16_eq _ _ _), ?_⟩
  have hloaded : binary16 aluLd16 .s o s = .ok () ({ t with cc := t.cc.ofResult m false t.cc.c }.setWide .s m) := by
    unfold binary16
    simp only [bind_ok ho, change_apply, aluLd16_eq]
  obtain ⟨-, harmed, -⟩ := ((resolves_operand16 o s).1 _ _ ho).kept
  rw [exec_armed (on := Params.armLds) rfl (costless_binary16 _ _ _) hloaded, ← harmed]
  rfl

theorem exec_store8 {i : Instr} {r : Acc} {mm : Mem} {s t1 t2 : State} {a : Word}
    (ha : action i = costed i (store8 r mm)) (hea : ea mm s = .ok a t1)
    (hwrite : write8 a (t1.acc r) { t1 with cc := t1.cc.ofResult (t1.acc r) false t1.cc.c } = .ok () t2) :
    exec i s = .next (t2.tick (cost s.cfg i)) := by
  refine exec_of_effect ha (costless_store8 r mm) ?_
  unfold store8
  rw [bind_ok hea, look_bind_apply, change_bind_apply, logic8_eq]
  exact hwrite

theorem exec_store16 {i : Instr} {r : Wide} {mm : Mem} {s t1 t2 : State} {a : Word}
    (ha : action i = costed i (store16 r mm)) (hea : ea mm s = .ok a t1)
    (hwrite : write16 a (t1.wide r) { t1 with cc := t1.cc.ofResult (t1.wide r) false t1.cc.c } = .ok () t2) :
    exec i s = .next (t2.tick (cost s.cfg i)) := by
  refine exec_of_effect ha (costless_store16 r mm) ?_
  unfold store16
  rw [bind_ok hea, look_bind_apply, change_bind_apply, logic16_eq]
  exact hwrite

/-- Settles O28: address, flags of the register, then the write. -/
theorem stores : Obligations.Stores := by
  refine fun mm s t1 t2 a hea => ⟨fun r hwrite => exec_store8 (by cases r <;> rfl) hea hwrite, fun r hwrite => ?_⟩
  refine exec_store16 (r := r) (by cases r <;> rfl) hea ?_
  rw [wide_eq_pick]
  exact hwrite

theorem exec_leaIndex {i : Instr} {r : Wide} {x : Idx} {s t : State} {a : Word}
    (ha : action i = costed i (leaIndex r x)) (hea : eaIndexed x s = .ok a t) :
    exec i s = .next (({ t with cc := { t.cc with z := decide (a = 0) } }.setWide r a).tick (cost s.cfg i)) := by
  refine exec_of_effect ha (costless_leaIndex r x) ?_
  unfold leaIndex
  rw [bind_ok hea, change_apply, bitVec_beq_eq_decide]

theorem leaStack_ok {r : Wide} {x : Idx} {s t : State} {a : Word} (hea : eaIndexed x s = .ok a t) :
    leaStack r x s = .ok () (t.setWide r a) := by
  unfold leaStack
  rw [bind_ok hea, change_apply]

/-- Settles O29: the address itself, with Z for the index registers and the latch for S. -/
theorem loadEffectiveAddress : Obligations.LoadEffectiveAddress := by
  intro x s t a hea
  refine ⟨exec_leaIndex (r := .x) rfl hea, exec_leaIndex (r := .y) rfl hea,
    exec_of_effect rfl (costless_leaStack .u x) (leaStack_ok hea), ?_⟩
  obtain ⟨-, harmed, -⟩ := ((resolves_eaIndexed x s).1 _ _ hea).kept
  rw [exec_armed (on := Params.armLeas) rfl (costless_leaStack .s x) (leaStack_ok hea), ← harmed]
  rfl

end Sys2Proof.Proofs

end

