-- ==== Sys2Proof/Proofs/Control.lean ====
section
/-! Branches, compares before branches, calls, jumps and the return (44_control_flow.md). -/

namespace Sys2Proof.Proofs

open Sys2Proof Sys2Proof.Machine Sys2Proof.Laws

/-! Branches -/

theorem exec_short {i : Instr} {c : Cond} {n : Byte} {s : State} (ha : action i = costed i (branchShort c n)) :
    exec i s = .next
      ({ s with pc := if c.holds s.cc then BitVec.ofInt 16 (s.pc.toNat + n.toInt) else s.pc }.tick (cost s.cfg i)) := by
  refine exec_of_effect ha (costless_branchShort c n) ?_
  unfold branchShort eaRel8
  rw [look_bind_apply, change_apply, add_sext8]
  split <;> rfl

/-- Settles O30: each short branch under its condition. -/
theorem shortBranches : Obligations.ShortBranches := by
  intro s n i taken hmem
  have hbranch : ∃ c : Cond, action i = costed i (branchShort c n) ∧ taken = c.holds s.cc := by
    simp only [List.mem_cons, List.not_mem_nil, or_false, Prod.mk.injEq] at hmem
    rcases hmem with ⟨rfl, rfl⟩ | ⟨rfl, rfl⟩ | ⟨rfl, rfl⟩ | ⟨rfl, rfl⟩ | ⟨rfl, rfl⟩ | ⟨rfl, rfl⟩ | ⟨rfl, rfl⟩ |
      ⟨rfl, rfl⟩ | ⟨rfl, rfl⟩ | ⟨rfl, rfl⟩ | ⟨rfl, rfl⟩ | ⟨rfl, rfl⟩ | ⟨rfl, rfl⟩ | ⟨rfl, rfl⟩ | ⟨rfl, rfl⟩ | ⟨rfl, rfl⟩
    all_goals exact ⟨_, rfl, rfl⟩
  obtain ⟨c, ha, rfl⟩ := hbranch
  exact exec_short ha

/-- A word offset from PC is a sum modulo 2^16. -/
theorem add_eq_ofNat (a n : Word) : a + n = BitVec.ofNat 16 (a.toNat + n.toNat) := by
  rw [BitVec.ofNat_add, BitVec.ofNat_toNat, BitVec.ofNat_toNat, BitVec.setWidth_eq, BitVec.setWidth_eq]

theorem branchLong_apply (c : Cond) (n : Word) (s : State) : branchLong c n s =
    .ok () { s with pc := if c.holds s.cc then BitVec.ofNat 16 (s.pc.toNat + n.toNat) else s.pc } := by
  unfold branchLong eaRel16
  rw [look_bind_apply, change_apply, add_eq_ofNat]
  split <;> rfl

/-- A long conditional branch: its cost goes by the condition it found. -/
theorem exec_long {i : Instr} {c : Cond} {n : Word} {s : State} (ha : action i = longBranch i c n) :
    exec i s = .next
      ({ s with pc := if c.holds s.cc then BitVec.ofNat 16 (s.pc.toNat + n.toNat) else s.pc }.tick
        (cost s.cfg i + if c.holds s.cc then s.cfg.cycBranchTaken else 0)) := by
  rw [exec_eq, ha]
  unfold longBranch
  refine congrArg _ (final_ok (v := ()) ?_)
  rw [look_bind_apply, bind_ok (branchLong_apply c n s)]
  rfl

/-- Settles O31: LBRA at one cost, the others with the surcharge when taken. -/
theorem longBranches : Obligations.LongBranches := by
  refine fun s n => ⟨exec_of_effect rfl (costless_branchLong .ra n) (branchLong_apply .ra n s), fun i taken hmem => ?_⟩
  have hbranch : ∃ c : Cond, action i = longBranch i c n ∧ taken = c.holds s.cc := by
    simp only [List.mem_cons, List.not_mem_nil, or_false, Prod.mk.injEq] at hmem
    rcases hmem with ⟨rfl, rfl⟩ | ⟨rfl, rfl⟩ | ⟨rfl, rfl⟩ | ⟨rfl, rfl⟩ | ⟨rfl, rfl⟩ | ⟨rfl, rfl⟩ | ⟨rfl, rfl⟩ |
      ⟨rfl, rfl⟩ | ⟨rfl, rfl⟩ | ⟨rfl, rfl⟩ | ⟨rfl, rfl⟩ | ⟨rfl, rfl⟩ | ⟨rfl, rfl⟩ | ⟨rfl, rfl⟩ | ⟨rfl, rfl⟩
    all_goals exact ⟨_, rfl, rfl⟩
  obtain ⟨c, ha, rfl⟩ := hbranch
  exact exec_long ha

/-! A compare and the conditions after it -/

theorem bne_not_decide (p q : Prop) [Decidable p] [Decidable q] : (decide p != !decide q) = decide (p ↔ q) := by
  by_cases hp : p <;> by_cases hq : q <;> simp [hp, hq]

/-- After a subtraction Z, C and the disagreement of N and V compare its operands. -/
theorem compare_flags (k : CC) (x m : Byte) :
    (aluSub k x m).2.z = decide (x = m) ∧ (aluSub k x m).2.c = decide (x.toNat < m.toNat) ∧
      ((aluSub k x m).2.n != (aluSub k x m).2.v) = decide (x.toInt < m.toInt) := by
  rw [aluSub_eq, ofResult_eq]
  obtain ⟨-, -, hx⟩ := toInt_of_half (half := 128) (by decide) x
  obtain ⟨-, -, hm⟩ := toInt_of_half (half := 128) (by decide) m
  obtain ⟨-, hmsb, -⟩ := toInt_of_half (half := 128) (by decide) (BitVec.ofInt 8 (x.toNat - m.toNat - (0 : Nat)))
  have hnat : (BitVec.ofInt 8 ((x.toNat : Int) - m.toNat - (0 : Nat))).toNat = (256 + x.toNat - m.toNat) % 256 := by
    rw [BitVec.toNat_ofInt]
    omega
  refine ⟨?_, rfl, ?_⟩
  · show (BitVec.ofInt 8 ((x.toNat : Int) - m.toNat - (0 : Nat)) == 0) = _
    rw [bitVec_beq_eq_decide, decide_eq_decide, ← BitVec.toNat_inj, ← BitVec.toNat_inj, hnat]
    show _ = 0 ↔ _
    omega
  · show ((BitVec.ofInt 8 ((x.toNat : Int) - m.toNat - (0 : Nat))).msb != !fitsSigned 8 (x.toInt - m.toInt - (0 : Nat))) = _
    rw [fitsSigned_eq (half := 128) (by decide), hmsb, hnat, bne_not_decide, decide_eq_decide]
    omega

/-- Settles O32: the ten conditions are readings of the three comparisons. -/
theorem compareThenBranch : Obligations.CompareThenBranch := by
  intro r o s t u m ho hexec
  have hcmp := exec_compare8 (i := r.pick (.cmpa o) (.cmpb o)) (r := r) (by cases r <;> rfl) ho
    (f := aluSub) (res := (aluSub t.cc (t.acc r) m).1) (k := (aluSub t.cc (t.acc r) m).2) rfl
  obtain rfl := Host.Outcome.next.inj (hexec.symm.trans hcmp)
  dsimp only
  generalize t.acc r = x
  obtain ⟨hz, hc, hnv⟩ := compare_flags t.cc x m
  have heq : x = m ↔ x.toInt = m.toInt := BitVec.toInt_inj.symm
  have heqNat : x = m ↔ x.toNat = m.toNat := BitVec.toNat_inj.symm
  have hnv' : ((aluSub t.cc x m).2.n == (aluSub t.cc x m).2.v) = !decide (x.toInt < m.toInt) := by
    rw [← hnv, bne, Bool.not_not]
  simp only [Cond.holds, tick_cc, hz, hc, hnv, hnv', Bool.and_eq_true, Bool.or_eq_true, Bool.not_eq_true',
    decide_eq_true_eq, decide_eq_false_iff_not, true_and, ne_eq]
  exact ⟨by rw [heqNat]; omega, by omega, by rw [heqNat]; omega, by rw [heq]; omega, by omega, by rw [heq]; omega⟩

/-! Calls, jumps and the return -/

theorem call_ok {target : Word} {s t : State} (h : push16 .s s.pc s = .ok () t) :
    call target s = .ok () { t with pc := target } := by
  unfold call
  rw [look_bind_apply, bind_ok h, change_apply]

/-- Settles O33: the target first, then the push of PC; the return pulls it. -/
theorem callsJumpsAndReturn : Obligations.CallsJumpsAndReturn := by
  refine ⟨fun s t n h => ?_, fun s t n h => ?_, fun mm s t1 t2 a hea h => ?_, fun mm s t1 a hea => ?_, fun s t w h => ?_⟩
  · refine exec_of_effect rfl (costless_bind (costless_look _) fun _ => costless_call _) ?_
    unfold eaRel8
    rw [look_bind_apply, call_ok h, add_sext8]
  · refine exec_of_effect rfl (costless_bind (costless_look _) fun _ => costless_call _) ?_
    unfold eaRel16
    rw [look_bind_apply, call_ok h, add_eq_ofNat]
  · refine exec_of_effect rfl (costless_bind (costless_ea mm) fun _ => costless_call _) ?_
    obtain ⟨-, -, hpc, -⟩ := ((resolves_ea mm s).1 _ _ hea).kept
    rw [bind_ok hea, call_ok (hpc ▸ h)]
  · refine exec_of_effect rfl (costless_bind (costless_ea mm) fun _ => costless_change fun _ => ⟨rfl, rfl, rfl⟩) ?_
    rw [bind_ok hea, change_apply]
  · refine exec_of_effect rfl (costless_pull16To .s fun _ _ => ⟨rfl, rfl, rfl⟩) ?_
    unfold pull16To
    rw [bind_ok h, change_apply]

end Sys2Proof.Proofs

end

