-- ==== Sys2Proof/Proofs/Stacks.lean ====
section
/-! Register lists on the stacks (45_stack_transfer.md R312 to R314) and the entire frame (60_exceptions.md R372): a push
leaves the image of the registers, and a pull loads the registers of the image it finds. -/

namespace Sys2Proof.Proofs

open Sys2Proof Sys2Proof.Machine Sys2Proof.Laws

/-! Pushing -/

/-- Settles O36: the list is pushed as its image, in plain memory. -/
theorem pushRegisterList : Obligations.PushRegisterList := by
  intro p l s n hwf hram i
  obtain ⟨pm', hpush, -, hbytes, hrest⟩ := pushBytes_ram p (l.image p s) s hwf hram
  refine ⟨pm', ?_, hbytes, hrest⟩
  exact exec_of_effect (m := pushList p l) (by cases p <;> rfl) (costless_pushList p l) ((pushList_eq p l s).trans hpush)

/-- Settles O43: the entire frame is pushed as one list of twelve bytes. -/
theorem entireFrameLayout : Obligations.EntireFrameLayout := by
  intro s hwf hram
  obtain ⟨pm', hpush, -, hbytes, hrest⟩ := pushBytes_ram .s s.entireImage s hwf hram
  exact ⟨pm', (pushEntire_eq s).trans hpush, hbytes, hrest⟩

/-! Bytes that lie at an address -/

theorem add_ofNat_append (a : Word) (xs ys : List Byte) :
    a + BitVec.ofNat 16 xs.length + BitVec.ofNat 16 ys.length = a + BitVec.ofNat 16 (xs ++ ys).length := by
  rw [List.length_append, BitVec.add_assoc, ← BitVec.ofNat_add]

theorem holdsBytes_append_of {w : World} {a : Word} {xs ys : List Byte} (hx : w.holdsBytes a xs)
    (hy : w.holdsBytes (a + BitVec.ofNat 16 xs.length) ys) : w.holdsBytes a (xs ++ ys) := by
  induction xs generalizing a with
  | nil => simpa using hy
  | cons v vs ih =>
    obtain ⟨hv, hvs⟩ := hx
    rw [List.length_cons, ← add_one_ofNat] at hy
    exact ⟨hv, ih hvs hy⟩

theorem holdsBytes_of_peek {w : World} {a : Word} {bs : List Byte}
    (h : ∀ k, k < bs.length → w.peek (a + BitVec.ofNat 16 k) = bs[k]?) : w.holdsBytes a bs := by
  induction bs generalizing a with
  | nil => trivial
  | cons v vs ih =>
    refine ⟨?_, ih fun k hk => ?_⟩
    · have h0 := h 0 (Nat.succ_pos _)
      rwa [add_zero_ofNat] at h0
    · rw [add_one_ofNat, h (k + 1) (Nat.succ_lt_succ hk)]
      rfl

/-! Pulling -/

section
variable {p : Sp} {t t' : State} {base : Word} {listed : Bool}

/-- A byte that a register list may name, behind the bytes `pre` of the list. -/
theorem pull8To_listed {f : State → Byte → State} {v : Byte} {pre : List Byte}
    (h : t.world.holdsBytes (base + BitVec.ofNat 16 pre.length) (if listed then [v] else []))
    (hf : ∀ w v, f (t.setSp p w) v = (f t v).setSp p w) (ht : (if listed then f t v else t) = t') :
    onlyIf listed (pull8To p f) (t.setSp p (base + BitVec.ofNat 16 pre.length)) =
      .ok () (t'.setSp p (base + BitVec.ofNat 16 (pre ++ if listed then [v] else []).length)) := by
  subst ht
  rw [← add_ofNat_append]
  cases listed with
  | false => simp
  | true =>
    obtain ⟨hv, -⟩ := h
    rw [onlyIf_true, pull8To_peek (v := v) (by rwa [setSp_world, setSp_sp]), setSp_sp, setSp_setSp, hf]
    rfl

/-- A word that a register list may name, behind the bytes `pre` of the list. -/
theorem pull16To_listed {f : State → Word → State} {v : Word} {pre : List Byte}
    (h : t.world.holdsBytes (base + BitVec.ofNat 16 pre.length) (if listed then [hi v, lo v] else []))
    (hf : ∀ w v, f (t.setSp p w) v = (f t v).setSp p w) (ht : (if listed then f t v else t) = t') :
    onlyIf listed (pull16To p f) (t.setSp p (base + BitVec.ofNat 16 pre.length)) =
      .ok () (t'.setSp p (base + BitVec.ofNat 16 (pre ++ if listed then [hi v, lo v] else []).length)) := by
  subst ht
  rw [← add_ofNat_append]
  cases listed with
  | false => simp
  | true =>
    obtain ⟨hh, hl, -⟩ := h
    rw [onlyIf_true, pull16To_peek (h := hi v) (l := lo v) (by rwa [setSp_world, setSp_sp])
      (by rwa [setSp_world, setSp_sp]), setSp_sp, setSp_setSp, hf, cat_hi_lo]
    rfl

variable {v : Byte} {w : Word} {pre : List Byte}

theorem pull_cc {k : CC}
    (h : t.world.holdsBytes (base + BitVec.ofNat 16 pre.length) (if listed then [k.toByte] else [])) :
    onlyIf listed (pull8To p fun s v => { s with cc := CC.ofByte v }) (t.setSp p (base + BitVec.ofNat 16 pre.length)) =
      .ok () ({ t with cc := if listed then k else t.cc }.setSp p
        (base + BitVec.ofNat 16 (pre ++ if listed then [k.toByte] else []).length)) :=
  pull8To_listed h (fun _ _ => by cases p <;> rfl) (by rw [ofByte_toByte]; cases listed <;> rfl)

theorem pull_a (h : t.world.holdsBytes (base + BitVec.ofNat 16 pre.length) (if listed then [v] else [])) :
    onlyIf listed (pull8To p fun s v => { s with a := v }) (t.setSp p (base + BitVec.ofNat 16 pre.length)) =
      .ok () ({ t with a := if listed then v else t.a }.setSp p
        (base + BitVec.ofNat 16 (pre ++ if listed then [v] else []).length)) :=
  pull8To_listed h (fun _ _ => by cases p <;> rfl) (by cases listed <;> rfl)

theorem pull_b (h : t.world.holdsBytes (base + BitVec.ofNat 16 pre.length) (if listed then [v] else [])) :
    onlyIf listed (pull8To p fun s v => { s with b := v }) (t.setSp p (base + BitVec.ofNat 16 pre.length)) =
      .ok () ({ t with b := if listed then v else t.b }.setSp p
        (base + BitVec.ofNat 16 (pre ++ if listed then [v] else []).length)) :=
  pull8To_listed h (fun _ _ => by cases p <;> rfl) (by cases listed <;> rfl)

theorem pull_dp (h : t.world.holdsBytes (base + BitVec.ofNat 16 pre.length) (if listed then [v] else [])) :
    onlyIf listed (pull8To p fun s v => { s with dp := v }) (t.setSp p (base + BitVec.ofNat 16 pre.length)) =
      .ok () ({ t with dp := if listed then v else t.dp }.setSp p
        (base + BitVec.ofNat 16 (pre ++ if listed then [v] else []).length)) :=
  pull8To_listed h (fun _ _ => by cases p <;> rfl) (by cases listed <;> rfl)

theorem pull_x (h : t.world.holdsBytes (base + BitVec.ofNat 16 pre.length) (if listed then [hi w, lo w] else [])) :
    onlyIf listed (pull16To p fun s w => { s with x := w }) (t.setSp p (base + BitVec.ofNat 16 pre.length)) =
      .ok () ({ t with x := if listed then w else t.x }.setSp p
        (base + BitVec.ofNat 16 (pre ++ if listed then [hi w, lo w] else []).length)) :=
  pull16To_listed h (fun _ _ => by cases p <;> rfl) (by cases listed <;> rfl)

theorem pull_y (h : t.world.holdsBytes (base + BitVec.ofNat 16 pre.length) (if listed then [hi w, lo w] else [])) :
    onlyIf listed (pull16To p fun s w => { s with y := w }) (t.setSp p (base + BitVec.ofNat 16 pre.length)) =
      .ok () ({ t with y := if listed then w else t.y }.setSp p
        (base + BitVec.ofNat 16 (pre ++ if listed then [hi w, lo w] else []).length)) :=
  pull16To_listed h (fun _ _ => by cases p <;> rfl) (by cases listed <;> rfl)

theorem pull_pc (h : t.world.holdsBytes (base + BitVec.ofNat 16 pre.length) (if listed then [hi w, lo w] else [])) :
    onlyIf listed (pull16To p fun s w => { s with pc := w }) (t.setSp p (base + BitVec.ofNat 16 pre.length)) =
      .ok () ({ t with pc := if listed then w else t.pc }.setSp p
        (base + BitVec.ofNat 16 (pre ++ if listed then [hi w, lo w] else []).length)) :=
  pull16To_listed h (fun _ _ => by cases p <;> rfl) (by cases listed <;> rfl)

/-- The other stack pointer after a pull that may load it, and the latch after a load of S. -/
def State.pullOther (t : State) (p : Sp) (listed : Bool) (w : Word) : State :=
  match p with
  | .s => { t with u := if listed then w else t.u }
  | .u => { t with s := if listed then w else t.s, nmiArmed := t.nmiArmed || (listed && t.cfg.armPulu) }

theorem pull_other (h : t.world.holdsBytes (base + BitVec.ofNat 16 pre.length) (if listed then [hi w, lo w] else [])) :
    onlyIf listed (pullOther p) (t.setSp p (base + BitVec.ofNat 16 pre.length)) =
      .ok () ((State.pullOther t p listed w).setSp p
        (base + BitVec.ofNat 16 (pre ++ if listed then [hi w, lo w] else []).length)) := by
  refine pull16To_listed h (fun _ _ => by cases p <;> rfl) ?_
  cases p <;> cases listed <;> simp [State.pullOther, State.setSp, State.arm]

end

/-- The registers that a list names, loaded from `src`. -/
def State.pulled (t : State) (p : Sp) (l : RegList) (src : State) : State :=
  State.pullOther { t with
    cc := if l.cc then src.cc else t.cc
    a := if l.a then src.a else t.a
    b := if l.b then src.b else t.b
    dp := if l.dp then src.dp else t.dp
    x := if l.x then src.x else t.x
    y := if l.y then src.y else t.y
    pc := if l.pc then src.pc else t.pc } p l.other (src.sp p.other)

/-- A pull of an image loads the registers of its state. -/
theorem pullList_image {p : Sp} {l : RegList} {t src : State} (h : t.world.holdsBytes (t.sp p) (l.image p src)) :
    pullList p l t =
      .ok () ((State.pulled t p l src).setSp p (t.sp p + BitVec.ofNat 16 (l.image p src).length)) := by
  unfold RegList.image at h
  obtain ⟨h, hpc⟩ := holdsBytes_append h
  obtain ⟨h, hother⟩ := holdsBytes_append h
  obtain ⟨h, hy⟩ := holdsBytes_append h
  obtain ⟨h, hx⟩ := holdsBytes_append h
  obtain ⟨h, hdp⟩ := holdsBytes_append h
  obtain ⟨h, hb⟩ := holdsBytes_append h
  obtain ⟨h, ha⟩ := holdsBytes_append h
  have hcc : t.world.holdsBytes (t.sp p + BitVec.ofNat 16 ([] : List Byte).length)
      (if l.cc then [src.cc.toByte] else []) := by
    rwa [List.length_nil, add_zero_ofNat]
  have hstart : t = t.setSp p (t.sp p + BitVec.ofNat 16 ([] : List Byte).length) := by
    rw [List.length_nil, add_zero_ofNat, setSp_same]
  unfold pullList
  conv => lhs; rw [hstart]
  refine (bind_ok (pull_cc hcc)).trans ?_
  refine (bind_ok (pull_a (v := src.a) (by exact ha))).trans ?_
  refine (bind_ok (pull_b (v := src.b) (by exact hb))).trans ?_
  refine (bind_ok (pull_dp (v := src.dp) (by exact hdp))).trans ?_
  refine (bind_ok (pull_x (w := src.x) (by exact hx))).trans ?_
  refine (bind_ok (pull_y (w := src.y) (by exact hy))).trans ?_
  refine (bind_ok (pull_other (w := src.sp p.other) (by exact hother))).trans ?_
  refine (pull_pc (w := src.pc) ?_).trans ?_
  · cases p <;> exact hpc
  · cases p <;> rfl

theorem length_byte (listed : Bool) (v : Byte) : (if listed then [v] else []).length = listed.toNat := by
  cases listed <;> rfl

theorem length_word (listed : Bool) (h l : Byte) : (if listed then [h, l] else []).length = 2 * listed.toNat := by
  cases listed <;> rfl

/-- The length of an image, whatever the registers hold. -/
theorem length_image (l : RegList) (p : Sp) (s : State) : (l.image p s).length =
    l.cc.toNat + l.a.toNat + l.b.toNat + l.dp.toNat + 2 * l.x.toNat + 2 * l.y.toNat + 2 * l.other.toNat +
      2 * l.pc.toNat := by
  simp only [RegList.image, List.length_append, length_byte, length_word]

theorem holdsBytes_byte {w : World} {a : Word} {listed : Bool} {v : Byte} (h : listed = true → w.peek a = some v) :
    w.holdsBytes a (if listed then [v] else []) := by
  cases listed with
  | false => trivial
  | true => exact ⟨h rfl, trivial⟩

theorem holdsBytes_word {w : World} {a : Word} {listed : Bool} {v : Word}
    (h : listed = true → w.peek a = some (hi v) ∧ w.peek (a + 1) = some (lo v)) :
    w.holdsBytes a (if listed then [hi v, lo v] else []) := by
  cases listed with
  | false => trivial
  | true => exact ⟨(h rfl).1, (h rfl).2, trivial⟩

/-- The bytes `bs` from an address up are an image, of the registers that they spell. -/
theorem holdsBytes_image {w : World} {base : Word} {bs : Nat → Byte} {p : Sp} {l : RegList} {src : State}
    (h : ∀ k, k < (l.image p src).length → w.peek (base + BitVec.ofNat 16 k) = some (bs k))
    (hcc : src.cc.toByte = bs 0) (ha : src.a = bs l.cc.toNat) (hb : src.b = bs (l.cc.toNat + l.a.toNat))
    (hdp : src.dp = bs (l.cc.toNat + l.a.toNat + l.b.toNat))
    (hx : let o := l.cc.toNat + l.a.toNat + l.b.toNat + l.dp.toNat
      src.x = cat (bs o) (bs (o + 1)))
    (hy : let o := l.cc.toNat + l.a.toNat + l.b.toNat + l.dp.toNat + 2 * l.x.toNat
      src.y = cat (bs o) (bs (o + 1)))
    (ho : let o := l.cc.toNat + l.a.toNat + l.b.toNat + l.dp.toNat + 2 * l.x.toNat + 2 * l.y.toNat
      src.sp p.other = cat (bs o) (bs (o + 1)))
    (hpc : let o := l.cc.toNat + l.a.toNat + l.b.toNat + l.dp.toNat + 2 * l.x.toNat + 2 * l.y.toNat +
        2 * l.other.toNat
      src.pc = cat (bs o) (bs (o + 1))) :
    w.holdsBytes base (l.image p src) := by
  rw [length_image] at h
  have byteAt {listed : Bool} {k : Nat} {v : Byte} (hv : v = bs k)
      (hk : k + listed.toNat ≤ l.cc.toNat + l.a.toNat + l.b.toNat + l.dp.toNat + 2 * l.x.toNat + 2 * l.y.toNat +
        2 * l.other.toNat + 2 * l.pc.toNat) :
      w.holdsBytes (base + BitVec.ofNat 16 k) (if listed then [v] else []) :=
    holdsBytes_byte fun hl => hv ▸ h k (by rw [hl, Bool.toNat_true] at hk; omega)
  have wordAt {listed : Bool} {k : Nat} {v : Word} (hv : v = cat (bs k) (bs (k + 1)))
      (hk : k + 2 * listed.toNat ≤ l.cc.toNat + l.a.toNat + l.b.toNat + l.dp.toNat + 2 * l.x.toNat + 2 * l.y.toNat +
        2 * l.other.toNat + 2 * l.pc.toNat) :
      w.holdsBytes (base + BitVec.ofNat 16 k) (if listed then [hi v, lo v] else []) := by
    refine holdsBytes_word fun hl => ?_
    rw [hl, Bool.toNat_true] at hk
    rw [hv, hi_cat, lo_cat, ← h k (by omega), ← h (k + 1) (by omega), BitVec.add_assoc, BitVec.ofNat_add]
    exact ⟨rfl, rfl⟩
  unfold RegList.image
  refine holdsBytes_append_of (holdsBytes_append_of (holdsBytes_append_of (holdsBytes_append_of (holdsBytes_append_of
    (holdsBytes_append_of (holdsBytes_append_of ?_ ?_) ?_) ?_) ?_) ?_) ?_) ?_
  · rw [← add_zero_ofNat base]
    exact byteAt hcc (by omega)
  all_goals simp only [List.length_append, length_byte, length_word]
  · exact byteAt ha (by omega)
  · exact byteAt hb (by omega)
  · exact byteAt hdp (by omega)
  · exact wordAt hx (by omega)
  · exact wordAt hy (by omega)
  · exact wordAt ho (by omega)
  · exact wordAt hpc (by omega)

theorem exec_pull {p : Sp} {l : RegList} {t src : State} (h : t.world.holdsBytes (t.sp p) (l.image p src)) :
    exec (p.pick (.puls l) (.pulu l)) t = .next
      (((State.pulled t p l src).setSp p (t.sp p + BitVec.ofNat 16 (l.image p src).length)).tick
        (cost t.cfg (p.pick (.puls l) (.pulu l)))) :=
  exec_of_effect (m := pullList p l) (by cases p <;> rfl) (costless_pullList p l) (pullList_image h)

/-- Settles O37: the bytes are the image of the state that they spell. -/
theorem pullRegisterList : Obligations.PullRegisterList := by
  intro l s bs oA oB oDP oX oY oO oPC n word loaded
  let spelt : State :=
    { s with
      cc := CC.ofByte (bs 0), a := bs oA, b := bs oB, dp := bs oDP, x := word oX, y := word oY, pc := word oPC,
      s := word oO, u := word oO }
  have pulled (p : Sp) (h : ∀ k, k < n → s.world.peek (s.sp p + BitVec.ofNat 16 k) = some (bs k)) :
      exec (p.pick (.puls l) (.pulu l)) s = .next (((State.pulled s p l spelt).setSp p (s.sp p + BitVec.ofNat 16 n)).tick
        (cost s.cfg (p.pick (.puls l) (.pulu l)))) := by
    have himage : s.world.holdsBytes (s.sp p) (l.image p spelt) :=
      holdsBytes_image (fun k hk => h k (by rwa [length_image] at hk)) (toByte_ofByte _) rfl rfl rfl rfl rfl
        (by cases p <;> rfl) rfl
    have hexec := exec_pull himage
    rwa [length_image] at hexec
  exact ⟨pulled .s, pulled .u⟩

/-- Settles O38: the image that the push left is pulled, and it is that of the state before the push. -/
theorem pushThenPullRestores : Obligations.PushThenPullRestores := by
  intro l s t v n hwf hram hexec hsp hworld
  obtain ⟨pm', hpush, hbytes, -⟩ := pushRegisterList .s l s hwf hram
  obtain rfl := Host.Outcome.next.inj (hexec.symm.trans hpush)
  rw [tick_world] at hworld
  have hpointer : v.s = s.s - BitVec.ofNat 16 n := by
    rw [hsp, tick_s]
    rfl
  have himage : v.world.holdsBytes (v.sp .s) (l.image .s s) := by
    rw [hworld]
    refine holdsBytes_of_peek fun k hk => ?_
    show World.peek _ (v.s + BitVec.ofNat 16 k) = _
    rw [hpointer]
    exact hbytes k hk
  refine ⟨_, exec_pull himage, ?_⟩
  simp only [tick_s, tick_world, tick_cc, tick_a, tick_b, tick_dp, tick_x, tick_y, tick_u, tick_pc]
  refine ⟨?_, rfl, rfl, rfl, rfl, rfl, rfl, rfl, rfl, rfl⟩
  show v.s + BitVec.ofNat 16 n = s.s
  rw [hpointer, BitVec.sub_add_cancel]

end Sys2Proof.Proofs

end

