-- ==== Sys2Proof/Proofs/System.lean ====
section
/-! Transfers (45_stack_transfer.md R315 to R317) and the miscellaneous and system instructions (46_misc_system.md). -/

namespace Sys2Proof.Proofs

open Sys2Proof Sys2Proof.Machine Sys2Proof.Laws

/-! Transfer and exchange -/

/-- Two registers that are not one and of which neither is half of the other. -/
def regsApart (q r : Reg) : Bool :=
  q != r && !(r == .d && (q == .a || q == .b)) && !(q == .d && (r == .a || r == .b))

theorem regsApart_of_sameWidth {q r : Reg} : sameWidth q r = true → q ≠ r → regsApart q r = true := by
  cases q <;> cases r <;> decide

theorem reg_setReg (s : State) (r : Reg) (w : Word) :
    (s.setReg r w).reg r = if r.is16 then w else zext8 (lo w) := by
  cases r <;> simp [State.setReg, State.reg, State.setD, State.d, Reg.is16]

theorem reg_setReg_apart {s : State} {q r : Reg} (w : Word) (h : regsApart q r = true) :
    (s.setReg r w).reg q = s.reg q := by
  cases r <;> cases q <;> simp [regsApart] at h <;> rfl

@[simp] theorem reg_arm (s : State) (on : Bool) (r : Reg) : (s.arm on).reg r = s.reg r := by
  cases r <;> rfl

/-- An 8-bit register read as a word is its low byte with zeros above it. -/
theorem zext8_lo_reg (s : State) {r : Reg} (h : r.is16 = false) : zext8 (lo (s.reg r)) = s.reg r := by
  cases r <;> simp_all [State.reg, Reg.is16]

/-- A register of the same width takes the value whole. -/
theorem reg_setReg_sameWidth (s u : State) {r1 r2 : Reg} (h : sameWidth r1 r2 = true) :
    (s.setReg r2 (u.reg r1)).reg r2 = u.reg r1 := by
  rw [reg_setReg]
  rw [sameWidth, beq_iff_eq] at h
  split
  · rfl
  · next h16 => exact zext8_lo_reg u (by rw [h, Bool.eq_false_iff]; exact h16)

theorem checkPair_same {r1 r2 : Reg} (h : sameWidth r1 r2 = true) (s : State) : checkPair r1 r2 s = .ok () s := by
  unfold checkPair
  rw [h]
  rfl

theorem checkPair_apart {r1 r2 : Reg} (h : sameWidth r1 r2 = false) (s : State) :
    checkPair r1 r2 s = .error .registerSelect { s.tick s.cfg.cycFault with fault := some .registerSelect } := by
  unfold checkPair
  rw [h, Bool.not_false, onlyIf_true, raiseDecode_apply]

/-- A pair of one width and what becomes of its registers. -/
theorem exec_pair {i : Instr} {r1 r2 : Reg} {f : State → State} {s : State}
    (ha : action i = costed i (do
      checkPair r1 r2
      change f))
    (hw : sameWidth r1 r2 = true) (hf : (f s).cfg = s.cfg) : exec i s = .next ((f s).tick (cost s.cfg i)) := by
  rw [← hf]
  exact exec_costed_ok ha ((bind_ok (checkPair_same hw s)).trans rfl)

/-- A pair of two widths. -/
theorem exec_pair_fault {i : Instr} {r1 r2 : Reg} {f : State → State} {s : State}
    (ha : action i = costed i (do
      checkPair r1 r2
      change f))
    (hw : sameWidth r1 r2 = false) :
    exec i s = .next { s.tick s.cfg.cycFault with fault := some .registerSelect } :=
  exec_costed_error ha (bind_error (checkPair_apart hw s))

/-- Settles O39: what `setReg` does to the register it writes and to those apart from it. -/
theorem transferAndExchange : Obligations.TransferAndExchange := by
  refine fun r1 r2 s => ⟨fun hw => ⟨⟨_, exec_pair rfl hw (by simp), ?_⟩, ⟨_, exec_pair rfl hw (by simp), ?_⟩⟩,
    fun hw => ⟨exec_pair_fault rfl hw, exec_pair_fault rfl hw⟩⟩
  · refine ⟨by rw [reg_arm, reg_setReg_sameWidth s s hw], fun q hq => ?_, by simp, by simp⟩
    rw [reg_arm, reg_setReg_apart _ hq]
  · have hw' : sameWidth r2 r1 = true := by rwa [sameWidth, Bool.beq_comm]
    refine ⟨by rw [reg_arm, reg_setReg_sameWidth _ s hw], ?_, fun q hq1 hq2 => ?_, by simp, by simp⟩
    · rw [reg_arm]
      by_cases heq : r1 = r2
      · subst heq
        exact reg_setReg_sameWidth _ s hw
      · rw [reg_setReg_apart _ (regsApart_of_sameWidth hw heq), reg_setReg_sameWidth s s hw']
    · rw [reg_arm, reg_setReg_apart _ hq2, reg_setReg_apart _ hq1]

/-! Registers alone -/

theorem toByte_bits (k : CC) :
    k.toByte.getLsbD 7 = k.e ∧ k.toByte.getLsbD 6 = k.f ∧ k.toByte.getLsbD 5 = k.h ∧ k.toByte.getLsbD 4 = k.i ∧
      k.toByte.getLsbD 3 = k.n ∧ k.toByte.getLsbD 2 = k.z ∧ k.toByte.getLsbD 1 = k.v ∧ k.toByte.getLsbD 0 = k.c :=
  have h := ofByte_toByte k
  ⟨congrArg CC.e h, congrArg CC.f h, congrArg CC.h h, congrArg CC.i h, congrArg CC.n h, congrArg CC.z h,
    congrArg CC.v h, congrArg CC.c h⟩

/-- An instruction that changes registers alone. -/
theorem exec_change {i : Instr} {f : State → State} {s t : State} (ha : action i = costed i (change f))
    (hf : f s = t) (hcfg : t.cfg = s.cfg) : exec i s = .next (t.tick (cost s.cfg i)) := by
  rw [← hcfg]
  exact exec_costed_ok ha (congrArg _ hf)

theorem toNat_product (a b : Byte) : (zext8 a * zext8 b).toNat = a.toNat * b.toNat := by
  have hlt : a.toNat * b.toNat < 256 * 256 := Nat.mul_lt_mul'' a.isLt b.isLt
  rw [BitVec.toNat_mul, toNat_zext8, toNat_zext8, Nat.mod_eq_of_lt hlt]

/-- MUL on numbers: Z of the product, C from bit 7 of it. -/
theorem aluMul_eq (k : CC) (a b : Byte) : aluMul k a b = (zext8 a * zext8 b,
    { k with z := decide (a = 0 ∨ b = 0), c := decide (128 ≤ a.toNat * b.toNat % 256) }) := by
  have hz : (zext8 a * zext8 b == 0) = decide (a = 0 ∨ b = 0) := by
    rw [bitVec_beq_eq_decide, decide_eq_decide, ← BitVec.toNat_inj, ← BitVec.toNat_inj, ← BitVec.toNat_inj, toNat_product]
    exact Nat.mul_eq_zero
  have hc : (zext8 a * zext8 b).getLsbD 7 = decide (128 ≤ a.toNat * b.toNat % 256) := by
    rw [← BitVec.testBit_toNat, toNat_product, Nat.testBit_eq_decide_div_mod_eq, decide_eq_decide]
    omega
  unfold aluMul
  simp only [hz, hc]

theorem hi_eq_ofNat (w : Word) : hi w = BitVec.ofNat 8 (w.toNat / 256) :=
  BitVec.eq_of_toNat_eq (by
    have := w.isLt
    rw [toNat_hi, BitVec.toNat_ofNat]
    omega)

theorem lo_eq_ofNat (w : Word) : lo w = BitVec.ofNat 8 w.toNat :=
  BitVec.eq_of_toNat_eq (by rw [toNat_lo, BitVec.toNat_ofNat])

/-- Settles O40: each instruction is its change of registers. -/
theorem registerHousekeeping : Obligations.RegisterHousekeeping := by
  intro s m k p
  obtain ⟨he, hf, hh, hi, hn, hz, hv, hc⟩ := toByte_bits s.cc
  refine ⟨⟨rfl, exec_of_effect rfl (costless_pure ()) rfl⟩, ⟨rfl, exec_change rfl ?_ rfl⟩, ⟨rfl, exec_change rfl ?_ rfl⟩,
    ⟨rfl, exec_change rfl ?_ rfl⟩, ⟨rfl, exec_change rfl ?_ rfl⟩, ⟨rfl, exec_change rfl ?_ rfl⟩,
    ⟨rfl, exec_change rfl rfl rfl⟩⟩
  · simp only [CC.ofByte, BitVec.getLsbD_and, he, hf, hh, hi, hn, hz, hv, hc, k]
  · simp only [CC.ofByte, BitVec.getLsbD_or, he, hf, hh, hi, hn, hz, hv, hc, k]
  · simp only [aluMul_eq, State.setD, hi_eq_ofNat, lo_eq_ofNat, toNat_product]
    rfl
  · simp only [aluSex, BitVec.msb_eq_toInt, decide_eq_true_eq, bitVec_beq_eq_decide]
    rfl
  · rw [add_eq_ofNat, toNat_zext8]

/-! Decimal adjustment -/

/-- The correction of DAA as a number (46_misc_system.md R333). -/
def daaNumber (k : CC) (a : Nat) : Nat :=
  (if k.h = true ∨ 9 < a % 16 then 0x06 else 0x00) +
    (if k.c = true ∨ 9 < a / 16 ∨ (8 < a / 16 ∧ 9 < a % 16) then 0x60 else 0x00)

theorem daaFactor_toNat (k : CC) (a : Byte) : (daaFactor k a).toNat = daaNumber k a.toNat := by
  have hlow : (a.extractLsb' 0 4).toNat = a.toNat % 16 := by
    rw [BitVec.extractLsb'_toNat, Nat.shiftRight_zero]
  have hhigh : (a.extractLsb' 4 4).toNat = a.toNat / 16 := by
    have := a.isLt
    rw [BitVec.extractLsb'_toNat, Nat.shiftRight_eq_div_pow]
    omega
  unfold daaFactor daaNumber
  simp only [hlow, hhigh, Bool.or_eq_true, Bool.and_eq_true, decide_eq_true_eq, or_assoc]
  split <;> split <;> rfl

/-- DAA as a sum of numbers. -/
theorem aluDaa_eq (k : CC) (a : Byte) (v : Bool) : aluDaa k a v = (BitVec.ofNat 8 (a.toNat + daaNumber k a.toNat),
    k.ofResult (BitVec.ofNat 8 (a.toNat + daaNumber k a.toNat)) v
      (k.c || decide (256 ≤ a.toNat + daaNumber k a.toNat))) := by
  have ha := a.isLt
  have hf := (daaFactor k a).isLt
  have hsum : (a.setWidth 9 + (daaFactor k a).setWidth 9).toNat = a.toNat + daaNumber k a.toNat := by
    rw [← daaFactor_toNat, BitVec.toNat_add, BitVec.toNat_setWidth, BitVec.toNat_setWidth]
    omega
  have hr : (a.setWidth 9 + (daaFactor k a).setWidth 9).setWidth 8 =
      BitVec.ofNat 8 (a.toNat + daaNumber k a.toNat) :=
    BitVec.eq_of_toNat_eq (by rw [BitVec.toNat_setWidth, hsum, BitVec.toNat_ofNat])
  have hmsb : (a.setWidth 9 + (daaFactor k a).setWidth 9).msb = decide (256 ≤ a.toNat + daaNumber k a.toNat) := by
    rw [BitVec.msb_eq_decide, hsum]
  unfold aluDaa
  simp only [hr, hmsb, ofResult_eq]

/-- Settles O41: V is the free value that the model takes. -/
theorem decimalAdjust : Obligations.DecimalAdjust := by
  refine fun s => ⟨Config.freeFlag s.freeCount, exec_change rfl ?_ rfl⟩
  simp only [aluDaa_eq]
  rfl

/-- The sum of two packed decimal numbers, corrected as DAA does. -/
theorem decimal_sum {a m : Nat} (ha : a / 16 ≤ 9 ∧ a % 16 ≤ 9) (hm : m / 16 ≤ 9 ∧ m % 16 ≤ 9) {k : CC}
    (hh : k.h = decide (16 ≤ a % 16 + m % 16)) (hc : k.c = decide (256 ≤ a + m)) :
    let t := (a + m) % 256 + daaNumber k ((a + m) % 256)
    (t % 256 / 16 ≤ 9 ∧ t % 256 % 16 ≤ 9) ∧
      10 * (a / 16) + a % 16 + (10 * (m / 16) + m % 16) =
        10 * (t % 256 / 16) + t % 256 % 16 + 100 * (k.c || decide (256 ≤ t)).toNat := by
  intro t
  have ht : t = (a + m) % 256 + daaNumber k ((a + m) % 256) := rfl
  have hcarry : (k.c || decide (256 ≤ t)).toNat = if 256 ≤ a + m ∨ 256 ≤ t then 1 else 0 := by
    rw [hc, ← Bool.decide_or]
    split <;> simp_all
  rw [hcarry]
  unfold daaNumber at ht
  rw [hh, hc] at ht
  simp only [decide_eq_true_eq] at ht
  split at ht <;> split at ht <;> split <;> omega

/-- Settles O42: the addition gives the sum and its carries, and the adjustment makes it decimal. -/
theorem decimalAddition : Obligations.DecimalAddition := by
  intro s t u m value decimal ha hm hadd hdaa
  have hsum := exec_binary8 (i := .adda (.imm m)) (r := .a) (s := s) rfl rfl (aluAdd_eq s.cc s.a m)
  have ht := Host.Outcome.next.inj (hadd.symm.trans hsum)
  have hta : t.a.toNat = (s.a.toNat + m.toNat) % 256 := by
    rw [ht, tick_a]
    exact BitVec.toNat_ofNat ..
  have hth : t.cc.h = decide (16 ≤ s.a.toNat % 16 + m.toNat % 16) := by
    rw [ht, tick_cc]
    rfl
  have htc : t.cc.c = decide (256 ≤ s.a.toNat + m.toNat) := by
    rw [ht, tick_cc]
    rfl
  obtain ⟨v, hadjusted⟩ := decimalAdjust t
  have hu := Host.Outcome.next.inj (hdaa.symm.trans hadjusted)
  have hua : u.a = BitVec.ofNat 8 (t.a.toNat + daaNumber t.cc t.a.toNat) := by
    rw [hu, tick_a]
    rfl
  have huc : u.cc.c = (t.cc.c || decide (256 ≤ t.a.toNat + daaNumber t.cc t.a.toNat)) := by
    rw [hu, tick_cc]
    rfl
  simp only [value, decimal]
  rw [huc, hua, BitVec.toNat_ofNat, hta]
  exact decimal_sum ha hm hth htc

/-! Waits and interrupts -/

theorem costless_cwai (m : Byte) : Costless (do
    change fun t => { t with cc := CC.ofByte (t.cc.toByte &&& m) }
    pushFrame .entire
    change fun t => { t with waitCwai := true }) :=
  costless_bind (costless_change fun _ => ⟨rfl, rfl, rfl⟩) fun _ =>
    costless_bind (costless_pushFrame .entire) fun _ => costless_change fun _ => ⟨rfl, rfl, rfl⟩

/-- Settles O44: the push between the AND and the wait. -/
theorem waitForInterruptStacks : Obligations.WaitForInterruptStacks := by
  refine fun s t m => ⟨rfl, fun hpush => exec_of_effect rfl (costless_cwai m) ?_, fun k hpush => exec_costed_error (k := k) rfl ?_⟩
  · rw [change_bind_apply, bind_ok ((pushFrame_entire _).trans hpush), change_apply]
  · rw [change_bind_apply, bind_error ((pushFrame_entire _).trans hpush)]

theorem softwareInterrupt_ok {mi mf : Bool} {vector w : Word} {s t1 t2 : State} (hswi : s.cfg.swi = true)
    (hpush : pushEntire { s with cc := { s.cc with e := true } } = .ok () t1)
    (hread : read16 vector { t1 with cc := { t1.cc with i := t1.cc.i || mi, f := t1.cc.f || mf } } = .ok w t2) :
    softwareInterrupt mi mf vector s = .ok () { t2 with pc := w } := by
  unfold softwareInterrupt
  rw [look_bind_apply, hswi, Bool.not_true, onlyIf_false, pure_bind_apply]
  exact takeException_ok ((pushFrame_entire s).trans hpush) hread

theorem softwareInterrupt_absent {mi mf : Bool} {vector : Word} {s : State} (hswi : s.cfg.swi = false) :
    softwareInterrupt mi mf vector s =
      .error .instruction { s.tick s.cfg.cycFault with fault := some .instruction } := by
  unfold softwareInterrupt
  rw [look_bind_apply, hswi, Bool.not_false, onlyIf_true, bind_error (raiseDecode_apply _ _)]

/-- Settles O46: the three as `softwareInterrupt`, with and without `P_SWI`. -/
theorem softwareInterrupts : Obligations.SoftwareInterrupts := by
  refine fun s t1 t2 w => ⟨⟨rfl, rfl, rfl⟩, fun hswi hpush => ⟨fun hread => ?_, fun hread => ?_, fun hread => ?_⟩,
    fun hswi i hi => ?_⟩
  · exact exec_of_effect rfl (costless_softwareInterrupt true true _) (softwareInterrupt_ok hswi hpush (by simpa using hread))
  · exact exec_of_effect rfl (costless_softwareInterrupt false false _)
      (softwareInterrupt_ok hswi hpush (by simpa using hread))
  · exact exec_of_effect rfl (costless_softwareInterrupt false false _)
      (softwareInterrupt_ok hswi hpush (by simpa using hread))
  · rcases hi with rfl | rfl | rfl <;> exact exec_costed_error rfl (softwareInterrupt_absent hswi)

/-! The return -/

/-- The registers of a frame as a register list: all of them with E set, CC and PC with E clear
(46_misc_system.md R342). -/
def frameList (entire : Bool) : RegList := ⟨true, entire, entire, entire, entire, entire, entire, true⟩

/-- A return is the pull of the list that the E it pulls first chooses. -/
theorem returnFromException_ok {s t1 t : State} {e : Bool}
    (hcc : pull8To .s (fun s v => { s with cc := CC.ofByte v }) s = .ok () t1) (he : t1.cc.e = e)
    (h : pullList .s (frameList e) s = .ok () t) : returnFromException s = .ok e t := by
  have hrest : (onlyIf e pullEntire >>= fun _ => pull16To .s fun s w => { s with pc := w }) t1 = .ok () t := by
    unfold pullList at h
    have h' := (bind_ok hcc).symm.trans h
    cases e with
    | false => exact h'
    | true =>
      unfold pullEntire
      simp only [onlyIf_true, bind_assoc]
      exact h'
  unfold returnFromException
  rw [bind_ok hcc, look_bind_apply, he, ← bind_assoc, bind_ok hrest]
  rfl

theorem exec_rti {s t : State} {e : Bool} (h : returnFromException s = .ok e t) :
    exec .rti s = .next (t.tick (if e then s.cfg.cycRtiEntire else cost s.cfg .rti)) := by
  have hcfg : t.cfg = s.cfg := ((costless_returnFromException s).1 _ _ h).cfg
  rw [exec_eq, ← hcfg]
  refine congrArg _ (final_ok (v := ()) ?_)
  show rtiAction s = _
  unfold rtiAction
  rw [bind_ok h]
  rfl

/-- RTI of an image: the registers of its state, and S above it. -/
theorem exec_rti_image {s src : State} {e : Bool} (he : src.cc.e = e)
    (h : s.world.holdsBytes s.s ((frameList e).image .s src)) :
    exec .rti s = .next
      (((State.pulled s .s (frameList e) src).setSp .s (s.s + BitVec.ofNat 16 ((frameList e).image .s src).length)).tick
        (if e then s.cfg.cycRtiEntire else cost s.cfg .rti)) := by
  have hpeek : s.world.peek (s.sp .s) = some src.cc.toByte := h.1
  refine exec_rti (returnFromException_ok (pull8To_peek hpeek) ?_ (pullList_image h))
  rw [ofByte_toByte]
  exact he

/-- Settles O45: the bytes are the image of the state that they spell, of the frame that its E chooses. -/
theorem returnFromInterrupt : Obligations.ReturnFromInterrupt := by
  intro s bs word
  let short : State :=
    { s with
      cc := CC.ofByte (bs 0), a := bs 1, b := bs 1, dp := bs 1, x := word 1, y := word 1, u := word 1, pc := word 1 }
  let entire : State :=
    { s with
      cc := CC.ofByte (bs 0), a := bs 1, b := bs 2, dp := bs 3, x := word 4, y := word 6, u := word 8, pc := word 10 }
  refine ⟨rfl, fun he h => ?_, fun he h => ?_⟩
  · exact exec_rti_image (src := short) he (holdsBytes_image h (toByte_ofByte _) rfl rfl rfl rfl rfl rfl rfl)
  · exact exec_rti_image (src := entire) he (holdsBytes_image h (toByte_ofByte _) rfl rfl rfl rfl rfl rfl rfl)

end Sys2Proof.Proofs

end

