-- ==== Sys2Proof/Proofs/Steps.lean ====
section
/-! Steps (30_encoding.md R101, R102, 60_exceptions.md): the fetch of an instruction and its faults, the wait states, and
the entry of an IRQ, with its faults and with the return that follows it. -/

namespace Sys2Proof.Proofs

open Sys2Proof Sys2Proof.Machine Sys2Proof.Laws

/-! The parts of a step -/

theorem step_of_fetch {s t0 t : State} {i : Instr} (hcheck : interruptCheck s.begun = .ok .proceed t0)
    (hfetch : fetchInstr t0 = .ok i t) : step s = exec i t := by
  have hbefore : beforeExec s.begun = .ok (some i) t := by
    unfold beforeExec
    rw [bind_ok hcheck]
    exact (bind_ok hfetch).trans rfl
  unfold step runStep
  rw [hbefore]

theorem step_of_fetch_error {s t0 t : State} {k : Fault} (hcheck : interruptCheck s.begun = .ok .proceed t0)
    (hfetch : fetchInstr t0 = .error k t) : step s = .next t := by
  have hbefore : beforeExec s.begun = .error k t := by
    unfold beforeExec
    rw [bind_ok hcheck]
    exact bind_error hfetch
  unfold step runStep
  rw [hbefore]

theorem step_of_idle {s t : State} (hcheck : interruptCheck s.begun = .ok .idle t) : step s = .next t := by
  unfold step runStep beforeExec
  rw [bind_ok hcheck]
  rfl

theorem step_of_check_error {s t : State} {k : Fault} (hcheck : interruptCheck s.begun = .error k t) :
    step s = .next t := by
  unfold step runStep beforeExec
  rw [bind_error hcheck]

/-! Fetches -/

/-- A list of bytes whose last one settles the answer of the decoder: all but that one are fetched, and it is the next. -/
theorem fetchInstr_last {s : State} {bs : List Byte} (h0 : bs ≠ []) (h : s.world.holdsBytes s.pc bs)
    (hm : ∀ n, n < bs.length → decode s.cfg.extIndRrDontCare (bs.take n) = .more) :
    ∃ pre v n, bs = pre ++ [v] ∧ s.world.peek (s.pc + BitVec.ofNat 16 pre.length) = some v ∧
      s.pc + BitVec.ofNat 16 pre.length + 1 = s.pc + BitVec.ofNat 16 bs.length ∧
      fetchInstr s = fetchMore (n + 1) pre { s with pc := s.pc + BitVec.ofNat 16 pre.length } := by
  obtain ⟨pre, v, n, rfl, hlen, hmore⟩ := split_last h0 hm
  obtain ⟨hpre, hv, -⟩ := holdsBytes_append h
  refine ⟨pre, v, n, rfl, hv, add_ofNat_append s.pc pre [v], ?_⟩
  unfold fetchInstr
  rw [hlen, fetchMore_run hpre hmore, List.nil_append]

/-- Settles O16: the bytes before the last are fetched as the decoder asks for them, and the last completes the
instruction; that no beginning does is O11. -/
theorem stepRunsTheDecodedInstruction : Obligations.StepRunsTheDecodedInstruction := by
  refine ⟨fun s bs i hs hbytes hdecode => ?_, fun s t0 t i => step_of_fetch⟩
  obtain ⟨-, own, hown, -, hmin, -, -, hmore⟩ := decodeReadsItsOwnBytes _ bs [] i hdecode
  rw [List.append_nil] at hown
  subst hown
  have h0 : bs ≠ [] := List.ne_nil_of_length_pos hmin
  obtain ⟨pre, v, n, hsplit, hv, hpc, hfetch⟩ :=
    fetchInstr_last (s := { s.begun with waitSync := false }) h0 hbytes hmore
  refine step_of_fetch (check_of_fetches hs) (hfetch.trans ?_)
  rw [fetchMore_last (v := v) (i := i) (rest := []) hv (hsplit ▸ hdecode)]
  exact congrArg (fun pc => EStateM.Result.ok i { s.begun with waitSync := false, pc := pc }) hpc

/-- Settles O17: the byte that settles the refusal is fetched, and the fault costs `CYC_FAULT`. -/
theorem illegalEncodingEndsTheStep : Obligations.IllegalEncodingEndsTheStep := by
  intro s bs r hs hbytes hdecode hmore k
  have h0 : bs ≠ [] := by
    rintro rfl
    cases hdecode
  obtain ⟨pre, v, n, hsplit, hv, hpc, hfetch⟩ :=
    fetchInstr_last (s := { s.begun with waitSync := false }) h0 hbytes hmore
  have hk : k = faultOf r := by cases r <;> rfl
  refine step_of_fetch_error (k := faultOf r) (check_of_fetches hs) (hfetch.trans ?_)
  rw [fetchMore_bad (v := v) (r := r) hv (hsplit ▸ hdecode), hk]
  exact congrArg (fun pc => EStateM.Result.error (faultOf r)
    { (({ s.begun with waitSync := false, pc := pc } : State).tick s.cfg.cycFault) with fault := some (faultOf r) }) hpc

/-- Settles O18: the bytes at hand are fetched, and nothing serves the next. -/
theorem unreadableFetchEndsTheStep : Obligations.UnreadableFetchEndsTheStep := by
  intro s bs hs hbytes hdecode a hspot hhandler
  obtain ⟨n, hn⟩ := Nat.exists_eq_add_of_lt (decode_more hdecode)
  refine step_of_fetch_error (k := .undefinedRead) (check_of_fetches hs) ?_
  unfold fetchInstr
  rw [hn, show bs.length + n + 1 = (n + 1) + bs.length from by omega,
    fetchMore_run (s := { s.begun with waitSync := false }) (pre := []) hbytes fun k _ => decode_more_take hdecode (k + 1)]
  exact fetchMore_unreadable hspot hhandler

/-! Wait states -/

/-- Settles O51: either wait idles when no interrupt is serviced. -/
theorem waitStatesIdle : Obligations.WaitStatesIdle := by
  intro s hn hf hi hwait
  refine step_of_idle ((interruptCheck_quiet (s := s.begun) hn hf hi).trans ?_)
  cases hc : s.waitCwai with
  | true => exact checkWaits_cwai (s := s.begun) hc
  | false =>
    rcases hwait with hw | ⟨hsync, hnmi, hfirq, hirq⟩
    · rw [hc] at hw
      cases hw
    · exact checkWaits_sync (s := s.begun) hc hsync (by simp [State.lineReleasesSync, hnmi, hfirq, hirq])

/-! Faults in the entry of an IRQ -/

/-- How a list of bytes is pushed: the pointer moves by as many bytes as are pushed, or a write faults. -/
theorem pushBytes_ends (p : Sp) (bs : List Byte) (s : State) :
    (∀ t, pushBytes p bs s = .ok () t → ∃ w n,
      t = { s.setSp p (s.sp p - BitVec.ofNat 16 bs.length) with world := w, handlerCount := n }) ∧
    ∀ k t, pushBytes p bs s = .error k t → ∃ a w n,
      t = { s.setSp p a with fault := some .undefinedWrite, world := w, handlerCount := n } := by
  induction bs with
  | nil =>
    refine ⟨fun t h => ?_, fun k t h => nomatch h⟩
    cases h
    exact ⟨s.world, s.handlerCount, by simp⟩
  | cons v vs ih =>
    obtain ⟨ihok, iherror⟩ := ih
    refine ⟨fun t h => ?_, fun k t h => ?_⟩
    · obtain ⟨_, t1, htail, hpush⟩ := bind_eq_ok h
      obtain ⟨w, n, rfl⟩ := ihok t1 htail
      rw [push8_eq_write8] at hpush
      obtain ⟨w', n', rfl⟩ := eq_of_write8_ok hpush
      refine ⟨w', n', ?_⟩
      rw [List.length_cons, ← sub_sub_one]
      cases p <;> rfl
    · rcases bind_eq_error h with htail | ⟨_, t1, htail, hpush⟩
      · exact iherror k t htail
      · obtain ⟨w, n, rfl⟩ := ihok t1 htail
        obtain ⟨-, rfl⟩ := eq_of_push8_error hpush
        exact ⟨s.sp p - BitVec.ofNat 16 vs.length - 1, w, n, by cases p <;> rfl⟩

/-- The check of a state with an IRQ ready and nothing before it. -/
theorem check_irq {s : State} (hnmi : s.nmiReady = false) (hfirq : s.firqReady = false) (hirq : s.irqReady = true) :
    interruptCheck s.begun = served irqEntry.service s.begun :=
  serviceIrq_eq ▸ interruptCheck_irq (s := s.begun) hnmi hfirq hirq

/-- Outside the CWAI wait a fault in the entry ends the service. -/
theorem service_error {e : Entry} {s t : State} {k : Fault} (hwait : s.waitCwai = false)
    (h : takeException e.frame e.maskI e.maskF e.vector s = .error k t) : e.service s = .error k t := by
  unfold Entry.service entryFrame
  rw [look_bind_apply, hwait]
  exact bind_error h

/-- A fault in the entry of an IRQ ends the step. -/
theorem step_irq_error {s t : State} {k : Fault} (hcheck : interruptCheck s.begun = served irqEntry.service s.begun)
    (hwait : s.waitCwai = false) (h : takeException .entire true false 0xFFF8 s.begun = .error k t) :
    step s = .next t :=
  step_of_check_error (hcheck.trans (bind_error (service_error (e := irqEntry) hwait h)))

/-- Settles O50: what the stacking leaves when it faults, and what the vector read leaves after it. -/
theorem faultInInterruptEntry : Obligations.FaultInInterruptEntry := by
  intro s t1 t2 k hnmi hfirq hirq hwait
  have hcheck := check_irq hnmi hfirq hirq
  refine ⟨fun hpush => ⟨step_irq_error hcheck hwait (bind_error ((pushFrame_entire _).trans hpush)), ?_⟩,
    fun hpush hread => ⟨step_irq_error (k := k) hcheck hwait ?_, ?_⟩⟩
  · rw [pushEntire_eq] at hpush
    obtain ⟨a, w, n, rfl⟩ := (pushBytes_ends _ _ _).2 k t1 hpush
    rfl
  · unfold takeException
    rw [bind_ok ((pushFrame_entire _).trans hpush), change_bind_apply]
    refine bind_error ?_
    simpa using hread
  · rw [pushEntire_eq] at hpush
    obtain ⟨w, n, rfl⟩ := (pushBytes_ends _ _ _).1 t1 hpush
    obtain ⟨w', n', rfl⟩ := eq_of_read16_error hread
    rfl

/-! The entry of an IRQ and the return from it -/

/-- A word read where a raw pointer serves the page of both bytes. -/
theorem read16_served {s : State} {a : Word} (hpage : pageOf a = pageOf (a + 1)) (h : s.world.readSpot a ≠ none) :
    ∃ w, read16 a s = .ok w s := by
  obtain ⟨l1, h1⟩ := Option.ne_none_iff_exists'.mp h
  obtain ⟨l2, h2⟩ := Option.ne_none_iff_exists'.mp fun hnone : s.world.readSpot (a + 1) = none =>
    h (readSpot_eq_none_of_page hpage.symm hnone)
  exact ⟨_, read16_ok (read8_pointer h1) (read8_pointer h2)⟩

/-- A cost changes the clock, and past 2^64 the count of free values. -/
theorem tick_eq (s : State) (n : Nat) : ∃ c f, s.tick n = { s with clock := c, freeCount := f } := by
  unfold State.tick
  split
  · exact ⟨_, s.freeCount, rfl⟩
  · exact ⟨_, _, rfl⟩

/-- The registers of the entire frame. -/
theorem pulled_entire (t src : State) : State.pulled t .s (frameList true) src = { t with
    cc := src.cc, a := src.a, b := src.b, dp := src.dp, x := src.x, y := src.y, u := src.u, pc := src.pc } := rfl

theorem length_entire (s : State) : ((frameList true).image .s s).length = 12 := rfl

/-- RTI pulls the frame that lies below the old S: every register that the entry has not changed, CC as stacked and PC. -/
theorem exec_rti_entered {s t : State} {k : CC} {w : Word} {c : BitVec 64} {f : Nat} {held irq : Bool} {pm' : Memory}
    (hk : k.e = true)
    (ht : t = { s with
      cc := { k with i := true }, s := s.s - 12, pc := w, waitSync := false, fault := none, clock := c, freeCount := f,
      clockHeld := held, world := { s.world with pm := pm', lineIrq := irq } })
    (hframe : t.world.holdsBytes t.s (State.entireImage { s with cc := k })) :
    ∃ c' f', exec .rti t = .next { s with
      cc := k, waitSync := false, fault := none, clock := c', freeCount := f', clockHeld := held,
      world := { s.world with pm := pm', lineIrq := irq } } := by
  have hexec := exec_rti_image (e := true) (src := { s with cc := k }) hk hframe
  rw [pulled_entire, length_entire] at hexec
  obtain ⟨c', f', htick⟩ := tick_eq _ (if true then t.cfg.cycRtiEntire else cost t.cfg .rti)
  refine ⟨c', f', hexec.trans (congrArg _ (htick.trans ?_))⟩
  have hback : s.s - 12 + BitVec.ofNat 16 12 = s.s := BitVec.sub_add_cancel ..
  subst ht
  simp only [State.setSp, hback]

/-- Settles O52: the frame that the entry stacked is the image of the state before it, and RTI pulls that image. -/
theorem interruptThenReturnRestores : Obligations.InterruptThenReturnRestores := by
  intro s t hwf hnmi hfirq hirq hwait hram hvector hstep
  have hready := hirq
  simp only [State.irqReady, Bool.and_eq_true, Bool.not_eq_true'] at hready
  obtain ⟨hline, hmask⟩ := hready
  obtain ⟨pm', hpush, hbytes, -⟩ := entireFrameLayout { s.begun with cc := { s.cc with e := true } } hwf hram
  obtain ⟨w, hread⟩ := read16_served (a := 0xFFF8) (s := { s.begun with
    cc := { s.cc with e := true, i := true }, s := s.s - 12, world := { s.world with pm := pm' } }) (by decide) hvector
  have hentered := (irqService s _ _ w hnmi hfirq hline hmask).1 hwait hpush hread
  have ht := Host.Outcome.next.inj (hstep.symm.trans hentered)
  obtain ⟨c, f, htick⟩ := tick_eq { s.begun with
    cc := { s.cc with e := true, i := true }, s := s.s - 12, world := { s.world with pm := pm' }, pc := w,
    waitCwai := false, waitSync := false } s.cfg.cycIrq
  rw [htick] at ht
  have hstate : t = { s with
      cc := { s.cc with e := true, i := true }, s := s.s - 12, pc := w, waitSync := false, fault := none, clock := c,
      freeCount := f, clockHeld := s.begun.clockHeld,
      world := { s.world with pm := pm', lineIrq := !s.cfg.maskableAutoclear } } := by
    rw [ht, ← hwait]
    simp only [hline, Bool.true_and]
    rfl
  have hframe : t.world.holdsBytes t.s (State.entireImage { s with cc := { s.cc with e := true } }) := by
    rw [hstate]
    exact holdsBytes_of_peek hbytes
  obtain ⟨c', f', hrti⟩ := exec_rti_entered (k := { s.cc with e := true }) rfl hstate hframe
  exact ⟨_, hrti, rfl⟩

end Sys2Proof.Proofs

end

