-- ==== Sys2Proof/Proofs/StoreFrame.lean ====
section
/-! Memory around a store (20_memory.md R65, R76): with no handler installed a byte that is not read where an
instruction writes keeps its value, whether the instruction ends well or faults. -/

namespace Sys2Proof.Proofs

open Sys2Proof Sys2Proof.Machine Sys2Proof.Laws

/-- Backing memory alone differs from `w`, in canonical form, and the address `b` reads as in `w`. -/
structure Framed (w : World) (b : Word) (s : State) : Prop where
  pm : s.world = { w with pm := s.world.pm }
  wf : s.world.wf = true
  peek : s.world.peek b = w.peek b

/-- No write to `a` reaches a location that `b` is read from. -/
def ApartFrom (w : World) (b a : Word) : Prop := ∀ loc, w.readSpot b = some loc → w.writeSpot a ≠ some loc

section
variable {w : World} {b : Word} {s t : State}

theorem Framed.of_world (h : Framed w b s) (ht : t.world = s.world) : Framed w b t := by
  obtain ⟨hpm, hwf, hpeek⟩ := h
  rw [← ht] at hpm hwf hpeek
  exact ⟨hpm, hwf, hpeek⟩

/-- Without handlers no read, fault or cost breaks the frame. -/
theorem busRel_framed (hw : w.NoHandlers) : BusRel fun s t => Framed w b s → Framed w b t where
  refl _ h := h
  trans _ _ _ h1 h2 h := h2 (h1 h)
  faulted _ _ _ h := h.of_world rfl
  ticked s n h := h.of_world (tick_world s n)
  handled _ _ hh h := absurd (noHandlers_of_pm (w' := _) hw h.pm) hh

/-- A write apart from `b` keeps the frame. -/
theorem keeps_write8_framed (hw : w.NoHandlers) {a : Word} (ha : ApartFrom w b a) (v : Byte) :
    Keeps (fun s t => Framed w b s → Framed w b t) (write8 a v) := by
  intro s h
  obtain ⟨hpm, hwf, hpeek⟩ := h
  have hspots : s.world.readSpot b = w.readSpot b ∧ s.world.writeSpot a = w.writeSpot a := by
    rw [hpm]
    exact ⟨rfl, rfl⟩
  rcases write8_cases a v s with ⟨loc, hloc, hwrite⟩ | ⟨k, -, hk, -⟩ | ⟨-, -, hwrite⟩
  · rw [final_ok hwrite]
    refine ⟨?_, world_wf_store loc v hwf, ?_⟩
    · show ({ s.world with pm := _ } : World) = { w with pm := _ }
      rw [hpm]
      rfl
    · show ({ s.world with pm := s.world.pm.write loc v } : World).peek b = _
      rw [peek_store loc v b hwf, if_neg, hpeek]
      intro hread
      rw [hspots.1] at hread
      rw [hspots.2] at hloc
      exact ha loc hread hloc
  · have hnone := (noHandlers_of_pm hw hpm).2
    rw [World.writeHandler, hnone] at hk
    cases hk
  · rw [final_error hwrite]
    exact ⟨hpm, hwf, hpeek⟩

theorem final_bind_ok {α β : Type} {m : Act α} {f : α → Act β} {v : α} (h : m s = .ok v t) :
    final (m >>= f) s = final (f v) t := by
  unfold final
  rw [bind_ok h]

/-- An action after one that has kept the frame. -/
theorem Framed.bind {α β : Type} {m : Act α} {f : α → Act β} (h : Framed w b (final m s))
    (hf : ∀ v, Keeps (fun s t => Framed w b s → Framed w b t) (f v)) : Framed w b (final (m >>= f) s) := by
  cases hm : m s with
  | ok v t =>
    rw [final_ok hm] at h
    rw [final_bind_ok hm]
    exact hf v t h
  | error k t =>
    rw [final_error hm] at h
    rwa [final_error (bind_error hm)]

/-- No byte below the pointer reaches a location that `b` is read from. -/
theorem apart_tail {a : Word} {n : Nat} (h : ∀ loc, w.readSpot b = some loc → ¬ w.reaches (a - BitVec.ofNat 16 (n + 1)) (n + 1) loc) :
    ApartFrom w b (a - BitVec.ofNat 16 (n + 1)) ∧
      ∀ loc, w.readSpot b = some loc → ¬ w.reaches (a - BitVec.ofNat 16 n) n loc := by
  refine ⟨fun loc hread hwrite => h loc hread ⟨0, Nat.succ_pos n, by rwa [add_zero_ofNat]⟩, ?_⟩
  rintro loc hread ⟨k, hk, hwrite⟩
  refine h loc hread ⟨k + 1, Nat.succ_lt_succ hk, ?_⟩
  rwa [← add_one_ofNat, sub_succ_add_one]

/-- Bytes pushed apart from `b` keep the frame, whether they are all pushed or not. -/
theorem framed_pushBytes (hw : w.NoHandlers) (p : Sp) (bs : List Byte) (h : Framed w b s)
    (hapart : ∀ loc, w.readSpot b = some loc → ¬ w.reaches (s.sp p - BitVec.ofNat 16 bs.length) bs.length loc) :
    Framed w b (final (pushBytes p bs) s) := by
  induction bs with
  | nil => exact h
  | cons v vs ih =>
    obtain ⟨hhead, htail⟩ := apart_tail hapart
    have hkept := ih htail
    show Framed w b (final (pushBytes p vs >>= fun _ => push8 p v) s)
    cases hm : pushBytes p vs s with
    | error k t =>
      rw [final_error hm] at hkept
      rwa [final_error (bind_error hm)]
    | ok _ t =>
      rw [final_ok hm] at hkept
      obtain ⟨w', n', ht⟩ := (pushBytes_ends p vs s).1 t hm
      have hsp : t.sp p - 1 = s.sp p - BitVec.ofNat 16 (vs.length + 1) := by
        rw [← sub_sub_one, ht]
        cases p <;> rfl
      rw [final_bind_ok hm]
      unfold final
      rw [push8_eq_write8, hsp]
      exact keeps_write8_framed hw hhead v _ (hkept.of_world (setSp_world t p _))

/-! The storing actions -/

/-- An address among `n` that are apart from `b`. -/
theorem apartFrom_of {a : Word} {n k : Nat} (h : ∀ loc, w.readSpot b = some loc → ¬ w.reaches a n loc) (hk : k < n) :
    ApartFrom w b (a + BitVec.ofNat 16 k) := fun loc hread hwrite => h loc hread ⟨k, hk, hwrite⟩

theorem keeps_change_framed {f : State → State} (hf : ∀ s, (f s).world = s.world) :
    Keeps (fun s t => Framed w b s → Framed w b t) (change f) :=
  keeps_change fun s h => h.of_world (hf s)

theorem framed_ea (hw : w.NoHandlers) {m : Mem} {a : Word} (h : Framed w b s) (hea : ea m s = .ok a t) :
    Framed w b t := by
  have hkept := keeps_ea (busRel_framed (b := b) hw) m (fun r _ s v h => h.of_world (setIx_world s r v)) s h
  rwa [final_ok hea] at hkept

section
variable {m : Mem} {a : Word} (hw : w.NoHandlers) (h : Framed w b s) (hea : ea m s = .ok a t)
include hw h hea

theorem framed_unaryMem (ha : ApartFrom w b a) (f : CC → Byte → Byte × CC) :
    Framed w b (final (unaryMem f m) s) := by
  have hP := busRel_framed (b := b) hw
  have hrest : Keeps (fun s t => Framed w b s → Framed w b t) (do
      let v ← read8 a
      let o ← look fun s => f s.cc v
      change fun s => { s with cc := o.2 }
      write8 a o.1) :=
    keeps_bind hP (keeps_read8 hP a) fun _ => keeps_bind hP (keeps_look hP _) fun _ =>
      keeps_bind hP (keeps_change_framed fun _ => rfl) fun _ => keeps_write8_framed hw ha _
  unfold unaryMem
  rw [final_bind_ok hea]
  exact hrest t (framed_ea hw h hea)

theorem framed_clearMem (ha : ApartFrom w b a) : Framed w b (final (clearMem m) s) := by
  have hP := busRel_framed (b := b) hw
  have hread : Keeps (fun s t => Framed w b s → Framed w b t) (do
      let _ ← read8 a
      pure ()) := keeps_bind hP (keeps_read8 hP a) fun _ => keeps_pure hP _
  have hrest : Keeps (fun s t => Framed w b s → Framed w b t) (do
      let reads ← look fun s => s.cfg.clrReads
      onlyIf reads (do
        let _ ← read8 a
        pure ())
      let o ← look fun s => aluClr s.cc 0
      change fun s => { s with cc := o.2 }
      write8 a o.1) :=
    keeps_bind hP (keeps_look hP _) fun _ => keeps_bind hP (keeps_onlyIf hP _ hread) fun _ =>
      keeps_bind hP (keeps_look hP _) fun _ => keeps_bind hP (keeps_change_framed fun _ => rfl) fun _ =>
      keeps_write8_framed hw ha _
  unfold clearMem
  rw [final_bind_ok hea]
  exact hrest t (framed_ea hw h hea)

theorem framed_store8 (ha : ApartFrom w b a) (r : Acc) : Framed w b (final (store8 r m) s) := by
  have hP := busRel_framed (b := b) hw
  have hrest : Keeps (fun s t => Framed w b s → Framed w b t) (do
      let v ← look fun s => s.acc r
      change fun s => { s with cc := s.cc.logic8 v }
      write8 a v) :=
    keeps_bind hP (keeps_look hP _) fun _ => keeps_bind hP (keeps_change_framed fun _ => rfl) fun _ =>
      keeps_write8_framed hw ha _
  unfold store8
  rw [final_bind_ok hea]
  exact hrest t (framed_ea hw h hea)

theorem framed_store16 (ha : ∀ loc, w.readSpot b = some loc → ¬ w.reaches a 2 loc) (r : Wide) :
    Framed w b (final (store16 r m) s) := by
  have hP := busRel_framed (b := b) hw
  have hfirst : ApartFrom w b a := by
    rw [← add_zero_ofNat a]
    exact apartFrom_of ha Nat.zero_lt_two
  have hrest : Keeps (fun s t => Framed w b s → Framed w b t) (do
      let v ← look fun s => s.wide r
      change fun s => { s with cc := s.cc.logic16 v }
      write16 a v) :=
    keeps_bind hP (keeps_look hP _) fun _ => keeps_bind hP (keeps_change_framed fun _ => rfl) fun _ =>
      keeps_bind hP (keeps_write8_framed hw hfirst _) fun _ =>
      keeps_write8_framed hw (apartFrom_of (k := 1) ha Nat.one_lt_two) _
  unfold store16
  rw [final_bind_ok hea]
  exact hrest t (framed_ea hw h hea)

end

section
variable (hw : w.NoHandlers) (h : Framed w b s)
include hw h

theorem framed_call (hapart : ∀ loc, w.readSpot b = some loc → ¬ w.reaches (s.s - 2) 2 loc) (target : Word) :
    Framed w b (final (call target) s) :=
  (framed_pushBytes hw .s [hi s.pc, lo s.pc] h hapart).bind fun _ => keeps_change_framed fun _ => rfl

theorem framed_pushList {p : Sp} {l : RegList} (hapart : ∀ loc, w.readSpot b = some loc →
      ¬ w.reaches (s.sp p - BitVec.ofNat 16 (l.image p s).length) (l.image p s).length loc) :
    Framed w b (final (pushList p l) s) := by
  unfold final
  rw [pushList_eq]
  exact framed_pushBytes hw p _ h hapart

theorem framed_pushFrame (hapart : ∀ loc, w.readSpot b = some loc → ¬ w.reaches (s.s - 12) 12 loc) :
    Framed w b (final (pushFrame .entire) s) := by
  unfold final
  rw [pushFrame_entire, pushEntire_eq]
  exact framed_pushBytes hw .s _ (h.of_world rfl) hapart

theorem framed_softwareInterrupt (hapart : ∀ loc, w.readSpot b = some loc → ¬ w.reaches (s.s - 12) 12 loc)
    (mi mf : Bool) (vector : Word) : Framed w b (final (softwareInterrupt mi mf vector) s) := by
  have hP := busRel_framed (b := b) hw
  cases hswi : s.cfg.swi with
  | false =>
    rw [final_error (softwareInterrupt_absent hswi)]
    exact h.of_world (tick_world s _)
  | true =>
    have hpresent : softwareInterrupt mi mf vector s = takeException .entire mi mf vector s := by
      unfold softwareInterrupt
      rw [look_bind_apply, hswi, Bool.not_true, onlyIf_false, pure_bind_apply]
    unfold final
    rw [hpresent]
    exact (framed_pushFrame hw h hapart).bind fun _ => keeps_bind hP (keeps_change_framed fun _ => rfl) fun _ =>
      keeps_bind hP (keeps_read16 hP vector) fun _ => keeps_change_framed fun _ => rfl

end

/-- An instruction whose effect keeps the frame, with its cost. -/
theorem peek_of_framed {i : Instr} {m : Act Unit} (hw : s.world.NoHandlers) (ha : action i = costed i m)
    (h : Framed s.world b (final m s)) (hexec : exec i s = .next t) : t.world.peek b = s.world.peek b := by
  have hP := busRel_framed (b := b) hw
  rw [exec_eq, ha] at hexec
  obtain rfl := Host.Outcome.next.inj hexec
  exact (h.bind fun _ => keeps_bind hP (keeps_look hP _) fun n => keeps_spend hP n).peek

end

/-- Settles O58: the frame of each storing action around the addresses it stores to. -/
theorem memoryFrameOfStores : Obligations.MemoryFrameOfStores := by
  intro s t t1 b hw hwf apart kept
  have h : Framed s.world b s := ⟨rfl, hwf, rfl⟩
  refine ⟨fun m a hea => ⟨fun i hi hexec hapart => ?_, fun i hi hexec hapart => ?_, fun hexec hapart => ?_⟩,
    fun n hexec hapart => ?_, fun n hexec hapart => ?_, fun l hexec hapart => ?_, fun l hexec hapart => ?_,
    fun m hexec hapart => ?_, fun i hi hexec hapart => ?_⟩
  · have ha : ApartFrom s.world b a := by
      rw [← add_zero_ofNat a]
      exact apartFrom_of hapart Nat.one_pos
    have hshape : (∃ f, action i = costed i (unaryMem f m)) ∨ action i = costed i (clearMem m) ∨
        ∃ r, action i = costed i (store8 r m) := by
      simp only [List.mem_cons, List.not_mem_nil, or_false] at hi
      rcases hi with rfl | rfl | rfl | rfl | rfl | rfl | rfl | rfl | rfl | rfl | rfl | rfl
      iterate 9 exact .inl ⟨_, rfl⟩
      · exact .inr (.inl rfl)
      iterate 2 exact .inr (.inr ⟨_, rfl⟩)
    rcases hshape with ⟨f, hf⟩ | hclr | ⟨r, hr⟩
    · exact peek_of_framed hw hf (framed_unaryMem hw h hea ha f) hexec
    · exact peek_of_framed hw hclr (framed_clearMem hw h hea ha) hexec
    · exact peek_of_framed hw hr (framed_store8 hw h hea ha r) hexec
  · have hshape : ∃ r, action i = costed i (store16 r m) := by
      simp only [List.mem_cons, List.not_mem_nil, or_false] at hi
      rcases hi with rfl | rfl | rfl | rfl | rfl <;> exact ⟨_, rfl⟩
    obtain ⟨r, hr⟩ := hshape
    exact peek_of_framed hw hr (framed_store16 hw h hea hapart r) hexec
  · refine peek_of_framed hw rfl ?_ hexec
    rw [final_bind_ok hea]
    exact framed_call hw (framed_ea hw h hea) hapart a
  · refine peek_of_framed hw rfl ?_ hexec
    exact framed_call hw h hapart _
  · refine peek_of_framed hw rfl ?_ hexec
    exact framed_call hw h hapart _
  · exact peek_of_framed hw rfl (framed_pushList hw h hapart) hexec
  · exact peek_of_framed hw rfl (framed_pushList hw h hapart) hexec
  · refine peek_of_framed hw rfl ?_ hexec
    rw [final_bind_ok (change_apply _ s)]
    refine Framed.bind ?_ fun _ => keeps_change_framed fun _ => rfl
    exact framed_pushFrame hw (h.of_world rfl) hapart
  · have hshape : ∃ mi mf vector, action i = costed i (softwareInterrupt mi mf vector) := by
      simp only [List.mem_cons, List.not_mem_nil, or_false] at hi
      rcases hi with rfl | rfl | rfl <;> exact ⟨_, _, _, rfl⟩
    obtain ⟨mi, mf, vector, hswi⟩ := hshape
    exact peek_of_framed hw hswi (framed_softwareInterrupt hw h hapart mi mf vector) hexec

end Sys2Proof.Proofs

end
